-- ==== Sys2Proof/Word.lean ====
section
/-! DEFINITION. The words of the KT640: bytes, 32-bit words, and the small fixed sets its rules number
(ports, channels, domains, slots, lines, levels). -/

namespace Sys2Proof

/-- A byte of the shared SRAM. -/
abbrev Byte := BitVec 8

/-- A word: 32 bits, stored little-endian (00 Conventions, Addressing). -/
abbrev Word := BitVec 32

/-- A privilege level, 0 (most privileged) to 3 (00 Conventions, Levels and priorities). -/
abbrev Level := BitVec 2

/-- A processor port P0 to P3. -/
abbrev Port := Fin 4

/-- A transfer channel CH0 to CH5. -/
abbrev ChannelId := Fin 6

/-- A domain 0 to 7. -/
abbrev Domain := Fin 8

/-- A slot 0 to 15 of a domain. -/
abbrev Slot := Fin 16

/-- A request line RQ0 to RQ7. -/
abbrev Line := Fin 8

end Sys2Proof
end

