-- ==== Sys2Proof/Config.lean ====
section
/-! DEFINITION. What is fixed for the part: the extent of the shared SRAM, the capacities of the job
table, and what a byte of the SRAM that nothing has written reads as. -/

namespace Sys2Proof.Config

/-- Bytes of the shared SRAM, 0x00000 to 0x3FFFF (00, the port address space). -/
def sramSize : Nat := 0x40000

/-- What a byte that nothing has written reads as.
DESIGN CHOICE (log 4), unsafe: R161 leaves the SRAM undefined after a power-on reset. -/
def unlistedByte : Byte := 0

/-- Entries of the job table (R43). -/
def tableSize : Nat := 48

/-- Entries of the job table that may belong to one domain (R43). -/
def tablePerDomain : Nat := 8

/-- Accesses held together in a port locked sequence (R133). -/
def lockLimit : Nat := 4

/-- Bytes of the anchor block (R156, 12.6). -/
def anchorSize : Nat := 512

/-- Engine bursts in which the anchor block is read (R150, R156). -/
def anchorBursts : Nat := 16

/-- The value of a correct MAGIC (R156). -/
def magic : Word := 0x4B540640

end Sys2Proof.Config
end

