-- ==== Sys2Proof/Syntax.lean ====
section
/-! DEFINITION. The commands of the KT640: one constructor for each row of spec/opcode_table.json, with the
operands its rule gives it, and the types of those operands. -/

namespace Sys2Proof

/-- The five registers of the register window (00, the port address space). -/
inductive RegName where
  | anchor | control | status | note | violation
  deriving DecidableEq, Repr

/-- One access that a processor presents on its port (R129, R131, 09 section 9.2). The address is word-aligned,
so it is held as the word's number: the byte address is four times `word`, 0x00000 to 0x7FFFC. -/
structure PortAccess where
  word    : BitVec 17
  isWrite : Bool
  enables : BitVec 4
  data    : Word
  lock    : Bool
  deriving DecidableEq, Repr

/-- The commands. A command is one step of the part, whole and indivisible (95). A command that names a step
of a block is taken by that block when it is due and leaves everything as it is when it is not (log 1). -/
inductive Instr where
  -- register writes, as the Port Interface of the named port serves them
  | start (p : Port)
  | stop (p : Port)
  | mapReload (p : Port)
  | engineReset (p : Port)
  | clearViolation (p : Port)
  | unnamedCommandCode (p : Port) (code : BitVec 3)
  | anchorWrite (p : Port) (value : Word)
  | noteWrite (p : Port) (value : Word)
  | registerDenied (p : Port) (reg : RegName) (enables : BitVec 4)
  -- Engine Control
  | startAnchorRead
  | mapReloadRead
  | drainComplete
  -- pins
  | pinReset
  | powerOnReset (sram : List Host.Cell)
  | resetRelease (l0 l1 l2 l3 : Level)
  | frzAssert
  | frzDeassert
  -- ports and arbiter
  | portAccess (p : Port) (a : PortAccess)
  | arbiterGrant
  | lockedSequenceAccess
  | lockRelease (p : Port)
  -- intake
  | intakePass
  | postWordRead
  | slotRead
  | clearingPair
  | reportWrite
  | takenWrite
  -- dispatch and the channels' reports
  | dispatch
  | conditionalDispatch (c : ChannelId)
  | contextClaimReport (c : ChannelId)
  | parkShadowReport (c : ChannelId)
  | parkContextReport (c : ChannelId)
  | resumeShadowReport (c : ChannelId)
  | handoff (c : ChannelId)
  -- lines, Timebase, deadlines
  | lineEvent (n : Line)
  | tapTick (rq : BitVec 8)
  | deadlineExpiry
  -- requests that reach a channel
  | stopRequest (c : ChannelId)
  | yieldRequest (c : ChannelId)
  | yieldWithdrawal (c : ChannelId)
  | dropRequest (c : ChannelId)
  -- the channels' accesses
  | runningWrite
  | descriptorReading
  | serviceRecordReading
  | contextClaim
  | claimMarkWrite
  | parameterCopy
  | usedMark
  | burstRead
  | writtenMark
  | burstWrite
  | saveAreaWrite
  | saveAreaRead
  | contextDescriptorRead
  -- closing
  | closingBegin
  | resultWrite
  | contextRelease
  | releaseMarkWrite
  | contextLostRewrite
  | doneWrite
  | chainPosting
  deriving DecidableEq, Repr

end Sys2Proof
end

