-- ==== Sys2Proof/WellFormed.lean ====
section
/-! DEFINITION. Which commands a row of the table admits: the checks the operand types do not already make. -/

namespace Sys2Proof

/-- A code of a CONTROL write that names no command: 0, 6 or 7 (12.8). -/
def unnamedCode (code : BitVec 3) : Bool := code == 0 || code == 6 || code == 7

/-- A register write that R145 refuses whoever makes it: to STATUS or VIOLATION, or with an enable clear. -/
def alwaysDenied (reg : RegName) (enables : BitVec 4) : Bool :=
  reg == .status || reg == .violation || enables != 0b1111

/-- A command with operands its row admits. The operands of every row not named here are all admitted by their
types. -/
def Instr.wellFormed (i : Instr) : Bool :=
  match i with
  | .unnamedCommandCode _ code => unnamedCode code
  | .registerDenied _ reg enables => alwaysDenied reg enables
  | .powerOnReset sram => sram.all fun cell => decide (cell.1 < Config.sramSize)
  | _ => true

end Sys2Proof
end

