-- ==== Sys2Proof/Decode.lean ====
section
/-! DEFINITION. The part has no instruction words. The rows of spec/opcode_table.json give no bits, so no word
spells a command (log 3). -/

namespace Sys2Proof

/-- The command that the `nbits` bits of `w` spell by the table: none, since no row gives bits. -/
def decodeTableWord (_nbits _w : Nat) : Option Instr := none

end Sys2Proof
end

