-- ==== Sys2Proof/Machine/State.lean ====
section
/-! DEFINITION. The state of the KT640 as plain data, block by block in the order of the Block Overview (00),
the reasons a step can stop, and the machine right after reset. INVENTORY.md lists every piece with its rule. -/

namespace Sys2Proof.Machine

/-! ### Memory -/

/-- The shared SRAM: the bytes that differ from what an unlisted address reads as, by rising address. -/
abbrev Memory := List Host.Cell

/-! ### What software and the blocks name -/

/-- The engine state (R153). -/
inductive EngineState where
  | stopped | starting | running | draining | failed
  deriving DecidableEq, Repr

/-- RESET_CAUSE (R163). -/
inductive ResetCause where
  | powerOn | pin | engineReset
  deriving DecidableEq, Repr

/-- COMMAND_RESULT (R155). -/
inductive CommandResult where
  | none | busy | done | refused | failed
  deriving DecidableEq, Repr

/-- FAULT_CODE (R156, 12.8). -/
inductive FaultCode where
  | none | anchorAlign | magic | globalTable | domainField | domainLevel | domainOverlap
  | domainExposed | anchorExposed | tableExposed | lineField | mapField
  deriving DecidableEq, Repr

/-- A violation kind (R146). -/
inductive ViolationKind where
  | readDenied | writeDenied | unmapped | registerDenied
  deriving DecidableEq, Repr

/-- A domain's attention (R31). -/
inductive Attention where
  | clear | posted | held
  deriving DecidableEq, Repr

/-- OUTCOME (12.3). -/
inductive JobOutcome where
  | ok | fault | cancelled | timedOut | drained
  deriving DecidableEq, Repr

/-- FAULT_KIND (12.3). -/
inductive FaultKind where
  | none | badJob | badSelector | nullSelector | notPresent | wrongKind | badWindow | level | noRead | noWrite
  | range | overlap | contextHeld | contextCorrupt | gateRange | gateNested | checkMismatch | lineNotOwned
  deriving DecidableEq, Repr

/-- FAULT_OPERAND (12.3). -/
inductive FaultOperand where
  | none | source | destination | context | gate | service | serviceSource | serviceDest | param | line | record
  deriving DecidableEq, Repr

/-- FAULT_PHASE (12.3). -/
inductive FaultPhase where
  | none | start | resume
  deriving DecidableEq, Repr

/-- Why a job has been asked to stop (03, STOP_REASON). -/
inductive StopReason where
  | cancel | deadline | drain
  deriving DecidableEq, Repr

/-- The custody state of an entry (R45). `created` is the interval of R42 in which an entry is in no list. -/
inductive Custody where
  | created | pending | armed | active | shadowed | closing
  deriving DecidableEq, Repr

/-- The direction of a copy (R92). -/
inductive Direction where
  | ascending | descending
  deriving DecidableEq, Repr

/-! ### Records read from memory -/

/-- A job record as intake read it: words 0 to 7 and 12 to 15 of a slot (R34). -/
structure JobRecord where
  w0 : Word
  w1 : Word
  w2 : Word
  w3 : Word
  w4 : Word
  w5 : Word
  w6 : Word
  w7 : Word
  p0 : Word
  p1 : Word
  p2 : Word
  p3 : Word
  deriving DecidableEq, Repr

/-- A reading of a window descriptor (12.2). -/
structure Descriptor where
  base    : Word
  limit   : Word
  service : Word
  kind    : Word
  deriving DecidableEq, Repr

/-- A descriptor reading with the address it was read from (R10, R18). -/
structure Reading where
  address : Nat
  desc    : Descriptor
  deriving DecidableEq, Repr

/-- A reading of a service record (12.5). -/
structure ServiceRecord where
  w0 : Word
  w1 : Word
  w2 : Word
  w3 : Word
  w4 : Word
  w5 : Word
  w6 : Word
  w7 : Word
  deriving DecidableEq, Repr

/-- The readings of a check, and the descriptor copies of a job (R18): `source` and `dest` hold the service's
windows for a gate call. -/
structure Readings where
  gate    : Option Reading
  service : Option ServiceRecord
  source  : Option Reading
  dest    : Option Reading
  param   : Option Reading
  context : Option Reading
  deriving DecidableEq, Repr

/-- A domain record of the anchor block (12.6), as loaded (R157). -/
structure DomainRecord where
  enabled    : Bool
  level      : Level
  homePort   : Port
  threshold  : BitVec 3
  notifyLine : Fin 4
  localCount : Nat
  slotBase   : Nat
  postAddr   : Nat
  reportAddr : Nat
  localBase  : Nat
  deriving DecidableEq, Repr

/-- A line entry of the anchor block (12.6), as loaded (R119). EDGE keeps its code: 1 RISE, 2 FALL, 3 BOTH. -/
structure LineEntry where
  enabled : Bool
  owner   : Domain
  edge    : BitVec 2
  tap     : Fin 16
  count   : Fin 8
  deriving DecidableEq, Repr

/-- What Engine Control loads at a successful START (R157). -/
structure LoadedCopies where
  globalBase     : Nat
  globalCount    : Nat
  freezeRun      : Bool
  domains        : Vector DomainRecord 8
  lines          : Vector LineEntry 8
  deriving DecidableEq, Repr

/-- A page map: four words, two bits for each of the 64 pages (12.6). -/
structure PageMap where
  w0 : Word
  w1 : Word
  w2 : Word
  w3 : Word
  deriving DecidableEq, Repr

/-! ### Engine accesses -/

/-- What a locked pair does to the word it reads (R28, R36, R15, R16, R72, R61). -/
inductive PairOp where
  | setBits (mask : Word)
  | clearBits (mask : Word)
  | claim
  | release
  deriving DecidableEq, Repr

/-- One grant unit of the Engine Interface (R129, R135): a burst read or write of consecutive bytes, by byte
lanes, or a locked pair on a word. -/
inductive EngineAccess where
  | read (addr : Nat) (bytes : Nat)
  | write (addr : Nat) (data : List Byte)
  | pair (addr : Nat) (op : PairOp)
  deriving DecidableEq, Repr

/-- Which step of its owner's work an engine access belongs to: one for each command that completes one. -/
inductive EngineStep where
  | startAnchorRead | mapReloadRead
  | postWordRead | slotRead | clearingPair | reportWrite | takenWrite
  | runningWrite | descriptorReading | serviceRecordReading | contextClaim | claimMarkWrite | parameterCopy
  | usedMark | burstRead | writtenMark | burstWrite | saveAreaWrite | saveAreaRead | contextDescriptorRead
  | resultWrite | contextRelease | releaseMarkWrite | contextLostRewrite | doneWrite | chainPosting
  deriving DecidableEq, Repr

/-- A request to the Engine Interface. -/
structure Request where
  step   : EngineStep
  access : EngineAccess
  deriving DecidableEq, Repr

/-- Who made a request (08 section 8.4). -/
inductive Owner where
  | channel (c : ChannelId)
  | intake
  | closing
  | control
  deriving DecidableEq, Repr

/-- The unit in progress (R137). -/
structure EngineUnit where
  owner   : Owner
  request : Request
  deriving DecidableEq, Repr

/-- The sides of the Engine Interface (R137). -/
inductive Side where
  | jtc | channels | control
  deriving DecidableEq, Repr

/-- The two streams of the JTC (R137). -/
inductive Stream where
  | intake | closing
  deriving DecidableEq, Repr

/-- The Engine Interface (08 section 8.4). -/
structure EngineInterface where
  channels   : Vector (Option Request) 6
  intake     : Option Request
  closing    : Option Request
  control    : Option Request
  unit       : Option EngineUnit
  lastSide   : Side
  lastStream : Stream
  rotation   : ChannelId
  deriving DecidableEq, Repr

/-! ### The job table -/

/-- A claimed context window: its descriptor's address and its save area's (R46, R72). -/
structure Claim where
  descriptor : Nat
  saveArea   : Nat
  deriving DecidableEq, Repr

/-- An outcome with its fault detail (03 section 3.1). -/
structure JobResult where
  outcome   : JobOutcome
  faultKind : FaultKind
  operand   : FaultOperand
  phase     : FaultPhase
  selector  : BitVec 16
  bytesDone : Nat
  crc       : Word
  deriving DecidableEq, Repr

/-- SVC_NOTIFY_DOMAIN and SVC_NOTIFY_LEVEL carried by a handoff (R114). -/
structure ServiceNotify where
  domain : Domain
  level  : BitVec 3
  deriving DecidableEq, Repr

/-- An entry of the job table (03 section 3.1). `place` is its place in intake order, which also names the job
in requests and reports (log 25). `expiryDue` says its count has reached 0 and the expiry is not yet taken
(log 12); `startOrder` is the dispatcher's note of R69. -/
structure Entry where
  place              : Nat
  record             : JobRecord
  domain             : Domain
  slot               : Slot
  custody            : Custody
  deadline           : Nat
  expiryDue          : Bool
  stopReason         : Option StopReason
  claim              : Option Claim
  resumeFromContext  : Bool
  recordedProgress   : Nat
  lineOverrun        : Bool
  preempted          : Bool
  channel            : Option ChannelId
  shadowChannel      : Option ChannelId
  startOrder         : Nat
  takenOutstanding   : Bool
  result             : Option JobResult
  serviceNotify      : Option ServiceNotify
  deriving DecidableEq, Repr

/-- What classification decided for a posted slot (R34); a candidate left behind is no decision. -/
inductive Verdict where
  | take (record : JobRecord)
  | cancel
  | busyPost
  | badPost
  deriving DecidableEq, Repr

/-- A decision of an intake pass (R34 to R36). -/
structure Decision where
  slot    : Slot
  verdict : Verdict
  deriving DecidableEq, Repr

/-- Where an intake pass stands (R34 to R38). -/
inductive PassStep where
  /-- the post-word read is awaited -/
  | postWord
  /-- `slot` is being read, its first burst done or not; `rest` are the posted slots after it -/
  | slots (slot : Slot) (first : Option (List Word)) (rest : List Slot) (allowance : Nat) (decided : List Decision)
  /-- the clearing pair is awaited -/
  | clearing (decided : List Decision)
  /-- a report write is awaited, then `rest` is carried out -/
  | report (rest : List Decision)
  /-- the TAKEN write of the entry with this place is awaited, then `rest` is carried out -/
  | taken (place : Nat) (rest : List Decision)
  deriving DecidableEq, Repr

/-- An intake pass in flight (R33 to R38); `left` says that a candidate was left for want of room (R35). -/
structure Pass where
  domain : Domain
  step   : PassStep
  left   : Bool
  deriving DecidableEq, Repr

/-- Which access a closing awaits (R60 to R63). -/
inductive ClosingStep where
  | result | release | mark | lost | done | chain
  deriving DecidableEq, Repr

/-- A closing in flight (R59). -/
structure Closing where
  place : Nat
  step  : ClosingStep
  deriving DecidableEq, Repr

/-- The Job Table Controller (00 Block Overview, 03). The pending list and the armed lists are views of
`entries` (R48, R123). -/
structure JobTable where
  entries    : List Entry
  nextPlace  : Nat
  queue      : List Nat
  closing    : Option Closing
  rotation   : Domain
  pass       : Option Pass
  latch      : Vector Bool 8
  overrun    : Vector Bool 8
  lineEvents : Vector Nat 8
  deriving DecidableEq, Repr

/-! ### Channels and dispatcher -/

/-- A job as a channel holds it (04 section 4.1). -/
structure Job where
  place            : Nat
  domain           : Domain
  slot             : Slot
  record           : JobRecord
  resume           : Bool
  recordedProgress : Nat
  claim            : Option Claim
  deriving DecidableEq, Repr

/-- The progress record (R93). -/
structure Progress where
  bytesDone    : Nat
  nextSource   : Nat
  nextDest     : Nat
  direction    : Direction
  crc          : Word
  unitLeft     : Nat
  writtenDest  : Bool
  writtenParam : Bool
  restored     : Bool
  deriving DecidableEq, Repr

/-- The fields of a save area that a restore uses (R85). -/
structure SaveArea where
  bytesDone  : Nat
  nextSource : Nat
  nextDest   : Nat
  direction  : Direction
  crc        : Word
  deriving DecidableEq, Repr

/-- A burst in flight, with the source bytes read so far or the pattern bytes to write (R91). -/
structure Burst where
  source : Nat
  dest   : Nat
  count  : Nat
  data   : List Byte
  deriving DecidableEq, Repr

/-- The operands a check takes, in the order of R9 and R111; `source` and `dest` are the service's windows in
a gate call. -/
inductive Operand where
  | gate | source | dest | param | context
  deriving DecidableEq, Repr

/-- What a channel is waiting for. -/
inductive Work where
  | none
  | runningWrite
  /-- the descriptor of `op`, with the operands after it -/
  | reading (op : Operand) (rest : List Operand)
  | serviceRecord
  | claim
  | claimMark
  | paramMark
  /-- a parameter write; the bytes of the second burst if one is still to come -/
  | paramWrite (second : Option (Nat × List Byte))
  /-- a USED pair, with the kind words still to mark after it -/
  | usedMark (rest : List Nat)
  /-- at a boundary: waiting for a tick, or held frozen (R74) -/
  | boundary
  | burstRead (b : Burst)
  | writtenMark (b : Burst)
  | burstWrite (b : Burst)
  | saveWrite
  | saveRead
  | contextRead
  deriving DecidableEq, Repr

/-- The channel state (R67); `free` is the free moment while the conditional dispatch is unanswered (R83). -/
inductive ChannelState where
  | idle | checking | restoring | moving | saving | finishing | free
  deriving DecidableEq, Repr

/-- A parked job in the shadow bank (R80). -/
structure Shadow where
  job      : Job
  progress : Progress
  copies   : Readings
  deriving DecidableEq, Repr

/-- What a channel tells the JTC (R46, R70, R83), made and not yet taken. -/
inductive Report where
  | contextClaim (place : Nat) (claim : Claim)
  | parkShadow (place : Nat)
  | parkContext (place : Nat) (bytesDone : Nat)
  | resumeShadow (place : Nat)
  | handoff (place : Nat) (result : JobResult) (notify : Option ServiceNotify)
  | conditional (priority : BitVec 3)
  deriving DecidableEq, Repr

/-- A stop or drop request on its way to a channel (R70). -/
structure StopMessage where
  place  : Nat
  reason : StopReason
  deriving DecidableEq, Repr

/-- What the dispatcher sends to a channel (R76). -/
inductive YieldMessage where
  | ask (place : Nat)
  | withdraw (place : Nat)
  deriving DecidableEq, Repr

/-- A transfer channel (04 section 4.1), with the messages on their way from and to it (R70). -/
structure Channel where
  state     : ChannelState
  work      : Work
  job       : Option Job
  progress  : Progress
  readings  : Readings
  copies    : Option Readings
  saved     : Option SaveArea
  shadow    : Option Shadow
  stop      : Option StopReason
  yieldHeld : Bool
  reports   : List Report
  stops     : List StopMessage
  drops     : List StopMessage
  yields    : List YieldMessage
  deriving DecidableEq, Repr

/-- An outstanding yield (R77). -/
structure Yield where
  channel : ChannelId
  place   : Nat
  deriving DecidableEq, Repr

/-- The Channel Dispatcher (R69, R77). `sent` is the dispatch it has sent and the JTC not yet taken (log 15). -/
structure Dispatcher where
  yields    : List Yield
  nextStart : Nat
  sent      : Option ChannelId
  deriving DecidableEq, Repr

/-! ### Engine Control, Post Monitor, Timebase -/

/-- A command in flight (R155): START, or MAP_RELOAD with the source of its locations (R150). -/
inductive FlightKind where
  | start
  | mapReload (fromCopies : Bool)
  deriving DecidableEq, Repr

/-- The command in flight with the address it reads from and the words it has read. -/
structure Flight where
  kind   : FlightKind
  anchor : Nat
  block  : List Word
  deriving DecidableEq, Repr

/-- Engine Control (10) and the FRZ pin it watches (R154). -/
structure Control where
  state      : EngineState
  frz        : Bool
  cause      : ResetCause
  command    : BitVec 3
  result     : CommandResult
  faultCode  : FaultCode
  faultIndex : BitVec 3
  anchor     : Word
  flight     : Option Flight
  copies     : Option LoadedCopies
  deriving DecidableEq, Repr

/-- The Post Monitor (R30, R31). -/
structure PostMonitor where
  attention : Vector Attention 8
  address   : Vector (Option Nat) 8
  deriving DecidableEq, Repr

/-- A request-line filter (R120): `level` none is unknown, false LOW, true HIGH. -/
structure Filter where
  level : Option Bool
  run   : Nat
  deriving DecidableEq, Repr

/-- The engine: everything behind the Engine Interface, with Engine Control, the Timebase, the filters and the
Notification Unit. It holds no memory and no port. -/
structure Engine where
  ctl      : Control
  post     : PostMonitor
  jtc      : JobTable
  disp     : Dispatcher
  channels : Vector Channel 6
  ei       : EngineInterface
  count    : BitVec 16
  filters  : Vector Filter 8
  notify   : BitVec 8
  deriving DecidableEq, Repr

/-! ### Ports and arbiter -/

/-- The VIOLATION record when it is not empty (R147): `word` is the word address divided by four. -/
structure Violation where
  port : Port
  kind : ViolationKind
  word : BitVec 17
  deriving DecidableEq, Repr

/-- The Port Interfaces (R131, R134, R141, R143, R147). `readData` holds the byte lanes of the latest completed
read of each port, a lane that was not read being none (log 28). -/
structure Ports where
  level     : Vector Level 4
  map       : Vector (Option PageMap) 4
  access    : Vector (Option PortAccess) 4
  readData  : Vector (Vector (Option Byte) 4) 4
  seen      : BitVec 4
  broken    : BitVec 4
  violation : Option Violation
  deriving DecidableEq, Repr

/-- A requester of the Memory Arbiter (R129). -/
inductive Requester where
  | port (p : Port)
  | engine
  deriving DecidableEq, Repr

/-- A port's lock condition (R133); BROKEN says whether the fifth access has been taken. -/
inductive LockCondition where
  | free
  | held
  | broken (fifthTaken : Bool)
  deriving DecidableEq, Repr

/-- The Memory Arbiter (R128). -/
structure Arbiter where
  lastGranted : Requester
  holder      : Option Requester
  holdCount   : Nat
  lock        : Vector LockCondition 4
  deriving DecidableEq, Repr

/-! ### The whole part -/

/-- The state of the KT640, and the queue of commands that wait to be taken. -/
structure State where
  mem      : Memory
  ports    : Ports
  arb      : Arbiter
  eng      : Engine
  resetPin : Bool
  rq       : BitVec 8
  pending  : List Instr
  deriving DecidableEq, Repr

/-- Why a step stops the machine. -/
inductive Fault where
  /-- Raised by the step that completes an engine access (every command that completes one) when the access
  names an address outside the SRAM, 0x00000 to 0x3FFFF. Safe: the rules give no such access (R20, R156),
  and the machine stops where nothing is said (log 27). -/
  | engineAccessOutsideSram
  deriving DecidableEq, Repr

/-- Why a step has no meaning. -/
inductive Refusal where
  /-- Raised by an arm of `exec` whose command has no meaning yet; no arm does. Safe: the machine stops. -/
  | notModelled (mnemonic : String)
  deriving DecidableEq, Repr

/-! ### Reset values -/

/-- No descriptor copy (R66). -/
def Readings.empty : Readings := ⟨none, none, none, none, none, none⟩

/-- An empty progress record (R66, R82). Its direction and running CRC, which no rule gives, are ascending and
0xFFFFFFFF: DESIGN CHOICE (log 36). -/
def Progress.empty : Progress := ⟨0, 0, 0, .ascending, 0xFFFFFFFF, 0, false, false, false⟩

/-- A channel after a reset (R66): IDLE, holding nothing, with no message on its way. -/
def Channel.empty : Channel :=
  { state := .idle, work := .none, job := none, progress := Progress.empty, readings := Readings.empty,
    copies := none, saved := none, shadow := none, stop := none, yieldHeld := false,
    reports := [], stops := [], drops := [], yields := [] }

/-- The Engine Interface after a reset (R139). -/
def EngineInterface.empty : EngineInterface :=
  { channels := Vector.replicate 6 none, intake := none, closing := none, control := none, unit := none,
    lastSide := .channels, lastStream := .closing, rotation := 5 }

/-- The Channel Dispatcher after a reset (R69, R77): nothing outstanding, nothing sent (log 15). -/
def Dispatcher.empty : Dispatcher := ⟨[], 0, none⟩

/-- The job table after a reset (R43, R123); the rotation pointer keeps the value given (R32). -/
def JobTable.empty (rotation : Domain) : JobTable :=
  { entries := [], nextPlace := 0, queue := [], closing := none, rotation := rotation, pass := none,
    latch := Vector.replicate 8 false, overrun := Vector.replicate 8 false, lineEvents := Vector.replicate 8 0 }

/-- The Memory Arbiter after a power-on or pin reset (R128). -/
def Arbiter.empty : Arbiter :=
  { lastGranted := .engine, holder := none, holdCount := 0, lock := Vector.replicate 4 .free }

/-- A filter whose level is unknown (R120). -/
def Filter.unknown : Filter := ⟨none, 0⟩

/-- The engine after a power-on reset (R153, R160, R161, R163). The rotation pointer, which has no effect
before START sets it, is 7: DESIGN CHOICE (log 7). FRZ is deasserted: DESIGN CHOICE (log 5). -/
def Engine.powerOn : Engine :=
  { ctl := { state := .stopped, frz := false, cause := .powerOn, command := 0, result := .none,
             faultCode := .none, faultIndex := 0, anchor := 0, flight := none, copies := none }
    post := { attention := Vector.replicate 8 .clear, address := Vector.replicate 8 none }
    jtc := JobTable.empty 7
    disp := Dispatcher.empty
    channels := Vector.replicate 6 Channel.empty
    ei := EngineInterface.empty
    count := 0
    filters := Vector.replicate 8 Filter.unknown
    notify := 0 }

/-- The Port Interfaces after a power-on reset (R144, R147); the levels, latched at the release of RESET
(R141), are 0 until then: DESIGN CHOICE (log 6). -/
def Ports.powerOn : Ports :=
  { level := Vector.replicate 4 0, map := Vector.replicate 4 none, access := Vector.replicate 4 none,
    readData := Vector.replicate 4 (Vector.replicate 4 none), seen := 0, broken := 0, violation := none }

/-- The machine right after reset: a power-on reset has been taken and RESET is still asserted (log 5). Memory
lists nothing (log 4). -/
def State.reset : State :=
  { mem := [], ports := Ports.powerOn, arb := Arbiter.empty, eng := Engine.powerOn, resetPin := true, rq := 0,
    pending := [] }

end Sys2Proof.Machine
end

