-- ==== Sys2Proof/Machine/Operands.lean ====
section
/-! DEFINITION. The fields of every structure the engine reads from shared SRAM (12): selectors, descriptors,
job records, service records, the anchor block and page maps, and what a job's fields come to for its channel
(the body of R89 and R113). -/

namespace Sys2Proof.Machine

/-- The field of `n` bits of a word that begins at bit `lo`. -/
def bits (w : Word) (lo n : Nat) : BitVec n := w.extractLsb' lo n

/-- One bit of a word. -/
def bit (w : Word) (i : Nat) : Bool := w.getLsbD i

/-- A field as one of the first `n` numbers. -/
def fieldFin (n : Nat) [NeZero n] {k : Nat} (x : BitVec k) : Fin n := Fin.ofNat n x.toNat

/-- The eight domains in ascending order. -/
def domainList : List Domain := [0, 1, 2, 3, 4, 5, 6, 7]

/-- The eight lines in ascending order. -/
def lineList : List Line := [0, 1, 2, 3, 4, 5, 6, 7]

/-- The four ports in ascending order. -/
def portList : List Port := [0, 1, 2, 3]

/-- The six channels in ascending order. -/
def channelList : List ChannelId := [0, 1, 2, 3, 4, 5]

/-- The sixteen slots in ascending order. -/
def slotList : List Slot := [0, 1, 2, 3, 4, 5, 6, 7, 8, 9, 10, 11, 12, 13, 14, 15]

/-! ### Selectors (12.1) -/

/-- INDEX of a selector. -/
def selIndex (sel : BitVec 16) : Nat := (sel.extractLsb' 0 9).toNat

/-- TABLE of a selector: true for LOCAL. -/
def selLocal (sel : BitVec 16) : Bool := sel.getLsbD 9

/-- RL of a selector. -/
def selRL (sel : BitVec 16) : Level := sel.extractLsb' 10 2

/-- The reserved bits of a selector. -/
def selReserved (sel : BitVec 16) : BitVec 4 := sel.extractLsb' 12 4

/-- The null selector (R2): GLOBAL, INDEX 0, reserved bits zero, any RL. -/
def selNull (sel : BitVec 16) : Bool := selIndex sel == 0 && !selLocal sel && selReserved sel == 0

/-! ### Descriptors (12.2) -/

/-- KIND of a kind word: 0 NONE, 1 DATA, 2 GATE, 3 CONTEXT_FREE, 4 CONTEXT_HELD. -/
def kindOf (kindWord : Word) : BitVec 4 := bits kindWord 0 4

/-- LEVEL of a descriptor. -/
def Descriptor.level (d : Descriptor) : Level := bits d.kind 4 2

/-- TARGET_LEVEL of a gate. -/
def Descriptor.targetLevel (d : Descriptor) : Level := bits d.kind 6 2

/-- PRESENT. -/
def Descriptor.present (d : Descriptor) : Bool := bit d.kind 8

/-- READ. -/
def Descriptor.canRead (d : Descriptor) : Bool := bit d.kind 9

/-- WRITE. -/
def Descriptor.canWrite (d : Descriptor) : Bool := bit d.kind 10

/-- The USED bit of a kind word (R15). -/
def usedMask : Word := 0x800

/-- The WRITTEN bit of a kind word (R16). -/
def writtenMask : Word := 0x1000

/-- A descriptor from the words of its reading. -/
def Descriptor.ofWords (ws : List Word) : Descriptor := ⟨ws.getD 0 0, ws.getD 1 0, ws.getD 2 0, ws.getD 3 0⟩

/-- The address of the kind word of the descriptor at an address. -/
def kindWordAddr (descriptor : Nat) : Nat := descriptor + 12

/-! ### Job records (12.3) -/

/-- A record from the words 0 to 7 and 12 to 15 of a slot. -/
def JobRecord.ofWords (a b : List Word) : JobRecord :=
  ⟨a.getD 0 0, a.getD 1 0, a.getD 2 0, a.getD 3 0, a.getD 4 0, a.getD 5 0, a.getD 6 0, a.getD 7 0,
   b.getD 0 0, b.getD 1 0, b.getD 2 0, b.getD 3 0⟩

namespace JobRecord

/-- STATE as read: READY is 1. -/
def ready (r : JobRecord) : Bool := r.w0 == 1

/-- KIND: 1 MOVE, 2 FILL, 3 SUM, 4 GATE_CALL. -/
def kind (r : JobRecord) : BitVec 3 := bits r.w1 0 3

/-- The job is a gate call. -/
def isGate (r : JobRecord) : Bool := r.kind == 4

/-- REQUEST: 0 NONE, 1 CANCEL. -/
def request (r : JobRecord) : BitVec 2 := bits r.w1 4 2

/-- PRIORITY. -/
def priority (r : JobRecord) : BitVec 3 := bits r.w1 8 3

/-- NOTIFY_LEVEL. -/
def notifyLevel (r : JobRecord) : BitVec 3 := bits r.w1 12 3

/-- CRC: 0 NONE, 1 CRC-A, 2 CRC-B. -/
def crc (r : JobRecord) : BitVec 2 := bits r.w1 16 2

/-- EXPECT. -/
def expect (r : JobRecord) : Bool := bit r.w1 18

/-- TRIGGER: 0 none, 8 to 15 line 0 to 7. -/
def trigger (r : JobRecord) : BitVec 4 := bits r.w1 20 4

/-- The line TRIGGER names, if any. -/
def line (r : JobRecord) : Option Line :=
  if bit r.w1 23 then some (fieldFin 8 (bits r.w1 20 3)) else none

/-- CHAIN: 0 none, 16 to 31 slot 0 to 15. -/
def chain (r : JobRecord) : BitVec 5 := bits r.w1 24 5

/-- The slot CHAIN names, if any. -/
def chainSlot (r : JobRecord) : Option Slot :=
  if bit r.w1 28 then some (fieldFin 16 (bits r.w1 24 4)) else none

/-- SOURCE selector. -/
def source (r : JobRecord) : BitVec 16 := bits r.w2 0 16

/-- DEST selector. -/
def dest (r : JobRecord) : BitVec 16 := bits r.w2 16 16

/-- CONTEXT selector. -/
def context (r : JobRecord) : BitVec 16 := bits r.w3 0 16

/-- DEADLINE_COUNT. -/
def deadlineCount (r : JobRecord) : Nat := (bits r.w3 16 16).toNat

/-- SOURCE_OFFSET. -/
def sourceOffset (r : JobRecord) : Nat := r.w4.toNat

/-- DEST_OFFSET. -/
def destOffset (r : JobRecord) : Nat := r.w5.toNat

/-- LENGTH. -/
def length (r : JobRecord) : Nat := (bits r.w6 0 17).toNat

/-- PACE_UNIT code. -/
def paceUnit (r : JobRecord) : Nat := (bits r.w6 17 3).toNat

/-- PACE_TAP. -/
def paceTap (r : JobRecord) : Nat := (bits r.w6 20 4).toNat

/-- DEADLINE_TAP. -/
def deadlineTap (r : JobRecord) : Nat := (bits r.w6 24 4).toNat

/-- OPERAND. -/
def operand (r : JobRecord) : Word := r.w7

/-- PARAM 0 to PARAM 3. -/
def params (r : JobRecord) : List Word := [r.p0, r.p1, r.p2, r.p3]

/-- A reserved bit of word 1 or word 6 is set (12.3). -/
def reservedSet (r : JobRecord) : Bool :=
  (r.w1 &&& 0xE00888C8) != 0 || (r.w6 &&& 0xF0000000) != 0

end JobRecord

/-! ### Service records (12.5) -/

/-- A service record from the words of its reading. -/
def ServiceRecord.ofWords (ws : List Word) : ServiceRecord :=
  ⟨ws.getD 0 0, ws.getD 1 0, ws.getD 2 0, ws.getD 3 0, ws.getD 4 0, ws.getD 5 0, ws.getD 6 0, ws.getD 7 0⟩

namespace ServiceRecord

/-- SVC_KIND: 1 MOVE, 2 FILL, 3 SUM. -/
def kind (v : ServiceRecord) : BitVec 3 := bits v.w0 0 3

/-- SVC_CRC. -/
def crc (v : ServiceRecord) : BitVec 2 := bits v.w0 4 2

/-- SVC_PARAM_COUNT. -/
def paramCount (v : ServiceRecord) : Nat := (bits v.w0 8 3).toNat

/-- SVC_NOTIFY_DOMAIN: 0 none, 8 to 15 domain 0 to 7. -/
def notifyDomain (v : ServiceRecord) : BitVec 4 := bits v.w0 12 4

/-- SVC_NOTIFY_LEVEL. -/
def notifyLevel (v : ServiceRecord) : BitVec 3 := bits v.w0 16 3

/-- SVC_SOURCE. -/
def source (v : ServiceRecord) : BitVec 16 := bits v.w1 0 16

/-- SVC_DEST. -/
def dest (v : ServiceRecord) : BitVec 16 := bits v.w1 16 16

/-- SVC_PARAM. -/
def param (v : ServiceRecord) : BitVec 16 := bits v.w2 0 16

/-- SVC_SOURCE_BASE. -/
def sourceBase (v : ServiceRecord) : Nat := v.w3.toNat

/-- SVC_DEST_BASE. -/
def destBase (v : ServiceRecord) : Nat := v.w4.toNat

/-- SVC_MAX_LENGTH. -/
def maxLength (v : ServiceRecord) : Nat := (bits v.w5 0 17).toNat

/-- A reserved bit of the record is set (12.5). -/
def reservedSet (v : ServiceRecord) : Bool :=
  (v.w0 &&& 0xFFF808C8) != 0 || (v.w2 &&& 0xFFFF0000) != 0 || (v.w5 &&& 0xFFFE0000) != 0 || v.w6 != 0 || v.w7 != 0

/-- What a handoff carries of the record (R114). -/
def notify (v : ServiceRecord) : Option ServiceNotify :=
  if bit v.w0 15 then some ⟨fieldFin 8 (bits v.w0 12 3), v.notifyLevel⟩ else none

/-- The validation of R106. -/
def valid (v : ServiceRecord) : Bool :=
  (v.kind == 1 || v.kind == 2 || v.kind == 3) && v.crc != 3 && !(v.kind == 2 && v.crc != 0)
    && !(v.kind == 3 && v.crc == 0) && decide (1 ≤ v.maxLength) && decide (v.maxLength ≤ 65536)
    && decide (v.paramCount ≤ 4) && (v.notifyDomain == 0 || bit v.w0 15)
    && decide (v.sourceBase ≤ 0x3FFFF) && decide (v.destBase ≤ 0x3FFFF) && !v.reservedSet

end ServiceRecord

/-! ### What a job does: its own fields, or its service's (R22, R89, R113) -/

/-- The three transfer operations. -/
inductive Xfer where
  | move | fill | sum
  deriving DecidableEq, Repr

/-- The operation a KIND or SVC_KIND code names. Intake (R23) and R106 let only the listed codes through. -/
def Xfer.ofCode (k : BitVec 3) : Xfer := if k == 1 then .move else if k == 2 then .fill else .sum

/-- A transfer as a channel runs it: operation, check sum code, first offsets, length, OPERAND, and whether the
check sum is compared with it. -/
structure Body where
  op          : Xfer
  crc         : BitVec 2
  sourceFirst : Nat
  destFirst   : Nat
  length      : Nat
  operand     : Word
  compare     : Bool
  deriving DecidableEq, Repr

/-- The transfer of a job: its own record, with its service's stand-ins for a gate call (R110, R113). -/
def bodyOf (r : JobRecord) (v : Option ServiceRecord) : Body :=
  match v with
  | none =>
    { op := Xfer.ofCode r.kind, crc := r.crc, sourceFirst := r.sourceOffset, destFirst := r.destOffset,
      length := r.length, operand := r.operand, compare := r.expect }
  | some v =>
    { op := Xfer.ofCode v.kind, crc := v.crc, sourceFirst := v.sourceBase + r.sourceOffset,
      destFirst := v.destBase + r.destOffset, length := r.length, operand := r.operand, compare := v.crc != 0 }

namespace Body

/-- The transfer reads a source window. -/
def usesSource (b : Body) : Bool := b.op != .fill

/-- The transfer writes a destination window. -/
def usesDest (b : Body) : Bool := b.op != .sum

/-- A check sum is computed (R89). -/
def hasCrc (b : Body) : Bool := b.crc != 0 && b.op != .fill

/-- The next offset of an operand with first offset `f` after `done` bytes (R93). -/
def nextOffset (b : Body) (dir : Direction) (f done : Nat) : Nat :=
  match dir with
  | .ascending => f + done
  | .descending => f + b.length - done

/-- The next source offset (R93): 0 for an operand the kind does not use. -/
def nextSource (b : Body) (dir : Direction) (done : Nat) : Nat :=
  if b.usesSource then b.nextOffset dir b.sourceFirst done else 0

/-- The next destination offset (R93). -/
def nextDest (b : Body) (dir : Direction) (done : Nat) : Nat :=
  if b.usesDest then b.nextOffset dir b.destFirst done else 0

end Body

/-- Bytes of a pacing unit (R99); 0 for an unpaced job. -/
def unitBytes (code : Nat) : Nat := if code = 0 then 0 else 4 * 2 ^ (code - 1)

/-! ### Slots, post words, report words (R21) -/

/-- The address of word `n` of a slot. -/
def DomainRecord.slotWord (d : DomainRecord) (s : Slot) (n : Nat) : Nat := d.slotBase + 64 * s.val + 4 * n

/-- A domain that is not enabled. -/
def DomainRecord.disabled : DomainRecord :=
  { enabled := false, level := 0, homePort := 0, threshold := 0, notifyLine := 0, localCount := 0,
    slotBase := 0, postAddr := 0, reportAddr := 0, localBase := 0 }

/-- A line that is not enabled. -/
def LineEntry.disabled : LineEntry := { enabled := false, owner := 0, edge := 0, tap := 0, count := 0 }

/-- The loaded record of a domain; with no loaded copies no domain is enabled (R161). -/
def Engine.domain (e : Engine) (d : Domain) : DomainRecord :=
  match e.ctl.copies with
  | none => DomainRecord.disabled
  | some k => k.domains[d]

/-- The loaded entry of a line; with no loaded copies no line is enabled (R161). -/
def Engine.line (e : Engine) (n : Line) : LineEntry :=
  match e.ctl.copies with
  | none => LineEntry.disabled
  | some k => k.lines[n]

/-- The table a selector names: its base and count (R1, R3). -/
def Engine.tableOf (e : Engine) (d : Domain) (sel : BitVec 16) : Nat × Nat :=
  if selLocal sel then ((e.domain d).localBase, (e.domain d).localCount)
  else match e.ctl.copies with
    | none => (0, 0)
    | some k => (k.globalBase, k.globalCount)

/-! ### The anchor block (12.6) -/

/-- A word of the block as read. -/
def blockWord (b : List Word) (i : Nat) : Word := b.getD i 0

/-- MAGIC. -/
def blockMagic (b : List Word) : Word := blockWord b 0

/-- GLOBAL_TABLE_BASE. -/
def blockGlobalBase (b : List Word) : Nat := (blockWord b 1).toNat

/-- GLOBAL_COUNT. -/
def blockGlobalCount (b : List Word) : Nat := (bits (blockWord b 2) 0 10).toNat

/-- FREEZE_TIMEBASE: true for RUN. -/
def blockFreezeRun (b : List Word) : Bool := bit (blockWord b 3) 0

/-- Word `n` of a domain record. -/
def domainWord (b : List Word) (d : Domain) (n : Nat) : Word := blockWord b (16 + 8 * d.val + n)

/-- A domain record of the block. -/
def blockDomain (b : List Word) (d : Domain) : DomainRecord :=
  let w := domainWord b d 0
  { enabled := bit w 0, level := bits w 4 2, homePort := fieldFin 4 (bits w 8 2), threshold := bits w 12 3,
    notifyLine := fieldFin 4 (bits w 16 2), localCount := (bits w 20 7).toNat,
    slotBase := (domainWord b d 1).toNat, postAddr := (domainWord b d 2).toNat,
    reportAddr := (domainWord b d 3).toNat, localBase := (domainWord b d 4).toNat }

/-- A reserved bit of a domain record is set (12.6). -/
def domainReserved (b : List Word) (d : Domain) : Bool :=
  (domainWord b d 0 &&& 0xF80C8CCE) != 0 || domainWord b d 5 != 0 || domainWord b d 6 != 0 || domainWord b d 7 != 0

/-- The word of a line entry. -/
def lineWord (b : List Word) (n : Line) : Word := blockWord b (80 + n.val)

/-- A line entry of the block. -/
def blockLine (b : List Word) (n : Line) : LineEntry :=
  let w := lineWord b n
  { enabled := bit w 0, owner := fieldFin 8 (bits w 4 3), edge := bits w 8 2, tap := fieldFin 16 (bits w 12 4),
    count := fieldFin 8 (bits w 16 3) }

/-- A reserved bit of a line entry is set (12.6). -/
def lineReserved (b : List Word) (n : Line) : Bool := (lineWord b n &&& 0xFFF80C8E) != 0

/-- The page map of a port. -/
def blockMap (b : List Word) (p : Port) : PageMap :=
  let i := 88 + 4 * p.val
  ⟨blockWord b i, blockWord b (i + 1), blockWord b (i + 2), blockWord b (i + 3)⟩

/-- The copies a successful START takes from the block (R157). -/
def blockCopies (b : List Word) : LoadedCopies :=
  { globalBase := blockGlobalBase b, globalCount := blockGlobalCount b, freezeRun := blockFreezeRun b
    domains := #v[blockDomain b 0, blockDomain b 1, blockDomain b 2, blockDomain b 3,
                  blockDomain b 4, blockDomain b 5, blockDomain b 6, blockDomain b 7]
    lines := #v[blockLine b 0, blockLine b 1, blockLine b 2, blockLine b 3,
                blockLine b 4, blockLine b 5, blockLine b 6, blockLine b 7] }

/-! ### Page maps (12.6) -/

/-- The code of the right to a page: 0 NONE, 1 READ, 2 unlisted, 3 READ_WRITE. -/
def PageMap.right (m : PageMap) (page : Nat) : BitVec 2 :=
  let w := if page / 16 = 0 then m.w0 else if page / 16 = 1 then m.w1 else if page / 16 = 2 then m.w2 else m.w3
  bits w (2 * (page % 16)) 2

/-- A word of a map holds code 2: bit 1 of a pair set and bit 0 clear. -/
def mapWordHasTwo (w : Word) : Bool := ((w >>> 1) &&& ~~~w &&& 0x55555555) != 0

/-- Some right of the map is the unlisted code 2 (MAP_FIELD). -/
def PageMap.hasUnlisted (m : PageMap) : Bool :=
  mapWordHasTwo m.w0 || mapWordHasTwo m.w1 || mapWordHasTwo m.w2 || mapWordHasTwo m.w3

end Sys2Proof.Machine
end

