-- ==== Sys2Proof/Machine/Flags.lean ====
section
/-! DEFINITION. The conditions that follow from the state (frozen, the Timebase condition, NL lines, WAIT), the
codes of Chapter 12, and every word the engine or the Port Interface composes from them (R166). -/

namespace Sys2Proof.Machine

/-! ### Conditions -/

/-- The engine is RUNNING or DRAINING. -/
def Engine.working (e : Engine) : Bool := e.ctl.state == .running || e.ctl.state == .draining

/-- The engine is RUNNING. -/
def Engine.isRunning (e : Engine) : Bool := e.ctl.state == .running

/-- The engine is DRAINING. -/
def Engine.isDraining (e : Engine) : Bool := e.ctl.state == .draining

/-- The frozen condition (R154). -/
def Engine.frozen (e : Engine) : Bool := e.working && e.ctl.frz

/-- The Timebase condition (R118). -/
inductive TimebaseCondition where
  | cleared | running | paused
  deriving DecidableEq, Repr

/-- The Timebase condition that the engine state, the frozen condition and FREEZE_TIMEBASE give (R118). -/
def Engine.timebase (e : Engine) : TimebaseCondition :=
  if !e.working then .cleared
  else if e.frozen && !(match e.ctl.copies with | none => false | some k => k.freezeRun) then .paused
  else .running

/-- Bit `i` of a flag register is set. -/
def flagSet {n : Nat} (flags : BitVec n) (i : Nat) : Bool := flags.getLsbD i

/-- NLk is asserted: an enabled domain whose NOTIFY_LINE is k has its flag set (R165). -/
def Engine.nl (e : Engine) (k : Fin 4) : Bool :=
  domainList.any fun d => (e.domain d).enabled && decide ((e.domain d).notifyLine = k) && flagSet e.notify d.val

/-- WAIT of a port: its access has not completed (R131). -/
def State.waitLine (s : State) (p : Port) : Bool := s.ports.access[p].isSome

/-- A flag register with bit `i` set. -/
def setFlag {n : Nat} (flags : BitVec n) (i : Nat) : BitVec n := flags ||| (1#n <<< i)

/-! ### Codes (12.3, 12.8) -/

/-- OUTCOME codes. -/
def JobOutcome.code : JobOutcome → Word
  | .ok => 1 | .fault => 2 | .cancelled => 3 | .timedOut => 4 | .drained => 5

/-- FAULT_KIND codes. -/
def FaultKind.code : FaultKind → Word
  | .none => 0 | .badJob => 1 | .badSelector => 2 | .nullSelector => 3 | .notPresent => 4 | .wrongKind => 5
  | .badWindow => 6 | .level => 7 | .noRead => 8 | .noWrite => 9 | .range => 10 | .overlap => 11
  | .contextHeld => 12 | .contextCorrupt => 13 | .gateRange => 14 | .gateNested => 15 | .checkMismatch => 16
  | .lineNotOwned => 17

/-- FAULT_OPERAND codes. -/
def FaultOperand.code : FaultOperand → Word
  | .none => 0 | .source => 1 | .destination => 2 | .context => 3 | .gate => 4 | .service => 5
  | .serviceSource => 6 | .serviceDest => 7 | .param => 8 | .line => 9 | .record => 10

/-- FAULT_PHASE codes. -/
def FaultPhase.code : FaultPhase → Word
  | .none => 0 | .start => 1 | .resume => 2

/-- FAULT_CODE codes. -/
def FaultCode.code : FaultCode → Word
  | .none => 0 | .anchorAlign => 1 | .magic => 2 | .globalTable => 3 | .domainField => 4 | .domainLevel => 5
  | .domainOverlap => 6 | .domainExposed => 7 | .anchorExposed => 8 | .tableExposed => 9 | .lineField => 10
  | .mapField => 11

/-- RESET_CAUSE codes. -/
def ResetCause.code : ResetCause → Word
  | .powerOn => 0 | .pin => 1 | .engineReset => 2

/-- COMMAND_RESULT codes. -/
def CommandResult.code : CommandResult → Word
  | .none => 0 | .busy => 1 | .done => 2 | .refused => 3 | .failed => 4

/-- Violation kind codes. -/
def ViolationKind.code : ViolationKind → Word
  | .readDenied => 1 | .writeDenied => 2 | .unmapped => 3 | .registerDenied => 4

/-- The engine code of STATUS, which tells a frozen engine apart (12.8). -/
def Engine.statusCode (e : Engine) : Word :=
  match e.ctl.state with
  | .stopped => 0
  | .starting => 1
  | .running => if e.frozen then 6 else 2
  | .draining => if e.frozen then 7 else 3
  | .failed => 4

/-- Direction codes of a save area (12.4). -/
def Direction.code : Direction → Word
  | .ascending => 1 | .descending => 2

/-- The direction a save area's code names (12.4); other codes are unlisted. -/
def Direction.ofCode (c : BitVec 2) : Option Direction :=
  if c = 1 then some .ascending else if c = 2 then some .descending else none

/-- The outcome a stop reason gives (R47, R75). -/
def StopReason.outcome : StopReason → JobOutcome
  | .cancel => .cancelled | .deadline => .timedOut | .drain => .drained

/-! ### Register words (12.8) -/

/-- A field of at most 32 bits placed at bit `lo` of a word. -/
def place (x : Word) (lo : Nat) : Word := x <<< lo

/-- The word a read of STATUS returns (R163). -/
def State.statusWord (s : State) : Word :=
  s.eng.statusCode ||| place s.eng.ctl.cause.code 3 ||| place (s.eng.ctl.command.setWidth 32) 5
    ||| place s.eng.ctl.result.code 8 ||| place s.eng.ctl.faultCode.code 11
    ||| place (s.eng.ctl.faultIndex.setWidth 32) 15 ||| place (s.ports.seen.setWidth 32) 18
    ||| place (s.ports.broken.setWidth 32) 22 ||| place (BitVec.ofNat 32 s.eng.jtc.entries.length) 26

/-- The word a read of VIOLATION returns (R147). -/
def Ports.violationWord (p : Ports) : Word :=
  match p.violation with
  | none => 0
  | some v => v.kind.code ||| place (BitVec.ofNat 32 v.port.val) 4 ||| place (v.word.setWidth 32) 10

/-- The word a read of a register returns (R145, R155, R162, R163, R165). -/
def State.registerWord (s : State) : RegName → Word
  | .anchor => s.eng.ctl.anchor
  | .control => s.eng.ctl.command.setWidth 32
  | .status => s.statusWord
  | .note => s.eng.notify.setWidth 32
  | .violation => s.ports.violationWord

/-! ### Slot, report and save-area words -/

/-- A result as it is written: an outcome other than FAULT writes the fault fields as none (R60). -/
def JobResult.written (r : JobResult) : JobResult :=
  if r.outcome = .fault then r
  else { r with faultKind := .none, operand := .none, phase := .none, selector := 0 }

/-- Word 8 of a slot (12.3), of a result as it is written. -/
def resultWord (r : JobResult) (lineOverrun contextLost preempted : Bool) : Word :=
  r.outcome.code ||| place r.faultKind.code 8 ||| place r.operand.code 16 ||| place r.phase.code 20
    ||| place (BitVec.ofNat 32 lineOverrun.toNat) 24 ||| place (BitVec.ofNat 32 contextLost.toNat) 25
    ||| place (BitVec.ofNat 32 preempted.toNat) 26

/-- LAST_KIND codes of the report word (12.7). -/
inductive ReportKind where
  | badPost | busyPost | cancelLate
  deriving DecidableEq, Repr

/-- LAST_KIND codes. -/
def ReportKind.code : ReportKind → Word
  | .badPost => 1 | .busyPost => 2 | .cancelLate => 3

/-- The report word (R41, 12.7). -/
def reportWord (k : ReportKind) (slot : Slot) : Word := k.code ||| place (BitVec.ofNat 32 slot.val) 8

/-- The words of a save area written at a park (R81, 12.4). -/
def saveWords (j : Job) (p : Progress) : List Word :=
  [1, BitVec.ofNat 32 j.domain.val ||| place (BitVec.ofNat 32 j.slot.val) 8 ||| place p.direction.code 16,
   BitVec.ofNat 32 p.nextSource, BitVec.ofNat 32 p.nextDest, BitVec.ofNat 32 p.bytesDone, p.crc, 0, 0]

/-- The identity word of a parameter copy (R112, 12.5). -/
def identityWord (j : Job) (level : Level) (n : Nat) : Word :=
  BitVec.ofNat 32 j.domain.val ||| place (BitVec.ofNat 32 j.slot.val) 8 ||| place (level.setWidth 32) 16
    ||| place (BitVec.ofNat 32 n) 24

/-! ### Check sums (R95) -/

/-- The reflected constant of a check sum code: 1 CRC-A, otherwise CRC-B. -/
def crcConstant (code : BitVec 2) : Word := if code == 1 then 0xEDB88320 else 0x82F63B78

/-- One shift of the check sum register. -/
def crcShift (k : Word) (r : Word) : Word := if r.getLsbD 0 then (r >>> 1) ^^^ k else r >>> 1

/-- A number of shifts of the check sum register. -/
def crcShifts (k : Word) : Nat → Word → Word
  | 0, r => r
  | n + 1, r => crcShifts k n (crcShift k r)

/-- One byte taken into the register (R95). -/
def crcByte (k : Word) (r : Word) (b : Byte) : Word := crcShifts k 8 (r ^^^ b.setWidth 32)

/-- Bytes taken into the register in order. -/
def crcBytes (k : Word) (r : Word) (bs : List Byte) : Word := bs.foldl (crcByte k) r

/-- The register a check sum begins with, and what it is combined with at the end (R95). -/
def crcOnes : Word := 0xFFFFFFFF

/-! ### Results of a job -/

/-- An outcome with the fault fields none (12.3). -/
def plainResult (o : JobOutcome) (bytesDone : Nat) : JobResult :=
  { outcome := o, faultKind := .none, operand := .none, phase := .none, selector := 0, bytesDone := bytesDone, crc := 0 }

/-- OUTCOME FAULT with its detail. -/
def faultResult (k : FaultKind) (o : FaultOperand) (ph : FaultPhase) (sel : BitVec 16) (bytesDone : Nat) : JobResult :=
  { outcome := .fault, faultKind := k, operand := o, phase := ph, selector := sel, bytesDone := bytesDone, crc := 0 }

end Sys2Proof.Machine
end

