-- ==== Sys2Proof/Machine/Ops.lean ====
section
/-! DEFINITION. The shared operations: memory and engine accesses, reading and changing the parts of the engine,
the job table's views, the Engine Interface's choice (R137, R138), the dispatcher's walk (R77 to R79), and what
every step ends with. -/

namespace Sys2Proof.Machine

/-! ### Memory -/

/-- The byte at an address. -/
def Memory.read : Memory → Nat → Byte
  | [], _ => Config.unlistedByte
  | (k, v) :: m, a => if a = k then v else Memory.read m a

/-- A byte put into the list, keeping the canonical form. -/
def Memory.put : Memory → Nat → Byte → Memory
  | [], a, b => if b = Config.unlistedByte then [] else [(a, b)]
  | (k, v) :: m, a, b =>
    if a < k then (if b = Config.unlistedByte then (k, v) :: m else (a, b) :: (k, v) :: m)
    else if a = k then (if b = Config.unlistedByte then m else (a, b) :: m)
    else (k, v) :: Memory.put m a b

/-- A byte written to the SRAM; an address outside it holds nothing. -/
def Memory.write (m : Memory) (a : Nat) (b : Byte) : Memory :=
  if a < Config.sramSize then Memory.put m a b else m

/-- Consecutive bytes from an address, in ascending order. -/
def Memory.readBytes (m : Memory) (a : Nat) : Nat → List Byte
  | 0 => []
  | n + 1 => Memory.read m a :: Memory.readBytes m (a + 1) n

/-- Consecutive bytes written from an address, in ascending order. -/
def Memory.writeBytes (m : Memory) (a : Nat) : List Byte → Memory
  | [] => m
  | b :: bs => Memory.writeBytes (Memory.write m a b) (a + 1) bs

/-- The canonical form, from a lower bound of the addresses on. -/
def Memory.wfFrom : Nat → Memory → Bool
  | _, [] => true
  | lo, (k, v) :: m =>
    decide (lo ≤ k) && decide (k < Config.sramSize) && decide (v ≠ Config.unlistedByte) && Memory.wfFrom (k + 1) m

/-- The canonical form: addresses rising and inside the SRAM, no entry equal to an unlisted byte. -/
def Memory.wf (m : Memory) : Bool := Memory.wfFrom 0 m

/-- A memory in canonical form with the given cells written in turn (log 4). -/
def Memory.ofCells : List Host.Cell → Memory
  | [] => []
  | (a, b) :: cells => Memory.write (Memory.ofCells cells) a b

/-- The four bytes of a word, lowest address first (little-endian, 00 Conventions). -/
def wordBytes (w : Word) : List Byte := [w.extractLsb' 0 8, w.extractLsb' 8 8, w.extractLsb' 16 8, w.extractLsb' 24 8]

/-- The bytes of words in ascending address order. -/
def wordsBytes (ws : List Word) : List Byte := ws.flatMap wordBytes

/-- The words that bytes in ascending address order spell. -/
def bytesWords : List Byte → List Word
  | b0 :: b1 :: b2 :: b3 :: bs => (b3 ++ b2 ++ b1 ++ b0) :: bytesWords bs
  | _ => []

/-- The first word of some bytes. -/
def firstWord (bs : List Byte) : Word := (bytesWords bs).getD 0 0

/-- The word at an address. -/
def Memory.word (m : Memory) (a : Nat) : Word := firstWord (Memory.readBytes m a 4)

/-! ### Engine accesses (R129, R135) -/

/-- A kind word with another KIND, every other bit as it was (12.2). -/
def withKind (w : Word) (k : Word) : Word := (w &&& 0xFFFFFFF0) ||| k

/-- The word a locked pair writes back for the word it reads. -/
def PairOp.apply : PairOp → Word → Word
  | .setBits m, w => w ||| m
  | .clearBits m, w => w &&& ~~~m
  | .claim, w => if kindOf w == 3 then withKind w 4 else w
  | .release, w => if kindOf w == 4 then withKind w 3 else w

/-- The access names bytes of the SRAM alone. -/
def EngineAccess.inSram : EngineAccess → Bool
  | .read a n => decide (a + n ≤ Config.sramSize)
  | .write a bs => decide (a + bs.length ≤ Config.sramSize)
  | .pair a _ => decide (a + 4 ≤ Config.sramSize)

/-- The access made: memory after it, and the bytes it read. -/
def EngineAccess.perform (m : Memory) : EngineAccess → Memory × List Byte
  | .read a n => (m, Memory.readBytes m a n)
  | .write a bs => (Memory.writeBytes m a bs, [])
  | .pair a op => (Memory.writeBytes m a (wordBytes (op.apply (Memory.word m a))), Memory.readBytes m a 4)

/-- A burst read of words. -/
def readWords (a n : Nat) : EngineAccess := .read a (4 * n)

/-- A burst write of words. -/
def writeWords (a : Nat) (ws : List Word) : EngineAccess := .write a (wordsBytes ws)

/-! ### Parts of the engine -/

/-- A channel. -/
def Engine.chan (e : Engine) (c : ChannelId) : Channel := e.channels[c]

/-- The engine with a channel replaced. -/
def Engine.setChan (e : Engine) (c : ChannelId) (ch : Channel) : Engine :=
  { e with channels := e.channels.set c ch }

/-- A domain's attention set. -/
def Engine.setAttention (e : Engine) (d : Domain) (a : Attention) : Engine :=
  { e with post := { e.post with attention := e.post.attention.set d a } }

/-- The JTC's part changed. -/
def Engine.setJtc (e : Engine) (j : JobTable) : Engine := { e with jtc := j }

/-- The Engine Interface with the request of an owner. -/
def EngineInterface.ask (ei : EngineInterface) (o : Owner) (r : Request) : EngineInterface :=
  match o with
  | .channel c => { ei with channels := ei.channels.set c (some r) }
  | .intake => { ei with intake := some r }
  | .closing => { ei with closing := some r }
  | .control => { ei with control := some r }

/-- A request presented to the Engine Interface (R137). -/
def Engine.ask (e : Engine) (o : Owner) (t : EngineStep) (a : EngineAccess) : Engine :=
  { e with ei := e.ei.ask o ⟨t, a⟩ }

/-- A report a channel makes to the JTC (R70). -/
def Channel.report (ch : Channel) (r : Report) : Channel := { ch with reports := ch.reports ++ [r] }

/-! ### The job table -/

/-- The entry with a place. -/
def JobTable.find (j : JobTable) (place : Nat) : Option Entry := j.entries.find? fun en => en.place == place

/-- The entry that holds a domain's slot (R34, R40). -/
def JobTable.holding (j : JobTable) (d : Domain) (s : Slot) : Option Entry :=
  j.entries.find? fun en => en.domain == d && en.slot == s

/-- The table with the entry of a place changed. -/
def JobTable.update (j : JobTable) (place : Nat) (f : Entry → Entry) : JobTable :=
  { j with entries := j.entries.map fun en => if en.place = place then f en else en }

/-- Entry `a` stands before entry `b` in the pending list (R48). -/
def Entry.before (a b : Entry) : Bool :=
  decide (b.record.priority < a.record.priority)
    || (a.record.priority == b.record.priority && decide (a.place < b.place))

/-- An entry put at its position among others in the pending list's order. -/
def insertEntry (en : Entry) : List Entry → List Entry
  | [] => [en]
  | x :: xs => if en.before x then en :: x :: xs else x :: insertEntry en xs

/-- Entries in the pending list's order. -/
def sortEntries : List Entry → List Entry
  | [] => []
  | x :: xs => insertEntry x (sortEntries xs)

/-- The pending list (R48): the PENDING entries, by PRIORITY and then by place. -/
def JobTable.pendingList (j : JobTable) : List Entry := sortEntries (j.entries.filter fun en => en.custody == .pending)

/-- The pending head (R48). -/
def JobTable.head (j : JobTable) : Option Entry := j.pendingList.head?

/-- A line's armed list (R123): its ARMED entries by place, which is the order of the table (R44). -/
def JobTable.armedList (j : JobTable) (n : Line) : List Entry :=
  j.entries.filter fun en => en.custody == .armed && en.record.line == some n

/-- An entry enters CLOSING with an outcome and joins the tail of the closing queue (R59). -/
def JobTable.close (j : JobTable) (place : Nat) (r : JobResult) (n : Option ServiceNotify) : JobTable :=
  { j.update place fun en =>
      { en with custody := .closing, result := some r, serviceNotify := n, expiryDue := false } with
    queue := j.queue ++ [place] }

/-- BYTES_DONE of an entry that waits: its recorded progress if it resumes from its context, else 0 (R50, R55,
R57, R58). -/
def Entry.waitingBytes (en : Entry) : Nat := if en.resumeFromContext then en.recordedProgress else 0

/-- The JTC closes a waiting entry with an outcome of its own (R59). -/
def JobTable.closeWaiting (j : JobTable) (en : Entry) (o : JobOutcome) : JobTable :=
  j.close en.place (plainResult o en.waitingBytes) none

/-- Entries that belong to a domain. -/
def JobTable.countOf (j : JobTable) (d : Domain) : Nat := (j.entries.filter fun en => en.domain == d).length

/-- A domain's allowance (R35). -/
def JobTable.allowance (j : JobTable) (d : Domain) : Nat :=
  min (Config.tablePerDomain - j.countOf d) (Config.tableSize - j.entries.length)

/-- A stop request sent to the channel an entry is active on (R51). -/
def Engine.sendStop (e : Engine) (en : Entry) (r : StopReason) : Engine :=
  match en.channel with
  | none => e
  | some c => e.setChan c { e.chan c with stops := (e.chan c).stops ++ [⟨en.place, r⟩] }

/-- A drop request sent to an entry's shadow channel (R52). -/
def Engine.sendDrop (e : Engine) (en : Entry) (r : StopReason) : Engine :=
  match en.shadowChannel with
  | none => e
  | some c => e.setChan c { e.chan c with drops := (e.chan c).drops ++ [⟨en.place, r⟩] }

/-- STOP_REASON set, with a stop request for an ACTIVE entry and a drop request for a SHADOWED one, unless one
is set already (R51, R52, R56, R57). -/
def Engine.requestStop (e : Engine) (en : Entry) (r : StopReason) : Engine :=
  if en.stopReason.isSome then e
  else
    let e1 := e.setJtc (e.jtc.update en.place fun x => { x with stopReason := some r })
    if en.custody = .shadowed then e1.sendDrop en r else e1.sendStop en r

/-! ### The Engine Interface's choice (R137, R138) -/

/-- The channels counted upward from the one after `c`, wrapping from CH5 to CH0. -/
def channelsAfter (c : ChannelId) : List ChannelId := [c + 1, c + 2, c + 3, c + 4, c + 5, c]

/-- The PRIORITY of the job a channel's request is made for (R138). -/
def Channel.priority (ch : Channel) : BitVec 3 :=
  match ch.job with
  | none => 0
  | some j => j.record.priority

/-- Among channels met in order, the first of the highest priority. -/
def bestChannel (prio : ChannelId → BitVec 3) : List ChannelId → Option ChannelId
  | [] => none
  | c :: cs =>
    match bestChannel prio cs with
    | none => some c
    | some d => if prio c < prio d then some d else some c

/-- The channel whose request is chosen (R138). -/
def Engine.chooseChannel (e : Engine) : Option ChannelId :=
  bestChannel (fun c => (e.chan c).priority) ((channelsAfter e.ei.rotation).filter fun c => e.ei.channels[c].isSome)

/-- The stream whose request is chosen on the JTC side (R137). -/
def EngineInterface.chooseStream (ei : EngineInterface) : Option Stream :=
  match ei.intake.isSome, ei.closing.isSome with
  | false, false => none
  | true, false => some .intake
  | false, true => some .closing
  | true, true => some (if ei.lastStream = .intake then .closing else .intake)

/-- The sides counted from the one after the last side. -/
def Side.following : Side → List Side
  | .jtc => [.channels, .control, .jtc]
  | .channels => [.control, .jtc, .channels]
  | .control => [.jtc, .channels, .control]

/-- A side has a request waiting. -/
def EngineInterface.waiting (ei : EngineInterface) : Side → Bool
  | .jtc => ei.intake.isSome || ei.closing.isSome
  | .channels => channelList.any fun c => ei.channels[c].isSome
  | .control => ei.control.isSome

/-- A request becomes the unit in progress. -/
def EngineInterface.take (ei : EngineInterface) (o : Owner) (r : Option Request) : EngineInterface :=
  { ei with unit := r.map fun q => ⟨o, q⟩ }

/-- The choice made on a side, recorded as R137 and R138 give. -/
def Engine.chooseOn (e : Engine) (side : Side) : EngineInterface :=
  let ei := { e.ei with lastSide := side }
  match side with
  | .jtc =>
    match ei.chooseStream with
    | none => ei
    | some .intake => { ei.take .intake ei.intake with intake := none, lastStream := .intake }
    | some .closing => { ei.take .closing ei.closing with closing := none, lastStream := .closing }
  | .channels =>
    match e.chooseChannel with
    | none => ei
    | some c => { ei.take (.channel c) ei.channels[c] with channels := ei.channels.set c none, rotation := c }
  | .control => { ei.take .control ei.control with control := none }

/-- The Engine Interface chooses a request when it has no unit in progress (R137). -/
def Engine.chooseUnit (e : Engine) : Engine :=
  if e.ei.unit.isSome then e
  else
    match e.ei.lastSide.following.find? e.ei.waiting with
    | none => e
    | some side => { e with ei := e.chooseOn side }

/-! ### The dispatcher's walk (R77 to R79) -/

/-- An outstanding yield's entry, if the table still holds it. A yield whose entry has been freed is kept by no walk
and withdrawn by the next: DESIGN CHOICE (log 35). -/
def Engine.yieldEntry (e : Engine) (y : Yield) : Option Entry := e.jtc.find y.place

/-- Job `a` is preferred to job `b` as a victim, or to be kept: lower PRIORITY, then later start (R78, R79). -/
def Entry.lesser (a b : Entry) : Bool :=
  decide (a.record.priority < b.record.priority)
    || (a.record.priority == b.record.priority && decide (b.startOrder < a.startOrder))

/-- The most preferred of some entries. -/
def leastEntry : List Entry → Option Entry
  | [] => none
  | x :: xs =>
    match leastEntry xs with
    | none => some x
    | some y => if y.lesser x then some y else some x

/-- A job is preemptible (R78): its channel's bank is empty, or it has a context claimed. -/
def Engine.preemptible (e : Engine) (en : Entry) : Bool :=
  match en.channel with
  | none => false
  | some c => (e.chan c).shadow.isNone || en.claim.isSome

/-- An eligible victim (R78): ACTIVE, no stop reason, no yield outstanding for it or on its channel (R77),
preemptible. -/
def Engine.eligible (e : Engine) (ys : List Yield) (en : Entry) : Bool :=
  en.custody == .active && en.stopReason.isNone && e.preemptible en
    && ys.all fun y => y.place != en.place && some y.channel != en.channel

/-- Some channel is IDLE. -/
def Engine.someIdle (e : Engine) : Bool := channelList.any fun c => (e.chan c).state == .idle

/-- The unconfirmed yield kept for a pending job of a priority (R79). -/
def Engine.keepFor (e : Engine) (prio : BitVec 3) (unconfirmed : List Yield) : Option Entry :=
  leastEntry ((unconfirmed.filterMap e.yieldEntry).filter fun en => decide (en.record.priority < prio))

/-- The victim asked for a pending job of a priority (R78, R79). -/
def Engine.askFor (e : Engine) (prio : BitVec 3) (ys : List Yield) : Option Entry :=
  if e.someIdle then none
  else leastEntry (e.jtc.entries.filter fun en => e.eligible ys en && decide (en.record.priority < prio))

/-- The walk (R79) over the pending list from entry number `i`: the yields confirmed and those asked anew.
`confirmed` are kept, `asked` new; both count as confirmed. -/
def Engine.walk (e : Engine) (i : Nat) (unconfirmed confirmed asked : List Yield) :
    List Entry → List Yield × List Yield
  | [] => (confirmed, asked)
  | en :: rest =>
    if confirmed.length + asked.length < i then
      match e.keepFor en.record.priority unconfirmed with
      | some k =>
        e.walk (i + 1) (unconfirmed.filter fun y => y.place != k.place)
          (confirmed ++ unconfirmed.filter fun y => y.place == k.place) asked rest
      | none =>
        match e.askFor en.record.priority (unconfirmed ++ confirmed ++ asked) with
        | none => (confirmed, asked)
        | some v =>
          match v.channel with
          | none => (confirmed, asked)
          | some c => e.walk (i + 1) unconfirmed confirmed (asked ++ [⟨c, v.place⟩]) rest
    else e.walk (i + 1) unconfirmed confirmed asked rest

/-- A message of the dispatcher to a channel. -/
def Engine.sendYield (e : Engine) (c : ChannelId) (m : YieldMessage) : Engine :=
  e.setChan c { e.chan c with yields := (e.chan c).yields ++ [m] }

/-- Outstanding yields withdrawn: each channel is told (R79). -/
def Engine.withdrawAll (e : Engine) (ys : List Yield) : Engine :=
  ys.foldl (fun e y => e.sendYield y.channel (.withdraw y.place)) e

/-- New yields sent (R79). -/
def Engine.askAll (e : Engine) (ys : List Yield) : Engine :=
  ys.foldl (fun e y => e.sendYield y.channel (.ask y.place)) e

/-- One walk, its withdrawals and its new yields sent (R79). -/
def Engine.walkOnce (e : Engine) : Engine :=
  let r := e.walk 1 e.disp.yields [] [] e.jtc.pendingList
  let e1 := (e.withdrawAll (e.disp.yields.filter fun y => !r.1.contains y)).askAll r.2
  { e1 with disp := { e1.disp with yields := r.1 ++ r.2 } }

/-- The next walk would keep every outstanding yield (R79). -/
def Engine.keepsAll (e : Engine) : Bool :=
  e.disp.yields.all (e.walk 1 e.disp.yields [] [] e.jtc.pendingList).1.contains

/-- Walks, up to a number of them, until one has withdrawn nothing: a yield that a walk withdraws leaves the set, which is
a cause to reconsider; one that joins it is none (R77). -/
def Engine.walks : Nat → Engine → Engine
  | 0, e => e
  | n + 1, e => if e.keepsAll then e.walkOnce else e.walkOnce.walks n

/-- What a yield weighs in the bound on the walks: the more, the higher its job's PRIORITY, and most when its job's entry
has been freed. A walk that withdraws a yield asks at most six, of lower PRIORITY each. -/
def Engine.yieldWeight (e : Engine) (y : Yield) : Nat :=
  match e.yieldEntry y with
  | none => 7 ^ 8
  | some en => 7 ^ en.record.priority.toNat

/-- More walks than can follow one another: each that withdraws a yield lowers the weight of the set. -/
def Engine.walkBound (e : Engine) : Nat := (e.disp.yields.map e.yieldWeight).sum + 1

/-- The dispatcher reconsiders its yields: by the walk when RUNNING and not frozen, again as often as a walk has withdrawn
a yield, and otherwise it withdraws every one (R77). -/
def Engine.reconsider (e : Engine) : Engine :=
  if e.isRunning && !e.frozen then e.walks e.walkBound
  else
    let e1 := e.withdrawAll e.disp.yields
    { e1 with disp := { e1.disp with yields := [] } }

/-- What the dispatcher looks at (R77): the pending list, the custody states, STOP_REASONs and context claims,
the channels' states and banks, the outstanding yields, the engine state and the frozen condition. -/
structure DispatcherView where
  entries  : List (Nat × Custody × Option StopReason × Bool)
  channels : List (ChannelState × Option Shadow)
  yields   : List Yield
  state    : EngineState
  frozen   : Bool
  deriving DecidableEq

/-- What the dispatcher sees of the engine. -/
def Engine.view (e : Engine) : DispatcherView :=
  { entries := e.jtc.entries.map fun en => (en.place, en.custody, en.stopReason, en.claim.isSome)
    channels := e.channels.toList.map fun ch => (ch.state, ch.shadow)
    yields := e.disp.yields
    state := e.ctl.state
    frozen := e.frozen }

/-- The lowest-numbered IDLE channel (R69). -/
def Engine.lowestIdle (e : Engine) : Option ChannelId := channelList.find? fun c => (e.chan c).state == .idle

/-- The dispatcher sends a dispatch (R69): while RUNNING and not frozen, with an entry pending, a channel IDLE and no
dispatch on its way, one that names the lowest IDLE channel. -/
def Engine.sendDispatch (e : Engine) : Engine :=
  if e.isRunning && !e.frozen && e.disp.sent.isNone && e.jtc.head.isSome then
    { e with disp := { e.disp with sent := e.lowestIdle } }
  else e

/-- What every step ends with: the dispatcher reconsiders its yields if anything it looks at has changed in the
step (R77) and sends a dispatch if one is due (R69, log 16), and the Engine Interface chooses (R137, log 17). -/
def Engine.settle (before after : Engine) : Engine :=
  (if before.view = after.view then after else after.reconsider).sendDispatch.chooseUnit

/-- A step's effect on the engine, settled. -/
def State.onEngine (s : State) (f : Engine → Engine) : State := { s with eng := s.eng.settle (f s.eng) }

/-- A step's effect on the whole part, settled. -/
def State.settled (s : State) (f : State → State) : State :=
  let t := f s
  { t with eng := s.eng.settle t.eng }

/-! ### Completing an engine unit (R131, R137) -/

/-- The unit in progress, when the arbiter has granted it and it belongs to the step named. -/
def State.granted (s : State) (t : EngineStep) : Option EngineUnit :=
  if s.arb.holder = some .engine then s.eng.ei.unit.filter fun u => u.request.step == t else none

/-- The unit in progress becomes none. -/
def Engine.dropUnit (e : Engine) : Engine := { e with ei := { e.ei with unit := none } }

/-- The unit's access has been made and the holder has become none (R130). -/
def State.unitDone (s : State) (u : EngineUnit) : State :=
  { s with mem := (u.request.access.perform s.mem).1, arb := { s.arb with holder := none }, eng := s.eng.dropUnit }

/-- The step that completes an engine unit: memory is read and written, the arbiter is released, and the owner
`k` goes on with the bytes read. It leaves everything as it is when no such unit is granted (log 1). -/
def completeUnit (t : EngineStep) (k : Owner → List Byte → State → State) (s : State) :
    Host.Outcome State Fault Refusal :=
  match s.granted t with
  | none => .next s
  | some u =>
    if u.request.access.inSram then
      .next (s.settled fun s => k u.owner (u.request.access.perform s.mem).2 (s.unitDone u))
    else .fault .engineAccessOutsideSram

/-- The same for a unit whose owner's work lies in the engine alone. -/
def completeEngine (t : EngineStep) (k : Owner → List Byte → Engine → Engine) (s : State) :
    Host.Outcome State Fault Refusal :=
  completeUnit t (fun o data s => { s with eng := k o data s.eng }) s

/-- The same for a unit of a channel. -/
def completeChannel (t : EngineStep) (k : ChannelId → List Byte → Engine → Engine) (s : State) :
    Host.Outcome State Fault Refusal :=
  completeEngine t (fun o data e =>
    match o with
    | .channel c => k c data e
    | _ => e) s

end Sys2Proof.Machine
end

