-- ==== Sys2Proof/Machine/Check.lean ====
section
/-! DEFINITION. The window check (chapter 1) and what chapter 6 adds to it for gate calls, as functions of the
selector, the reading and the job: no state changes here. -/

namespace Sys2Proof.Machine

/-- FAULT_OPERAND of a checked operand: a gate call's source and destination are its service's (R9, 6.3). -/
def Operand.fault (gateCall : Bool) : Operand → FaultOperand
  | .gate => .gate
  | .source => if gateCall then .serviceSource else .source
  | .dest => if gateCall then .serviceDest else .destination
  | .param => .param
  | .context => .context

/-- The selector of an operand: the job record's, or the service record's (R1, R108). -/
def selectorOf (r : JobRecord) (v : Option ServiceRecord) : Operand → BitVec 16
  | .gate => r.source
  | .source => match v with | none => r.source | some v => v.source
  | .dest => match v with | none => r.dest | some v => v.dest
  | .param => match v with | none => 0 | some v => v.param
  | .context => r.context

/-- The level an operand is checked at before its RL is taken in: the gate's TARGET_LEVEL for a service window,
else the domain's LEVEL (R8, R108, R111). -/
def baseLevel (domainLevel : Level) (gate : Option Reading) : Operand → Level
  | .gate => domainLevel
  | .context => domainLevel
  | _ => match gate with | none => domainLevel | some g => g.desc.targetLevel

/-- EL: the numerically larger of the level and the selector's RL (R8). -/
def effectiveLevel (level : Level) (sel : BitVec 16) : Level := if level < selRL sel then selRL sel else level

/-- Steps 1 to 3 (R10), made without reading memory: the descriptor's address, or the fault. Optional operands
that are null never come here. -/
def checkSelector (sel : BitVec 16) (base count : Nat) : Except FaultKind Nat :=
  if selReserved sel ≠ 0 then .error .badSelector
  else if selNull sel then .error .nullSelector
  else if count ≤ selIndex sel then .error .badSelector
  else .ok (base + 16 * selIndex sel)

/-- Step 5: the KINDs an operand accepts (R5, R104, R109); `service` for a window a service record names. -/
def checkKind (op : Operand) (service : Bool) (d : Descriptor) : Option FaultKind :=
  match op with
  | .gate => if kindOf d.kind = 2 then none else some .wrongKind
  | .context => if kindOf d.kind = 3 ∨ kindOf d.kind = 4 then none else some .wrongKind
  | _ =>
    if kindOf d.kind = 1 then none
    else if service ∧ kindOf d.kind = 2 then some .gateNested
    else some .wrongKind

/-- Step 6: the window lies inside the SRAM; a context is aligned and large enough; a gate's SERVICE is aligned
and inside (R4, R6, R11). -/
def windowInside (op : Operand) (d : Descriptor) : Bool :=
  match op with
  | .gate => decide (d.service.toNat % 32 = 0) && decide (d.service.toNat + 31 ≤ 0x3FFFF)
  | .context =>
    decide (d.base.toNat + d.limit.toNat ≤ 0x3FFFF) && decide (d.base.toNat % 32 = 0) && decide (31 ≤ d.limit.toNat)
  | _ => decide (d.base.toNat + d.limit.toNat ≤ 0x3FFFF)

/-- Step 8: the right an operand lacks, READ tested first for a context (R12). -/
def missingRight (op : Operand) (d : Descriptor) : Option FaultKind :=
  match op with
  | .gate => none
  | .source => if d.canRead then none else some .noRead
  | .dest => if d.canWrite then none else some .noWrite
  | .param => if d.canWrite then none else some .noWrite
  | .context => if !d.canRead then some .noRead else if !d.canWrite then some .noWrite else none

/-- The first offset and length step 9 tests (R12, R110); none for a gate. -/
def rangeOf (b : Body) (v : Option ServiceRecord) : Operand → Option (Nat × Nat)
  | .gate => none
  | .source => some (b.sourceFirst, b.length)
  | .dest => some (b.destFirst, b.length)
  | .param => some (0, 4 + 4 * (match v with | none => 0 | some v => v.paramCount))
  | .context => some (0, 32)

/-- Step 9: the range reaches past LIMIT. -/
def beyondLimit (d : Descriptor) : Option (Nat × Nat) → Bool
  | none => false
  | some (first, len) => decide (d.limit.toNat < first + len - 1)

/-- Steps 4 to 9 (R11, R12) on one reading: the first failure. -/
def checkDescriptor (op : Operand) (service : Bool) (el : Level) (range : Option (Nat × Nat)) (d : Descriptor) :
    Option FaultKind :=
  if !d.present then some .notPresent
  else match checkKind op service d with
  | some k => some k
  | none =>
    if !windowInside op d then some .badWindow
    else if d.level < el then some .level
    else match missingRight op d with
    | some k => some k
    | none => if beyondLimit d range then some .range else none

/-- The physical source range and destination range of a transfer share a byte (R13, R92). -/
def rangesMeet (b : Body) (source dest : Descriptor) : Bool :=
  let s := source.base.toNat + b.sourceFirst
  let d := dest.base.toNat + b.destFirst
  decide (s < d + b.length) && decide (d < s + b.length)

/-- The overlap test fails (R13, R110): a MOVE with a check sum whose ranges share a byte. -/
def overlapFails (b : Body) (source dest : Option Reading) : Bool :=
  match source, dest with
  | some s, some d => b.op == .move && b.crc != 0 && rangesMeet b s.desc d.desc
  | _, _ => false

/-- The direction a first start chooses (R92). -/
def chooseDirection (b : Body) (source dest : Option Reading) : Direction :=
  match source, dest with
  | some s, some d =>
    if b.op = .move ∧ rangesMeet b s.desc d.desc = true
        ∧ s.desc.base.toNat + b.sourceFirst < d.desc.base.toNat + b.destFirst then .descending
    else .ascending
  | _, _ => .ascending

/-- An optional operand, present unless it is null (R2). -/
def optionalOperand (op : Operand) (sel : BitVec 16) : List Operand := if selNull sel then [] else [op]

/-- The operands of a job that calls no gate, in the order of R9, less those ignored or absent (R2). -/
def plainOperands (r : JobRecord) : List Operand :=
  match Xfer.ofCode r.kind with
  | .move => [.source, .dest] ++ optionalOperand .context r.context
  | .fill => [.dest] ++ optionalOperand .context r.context
  | .sum => [.source] ++ optionalOperand .context r.context

/-- The operands a check begins with: the gate alone for a gate call (R104). -/
def firstOperands (r : JobRecord) : List Operand := if r.isGate then [.gate] else plainOperands r

/-- The operands that follow a service record's reading (R108, R111). -/
def serviceOperands (r : JobRecord) (v : ServiceRecord) : List Operand :=
  (match Xfer.ofCode v.kind with
   | .move => [.source, .dest]
   | .fill => [.dest]
   | .sum => [.source])
  ++ optionalOperand .param v.param ++ optionalOperand .context r.context

/-- A reading kept under its operand. -/
def Readings.keep (rs : Readings) (op : Operand) (r : Reading) : Readings :=
  match op with
  | .gate => { rs with gate := some r }
  | .source => { rs with source := some r }
  | .dest => { rs with dest := some r }
  | .param => { rs with param := some r }
  | .context => { rs with context := some r }

/-- The checked descriptors' kind words in the order the USED marks are made (R15, R111). -/
def Readings.kindWords (rs : Readings) : List Nat :=
  ([rs.gate, rs.source, rs.dest, rs.param, rs.context].filterMap id).map fun r => kindWordAddr r.address

/-- The save area a reading of its eight words gives (12.4): none when its direction is unlisted. -/
def SaveArea.ofWords (ws : List Word) : Option SaveArea :=
  (Direction.ofCode (bits (ws.getD 1 0) 16 2)).map fun dir =>
    { bytesDone := (ws.getD 4 0).toNat, nextSource := (ws.getD 2 0).toNat, nextDest := (ws.getD 3 0).toNat,
      direction := dir, crc := ws.getD 5 0 }

/-- MARK reads SAVED, and the domain and slot read are the job's own (R85). -/
def saveAreaOwn (j : Job) (ws : List Word) : Bool :=
  ws.getD 0 0 == 1 && (bits (ws.getD 1 0) 0 3).toNat == j.domain.val && (bits (ws.getD 1 0) 8 4).toNat == j.slot.val

/-- The saved next offsets are those that the first offsets, the direction and the progress give (R85, R93). -/
def offsetsAgree (b : Body) (sa : SaveArea) : Bool :=
  sa.nextSource == b.nextSource sa.direction sa.bytesDone && sa.nextDest == b.nextDest sa.direction sa.bytesDone

/-- A save area is accepted, but for the next offsets, which a gate call's check tests later (R85, R115). -/
def acceptSaveArea (j : Job) (ws : List Word) : Option SaveArea :=
  (SaveArea.ofWords ws).filter fun sa => saveAreaOwn j ws && sa.bytesDone == j.recordedProgress

end Sys2Proof.Machine
end

