-- ==== Sys2Proof/Machine/Transfer.lean ====
section
/-! DEFINITION. The arithmetic of a transfer (chapter 5): burst formation, the fill pattern, what a completed
burst does to the progress record, and the result of a finished transfer. No state changes here. -/

namespace Sys2Proof.Machine

/-- Bytes from an address up to its block's edge, or for a descending job below it down to the edge (R90). -/
def bytesToEdge (dir : Direction) (a : Nat) : Nat :=
  match dir with
  | .ascending => 32 - a % 32
  | .descending => (a + 31) % 32 + 1

/-- The BASE of a window's copy; 0 where the job has none. -/
def baseOf (r : Option Reading) : Nat :=
  match r with
  | none => 0
  | some r => r.desc.base.toNat

/-- The physical address of the next source offset. -/
def sourceAddr (copies : Readings) (p : Progress) : Nat := baseOf copies.source + p.nextSource

/-- The physical address of the next destination offset. -/
def destAddr (copies : Readings) (p : Progress) : Nat := baseOf copies.dest + p.nextDest

/-- The number of bytes of the next burst (R90). -/
def burstCount (b : Body) (paced : Bool) (copies : Readings) (p : Progress) : Nat :=
  let left := b.length - p.bytesDone
  let paceCut := if paced then min left p.unitLeft else left
  let sourceCut := if b.usesSource then min paceCut (bytesToEdge p.direction (sourceAddr copies p)) else paceCut
  if b.usesDest then min sourceCut (bytesToEdge p.direction (destAddr copies p)) else sourceCut

/-- The address a burst of `n` bytes begins at (R90). -/
def burstStart (dir : Direction) (a n : Nat) : Nat :=
  match dir with
  | .ascending => a
  | .descending => a - n

/-- Byte `i mod 4` of OPERAND (R94). -/
def patternByte (operand : Word) (i : Nat) : Byte := operand.extractLsb' (8 * (i % 4)) 8

/-- The pattern bytes for `n` offsets from `o`, the job's first offset being `first` (R94). -/
def patternBytes (operand : Word) (o first n : Nat) : List Byte :=
  (List.range n).map fun i => patternByte operand (o - first + i)

/-- The next burst (R90); a FILL's holds its pattern (R94). -/
def formBurst (b : Body) (paced : Bool) (copies : Readings) (p : Progress) : Burst :=
  let n := burstCount b paced copies p
  { source := burstStart p.direction (sourceAddr copies p) n
    dest := burstStart p.direction (destAddr copies p) n
    count := n
    data := if b.op = .fill then patternBytes b.operand (burstStart p.direction p.nextDest n) b.destFirst n else [] }

/-- The progress record after a completed burst whose source bytes are `data` (R93, R96, R98, R99). -/
def advance (b : Body) (p : Progress) (n : Nat) (data : List Byte) : Progress :=
  let done := p.bytesDone + n
  { p with
    bytesDone := done
    nextSource := b.nextSource p.direction done
    nextDest := b.nextDest p.direction done
    crc := if b.hasCrc then crcBytes (crcConstant b.crc) p.crc data else p.crc
    unitLeft := p.unitLeft - n }

/-- The progress record of a first start (R73, R93). That the WRITTEN-done flags are cleared here, when the job enters
MOVING, and so the parameter window's again, is a DESIGN CHOICE (log 38). -/
def firstProgress (b : Body) (dir : Direction) : Progress :=
  { Progress.empty with nextSource := b.nextSource dir 0, nextDest := b.nextDest dir 0, direction := dir }

/-- The progress record of a restore that passed (R86, R93). -/
def restoredProgress (sa : SaveArea) : Progress :=
  { Progress.empty with
    bytesDone := sa.bytesDone, nextSource := sa.nextSource, nextDest := sa.nextDest, direction := sa.direction,
    crc := sa.crc, restored := true }

/-- The progress record a shadow resume goes on from (R80, R93): unit left 0, WRITTEN-done flags clear. -/
def resumedProgress (p : Progress) : Progress := { p with unitLeft := 0, writtenDest := false, writtenParam := false }

/-- CRC_RESULT of a finished transfer (R97). -/
def crcResult (b : Body) (p : Progress) : Word := if b.hasCrc then p.crc ^^^ crcOnes else 0

/-- The result of a transfer whose last burst has completed (R87, R97, R113). -/
def finalResult (r : JobRecord) (v : Option ServiceRecord) (p : Progress) : JobResult :=
  let b := bodyOf r v
  let sum := crcResult b p
  if b.hasCrc ∧ b.compare ∧ sum ≠ b.operand then
    { faultResult .checkMismatch (Operand.source.fault v.isSome) (if p.restored then .resume else .start)
        (selectorOf r v .source) b.length with crc := sum }
  else { plainResult .ok b.length with crc := sum }

end Sys2Proof.Machine
end

