-- ==== Sys2Proof/Machine/Channel.lean ====
section
/-! DEFINITION. The work of a transfer channel (chapter 4): dispatch, the check, the claim, the marks, boundaries,
stops and yields, parking, resuming, finishing and the free moment. Each function changes the engine alone; the
channel's memory accesses are requests to the Engine Interface. -/

namespace Sys2Proof.Machine

/-- A request of a channel. -/
def Engine.askFrom (e : Engine) (c : ChannelId) (t : EngineStep) (a : EngineAccess) : Engine := e.ask (.channel c) t a

/-- The channel waits for something else. -/
def Engine.setWork (e : Engine) (c : ChannelId) (w : Work) : Engine := e.setChan c { e.chan c with work := w }

/-- The dispatcher is told that the yield on a channel's job is no longer outstanding (R75, R76, R87). -/
def Engine.clearYield (e : Engine) (c : ChannelId) (place : Nat) : Engine :=
  { e with disp := { e.disp with yields := e.disp.yields.filter fun y => !(y.channel == c && y.place == place) } }

/-- A yield the channel holds is cleared and the dispatcher told; one still on its way stays outstanding until
it arrives (R77). -/
def Engine.clearHeldYield (e : Engine) (c : ChannelId) (place : Nat) : Engine :=
  if (e.chan c).yieldHeld then e.clearYield c place else e

/-- The dispatcher notes a start (R69). -/
def Engine.noteStart (e : Engine) (place : Nat) : Engine :=
  { e with
    jtc := e.jtc.update place fun en => { en with startOrder := e.disp.nextStart }
    disp := { e.disp with nextStart := e.disp.nextStart + 1 } }

/-- A channel that holds no job (R82): no copies, no progress record, no request. -/
def Channel.release (ch : Channel) (st : ChannelState) : Channel :=
  { ch with
    state := st, work := .none, job := none, progress := Progress.empty, readings := Readings.empty, copies := none,
    saved := none, stop := none, yieldHeld := false }

/-! ### Moving (R74, R90 to R92, R99, R102) -/

/-- A channel's transfer in MOVING: its job and its copies' service record. -/
def Channel.moving (ch : Channel) : Option (Job × Readings × Body) :=
  match ch.job, ch.copies with
  | some j, some rs => some (j, rs, bodyOf j.record rs.service)
  | _, _ => none

/-- The WRITTEN pair on a window's kind word (R16, R102). -/
def writtenPair (r : Option Reading) : EngineAccess :=
  .pair (kindWordAddr (match r with | none => 0 | some r => r.address)) (.setBits writtenMask)

/-- The write of a burst is issued, preceded by the WRITTEN pair when one is due (R102). -/
def Engine.issueWrite (e : Engine) (c : ChannelId) (rs : Readings) (b : Burst) : Engine :=
  if (e.chan c).progress.writtenDest then
    (e.setWork c (.burstWrite b)).askFrom c .burstWrite (.write b.dest b.data)
  else (e.setWork c (.writtenMark b)).askFrom c .writtenMark (writtenPair rs.dest)

/-- The next burst is issued (R74 step 4, R91). -/
def Engine.issueBurst (e : Engine) (c : ChannelId) : Engine :=
  match (e.chan c).moving with
  | none => e
  | some (j, rs, body) =>
    let b := formBurst body (decide (j.record.paceUnit ≠ 0)) rs (e.chan c).progress
    if body.op = .fill then e.issueWrite c rs b
    else (e.setWork c (.burstRead b)).askFrom c .burstRead (.read b.source b.count)

/-- The job is paced and waits for a tick of its tap (R99). -/
def Channel.waitsForTick (ch : Channel) : Bool :=
  match ch.job with
  | none => false
  | some j => decide (j.record.paceUnit ≠ 0) && ch.progress.unitLeft == 0

/-- What a boundary comes to when no request is taken (R74 steps 3 and 4). -/
def Engine.proceed (e : Engine) (c : ChannelId) : Engine :=
  if e.frozen || (e.chan c).waitsForTick then e.setWork c .boundary else e.issueBurst c

/-! ### The free channel (R82, R83) -/

/-- The shadow job resumes (R83): no check, no mark, a new run. -/
def Engine.resumeShadow (e : Engine) (c : ChannelId) : Engine :=
  let ch := e.chan c
  match ch.shadow with
  | none => e.setChan c (ch.release .idle)
  | some sh =>
    let ch1 := { ch.release .moving with
      work := .boundary, job := some sh.job, progress := resumedProgress sh.progress, copies := some sh.copies,
      shadow := none }
    ((e.setChan c (ch1.report (.resumeShadow sh.job.place))).noteStart sh.job.place).proceed c

/-- The shadow job is handed to closing (R83, R84): the bank is then empty. -/
def Channel.handShadow (ch : Channel) (sh : Shadow) (r : StopReason) : Channel :=
  { ch.report (.handoff sh.job.place (plainResult r.outcome sh.progress.bytesDone) none) with shadow := none }

/-- The choice of a free channel (R82, R83). -/
def Engine.freeChannel (e : Engine) (c : ChannelId) : Engine :=
  let ch := e.chan c
  match ch.shadow with
  | none => e.setChan c (ch.release .idle)
  | some sh =>
    if e.isDraining then e.setChan c ((ch.handShadow sh .drain).release .idle)
    else if e.frozen then e.resumeShadow c
    else e.setChan c ((ch.release .free).report (.conditional sh.job.record.priority))

/-! ### Finishing (R87) -/

/-- What a handoff carries of a gate call's service record (R114). -/
def noticeOf (v : Option ServiceRecord) : Option ServiceNotify :=
  match v with
  | none => none
  | some v => v.notify

/-- The channel passes through FINISHING: it reports the handoff, gives up what it held for the job, tells the
dispatcher, and is free (R87). -/
def Engine.finish (e : Engine) (c : ChannelId) (r : JobResult) (v : Option ServiceRecord) : Engine :=
  match (e.chan c).job with
  | none => e
  | some j =>
    let ch := ((e.chan c).release .finishing).report (.handoff j.place r (noticeOf v))
    ((e.clearHeldYield c j.place).setChan c ch).freeChannel c

/-- BYTES_DONE of a check, claim, restore or recheck that fails (R87). -/
def Channel.failedBytes (ch : Channel) (j : Job) : Nat := if ch.state = .restoring then j.recordedProgress else 0

/-- FAULT_PHASE of a check (R9). -/
def Channel.phase (ch : Channel) : FaultPhase := if ch.state = .restoring then .resume else .start

/-- A check, claim, restore or recheck fails (R71, R72, R86, R87): a held stop is taken and the fault not
reported. The handoff carries the SVC_NOTIFY pair of a service record that has passed its stage: DESIGN CHOICE (R114
leaves it open after that stage, log 37). -/
def Engine.failCheck (e : Engine) (c : ChannelId) (k : FaultKind) (o : FaultOperand) (sel : BitVec 16) : Engine :=
  let ch := e.chan c
  match ch.job with
  | none => e
  | some j =>
    match ch.stop with
    | some r => e.finish c (plainResult r.outcome (ch.failedBytes j)) ch.readings.service
    | none => e.finish c (faultResult k o ch.phase sel (ch.failedBytes j)) ch.readings.service

/-! ### Boundaries, stops, yields and parks (R74 to R76, R80, R81) -/

/-- A stop taken at a boundary (R75). -/
def Engine.takeStop (e : Engine) (c : ChannelId) (r : StopReason) : Engine :=
  e.finish c (plainResult r.outcome (e.chan c).progress.bytesDone)
    (match (e.chan c).copies with | none => none | some rs => rs.service)

/-- The park in the shadow bank (R80). -/
def Engine.parkShadow (e : Engine) (c : ChannelId) (j : Job) (rs : Readings) : Engine :=
  let ch := e.chan c
  let ch1 := { ch.release .saving with shadow := some ⟨j, ch.progress, rs⟩ }
  (e.setChan c (ch1.report (.parkShadow j.place))).freeChannel c

/-- The park in the context begins (R81): the save area is written whole. -/
def Engine.parkContext (e : Engine) (c : ChannelId) (j : Job) (cl : Claim) : Engine :=
  let ch := e.chan c
  (e.setChan c { ch with state := .saving, work := .saveWrite, yieldHeld := false }).askFrom c .saveAreaWrite
    (writeWords cl.saveArea (saveWords j ch.progress))

/-- A yield taken at a boundary (R76): the dispatcher is told, and the job is parked. A job that holds no claim
on a channel whose bank is full is never asked (R78), and runs on. -/
def Engine.takeYield (e : Engine) (c : ChannelId) : Engine :=
  match (e.chan c).moving with
  | none => e
  | some (j, rs, _) =>
    match (e.chan c).shadow, j.claim with
    | none, _ => (e.clearYield c j.place).parkShadow c j rs
    | some _, some cl => (e.clearYield c j.place).parkContext c j cl
    | some _, none => e.proceed c

/-- A boundary (R74). -/
def Engine.boundary (e : Engine) (c : ChannelId) : Engine :=
  match (e.chan c).stop with
  | some r => e.takeStop c r
  | none => if (e.chan c).yieldHeld then e.takeYield c else e.proceed c

/-- A burst has completed (R98): the progress record moves on, and the channel is at a boundary, or in FINISHING
after the last burst. -/
def Engine.burstDone (e : Engine) (c : ChannelId) (n : Nat) (data : List Byte) : Engine :=
  match (e.chan c).moving with
  | none => e
  | some (j, rs, body) =>
    let p := advance body (e.chan c).progress n data
    if body.length ≤ p.bytesDone then e.finish c (finalResult j.record rs.service p) rs.service
    else (e.setChan c { e.chan c with progress := p, work := .boundary }).boundary c

/-! ### Dispatch (R69) and the check (R71 to R73, R85, R86) -/

/-- The job of an entry as a channel holds it. -/
def Entry.job (en : Entry) : Job :=
  { place := en.place, domain := en.domain, slot := en.slot, record := en.record, resume := en.resumeFromContext,
    recordedProgress := en.recordedProgress, claim := en.claim }

/-- The channel takes a dispatched job (R69): RESTORING reads the save area (R85), CHECKING writes RUNNING
(R71). -/
def Engine.beginJob (e : Engine) (c : ChannelId) (j : Job) : Engine :=
  let ch := e.chan c
  if j.resume then
    (e.setChan c { ch.release .restoring with job := some j, work := .saveRead }).askFrom c .saveAreaRead
      (readWords (match j.claim with | none => 0 | some cl => cl.saveArea) 8)
  else
    (e.setChan c { ch.release .checking with job := some j, work := .runningWrite }).askFrom c .runningWrite
      (writeWords ((e.domain j.domain).slotWord j.slot 0) [3])

/-- The JTC dispatches an entry to a channel (R69): ACTIVE there, the resume flag handed over and cleared. -/
def Engine.dispatchTo (e : Engine) (c : ChannelId) (en : Entry) : Engine :=
  ((e.setJtc (e.jtc.update en.place fun x =>
      { x with custody := .active, channel := some c, resumeFromContext := false })).noteStart en.place).beginJob c en.job

/-- The job enters MOVING at a boundary, its readings in use as its copies (R73, R86). -/
def Engine.enterMoving (e : Engine) (c : ChannelId) : Engine :=
  let ch := e.chan c
  match ch.job with
  | none => e
  | some j =>
    let body := bodyOf j.record ch.readings.service
    let p := match ch.saved with
      | some sa => restoredProgress sa
      | none => firstProgress body (chooseDirection body ch.readings.source ch.readings.dest)
    (e.setChan c { ch with
      state := .moving, work := .boundary, progress := p, copies := some ch.readings, readings := Readings.empty,
      saved := none }).boundary c

/-- The next USED pair, or MOVING after the last (R15). -/
def Engine.markUsed (e : Engine) (c : ChannelId) : List Nat → Engine
  | [] => e.enterMoving c
  | a :: rest => (e.setWork c (.usedMark rest)).askFrom c .usedMark (.pair a (.setBits usedMask))

/-- The USED marks begin (R73, R86). -/
def Engine.beginMarks (e : Engine) (c : ChannelId) : Engine := e.markUsed c (e.chan c).readings.kindWords

/-- After the claim: the parameter copy of a gate call with a parameter window, else the USED marks (R73, R112). -/
def Engine.afterClaim (e : Engine) (c : ChannelId) : Engine :=
  match (e.chan c).readings.param with
  | some r => (e.setWork c .paramMark).askFrom c .parameterCopy (writtenPair (some r))
  | none => e.beginMarks c

/-- Every operand has passed: a first start claims its context, if it has one (R71, R72); a restore goes on to
its marks (R86). -/
def Engine.checkPassed (e : Engine) (c : ChannelId) : Engine :=
  if (e.chan c).state = .restoring then e.beginMarks c
  else
    match (e.chan c).readings.context with
    | some r => (e.setWork c .claim).askFrom c .contextClaim (.pair (kindWordAddr r.address) .claim)
    | none => e.afterClaim c

/-- The next operand of a check: steps 1 to 3, then its reading (R9, R10). -/
def Engine.checkNext (e : Engine) (c : ChannelId) (ops : List Operand) : Engine :=
  match (e.chan c).job, ops with
  | none, _ => e
  | some _, [] => e.checkPassed c
  | some j, op :: rest =>
    let v := (e.chan c).readings.service
    let sel := selectorOf j.record v op
    let table := e.tableOf j.domain sel
    match checkSelector sel table.1 table.2 with
    | .error k => e.failCheck c k (op.fault v.isSome) sel
    | .ok a => (e.setWork c (.reading op rest)).askFrom c .descriptorReading (readWords a 4)

/-- A descriptor reading of a check: steps 4 to 9, the overlap test after the destination, and what follows
(R9 to R13, R105). -/
def Engine.checkReading (e : Engine) (c : ChannelId) (op : Operand) (rest : List Operand) (d : Descriptor) : Engine :=
  let ch := e.chan c
  match ch.job with
  | none => e
  | some j =>
    let v := ch.readings.service
    let sel := selectorOf j.record v op
    let body := bodyOf j.record v
    let el := effectiveLevel (baseLevel (e.domain j.domain).level ch.readings.gate op) sel
    let table := e.tableOf j.domain sel
    match checkDescriptor op v.isSome el (rangeOf body v op) d with
    | some k => e.failCheck c k (op.fault v.isSome) sel
    | none =>
      let rs := ch.readings.keep op ⟨table.1 + 16 * selIndex sel, d⟩
      if op = .dest ∧ overlapFails body rs.source rs.dest = true then e.failCheck c .overlap (op.fault v.isSome) sel
      else
        let e1 := e.setChan c { ch with readings := rs }
        if op = .gate then
          (e1.setWork c .serviceRecord).askFrom c .serviceRecordReading (readWords d.service.toNat 8)
        else e1.checkNext c rest

/-- The reading of a service record (R106, R107, R115). The record is in use after the next-offset test, so a failure
there carries no SVC_NOTIFY pair: DESIGN CHOICE (log 37). -/
def Engine.checkService (e : Engine) (c : ChannelId) (v : ServiceRecord) : Engine :=
  let ch := e.chan c
  match ch.job with
  | none => e
  | some j =>
    if !v.valid then e.failCheck c .badWindow .service j.record.source
    else if v.maxLength < j.record.length then e.failCheck c .gateRange .service j.record.source
    else
      match ch.saved.filter fun sa => !offsetsAgree (bodyOf j.record (some v)) sa with
      | some _ => e.failCheck c .contextCorrupt .context j.record.context
      | none =>
        (e.setChan c { ch with readings := { ch.readings with service := some v } }).checkNext c
          (serviceOperands j.record v)

/-- The reading of the save area (R85, R115). -/
def Engine.checkSaveArea (e : Engine) (c : ChannelId) (ws : List Word) : Engine :=
  let ch := e.chan c
  match ch.job with
  | none => e
  | some j =>
    match (acceptSaveArea j ws).filter fun sa => j.record.isGate || offsetsAgree (bodyOf j.record none) sa, j.claim with
    | some sa, some cl =>
      (e.setChan c { ch with saved := some sa, work := .contextRead }).askFrom c .contextDescriptorRead
        (readWords cl.descriptor 4)
    | _, _ => e.failCheck c .contextCorrupt .context j.record.context

/-- The restore's reading of the context descriptor (R85). -/
def Engine.checkContext (e : Engine) (c : ChannelId) (d : Descriptor) : Engine :=
  match (e.chan c).job with
  | none => e
  | some j =>
    if kindOf d.kind = 4 then e.checkNext c (firstOperands j.record)
    else e.failCheck c .contextCorrupt .context j.record.context

/-- The claim pair has read a kind word (R72). -/
def Engine.claimRead (e : Engine) (c : ChannelId) (kindWord : Word) : Engine :=
  match (e.chan c).job with
  | none => e
  | some j =>
    if kindOf kindWord = 3 then
      (e.setWork c .claimMark).askFrom c .claimMarkWrite (writeWords (baseOf (e.chan c).readings.context) [0])
    else if kindOf kindWord = 4 then e.failCheck c .contextHeld .context j.record.context
    else e.failCheck c .wrongKind .context j.record.context

/-- The MARK write of a claim is done (R72): the channel reports the claim and goes on. -/
def Engine.claimMarked (e : Engine) (c : ChannelId) : Engine :=
  let ch := e.chan c
  match ch.job, ch.readings.context with
  | some j, some r =>
    let cl : Claim := ⟨r.address, r.desc.base.toNat⟩
    (e.setChan c ({ ch with job := some { j with claim := some cl } }.report (.contextClaim j.place cl))).afterClaim c
  | _, _ => e

/-! ### The parameter copy (R112) -/

/-- The words of a parameter copy. -/
def parameterWords (j : Job) (level : Level) (v : ServiceRecord) : List Word :=
  identityWord j level v.paramCount :: j.record.params.take v.paramCount

/-- The bytes of a parameter copy cut at a block edge: the first burst, and the second if there is one. -/
def parameterBursts (base : Nat) (bs : List Byte) : List Byte × Option (Nat × List Byte) :=
  let n := bytesToEdge .ascending base
  if bs.length ≤ n then (bs, none) else (bs.take n, some (base + n, bs.drop n))

/-- The WRITTEN pair of the parameter window is done: the copy's first burst is issued. -/
def Engine.paramMarked (e : Engine) (c : ChannelId) : Engine :=
  let ch := e.chan c
  match ch.job, ch.readings.service, ch.readings.param with
  | some j, some v, some r =>
    let b := parameterBursts r.desc.base.toNat (wordsBytes (parameterWords j (e.domain j.domain).level v))
    (e.setChan c { ch with
      work := .paramWrite b.2, progress := { ch.progress with writtenParam := true } }).askFrom c .parameterCopy
      (.write r.desc.base.toNat b.1)
  | _, _, _ => e

/-- A burst of the parameter copy is done: the second is issued, or the copy is complete. -/
def Engine.paramWritten (e : Engine) (c : ChannelId) (second : Option (Nat × List Byte)) : Engine :=
  match second with
  | some (a, bs) => (e.setWork c (.paramWrite none)).askFrom c .parameterCopy (.write a bs)
  | none => e.beginMarks c

end Sys2Proof.Machine
end

