-- ==== Sys2Proof/Machine/ChannelSteps.lean ====
section
/-! DEFINITION. The commands that complete a channel's memory accesses, and the requests that reach a channel. -/

namespace Sys2Proof.Machine

/-! ### The check and the marks -/

/-- RUNNING_WRITE (R71): the slot reads RUNNING, and the check begins. -/
def execRunningWrite (s : State) : Host.Outcome State Fault Refusal :=
  completeChannel .runningWrite (fun c _ e =>
    match (e.chan c).job with
    | none => e
    | some j => e.checkNext c (firstOperands j.record)) s

/-- DESCRIPTOR_READING (R9 to R13): the reading is tested, and the check goes on or faults. -/
def execDescriptorReading (s : State) : Host.Outcome State Fault Refusal :=
  completeChannel .descriptorReading (fun c data e =>
    match (e.chan c).work with
    | .reading op rest => e.checkReading c op rest (Descriptor.ofWords (bytesWords data))
    | _ => e) s

/-- SERVICE_RECORD_READING (R105 to R107): the record is validated and the length tested. -/
def execServiceRecordReading (s : State) : Host.Outcome State Fault Refusal :=
  completeChannel .serviceRecordReading (fun c data e =>
    e.checkService c (ServiceRecord.ofWords (bytesWords data))) s

/-- CONTEXT_CLAIM (R72): a CONTEXT_FREE window is claimed, any other faults. -/
def execContextClaim (s : State) : Host.Outcome State Fault Refusal :=
  completeChannel .contextClaim (fun c data e => e.claimRead c (firstWord data)) s

/-- CLAIM_MARK_WRITE (R72): the save area is marked EMPTY, and the claim is reported. -/
def execClaimMarkWrite (s : State) : Host.Outcome State Fault Refusal :=
  completeChannel .claimMarkWrite (fun c _ e => e.claimMarked c) s

/-- PARAMETER_COPY (R112): the WRITTEN pair or a write of the copy is done. -/
def execParameterCopy (s : State) : Host.Outcome State Fault Refusal :=
  completeChannel .parameterCopy (fun c _ e =>
    match (e.chan c).work with
    | .paramMark => e.paramMarked c
    | .paramWrite second => e.paramWritten c second
    | _ => e) s

/-- USED_MARK (R15): a USED pair is done, and after the last the job enters MOVING. -/
def execUsedMark (s : State) : Host.Outcome State Fault Refusal :=
  completeChannel .usedMark (fun c _ e =>
    match (e.chan c).work with
    | .usedMark rest => e.markUsed c rest
    | _ => e) s

/-! ### Bursts -/

/-- The source bytes of a burst have been read (R91): a SUM burst is complete, a MOVE burst goes on to its
write. -/
def Engine.burstHasRead (e : Engine) (c : ChannelId) (b : Burst) (data : List Byte) : Engine :=
  match (e.chan c).moving with
  | none => e
  | some (_, rs, body) =>
    if body.op = .sum then e.burstDone c b.count data else e.issueWrite c rs { b with data := data }

/-- BURST_READ (R91). -/
def execBurstRead (s : State) : Host.Outcome State Fault Refusal :=
  completeChannel .burstRead (fun c data e =>
    match (e.chan c).work with
    | .burstRead b => e.burstHasRead c b data
    | _ => e) s

/-- WRITTEN_MARK (R102): the window is marked, and the burst's write is issued. -/
def execWrittenMark (s : State) : Host.Outcome State Fault Refusal :=
  completeChannel .writtenMark (fun c _ e =>
    match (e.chan c).work with
    | .writtenMark b =>
      let ch := e.chan c
      (e.setChan c { ch with
        work := .burstWrite b, progress := { ch.progress with writtenDest := true } }).askFrom c .burstWrite
        (.write b.dest b.data)
    | _ => e) s

/-- BURST_WRITE (R98): the burst is complete. -/
def execBurstWrite (s : State) : Host.Outcome State Fault Refusal :=
  completeChannel .burstWrite (fun c _ e =>
    match (e.chan c).work with
    | .burstWrite b => e.burstDone c b.count b.data
    | _ => e) s

/-! ### Parking and restoring -/

/-- The park in the context is made (R81): it is reported, held requests are discarded, and the channel is
free. -/
def Engine.contextParked (e : Engine) (c : ChannelId) : Engine :=
  let ch := e.chan c
  match ch.job with
  | none => e
  | some j =>
    ((e.clearHeldYield c j.place).setChan c
      ((ch.release .saving).report (.parkContext j.place ch.progress.bytesDone))).freeChannel c

/-- SAVE_AREA_WRITE (R81). -/
def execSaveAreaWrite (s : State) : Host.Outcome State Fault Refusal :=
  completeChannel .saveAreaWrite (fun c _ e => e.contextParked c) s

/-- SAVE_AREA_READ (R85): the save area is tested. -/
def execSaveAreaRead (s : State) : Host.Outcome State Fault Refusal :=
  completeChannel .saveAreaRead (fun c data e => e.checkSaveArea c (bytesWords data)) s

/-- CONTEXT_DESCRIPTOR_READ (R85): the context must read CONTEXT_HELD before the recheck begins. -/
def execContextDescriptorRead (s : State) : Host.Outcome State Fault Refusal :=
  completeChannel .contextDescriptorRead (fun c data e =>
    e.checkContext c (Descriptor.ofWords (bytesWords data))) s

/-! ### Requests that reach a channel (R70, R75, R76, R84) -/

/-- A job is active on a channel. -/
def Channel.runs (ch : Channel) (place : Nat) : Bool :=
  match ch.job with
  | none => false
  | some j => j.place == place

/-- A channel stands at a boundary in MOVING, waiting or frozen (R74, R75). -/
def Channel.atBoundary (ch : Channel) : Bool := ch.state == .moving && ch.work == .boundary

/-- A stop request for the active job (R75): taken at a boundary, discarded in FINISHING or when one is held,
and held otherwise. -/
def Engine.stopArrives (e : Engine) (c : ChannelId) (r : StopReason) : Engine :=
  let ch := e.chan c
  if ch.state = .finishing then e
  else if ch.atBoundary then e.takeStop c ((ch.stop).getD r)
  else if ch.stop.isSome then e
  else e.setChan c { ch with stop := some r }

/-- STOP_REQUEST (R75): the oldest stop request on its way to the channel arrives; one that names another job is
discarded (R70). -/
def execStopRequest (c : ChannelId) (s : State) : Host.Outcome State Fault Refusal :=
  .next (s.onEngine fun e =>
    let ch := e.chan c
    match ch.stops with
    | [] => e
    | m :: rest =>
      let e1 := e.setChan c { ch with stops := rest }
      if ch.runs m.place then e1.stopArrives c m.reason else e1)

/-- A yield request for the active job (R76, R100): taken at once where the job waits at a boundary and is not
frozen, and held otherwise. -/
def Engine.yieldArrives (e : Engine) (c : ChannelId) : Engine :=
  let e1 := e.setChan c { e.chan c with yieldHeld := true }
  if (e.chan c).atBoundary && !e.frozen then e1.boundary c else e1

/-- YIELD_REQUEST (R76): the dispatcher's oldest message to the channel, a yield, arrives; one that names another
job is discarded and no longer outstanding (R70, R77). -/
def execYieldRequest (c : ChannelId) (s : State) : Host.Outcome State Fault Refusal :=
  .next (s.onEngine fun e =>
    let ch := e.chan c
    match ch.yields with
    | .ask p :: rest =>
      let e1 := e.setChan c { ch with yields := rest }
      if ch.runs p then e1.yieldArrives c else e1.clearYield c p
    | _ => e)

/-- YIELD_WITHDRAWAL (R76): the dispatcher's oldest message to the channel, a withdrawal, arrives and clears a
yield held for the job it names. -/
def execYieldWithdrawal (c : ChannelId) (s : State) : Host.Outcome State Fault Refusal :=
  .next (s.onEngine fun e =>
    let ch := e.chan c
    match ch.yields with
    | .withdraw p :: rest =>
      e.setChan c { ch with yields := rest, yieldHeld := if ch.runs p then false else ch.yieldHeld }
    | _ => e)

/-- The job is in the channel's shadow bank. -/
def Channel.shadowHolds (ch : Channel) (place : Nat) : Option Shadow := ch.shadow.filter fun sh => sh.job.place == place

/-- A conditional dispatch not yet taken is given up (log 22). -/
def Channel.withoutConditional (ch : Channel) : Channel :=
  { ch with reports := ch.reports.filter fun r => match r with | .conditional _ => false | _ => true }

/-- A drop of the shadow job (R84): it is handed to closing and the bank is empty. A channel that was free goes
to IDLE (R82, log 22). -/
def Engine.dropShadow (e : Engine) (c : ChannelId) (sh : Shadow) (r : StopReason) : Engine :=
  let ch := e.chan c
  if ch.state = .free then e.setChan c ((ch.withoutConditional.handShadow sh r).release .idle)
  else e.setChan c (ch.handShadow sh r)

/-- DROP_REQUEST (R84): the oldest drop request on its way to the channel arrives. -/
def execDropRequest (c : ChannelId) (s : State) : Host.Outcome State Fault Refusal :=
  .next (s.onEngine fun e =>
    let ch := e.chan c
    match ch.drops with
    | [] => e
    | m :: rest =>
      let e1 := e.setChan c { ch with drops := rest }
      match ch.shadowHolds m.place with
      | some sh => e1.dropShadow c sh m.reason
      | none => if ch.runs m.place then e1.stopArrives c m.reason else e1)

end Sys2Proof.Machine
end

