-- ==== Sys2Proof/Machine/Reports.lean ====
section
/-! DEFINITION. Dispatch (R49, R69), and the JTC's taking of what channels report: claims, parks, resumes, handoffs and
conditional dispatches (R46, R47, R58, R70, R83). -/

namespace Sys2Proof.Machine

/-! ### Dispatch -/

/-- The JTC takes a dispatch for a channel (R49, R69), against the pending list as it then stands: the pending head
goes to the channel, which accepts it in IDLE alone (R68); with the list empty the dispatch is not made. -/
def Engine.takeDispatch (e : Engine) (c : ChannelId) : Engine :=
  match e.jtc.head with
  | some en => if (e.chan c).state = .idle then e.dispatchTo c en else e
  | none => e

/-- DISPATCH (R49, R69): the dispatch that the dispatcher has sent is taken, whatever the engine has become since
(log 15). -/
def execDispatch (s : State) : Host.Outcome State Fault Refusal :=
  .next (s.onEngine fun e =>
    match e.disp.sent with
    | none => e
    | some c => Engine.takeDispatch { e with disp := { e.disp with sent := none } } c)

/-! ### Taking reports in the order a channel makes them (R70) -/

/-- The oldest report of a channel is taken, when `f` says what taking it does; otherwise nothing happens. -/
def Engine.takeReport (e : Engine) (c : ChannelId) (f : Report → Option (Engine → Engine)) : Engine :=
  match (e.chan c).reports with
  | [] => e
  | r :: rest =>
    match f r with
    | none => e
    | some g => g (e.setChan c { e.chan c with reports := rest })

/-- A conditional dispatch is taken (R83): the pending head goes to the channel if it outranks the shadow, and
the shadow resumes otherwise. -/
def Engine.answerConditional (e : Engine) (c : ChannelId) (prio : BitVec 3) : Engine :=
  if (e.chan c).state = .free then
    match e.jtc.head with
    | some en => if e.isRunning && decide (prio < en.record.priority) then e.dispatchTo c en else e.resumeShadow c
    | none => e.resumeShadow c
  else e

/-- CONDITIONAL_DISPATCH (R83). -/
def execConditionalDispatch (c : ChannelId) (s : State) : Host.Outcome State Fault Refusal :=
  .next (s.onEngine fun e => e.takeReport c fun r =>
    match r with
    | .conditional prio => some fun e => e.answerConditional c prio
    | _ => none)

/-- A context claim recorded (R46). -/
def JobTable.claimed (j : JobTable) (place : Nat) (cl : Claim) : JobTable :=
  j.update place fun en => { en with claim := some cl }

/-- CONTEXT_CLAIM_REPORT (R46). -/
def execContextClaimReport (c : ChannelId) (s : State) : Host.Outcome State Fault Refusal :=
  .next (s.onEngine fun e => e.takeReport c fun r =>
    match r with
    | .contextClaim place cl => some fun e => e.setJtc (e.jtc.claimed place cl)
    | _ => none)

/-- An entry whose job was parked in the shadow bank of a channel (R46). -/
def Entry.shadowedOn (en : Entry) (c : ChannelId) : Entry :=
  { en with custody := .shadowed, channel := none, shadowChannel := some c, preempted := true }

/-- A park in the shadow bank taken (R46): with STOP_REASON set a drop request follows it (R47), and in DRAINING
the reason DRAIN is set first (R58). -/
def Engine.shadowParked (e : Engine) (c : ChannelId) (place : Nat) : Engine :=
  match e.jtc.find place with
  | none => e
  | some en =>
    let e1 := e.setJtc (e.jtc.update place fun x => x.shadowedOn c)
    match en.stopReason with
    | some r => e1.sendDrop (en.shadowedOn c) r
    | none => if e.isDraining then e1.requestStop (en.shadowedOn c) .drain else e1

/-- PARK_SHADOW_REPORT (R46, R47). -/
def execParkShadowReport (c : ChannelId) (s : State) : Host.Outcome State Fault Refusal :=
  .next (s.onEngine fun e => e.takeReport c fun r =>
    match r with
    | .parkShadow place => some fun e => e.shadowParked c place
    | _ => none)

/-- An entry whose job was parked in its context (R46), before its custody state is settled. -/
def Entry.contextParkedAt (en : Entry) (bytesDone : Nat) : Entry :=
  { en with channel := none, shadowChannel := none, recordedProgress := bytesDone, resumeFromContext := true,
            preempted := true }

/-- A park in the context taken: PENDING (R46), or CLOSING by its STOP_REASON (R47) or the drain (R58). -/
def JobTable.contextParked (j : JobTable) (draining : Bool) (place bytesDone : Nat) : JobTable :=
  match j.find place with
  | none => j
  | some en =>
    let parked := en.contextParkedAt bytesDone
    let j1 := j.update place fun x => x.contextParkedAt bytesDone
    match en.stopReason with
    | some r => j1.closeWaiting parked r.outcome
    | none =>
      if draining then j1.closeWaiting parked .drained
      else j1.update place fun x => { x with custody := .pending }

/-- PARK_CONTEXT_REPORT (R46, R47, R58). -/
def execParkContextReport (c : ChannelId) (s : State) : Host.Outcome State Fault Refusal :=
  .next (s.onEngine fun e => e.takeReport c fun r =>
    match r with
    | .parkContext place n => some fun e => e.setJtc (e.jtc.contextParked e.isDraining place n)
    | _ => none)

/-- A resume from the shadow bank recorded (R46): ACTIVE on its channel. -/
def JobTable.resumed (j : JobTable) (c : ChannelId) (place : Nat) : JobTable :=
  j.update place fun en => { en with custody := .active, channel := some c, shadowChannel := none }

/-- RESUME_SHADOW_REPORT (R46). -/
def execResumeShadowReport (c : ChannelId) (s : State) : Host.Outcome State Fault Refusal :=
  .next (s.onEngine fun e => e.takeReport c fun r =>
    match r with
    | .resumeShadow place => some fun e => e.setJtc (e.jtc.resumed c place)
    | _ => none)

/-- A handoff recorded (R45, R46): an ACTIVE or SHADOWED entry enters CLOSING at the tail of the closing queue. -/
def JobTable.handedOff (j : JobTable) (place : Nat) (r : JobResult) (n : Option ServiceNotify) : JobTable :=
  match j.find place with
  | none => j
  | some en => if en.custody = .active ∨ en.custody = .shadowed then j.close place r n else j

/-- HANDOFF (R46, R59, R114). -/
def execHandoff (c : ChannelId) (s : State) : Host.Outcome State Fault Refusal :=
  .next (s.onEngine fun e => e.takeReport c fun r =>
    match r with
    | .handoff place res n => some fun e => e.setJtc (e.jtc.handedOff place res n)
    | _ => none)

end Sys2Proof.Machine
end

