-- ==== Sys2Proof/Machine/Intake.lean ====
section
/-! DEFINITION. The intake pass (chapter 2): attention, the post word, classification, the clearing pair, the
surviving decisions, and the arming of R125. -/

namespace Sys2Proof.Machine

/-! ### A pass begins (R32 to R34) -/

/-- The domains counted upward from the one after `d`, wrapping from 7 to 0. -/
def domainsAfter (d : Domain) : List Domain := [d + 1, d + 2, d + 3, d + 4, d + 5, d + 6, d + 7, d]

/-- A domain is eligible for a pass (R32). -/
def Engine.wantsPass (e : Engine) (d : Domain) : Bool :=
  (e.domain d).enabled &&
    match e.post.attention[d] with
    | .clear => false
    | .posted => true
    | .held => decide (0 < e.jtc.allowance d)

/-- The domain the next pass serves (R33). -/
def Engine.nextDomain (e : Engine) : Option Domain := (domainsAfter e.jtc.rotation).find? e.wantsPass

/-- The pass in flight at another step. -/
def Engine.setPass (e : Engine) (p : Pass) : Engine := e.setJtc { e.jtc with pass := some p }

/-- A request of the intake pass. -/
def Engine.askIntake (e : Engine) (t : EngineStep) (a : EngineAccess) : Engine := e.ask .intake t a

/-- A pass begins for a domain (R33, R34). -/
def Engine.beginPass (e : Engine) (d : Domain) : Engine :=
  let e1 := (e.setAttention d .clear).setJtc { e.jtc with rotation := d, pass := some ⟨d, .postWord, false⟩ }
  e1.askIntake .postWordRead (readWords (e.domain d).postAddr 1)

/-- INTAKE_PASS (R33): while RUNNING and not frozen, with no pass in flight, a pass begins for the next eligible
domain. -/
def execIntakePass (s : State) : Host.Outcome State Fault Refusal :=
  .next (s.onEngine fun e =>
    if e.isRunning && !e.frozen && e.jtc.pass.isNone then
      match e.nextDomain with
      | none => e
      | some d => e.beginPass d
    else e)

/-! ### Reading and classifying (R34, R35) -/

/-- The bits of the post word for some slots. -/
def slotBits : List Slot → Word
  | [] => 0
  | s :: rest => (1#32 <<< s.val) ||| slotBits rest

/-- Classification is complete: the clearing pair is issued (R36, log 19). -/
def Engine.beginClearing (e : Engine) (p : Pass) (decided : List Decision) : Engine :=
  (e.setPass { p with step := .clearing decided }).askIntake .clearingPair
    (.pair (e.domain p.domain).postAddr (.clearBits (slotBits (decided.map fun x => x.slot))))

/-- The next posted slot is read, or classification is complete. -/
def Engine.readSlots (e : Engine) (p : Pass) (allowance : Nat) (decided : List Decision) : List Slot → Engine
  | [] => e.beginClearing p decided
  | s :: rest =>
    (e.setPass { p with step := .slots s none rest allowance decided }).askIntake .slotRead
      (readWords ((e.domain p.domain).slotWord s 0) 8)

/-- The post-word read of a pass is done (R34, R35): the allowance is computed and the posted slots are read. -/
def Engine.postWordRead (e : Engine) (p : Pass) (w : Word) : Engine :=
  e.readSlots p (e.jtc.allowance p.domain) [] (slotList.filter fun s => bit w s.val)

/-- POST_WORD_READ (R34, R35). -/
def execPostWordRead (s : State) : Host.Outcome State Fault Refusal :=
  completeEngine .postWordRead (fun _ data e =>
    match e.jtc.pass with
    | some p => if p.step = .postWord then e.postWordRead p (firstWord data) else e
    | none => e) s

/-- Classification (R34, R35): the decision, or none for a candidate left for want of room. -/
def classify (held : Bool) (r : JobRecord) (allowance : Nat) : Option Verdict :=
  if held then (if r.request = 1 then some .cancel else some .busyPost)
  else if r.ready then (if 0 < allowance then some (.take r) else none)
  else some .badPost

/-- A take decision lowers the allowance (R35). -/
def Verdict.allowanceAfter (n : Nat) : Verdict → Nat
  | .take _ => n - 1
  | _ => n

/-- A slot has been read whole (R34): it is classified, and the pass goes on to the next. -/
def Engine.slotClassified (e : Engine) (p : Pass) (s : Slot) (r : JobRecord) (rest : List Slot) (allowance : Nat)
    (decided : List Decision) : Engine :=
  match classify (e.jtc.holding p.domain s).isSome r allowance with
  | none => e.readSlots { p with left := true } allowance decided rest
  | some v => e.readSlots p (v.allowanceAfter allowance) (decided ++ [⟨s, v⟩]) rest

/-- SLOT_READ (R34): a burst of a slot reading is done; after the second the slot is classified (log 20). -/
def execSlotRead (s : State) : Host.Outcome State Fault Refusal :=
  completeEngine .slotRead (fun _ data e =>
    match e.jtc.pass with
    | none => e
    | some p =>
      match p.step with
      | .slots slot none rest n decided =>
        (e.setPass { p with step := .slots slot (some (bytesWords data)) rest n decided }).askIntake .slotRead
          (readWords ((e.domain p.domain).slotWord slot 12) 4)
      | .slots slot (some ws) rest n decided =>
        e.slotClassified p slot (JobRecord.ofWords ws (bytesWords data)) rest n decided
      | _ => e) s

/-! ### Cancels (R40, R50 to R53) -/

/-- A cancel delivered for a slot of a domain: the engine after it, and whether it came too late. -/
def Engine.deliverCancel (e : Engine) (d : Domain) (s : Slot) : Engine × Bool :=
  match e.jtc.holding d s with
  | none => (e, true)
  | some en =>
    match en.custody with
    | .closing => (e, true)
    | .active => (e.requestStop en .cancel, false)
    | .shadowed => (e.requestStop en .cancel, false)
    | .created => (e.setJtc (e.jtc.closeWaiting en .cancelled), false)
    | .pending => (e.setJtc (e.jtc.closeWaiting en .cancelled), false)
    | .armed => (e.setJtc (e.jtc.closeWaiting en .cancelled), false)

/-! ### Entries (R23, R37, R42) -/

/-- A record copy fails validation (R23). -/
def Engine.badJob (e : Engine) (r : JobRecord) : Bool :=
  decide (1 < r.request)
  || !(r.kind == 1 || r.kind == 2 || r.kind == 3 || r.kind == 4)
  || ((r.kind == 1 || r.kind == 3) && r.crc == 3)
  || (r.kind == 1 && r.expect && r.crc == 0)
  || (r.kind == 3 && r.crc == 0)
  || (r.kind == 2 && (r.crc != 0 || r.expect))
  || (match r.line with | some n => !(e.line n).enabled | none => r.trigger != 0)
  || (r.chain != 0 && r.chainSlot.isNone)
  || r.length == 0 || decide (65536 < r.length)
  || decide (0x3FFFF < r.sourceOffset) || decide (0x3FFFF < r.destOffset)
  || r.reservedSet

/-- TRIGGER names a line of another domain (R37 case 2). -/
def Engine.lineNotOwned (e : Engine) (d : Domain) (r : JobRecord) : Bool :=
  match r.line with
  | some n => decide ((e.line n).owner ≠ d)
  | none => false

/-- The outcome of an entry that intake closes at once (R37 cases 1 to 3). -/
def Engine.intakeOutcome (e : Engine) (d : Domain) (r : JobRecord) : Option JobResult :=
  if e.badJob r then some (faultResult .badJob .record .start 0 0)
  else if e.lineNotOwned d r then some (faultResult .lineNotOwned .line .start 0 0)
  else if r.request = 1 then some (plainResult .cancelled 0)
  else none

/-- A new entry (R42). -/
def Entry.fresh (place : Nat) (r : JobRecord) (d : Domain) (s : Slot) (taken : Bool) : Entry :=
  { place := place, record := r, domain := d, slot := s, custody := .created, deadline := r.deadlineCount,
    expiryDue := false, stopReason := none, claim := none, resumeFromContext := false, recordedProgress := 0,
    lineOverrun := false, preempted := false, channel := none, shadowChannel := none, startOrder := 0,
    takenOutstanding := taken, result := none, serviceNotify := none }

/-- The table with a new entry, next in intake order (R42, R44). -/
def JobTable.create (j : JobTable) (r : JobRecord) (d : Domain) (s : Slot) (taken : Bool) : JobTable :=
  { j with entries := j.entries ++ [Entry.fresh j.nextPlace r d s taken], nextPlace := j.nextPlace + 1 }

/-! ### Decisions carried out (R37, R38, R41) -/

/-- A report write is issued, `rest` being carried out after it (R41). -/
def Engine.writeReport (e : Engine) (p : Pass) (k : ReportKind) (s : Slot) (rest : List Decision) : Engine :=
  (e.setPass { p with step := .report rest }).askIntake .reportWrite
    (writeWords (e.domain p.domain).reportAddr [reportWord k s])

/-- The TAKEN write of a new entry is issued, `rest` being carried out after it (R37 case 4). -/
def Engine.writeTaken (e : Engine) (p : Pass) (s : Slot) (place : Nat) (rest : List Decision) : Engine :=
  (e.setPass { p with step := .taken place rest }).askIntake .takenWrite
    (writeWords ((e.domain p.domain).slotWord s 0) [2])

/-- A pass ends (R31, R38): attention becomes HELD if a candidate was left and nothing new was posted. -/
def Engine.endPass (e : Engine) (p : Pass) : Engine :=
  let e1 := e.setJtc { e.jtc with pass := none }
  if p.left && e1.post.attention[p.domain] == .clear then e1.setAttention p.domain .held else e1

/-- The surviving decisions are carried out in ascending slot order, up to the next memory access (R37, R40). -/
def Engine.carryOn (e : Engine) (p : Pass) : List Decision → Engine
  | [] => e.endPass p
  | x :: rest =>
    match x.verdict with
    | .busyPost => e.writeReport p .busyPost x.slot rest
    | .badPost => e.writeReport p .badPost x.slot rest
    | .cancel =>
      let r := e.deliverCancel p.domain x.slot
      if r.2 then e.writeReport p .cancelLate x.slot rest else r.1.carryOn p rest
    | .take record =>
      let place := e.jtc.nextPlace
      match e.intakeOutcome p.domain record with
      | some out =>
        (e.setJtc ((e.jtc.create record p.domain x.slot false).close place out none)).carryOn p rest
      | none => (e.setJtc (e.jtc.create record p.domain x.slot true)).writeTaken p x.slot place rest

/-- CLEARING_PAIR (R36): decisions whose bit the pair read clear are dropped, and the rest are carried out. -/
def execClearingPair (s : State) : Host.Outcome State Fault Refusal :=
  completeEngine .clearingPair (fun _ data e =>
    match e.jtc.pass with
    | none => e
    | some p =>
      match p.step with
      | .clearing decided => e.carryOn p (decided.filter fun x => bit (firstWord data) x.slot.val)
      | _ => e) s

/-- REPORT_WRITE (R37, R41): the pass goes on to its next decision. -/
def execReportWrite (s : State) : Host.Outcome State Fault Refusal :=
  completeEngine .reportWrite (fun _ _ e =>
    match e.jtc.pass with
    | none => e
    | some p =>
      match p.step with
      | .report rest => e.carryOn p rest
      | _ => e) s

/-! ### The TAKEN write (R37, R42, R58, R125) -/

/-- A triggered entry is armed on its line (R125). -/
def JobTable.arm (j : JobTable) (place : Nat) (n : Line) : JobTable :=
  if j.latch[n] then
    let j1 := j.update place fun en => { en with custody := .pending, lineOverrun := j.overrun[n] }
    { j1 with latch := j1.latch.set n false, overrun := j1.overrun.set n false }
  else j.update place fun en => { en with custody := .armed }

/-- An entry whose TAKEN write has completed: left in CLOSING if its deadline expired meanwhile (R42), closed
DRAINED in DRAINING (R58), else PENDING or armed (R37). -/
def JobTable.taken (j : JobTable) (draining : Bool) (place : Nat) : JobTable :=
  match j.find place with
  | none => j
  | some en =>
    let j1 := j.update place fun x => { x with takenOutstanding := false }
    if en.custody = .closing then j1
    else if draining then j1.closeWaiting en .drained
    else match en.record.line with
      | none => j1.update place fun x => { x with custody := .pending }
      | some n => j1.arm place n

/-- TAKEN_WRITE (R37). -/
def execTakenWrite (s : State) : Host.Outcome State Fault Refusal :=
  completeEngine .takenWrite (fun _ _ e =>
    match e.jtc.pass with
    | none => e
    | some p =>
      match p.step with
      | .taken place rest => (e.setJtc (e.jtc.taken e.isDraining place)).carryOn p rest
      | _ => e) s

end Sys2Proof.Machine
end

