-- ==== Sys2Proof/Machine/Closing.lean ====
section
/-! DEFINITION. Closing (R59 to R65): the result words, the release of the context, STATE DONE, the chain, the notify
requests and the freeing of the entry. -/

namespace Sys2Proof.Machine

/-- A request of the closing. -/
def Engine.askClosing (e : Engine) (t : EngineStep) (a : EngineAccess) : Engine := e.ask .closing t a

/-- The closing in flight at a step. -/
def Engine.setClosing (e : Engine) (place : Nat) (t : ClosingStep) : Engine :=
  e.setJtc { e.jtc with closing := some ⟨place, t⟩ }

/-- The outcome an entry in CLOSING carries (R59). -/
def Entry.outcome (en : Entry) : JobResult :=
  match en.result with
  | none => plainResult .drained 0
  | some r => r

/-- Word 8 of an entry's slot (R60), with CONTEXT_LOST as given (R61). -/
def Entry.flagsWord (en : Entry) (contextLost : Bool) : Word :=
  resultWord en.outcome.written en.lineOverrun contextLost en.preempted

/-- Words 8 to 11 of an entry's slot (R60). -/
def Entry.resultWords (en : Entry) : List Word :=
  let r := en.outcome.written
  [en.flagsWord false, r.selector.setWidth 32, BitVec.ofNat 32 r.bytesDone, r.crc]

/-- The entry of the closing in flight. -/
def Engine.closingEntry (e : Engine) : Option Entry :=
  match e.jtc.closing with
  | none => none
  | some k => e.jtc.find k.place

/-- The entry that the next closing closes (R59): the head of the queue, while no closing is in flight and its
TAKEN write is not outstanding (R42), in RUNNING or DRAINING. -/
def Engine.nextToClose (e : Engine) : Option Entry :=
  if e.working && e.jtc.closing.isNone then
    match e.jtc.queue with
    | [] => none
    | place :: _ => (e.jtc.find place).filter fun en => !en.takenOutstanding
  else none

/-- CLOSING_BEGIN (R59, R60): the result burst of the head of the closing queue is issued. -/
def execClosingBegin (s : State) : Host.Outcome State Fault Refusal :=
  .next (s.onEngine fun e =>
    match e.nextToClose with
    | none => e
    | some en =>
      (e.setClosing en.place .result).askClosing .resultWrite
        (writeWords ((e.domain en.domain).slotWord en.slot 8) en.resultWords))

/-- The DONE write is issued (R62). -/
def Engine.writeDone (e : Engine) (en : Entry) : Engine :=
  (e.setClosing en.place .done).askClosing .doneWrite
    (writeWords ((e.domain en.domain).slotWord en.slot 0) [4])

/-- RESULT_WRITE (R60, R61): a claimed context is released next, and otherwise DONE is written. -/
def execResultWrite (s : State) : Host.Outcome State Fault Refusal :=
  completeEngine .resultWrite (fun _ _ e =>
    match e.closingEntry with
    | none => e
    | some en =>
      match en.claim with
      | some cl =>
        (e.setClosing en.place .release).askClosing .contextRelease (.pair (kindWordAddr cl.descriptor) .release)
      | none => e.writeDone en) s

/-- The release pair has read a kind word (R61): CONTEXT_HELD is followed by the MARK write, anything else by the
rewrite with CONTEXT_LOST. -/
def Engine.contextReleased (e : Engine) (en : Entry) (kindWord : Word) : Engine :=
  match en.claim with
  | none => e
  | some cl =>
    if kindOf kindWord = 4 then
      (e.setClosing en.place .mark).askClosing .releaseMarkWrite (writeWords cl.saveArea [0])
    else
      (e.setClosing en.place .lost).askClosing .contextLostRewrite
        (writeWords ((e.domain en.domain).slotWord en.slot 8) [en.flagsWord true])

/-- CONTEXT_RELEASE (R61). -/
def execContextRelease (s : State) : Host.Outcome State Fault Refusal :=
  completeEngine .contextRelease (fun _ data e =>
    match e.closingEntry with
    | none => e
    | some en => e.contextReleased en (firstWord data)) s

/-- RELEASE_MARK_WRITE (R61, R62): DONE is written next. -/
def execReleaseMarkWrite (s : State) : Host.Outcome State Fault Refusal :=
  completeEngine .releaseMarkWrite (fun _ _ e =>
    match e.closingEntry with
    | none => e
    | some en => e.writeDone en) s

/-- CONTEXT_LOST_REWRITE (R61, R62): DONE is written next. -/
def execContextLostRewrite (s : State) : Host.Outcome State Fault Refusal :=
  completeEngine .contextLostRewrite (fun _ _ e =>
    match e.closingEntry with
    | none => e
    | some en => e.writeDone en) s

/-- The Notification Unit takes a notify request for a domain (R164). -/
def Engine.notifyDomain (e : Engine) (d : Domain) : Engine := { e with notify := setFlag e.notify d.val }

/-- The job's own notify request (R64). -/
def Engine.ownNotify (e : Engine) (en : Entry) : Engine :=
  if (e.domain en.domain).threshold < en.record.notifyLevel then e.notifyDomain en.domain else e

/-- The service notify request (R114). -/
def Engine.serviceNotify (e : Engine) (en : Entry) : Engine :=
  match en.serviceNotify with
  | none => e
  | some n =>
    if en.outcome.outcome = .ok ∧ (e.domain n.domain).enabled = true ∧ (e.domain n.domain).threshold < n.level then
      e.notifyDomain n.domain
    else e

/-- The entry is freed (R64). -/
def JobTable.free (j : JobTable) (place : Nat) : JobTable :=
  { j with entries := j.entries.filter fun en => en.place != place, queue := j.queue.filter (· != place),
           closing := none }

/-- The fifth and sixth steps of a closing: notify requests and freeing (R64). -/
def Engine.closeOut (e : Engine) (en : Entry) : Engine :=
  let e1 := (e.ownNotify en).serviceNotify en
  e1.setJtc (e1.jtc.free en.place)

/-- The slot whose chain a closing posts (R63): CHAIN of a job that closes OK. -/
def Entry.chainPost (en : Entry) : Option Slot := if en.outcome.outcome = .ok then en.record.chainSlot else none

/-- DONE_WRITE (R62 to R64): the chain is posted next, or the entry is freed. -/
def execDoneWrite (s : State) : Host.Outcome State Fault Refusal :=
  completeEngine .doneWrite (fun _ _ e =>
    match e.closingEntry with
    | none => e
    | some en =>
      match en.chainPost with
      | some slot =>
        (e.setClosing en.place .chain).askClosing .chainPosting
          (.pair (e.domain en.domain).postAddr (.setBits (slotBits [slot])))
      | none => e.closeOut en) s

/-- CHAIN_POSTING (R63, R64): attention is POSTED, and the entry is freed. -/
def execChainPosting (s : State) : Host.Outcome State Fault Refusal :=
  completeEngine .chainPosting (fun _ _ e =>
    match e.closingEntry with
    | none => e
    | some en => (e.setAttention en.domain .posted).closeOut en) s

end Sys2Proof.Machine
end

