-- ==== Sys2Proof/Machine/Lines.lean ====
section
/-! DEFINITION. The Timebase, the request-line filters, line events, deadlines and pacing ticks (chapter 7, R54 to
R56, R99, R100). -/

namespace Sys2Proof.Machine

/-! ### Line events (R124) and deadline expiries (R54 to R56) -/

/-- A line event taken against its line's record (R124). -/
def JobTable.lineEvent (j : JobTable) (draining : Bool) (n : Line) : JobTable :=
  match j.armedList n with
  | en :: _ =>
    if draining then j.closeWaiting en .drained
    else j.update en.place fun x => { x with custody := .pending }
  | [] =>
    if j.latch[n] then { j with overrun := j.overrun.set n true } else { j with latch := j.latch.set n true }

/-- LINE_EVENT (R122, R124): an event the filter has sent and the JTC not yet taken is taken. -/
def execLineEvent (n : Line) (s : State) : Host.Outcome State Fault Refusal :=
  .next (s.onEngine fun e =>
    if 0 < e.jtc.lineEvents[n] then
      e.setJtc (JobTable.lineEvent
        { e.jtc with lineEvents := e.jtc.lineEvents.set n (e.jtc.lineEvents[n] - 1) } e.isDraining n)
    else e)

/-- The earliest entry in intake order whose expiry is due (R54); the table stands in intake order. -/
def JobTable.expired (j : JobTable) : Option Entry := j.entries.find? fun en => en.expiryDue

/-- An expiry acts on its entry (R42, R55, R56). -/
def Engine.expire (e : Engine) (en : Entry) : Engine :=
  let e1 := e.setJtc (e.jtc.update en.place fun x => { x with expiryDue := false })
  match en.custody with
  | .closing => e1
  | .active => e1.requestStop en .deadline
  | .shadowed => e1.requestStop en .deadline
  | .created => e1.setJtc (e1.jtc.closeWaiting en .timedOut)
  | .pending => e1.setJtc (e1.jtc.closeWaiting en .timedOut)
  | .armed => e1.setJtc (e1.jtc.closeWaiting en .timedOut)

/-- DEADLINE_EXPIRY (R54 to R56): the earliest expiry due is taken; the next tick takes what is left (log 12). -/
def execDeadlineExpiry (s : State) : Host.Outcome State Fault Refusal :=
  .next (s.onEngine fun e =>
    match e.jtc.expired with
    | none => e
    | some en => e.expire en)

/-! ### One RCLK period (R117) -/

/-- An advance to a count ticks tap `k` (R117). -/
def ticks (count : BitVec 16) (k : Nat) : Bool := count.toNat % 2 ^ k == 0

/-- A line's entry counts an accepted change to a level as an event (R122): EDGE 1 RISE, 2 FALL, 3 BOTH. -/
def LineEntry.matchesEdge (l : LineEntry) (level : Bool) : Bool := if level then l.edge.getLsbD 0 else l.edge.getLsbD 1

/-- A filter samples its pin (R121): the filter after it, and whether it sends a line event (R122). -/
def Filter.sample (f : Filter) (l : LineEntry) (pin : Bool) : Filter × Bool :=
  match f.level with
  | none => (⟨some pin, 0⟩, false)
  | some level =>
    if pin = level then (⟨some level, 0⟩, false)
    else if l.count.val ≤ f.run + 1 then (⟨some pin, 0⟩, l.matchesEdge pin)
    else (⟨some level, f.run + 1⟩, false)

/-- A line's filter at an advance of the count (R117, R121). -/
def Engine.sampleLine (e : Engine) (rq : BitVec 8) (n : Line) : Engine :=
  let l := e.line n
  if l.enabled && ticks e.count l.tap.val then
    let r := (e.filters[n]).sample l (flagSet rq n.val)
    { e with
      filters := e.filters.set n r.1
      jtc := if r.2 then { e.jtc with lineEvents := e.jtc.lineEvents.set n (e.jtc.lineEvents[n] + 1) } else e.jtc }
  else e

/-- An entry's deadline count at an advance (R54); the count that reaches 0 makes an expiry due (log 12). -/
def Entry.deadlineTick (count : BitVec 16) (en : Entry) : Entry :=
  if en.custody ≠ .closing ∧ 0 < en.deadline ∧ ticks count en.record.deadlineTap = true then
    { en with deadline := en.deadline - 1, expiryDue := en.deadline == 1 }
  else en

/-- Every entry's deadline count at an advance. -/
def Engine.deadlineTicks (e : Engine) : Engine :=
  e.setJtc { e.jtc with entries := e.jtc.entries.map (Entry.deadlineTick e.count) }

/-- The unit a tick starts: the unit's bytes or the bytes remaining, whichever is fewer (R99). -/
def unitOf (j : Job) (body : Body) (p : Progress) : Nat := min (unitBytes j.record.paceUnit) (body.length - p.bytesDone)

/-- A channel's pacing tick (R99, R100): counted only while its job waits at a boundary, not held frozen. -/
def Engine.paceTick (e : Engine) (c : ChannelId) : Engine :=
  let ch := e.chan c
  match ch.moving with
  | none => e
  | some (j, _, body) =>
    if ch.atBoundary && !e.frozen && ch.waitsForTick && ticks e.count j.record.paceTap then
      (e.setChan c { ch with progress := { ch.progress with unitLeft := unitOf j body ch.progress } }).issueBurst c
    else e

/-- Expiries of earlier ticks that are still to be taken are taken, in intake order (R54, log 12). -/
def Engine.takeDue (e : Engine) : Engine := (e.jtc.entries.filter fun en => en.expiryDue).foldl Engine.expire e

/-- The divider count advances, after what earlier ticks left due, and each block takes its ticks: filters,
deadlines, channels (log 13). -/
def Engine.advanceTimebase (e : Engine) (rq : BitVec 8) : Engine :=
  let e1 := { e.takeDue with count := e.count + 1 }
  let e2 := lineList.foldl (fun e n => e.sampleLine rq n) e1
  channelList.foldl Engine.paceTick e2.deadlineTicks

/-- TAP_TICK (R117, R118): one RCLK period, with the levels of RQ0 to RQ7 in it. The count advances while the
Timebase is RUNNING. -/
def execTapTick (rq : BitVec 8) (s : State) : Host.Outcome State Fault Refusal :=
  .next (State.onEngine { s with rq := rq } fun e =>
    if e.timebase = .running then e.advanceTimebase rq else e)

end Sys2Proof.Machine
end

