-- ==== Sys2Proof/Machine/Control.lean ====
section
/-! DEFINITION. Engine Control (chapter 10): the commands of CONTROL, the anchor block's reading and tests, the
exposure check and MAP_RELOAD (chapter 9), the drain and the resets of the engine. -/

namespace Sys2Proof.Machine

/-! ### The exposure check (R148, R149) -/

/-- A map gives READ_WRITE to a page on which the bytes from `base` on, `len` of them, lie (R148). -/
def PageMap.exposes (m : PageMap) (base len : Nat) : Bool :=
  decide (0 < len) && decide (base ≤ 0x3FFFF) &&
    (List.range 64).any fun page =>
      decide (base / 4096 ≤ page) && decide (page ≤ min (base + len - 1) 0x3FFFF / 4096) && m.right page == 3

/-- The map about to be installed for a port: the block's, for a port above level 0 (R144). -/
def Ports.incoming (ps : Ports) (b : List Word) (p : Port) : Option PageMap :=
  if ps.level[p] = 0 then none else some (blockMap b p)

/-- The map about to be installed for a port exposes a range. -/
def Ports.exposed (ps : Ports) (b : List Word) (p : Port) (base len : Nat) : Bool :=
  match ps.incoming b p with
  | none => false
  | some m => m.exposes base len

/-- The loaded domains, or the block's, that are enabled, with their records. -/
def LoadedCopies.enabledDomain (k : LoadedCopies) (d : Domain) : Option DomainRecord :=
  if (k.domains[d]).enabled then some k.domains[d] else none

/-- The map about to be installed for a port exposes the global table or a local table (R149). -/
def Ports.exposesTable (ps : Ports) (b : List Word) (k : LoadedCopies) (p : Port) : Bool :=
  ps.exposed b p k.globalBase (16 * k.globalCount) ||
    domainList.any fun d =>
      match k.enabledDomain d with
      | none => false
      | some r => ps.exposed b p r.localBase (16 * r.localCount)

/-- A port other than its home port is given READ_WRITE to a page of an enabled domain's structures (R149). -/
def Ports.exposesDomain (ps : Ports) (b : List Word) (k : LoadedCopies) (d : Domain) : Bool :=
  match k.enabledDomain d with
  | none => false
  | some r => portList.any fun p => decide (p ≠ r.homePort) &&
      (ps.exposed b p r.slotBase 1024 || ps.exposed b p r.postAddr 4 || ps.exposed b p r.reportAddr 4)

/-- A failure code with the number of the port, domain or line it names. -/
structure Failure where
  code  : FaultCode
  index : BitVec 3
  deriving DecidableEq, Repr

/-- The failure of a test over some numbers: the first that fails it. -/
def firstFailure {n : Nat} (code : FaultCode) (fails : Fin n → Bool) (xs : List (Fin n)) : Option Failure :=
  (xs.find? fails).map fun x => ⟨code, BitVec.ofNat 3 x.val⟩

/-- The exposure check (R149), against the locations of `k` and the anchor block at `anchor`. -/
def Ports.exposureCheck (ps : Ports) (b : List Word) (k : LoadedCopies) (anchor : Nat) : Option Failure :=
  [firstFailure .anchorExposed (fun p => ps.exposed b p anchor Config.anchorSize) portList,
   firstFailure .tableExposed (fun p => ps.exposesTable b k p) portList,
   firstFailure .domainExposed (fun d => ps.exposesDomain b k d) domainList].findSome? id

/-- MAP_FIELD (R150, R156): a map about to be installed holds the unlisted right. -/
def Ports.mapField (ps : Ports) (b : List Word) : Option Failure :=
  firstFailure .mapField (fun p => match ps.incoming b p with | none => false | some m => m.hasUnlisted) portList

/-! ### START's tests (R156) -/

/-- Test 1: ANCHOR is a multiple of 512 and at most 0x3FE00. -/
def anchorAligned (a : Word) : Bool := a.toNat % 512 == 0 && decide (a.toNat ≤ 0x3FE00)

/-- Test 2. -/
def magicTest (b : List Word) : Option Failure := if blockMagic b = Config.magic then none else some ⟨.magic, 0⟩

/-- Test 3. -/
def globalTest (b : List Word) : Option Failure :=
  if blockGlobalBase b % 16 = 0 ∧ 1 ≤ blockGlobalCount b ∧ blockGlobalCount b ≤ 512
      ∧ blockGlobalBase b + 16 * blockGlobalCount b - 1 ≤ 0x3FFFF then none
  else some ⟨.globalTable, 0⟩

/-- A domain record's fields are in range and aligned (R156). -/
def DomainRecord.inRange (r : DomainRecord) : Bool :=
  r.slotBase % 1024 == 0 && decide (r.slotBase ≤ 0x3FC00)
  && r.postAddr % 4 == 0 && decide (r.postAddr ≤ 0x3FFFC)
  && r.reportAddr % 4 == 0 && decide (r.reportAddr ≤ 0x3FFFC)
  && decide (r.localCount ≤ 64) && r.localBase % 16 == 0
  && (r.localCount == 0 || decide (r.localBase + 16 * r.localCount - 1 ≤ 0x3FFFF))

/-- Test 4 fails for a domain. -/
def domainFieldFails (b : List Word) (d : Domain) : Bool :=
  (blockDomain b d).enabled && (!(blockDomain b d).inRange || domainReserved b d)

/-- Test 5 fails for a domain: its LEVEL is below its home port's. -/
def Ports.domainLevelFails (ps : Ports) (b : List Word) (d : Domain) : Bool :=
  (blockDomain b d).enabled && decide ((blockDomain b d).level < ps.level[(blockDomain b d).homePort])

/-- Two domains' slot areas share a byte, or they share a POST_ADDRESS. -/
def DomainRecord.overlaps (r q : DomainRecord) : Bool :=
  (decide (r.slotBase < q.slotBase + 1024) && decide (q.slotBase < r.slotBase + 1024)) || r.postAddr == q.postAddr

/-- Test 6 fails for a domain as the higher-numbered of a pair. -/
def domainOverlapFails (b : List Word) (d : Domain) : Bool :=
  (blockDomain b d).enabled && domainList.any fun q =>
    decide (q < d) && (blockDomain b q).enabled && (blockDomain b d).overlaps (blockDomain b q)

/-- Test 7 fails for a line. -/
def lineFieldFails (b : List Word) (n : Line) : Bool :=
  (blockLine b n).enabled &&
    ((blockLine b n).edge == 0 || !(blockDomain b (blockLine b n).owner).enabled || lineReserved b n)

/-- Tests 2 to 9 in order: the first failure (R156). -/
def Ports.startTests (ps : Ports) (b : List Word) (anchor : Nat) : Option Failure :=
  [magicTest b, globalTest b,
   firstFailure .domainField (domainFieldFails b) domainList,
   firstFailure .domainLevel (ps.domainLevelFails b) domainList,
   firstFailure .domainOverlap (domainOverlapFails b) domainList,
   firstFailure .lineField (lineFieldFails b) lineList,
   ps.mapField b,
   ps.exposureCheck b (blockCopies b) anchor].findSome? id

/-! ### Commands (R155) -/

/-- Engine Control's part changed. -/
def Engine.setCtl (e : Engine) (c : Control) : Engine := { e with ctl := c }

/-- A refused command (R155). -/
def Control.refuse (c : Control) (code : BitVec 3) : Control :=
  if c.flight.isSome then c else { c with command := code, result := .refused }

/-- A command accepted and in flight (R155). -/
def Control.accept (c : Control) (code : BitVec 3) (kind : FlightKind) : Control :=
  { c with command := code, result := .busy, faultCode := .none, faultIndex := 0,
           flight := some ⟨kind, c.anchor.toNat, []⟩ }

/-- The command in flight ends FAILED (R151, R157): a START enters FAILED. -/
def Control.fail (c : Control) (f : Failure) : Control :=
  { c with
    result := .failed, faultCode := f.code, faultIndex := f.index, flight := none
    state := match c.flight with | some ⟨.start, _, _⟩ => .failed | _ => c.state }

/-- The next engine burst of the command in flight: eight words (R150, R156). -/
def Engine.askAnchor (e : Engine) (t : EngineStep) : Engine :=
  match e.ctl.flight with
  | none => e
  | some fl => e.ask .control t (readWords (fl.anchor + 4 * fl.block.length) 8)

/-- The first step of a command in flight: the test of ANCHOR, made before any read (R150, R156, log 31). -/
def Engine.beginReading (e : Engine) (t : EngineStep) : Engine :=
  if anchorAligned e.ctl.anchor then e.askAnchor t else e.setCtl (e.ctl.fail ⟨.anchorAlign, 0⟩)

/-- The engine is STOPPED or FAILED. -/
def Engine.atRest (e : Engine) : Bool := e.ctl.state == .stopped || e.ctl.state == .failed

/-- START taken (R153, R155, R156). -/
def Engine.commandStart (e : Engine) : Engine :=
  if e.ctl.flight.isNone && e.atRest then
    (e.setCtl { e.ctl.accept 1 .start with state := .starting }).beginReading .startAnchorRead
  else e.setCtl (e.ctl.refuse 1)

/-- The drain of one entry (R57). -/
def Engine.drainEntry (e : Engine) (en : Entry) : Engine :=
  match en.custody with
  | .pending => e.setJtc (e.jtc.closeWaiting en .drained)
  | .armed => e.setJtc (e.jtc.closeWaiting en .drained)
  | .active => e.requestStop en .drain
  | .shadowed => e.requestStop en .drain
  | .created => e
  | .closing => e

/-- STOP taken (R155, R158): DRAINING, with every entry acted on in intake order (R57). -/
def Engine.commandStop (e : Engine) : Engine :=
  if e.ctl.flight.isNone && e.isRunning then
    e.jtc.entries.foldl Engine.drainEntry (e.setCtl { e.ctl with state := .draining, command := 2, result := .done })
  else e.setCtl (e.ctl.refuse 2)

/-- MAP_RELOAD taken (R150, R155). -/
def Engine.commandMapReload (e : Engine) : Engine :=
  if e.ctl.flight.isNone && e.ctl.state != .starting then
    (e.setCtl (e.ctl.accept 3 (.mapReload e.working))).beginReading .mapReloadRead
  else e.setCtl (e.ctl.refuse 3)

/-! ### Resets (R160, R161) -/

/-- The blocks of the engine after any reset (R43, R66, R77, R118, R120, R123, R139, R160), with Engine Control
as given. The rotation pointer has no effect until START (R32) and keeps its value. -/
def Engine.resetWith (e : Engine) (c : Control) (address : Vector (Option Nat) 8) : Engine :=
  { ctl := c
    post := { attention := Vector.replicate 8 .clear, address := address }
    jtc := JobTable.empty e.jtc.rotation
    disp := Dispatcher.empty
    channels := Vector.replicate 6 Channel.empty
    ei := EngineInterface.empty
    count := 0
    filters := Vector.replicate 8 Filter.unknown
    notify := 0 }

/-- The engine after ENGINE_RESET (R160). -/
def Engine.engineReset (e : Engine) : Engine :=
  e.resetWith { e.ctl with
    state := .stopped, cause := .engineReset, command := 4, result := .none, faultCode := .none, faultIndex := 0,
    flight := none } e.post.address

/-- The engine after a pin or power-on reset (R161); FRZ is a pin and stays as it is driven. -/
def Engine.partReset (e : Engine) (cause : ResetCause) : Engine :=
  e.resetWith { e.ctl with
    state := .stopped, cause := cause, command := 0, result := .none, faultCode := .none, faultIndex := 0,
    anchor := 0, flight := none, copies := none } (Vector.replicate 8 none)

/-- The unit that the arbiter has granted to the Engine Interface is completed whole, and its completion is passed
to no one (R135, R139, log 9). -/
def State.finishGranted (s : State) : State :=
  match s.arb.holder, s.eng.ei.unit with
  | some .engine, some u =>
    { s with mem := (u.request.access.perform s.mem).1, arb := { s.arb with holder := none } }
  | some .engine, none => { s with arb := { s.arb with holder := none } }
  | _, _ => s

/-- ENGINE_RESET taken (R155, R160). -/
def State.engineReset (s : State) : State :=
  let s1 := s.finishGranted
  { s1 with eng := s1.eng.engineReset }

/-- CLEAR_VIOLATION taken (R134, R147, R155). -/
def State.clearViolation (s : State) : State :=
  { s with
    ports := { s.ports with seen := 0, broken := 0, violation := none }
    eng := if s.eng.ctl.flight.isSome then s.eng else s.eng.setCtl { s.eng.ctl with command := 5, result := .done } }

/-- A CONTROL write taken as a command (R155, 12.8). -/
def State.takeCommand (s : State) (code : BitVec 3) : State :=
  if code = 1 then { s with eng := s.eng.commandStart }
  else if code = 2 then { s with eng := s.eng.commandStop }
  else if code = 3 then { s with eng := s.eng.commandMapReload }
  else if code = 4 then s.engineReset
  else if code = 5 then s.clearViolation
  else { s with eng := s.eng.setCtl (s.eng.ctl.refuse code) }

/-! ### START and MAP_RELOAD in flight (R144, R150, R151, R156, R157) -/

/-- The swap (R144): every port above level 0 takes its map of the block. -/
def Ports.swap (ps : Ports) (b : List Word) : Ports :=
  let next (p : Port) : Option PageMap := if ps.level[p] = 0 then ps.map[p] else some (blockMap b p)
  { ps with map := #v[next 0, next 1, next 2, next 3] }

/-- The Post Monitor's copies of the post addresses of the enabled domains (R30, R31). -/
def LoadedCopies.postAddress (k : LoadedCopies) (d : Domain) : Option Nat := (k.enabledDomain d).map fun r => r.postAddr

/-- A successful START at the engine's blocks (R31, R32, R119, R123, R157, log 23). -/
def Engine.load (e : Engine) (k : LoadedCopies) : Engine :=
  let att (d : Domain) : Attention := if (k.enabledDomain d).isSome then .posted else e.post.attention[d]
  { e with
    ctl := { e.ctl with copies := some k, state := .running, result := .done, flight := none }
    post := { attention := #v[att 0, att 1, att 2, att 3, att 4, att 5, att 6, att 7]
              address := #v[k.postAddress 0, k.postAddress 1, k.postAddress 2, k.postAddress 3,
                            k.postAddress 4, k.postAddress 5, k.postAddress 6, k.postAddress 7] }
    jtc := { e.jtc with latch := Vector.replicate 8 false, overrun := Vector.replicate 8 false,
                        lineEvents := Vector.replicate 8 0, rotation := 7 } }

/-- The block has been read whole by START (R156, R157). -/
def State.startJudged (s : State) (fl : Flight) (b : List Word) : State :=
  match s.ports.startTests b fl.anchor with
  | some f => { s with eng := s.eng.setCtl (s.eng.ctl.fail f) }
  | none => { s with eng := s.eng.load (blockCopies b), ports := s.ports.swap b }

/-- The locations MAP_RELOAD's exposure check uses (R150). -/
def Engine.reloadLocations (e : Engine) (fromCopies : Bool) (b : List Word) : LoadedCopies :=
  match fromCopies, e.ctl.copies with
  | true, some k => k
  | _, _ => blockCopies b

/-- MAP_RELOAD's tests after its reading (R150). -/
def State.reloadTests (s : State) (fromCopies : Bool) (fl : Flight) (b : List Word) : Option Failure :=
  [magicTest b, s.ports.mapField b,
   s.ports.exposureCheck b (s.eng.reloadLocations fromCopies b) fl.anchor].findSome? id

/-- The block has been read whole by MAP_RELOAD (R151). -/
def State.reloadJudged (s : State) (fromCopies : Bool) (fl : Flight) (b : List Word) : State :=
  match s.reloadTests fromCopies fl b with
  | some f => { s with eng := s.eng.setCtl (s.eng.ctl.fail f) }
  | none => { s with eng := s.eng.setCtl { s.eng.ctl with result := .done, flight := none }, ports := s.ports.swap b }

/-- A burst of the anchor block has been read: the next is issued, or the block is judged. -/
def State.anchorRead (s : State) (fl : Flight) (ws : List Word) : State :=
  let b := fl.block ++ ws
  let t := match fl.kind with | .start => EngineStep.startAnchorRead | .mapReload _ => EngineStep.mapReloadRead
  if b.length < 8 * Config.anchorBursts then
    { s with eng := (s.eng.setCtl { s.eng.ctl with flight := some { fl with block := b } }).askAnchor t }
  else match fl.kind with
    | .start => s.startJudged fl b
    | .mapReload fromCopies => s.reloadJudged fromCopies fl b

/-- START_ANCHOR_READ (R156, R157). -/
def execStartAnchorRead (s : State) : Host.Outcome State Fault Refusal :=
  completeUnit .startAnchorRead (fun _ data s =>
    match s.eng.ctl.flight with
    | none => s
    | some fl => s.anchorRead fl (bytesWords data)) s

/-- MAP_RELOAD_READ (R150, R151). -/
def execMapReloadRead (s : State) : Host.Outcome State Fault Refusal :=
  completeUnit .mapReloadRead (fun _ data s =>
    match s.eng.ctl.flight with
    | none => s
    | some fl => s.anchorRead fl (bytesWords data)) s

/-! ### The end of the drain (R159) -/

/-- The drain is complete (R159): DRAINING, with an empty table and no pass in flight. -/
def Engine.drained (e : Engine) : Bool := e.isDraining && e.jtc.entries.isEmpty && e.jtc.pass.isNone

/-- The engine enters STOPPED at the end of a drain (R31, R118, R159). -/
def Engine.enterStopped (e : Engine) : Engine :=
  { e with
    ctl := { e.ctl with state := .stopped }
    post := { e.post with attention := Vector.replicate 8 .clear }
    count := 0
    filters := Vector.replicate 8 Filter.unknown }

/-- DRAIN_COMPLETE (R159). -/
def execDrainComplete (s : State) : Host.Outcome State Fault Refusal :=
  .next (s.onEngine fun e => if e.drained then e.enterStopped else e)

end Sys2Proof.Machine
end

