-- ==== Sys2Proof/Machine/Ports.lean ====
section
/-! DEFINITION. The Port Interfaces and the Memory Arbiter (chapters 8 and 9): serving an access, the register
rights, violations, the watch of post words, grants and locked sequences. -/

namespace Sys2Proof.Machine

/-! ### Addresses (09 section 9.2) -/

/-- The word number of a register's address: the byte address is 0x40000 and up (00, the port address space). -/
def regWord : RegName → BitVec 17
  | .anchor => 0x10000
  | .control => 0x10001
  | .status => 0x10002
  | .note => 0x10003
  | .violation => 0x10004

/-- The five registers. -/
def regList : List RegName := [.anchor, .control, .status, .note, .violation]

/-- The class of an address. -/
inductive AddressClass where
  | sram
  | register (r : RegName)
  | unmapped
  deriving DecidableEq, Repr

/-- The class of a word (R142). -/
def addressClass (w : BitVec 17) : AddressClass :=
  if w < 0x10000 then .sram
  else match regList.find? fun r => regWord r == w with
    | some r => .register r
    | none => .unmapped

/-- The byte address of a word. -/
def byteAddr (w : BitVec 17) : Nat := 4 * w.toNat

/-- The page of a word of the SRAM. -/
def pageOf (w : BitVec 17) : Nat := byteAddr w / 4096

/-! ### Violations (R146, R147) and returned data (R131) -/

/-- A violation recorded (R147). -/
def Ports.violate (ps : Ports) (p : Port) (k : ViolationKind) (w : BitVec 17) : Ports :=
  { ps with
    seen := setFlag ps.seen p.val
    violation := match ps.violation with | some v => some v | none => some ⟨p, k, w⟩ }

/-- The data lanes a read returns, a lane whose enable is clear holding none (log 28). -/
def lanes (enables : BitVec 4) (w : Word) : Vector (Option Byte) 4 :=
  let lane (i : Nat) : Option Byte := if flagSet enables i then some (w.extractLsb' (8 * i) 8) else none
  #v[lane 0, lane 1, lane 2, lane 3]

/-- A read returns its data. -/
def State.returnData (s : State) (p : Port) (enables : BitVec 4) (w : Word) : State :=
  { s with ports := { s.ports with readData := s.ports.readData.set p (lanes enables w) } }

/-- An access is refused (R146): a read returns 0 in all four bytes, a write changes nothing, and a violation is
recorded. -/
def State.refuseAccess (s : State) (p : Port) (k : ViolationKind) (a : PortAccess) : State :=
  let s1 := if a.isWrite then s else s.returnData p 0b1111 0
  { s1 with ports := s1.ports.violate p k a.word }

/-! ### Registers (R145, R162, R165) -/

/-- The flags a port may clear (R165): every one from level 0, else those of the enabled domains it is home to. -/
def State.mayClear (s : State) (p : Port) (d : Domain) : Bool :=
  decide (s.ports.level[p] = 0) || ((s.eng.domain d).enabled && decide ((s.eng.domain d).homePort = p))

/-- The flags of some domains as a mask. -/
def domainBits : List Domain → BitVec 8
  | [] => 0
  | d :: ds => (1#8 <<< d.val) ||| domainBits ds

/-- The flags a NOTE write clears (R165). -/
def State.noteMask (s : State) (p : Port) (value : Word) : BitVec 8 :=
  domainBits (domainList.filter fun d => bit value d.val && s.mayClear p d)

/-- A NOTE write served (R164, R165). -/
def State.noteWrite (s : State) (p : Port) (value : Word) : State :=
  { s with eng := { s.eng with notify := s.eng.notify &&& ~~~ (s.noteMask p value) } }

/-- An ANCHOR write served (R162). -/
def State.anchorWrite (s : State) (value : Word) : State :=
  { s with eng := s.eng.setCtl { s.eng.ctl with anchor := value } }

/-- A register write is served (R145): any port writes NOTE, a level-0 port writes CONTROL, and ANCHOR while the
engine is at rest, and all four bytes are enabled. -/
def State.mayWrite (s : State) (p : Port) (r : RegName) (enables : BitVec 4) : Bool :=
  enables == 0b1111 &&
    match r with
    | .note => true
    | .control => decide (s.ports.level[p] = 0)
    | .anchor => decide (s.ports.level[p] = 0) && s.eng.atRest
    | .status => false
    | .violation => false

/-- A served register write reaches the block that owns the register (R142). -/
def State.registerServed (s : State) (p : Port) (r : RegName) (value : Word) : State :=
  match r with
  | .note => s.noteWrite p value
  | .control => s.takeCommand (bits value 0 3)
  | .anchor => s.anchorWrite value
  | .status => s
  | .violation => s

/-- A register write (R145): served, or refused with REGISTER_DENIED. -/
def State.registerWrite (s : State) (p : Port) (r : RegName) (enables : BitVec 4) (value : Word) : State :=
  if s.mayWrite p r enables then s.registerServed p r value
  else { s with ports := s.ports.violate p .registerDenied (regWord r) }

/-- An access to a register (R145): a read returns the whole word. -/
def State.registerAccess (s : State) (p : Port) (r : RegName) (a : PortAccess) : State :=
  if a.isWrite then s.registerWrite p r a.enables a.data else s.returnData p 0b1111 (s.registerWord r)

/-! ### SRAM accesses (R142, R143) and the Post Monitor (R30) -/

/-- The page check of an SRAM access (R143). -/
def Ports.allows (ps : Ports) (p : Port) (isWrite : Bool) (page : Nat) : Bool :=
  decide (ps.level[p] = 0) ||
    match ps.map[p] with
    | none => false
    | some m => m.right page == 3 || (m.right page == 1 && !isWrite)

/-- The word with the enabled bytes of another. -/
def mergeBytes (enables : BitVec 4) (old new : List Byte) : List Byte :=
  ((old.zip new).zip [0, 1, 2, 3]).map fun x => if flagSet enables x.2 then x.1.2 else x.1.1

/-- The enabled bytes of a word written (R142). -/
def Memory.writeEnabled (m : Memory) (a : Nat) (enables : BitVec 4) (w : Word) : Memory :=
  Memory.writeBytes m a (mergeBytes enables (Memory.readBytes m a 4) (wordBytes w))

/-- A completed write to a domain's post word raises its attention (R30, R31). -/
def Engine.watchDomain (e : Engine) (addr : Nat) (d : Domain) : Engine :=
  if (e.domain d).enabled && e.post.address[d] == some addr then e.setAttention d .posted else e

/-- The Post Monitor's watch of a completed write (R30): in RUNNING and DRAINING. -/
def Engine.watch (e : Engine) (addr : Nat) (enables : BitVec 4) : Engine :=
  if e.working && enables != 0 then domainList.foldl (fun e d => e.watchDomain addr d) e else e

/-- An access to the SRAM that passes its check (R142). -/
def State.sramServed (s : State) (p : Port) (a : PortAccess) : State :=
  if a.isWrite then
    { s with mem := s.mem.writeEnabled (byteAddr a.word) a.enables a.data
             eng := s.eng.watch (byteAddr a.word) a.enables }
  else s.returnData p a.enables (s.mem.word (byteAddr a.word))

/-- A port access is served or refused (R142). -/
def State.decideAccess (s : State) (p : Port) (a : PortAccess) : State :=
  match addressClass a.word with
  | .sram =>
    if s.ports.allows p a.isWrite (pageOf a.word) then s.sramServed p a
    else s.refuseAccess p (if a.isWrite then .writeDenied else .readDenied) a
  | .register r => s.registerAccess p r a
  | .unmapped => s.refuseAccess p .unmapped a

/-- A port access completes: WAIT is deasserted (R131, R142). -/
def State.serveAccess (s : State) (p : Port) (a : PortAccess) : State :=
  let s1 := s.decideAccess p a
  { s1 with ports := { s1.ports with access := s1.ports.access.set p none } }

/-! ### Grants and locked sequences (R128 to R134) -/

/-- A port's lock condition set. -/
def Arbiter.setLock (ar : Arbiter) (p : Port) (l : LockCondition) : Arbiter := { ar with lock := ar.lock.set p l }

/-- The requesters counted from the one after the last granted (R130). -/
def Requester.following : Requester → List Requester
  | .port 0 => [.port 1, .port 2, .port 3, .engine, .port 0]
  | .port 1 => [.port 2, .port 3, .engine, .port 0, .port 1]
  | .port 2 => [.port 3, .engine, .port 0, .port 1, .port 2]
  | .port 3 => [.engine, .port 0, .port 1, .port 2, .port 3]
  | .engine => [.port 0, .port 1, .port 2, .port 3, .engine]

/-- A requester is waiting (R129). -/
def State.waiting (s : State) : Requester → Bool
  | .port p => s.ports.access[p].isSome
  | .engine => s.eng.ei.unit.isSome

/-- The requester the arbiter grants (R128, R130). -/
def State.nextGrant (s : State) : Option Requester :=
  if s.arb.holder.isNone && !s.resetPin then s.arb.lastGranted.following.find? s.waiting else none

/-- The arbiter after a port's access is granted by the rotation (R130, R132, R133): the first access of a locked
sequence holds the grant, any other is a single access. That an access made with LOCK released by a BROKEN port frees the
condition here, at its grant, and not when it is presented is a DESIGN CHOICE (log 39). -/
def Arbiter.grantPort (ar : Arbiter) (p : Port) (a : PortAccess) : Arbiter :=
  let ar1 := { ar with lastGranted := .port p }
  match ar.lock[p] with
  | .broken _ => if a.lock then ar1 else ar1.setLock p .free
  | _ =>
    if a.lock then { ar1.setLock p .held with holder := some (.port p), holdCount := 1 } else ar1.setLock p .free

/-- The arbiter after a further access of a locked sequence (R132, R133). -/
def Arbiter.sequenceAccess (ar : Arbiter) (p : Port) (a : PortAccess) : Arbiter :=
  if !a.lock then { ar.setLock p .free with holder := none, holdCount := 0 }
  else if Config.lockLimit ≤ ar.holdCount + 1 then
    { ar.setLock p (.broken false) with holder := none, holdCount := 0 }
  else { ar with holdCount := ar.holdCount + 1 }

/-- A fifth access is taken (R133, log 21): LOCK_BROKEN is set once for each break. -/
def State.fifthAccess (s : State) (p : Port) (a : PortAccess) : State :=
  if s.arb.lock[p] = .broken false ∧ a.lock = true then
    { s with ports := { s.ports with broken := setFlag s.ports.broken p.val }, arb := s.arb.setLock p (.broken true) }
  else s

/-- A processor presents an access on a port that has none outstanding (R131). -/
def State.present (s : State) (p : Port) (a : PortAccess) : State :=
  State.fifthAccess { s with ports := { s.ports with access := s.ports.access.set p (some a) } } p a

/-- PORT_ACCESS (R131); on a port with an access outstanding nothing happens (log 1). -/
def execPortAccess (p : Port) (a : PortAccess) (s : State) : Host.Outcome State Fault Refusal :=
  .next (s.settled fun s => if s.ports.access[p].isSome then s else s.present p a)

/-- A grant made (R130): a port's access is served with it, and an engine unit waits for the step that completes
it. -/
def State.grant (s : State) (r : Requester) : State :=
  match r with
  | .engine => { s with arb := { s.arb with lastGranted := .engine, holder := some .engine } }
  | .port p =>
    match s.ports.access[p] with
    | none => s
    | some a => State.serveAccess { s with arb := s.arb.grantPort p a } p a

/-- ARBITER_GRANT (R130). -/
def execArbiterGrant (s : State) : Host.Outcome State Fault Refusal :=
  .next (s.settled fun s =>
    match s.nextGrant with
    | none => s
    | some r => s.grant r)

/-- The port that holds a locked sequence and the access it has presented (R132). -/
def State.heldAccess (s : State) : Option (Port × PortAccess) :=
  match s.arb.holder with
  | some (.port p) => (s.ports.access[p]).map fun a => (p, a)
  | _ => none

/-- LOCKED_SEQUENCE_ACCESS (R132, R133). -/
def execLockedSequenceAccess (s : State) : Host.Outcome State Fault Refusal :=
  .next (s.settled fun s =>
    match s.heldAccess with
    | none => s
    | some (p, a) => State.serveAccess { s with arb := s.arb.sequenceAccess p a } p a)

/-- LOCK released between accesses (R132, R133). -/
def Arbiter.unlock (ar : Arbiter) (p : Port) : Arbiter :=
  match ar.lock[p] with
  | .free => ar
  | .broken _ => ar.setLock p .free
  | .held => { ar.setLock p .free with holder := none, holdCount := 0 }

/-- LOCK_RELEASE (R132, R133): a port with no access outstanding releases LOCK. -/
def execLockRelease (p : Port) (s : State) : Host.Outcome State Fault Refusal :=
  .next (s.settled fun s =>
    if s.ports.access[p].isSome then s else { s with arb := s.arb.unlock p })

/-! ### Register writes as rows (log 10) -/

/-- The access that a register-write row presents: LOCK is released (log 10). -/
def registerWriteAccess (r : RegName) (enables : BitVec 4) (value : Word) : PortAccess :=
  { word := regWord r, isWrite := true, enables := enables, data := value, lock := false }

/-- An access just presented is served at once where the arbiter stays with the port or gives it the grant now
(R130, R132), and waits otherwise. -/
def State.serveNow (s : State) (p : Port) (a : PortAccess) : State :=
  if s.arb.holder = some (.port p) then State.serveAccess { s with arb := s.arb.sequenceAccess p a } p a
  else if s.nextGrant = some (.port p) then s.grant (.port p)
  else s

/-- A row that is a register write: the port presents it, and the step of the row goes on to its service where it is
granted at once (R129, R131, log 10). -/
def State.registerRow (s : State) (p : Port) (r : RegName) (enables : BitVec 4) (value : Word) : State :=
  s.settled fun s =>
    if s.ports.access[p].isSome then s
    else (s.present p (registerWriteAccess r enables value)).serveNow p (registerWriteAccess r enables value)

/-- START (R145, R155, R156). -/
def execStart (p : Port) (s : State) : Host.Outcome State Fault Refusal := .next (s.registerRow p .control 0b1111 1)

/-- STOP (R145, R155, R158). -/
def execStop (p : Port) (s : State) : Host.Outcome State Fault Refusal := .next (s.registerRow p .control 0b1111 2)

/-- MAP_RELOAD (R145, R150, R155). -/
def execMapReload (p : Port) (s : State) : Host.Outcome State Fault Refusal :=
  .next (s.registerRow p .control 0b1111 3)

/-- ENGINE_RESET (R145, R155, R160). -/
def execEngineReset (p : Port) (s : State) : Host.Outcome State Fault Refusal :=
  .next (s.registerRow p .control 0b1111 4)

/-- CLEAR_VIOLATION (R145, R147, R155). -/
def execClearViolation (p : Port) (s : State) : Host.Outcome State Fault Refusal :=
  .next (s.registerRow p .control 0b1111 5)

/-- UNNAMED_COMMAND_CODE (R145, R155): a code that names no command; with a code that names one nothing is
commanded. -/
def execUnnamedCommandCode (p : Port) (code : BitVec 3) (s : State) : Host.Outcome State Fault Refusal :=
  .next (if unnamedCode code then s.registerRow p .control 0b1111 (code.setWidth 32) else s)

/-- ANCHOR_WRITE (R145, R162). -/
def execAnchorWrite (p : Port) (value : Word) (s : State) : Host.Outcome State Fault Refusal :=
  .next (s.registerRow p .anchor 0b1111 value)

/-- NOTE_WRITE (R145, R165). -/
def execNoteWrite (p : Port) (value : Word) (s : State) : Host.Outcome State Fault Refusal :=
  .next (s.registerRow p .note 0b1111 value)

/-- REGISTER_DENIED (R145 to R147): a write that is refused whoever makes it; with other operands nothing is
commanded. -/
def execRegisterDenied (p : Port) (r : RegName) (enables : BitVec 4) (s : State) : Host.Outcome State Fault Refusal :=
  .next (if alwaysDenied r enables then s.registerRow p r enables 0 else s)

end Sys2Proof.Machine
end

