-- ==== Sys2Proof/Machine/Pins.lean ====
section
/-! DEFINITION. The pins that act on the whole part: RESET with the part's resets (R128, R141, R161), and FRZ (R154). -/

namespace Sys2Proof.Machine

/-! ### RESET -/

/-- The Port Interfaces after a pin or power-on reset (R134, R144, R147); levels are latched at the release, and
an access that waits for its grant goes on waiting (R128, log 30). -/
def Ports.partReset (ps : Ports) : Ports :=
  { ps with map := Vector.replicate 4 none, seen := 0, broken := 0, violation := none }

/-- The access that the holder of a locked sequence has presented completes, before the sequence ends with the reset
(R128). -/
def State.finishHeld (s : State) : State :=
  match s.heldAccess with
  | none => s
  | some (p, a) => s.serveAccess p a

/-- A pin or power-on reset (R128, R161): RESET is asserted, after the grant unit in progress is completed. -/
def State.partReset (s : State) (cause : ResetCause) : State :=
  let s1 := s.finishHeld.finishGranted
  { s1 with eng := s1.eng.partReset cause, ports := s1.ports.partReset, arb := Arbiter.empty, resetPin := true }

/-- PIN_RESET (R128, R161): RESET is asserted. -/
def execPinReset (s : State) : Host.Outcome State Fault Refusal :=
  .next (s.settled fun s => s.partReset .pin)

/-- POWER_ON_RESET (R161): as a pin reset, with the SRAM holding what the operand says (log 4). -/
def execPowerOnReset (sram : List Host.Cell) (s : State) : Host.Outcome State Fault Refusal :=
  .next (s.settled fun s => { s.partReset .powerOn with mem := Memory.ofCells sram })

/-- RESET_RELEASE (R128, R141): RESET is released, and each port latches its level from its pins. -/
def execResetRelease (l0 l1 l2 l3 : Level) (s : State) : Host.Outcome State Fault Refusal :=
  .next (s.settled fun s =>
    if s.resetPin then { s with resetPin := false, ports := { s.ports with level := #v[l0, l1, l2, l3] } } else s)

/-! ### FRZ -/

/-- FRZ_ASSERT (R154). -/
def execFrzAssert (s : State) : Host.Outcome State Fault Refusal :=
  .next (s.onEngine fun e => e.setCtl { e.ctl with frz := true })

/-- A channel whose job was held frozen at a boundary goes on from step 4 of R74. -/
def Engine.thaw (e : Engine) (c : ChannelId) : Engine := if (e.chan c).atBoundary then e.proceed c else e

/-- FRZ_DEASSERT (R74, R154): held jobs go on. -/
def execFrzDeassert (s : State) : Host.Outcome State Fault Refusal :=
  .next (s.onEngine fun e => channelList.foldl Engine.thaw (e.setCtl { e.ctl with frz := false }))

end Sys2Proof.Machine
end

