-- ==== Sys2Proof/Machine/Dispatch.lean ====
section
/-! DEFINITION. One arm for each command: a direct call of its meaning. -/

namespace Sys2Proof.Machine

/-- The effect of a command on everything but the queue. -/
def exec (i : Instr) (s : State) : Host.Outcome State Fault Refusal :=
  match i with
  | .start p => Sys2Proof.Machine.execStart p s
  | .stop p => Sys2Proof.Machine.execStop p s
  | .mapReload p => Sys2Proof.Machine.execMapReload p s
  | .engineReset p => Sys2Proof.Machine.execEngineReset p s
  | .clearViolation p => Sys2Proof.Machine.execClearViolation p s
  | .unnamedCommandCode p code => Sys2Proof.Machine.execUnnamedCommandCode p code s
  | .anchorWrite p value => Sys2Proof.Machine.execAnchorWrite p value s
  | .noteWrite p value => Sys2Proof.Machine.execNoteWrite p value s
  | .registerDenied p reg enables => Sys2Proof.Machine.execRegisterDenied p reg enables s
  | .startAnchorRead => Sys2Proof.Machine.execStartAnchorRead s
  | .mapReloadRead => Sys2Proof.Machine.execMapReloadRead s
  | .drainComplete => Sys2Proof.Machine.execDrainComplete s
  | .pinReset => Sys2Proof.Machine.execPinReset s
  | .powerOnReset sram => Sys2Proof.Machine.execPowerOnReset sram s
  | .resetRelease l0 l1 l2 l3 => Sys2Proof.Machine.execResetRelease l0 l1 l2 l3 s
  | .frzAssert => Sys2Proof.Machine.execFrzAssert s
  | .frzDeassert => Sys2Proof.Machine.execFrzDeassert s
  | .portAccess p a => Sys2Proof.Machine.execPortAccess p a s
  | .arbiterGrant => Sys2Proof.Machine.execArbiterGrant s
  | .lockedSequenceAccess => Sys2Proof.Machine.execLockedSequenceAccess s
  | .lockRelease p => Sys2Proof.Machine.execLockRelease p s
  | .intakePass => Sys2Proof.Machine.execIntakePass s
  | .postWordRead => Sys2Proof.Machine.execPostWordRead s
  | .slotRead => Sys2Proof.Machine.execSlotRead s
  | .clearingPair => Sys2Proof.Machine.execClearingPair s
  | .reportWrite => Sys2Proof.Machine.execReportWrite s
  | .takenWrite => Sys2Proof.Machine.execTakenWrite s
  | .dispatch => Sys2Proof.Machine.execDispatch s
  | .conditionalDispatch c => Sys2Proof.Machine.execConditionalDispatch c s
  | .contextClaimReport c => Sys2Proof.Machine.execContextClaimReport c s
  | .parkShadowReport c => Sys2Proof.Machine.execParkShadowReport c s
  | .parkContextReport c => Sys2Proof.Machine.execParkContextReport c s
  | .resumeShadowReport c => Sys2Proof.Machine.execResumeShadowReport c s
  | .handoff c => Sys2Proof.Machine.execHandoff c s
  | .lineEvent n => Sys2Proof.Machine.execLineEvent n s
  | .tapTick rq => Sys2Proof.Machine.execTapTick rq s
  | .deadlineExpiry => Sys2Proof.Machine.execDeadlineExpiry s
  | .stopRequest c => Sys2Proof.Machine.execStopRequest c s
  | .yieldRequest c => Sys2Proof.Machine.execYieldRequest c s
  | .yieldWithdrawal c => Sys2Proof.Machine.execYieldWithdrawal c s
  | .dropRequest c => Sys2Proof.Machine.execDropRequest c s
  | .runningWrite => Sys2Proof.Machine.execRunningWrite s
  | .descriptorReading => Sys2Proof.Machine.execDescriptorReading s
  | .serviceRecordReading => Sys2Proof.Machine.execServiceRecordReading s
  | .contextClaim => Sys2Proof.Machine.execContextClaim s
  | .claimMarkWrite => Sys2Proof.Machine.execClaimMarkWrite s
  | .parameterCopy => Sys2Proof.Machine.execParameterCopy s
  | .usedMark => Sys2Proof.Machine.execUsedMark s
  | .burstRead => Sys2Proof.Machine.execBurstRead s
  | .writtenMark => Sys2Proof.Machine.execWrittenMark s
  | .burstWrite => Sys2Proof.Machine.execBurstWrite s
  | .saveAreaWrite => Sys2Proof.Machine.execSaveAreaWrite s
  | .saveAreaRead => Sys2Proof.Machine.execSaveAreaRead s
  | .contextDescriptorRead => Sys2Proof.Machine.execContextDescriptorRead s
  | .closingBegin => Sys2Proof.Machine.execClosingBegin s
  | .resultWrite => Sys2Proof.Machine.execResultWrite s
  | .contextRelease => Sys2Proof.Machine.execContextRelease s
  | .releaseMarkWrite => Sys2Proof.Machine.execReleaseMarkWrite s
  | .contextLostRewrite => Sys2Proof.Machine.execContextLostRewrite s
  | .doneWrite => Sys2Proof.Machine.execDoneWrite s
  | .chainPosting => Sys2Proof.Machine.execChainPosting s

end Sys2Proof.Machine
end

