-- ==== Sys2Proof/Safety.lean ====
section
/-! DEFINITION. The vocabulary of statements about the part: what a step leaves as it was, the requests that wait
at the Engine Interface, and the laws that every step keeps. -/

namespace Sys2Proof.Machine

/-! ### Frames -/

/-- The pieces of state that a frame names. Three pieces stand outside every frame because every step may change
them as it ends (R69, R77, R137): the outstanding yields with the dispatcher's messages on their way to the channels,
the dispatch on its way to the JTC, and which of the Engine Interface's requests is the unit in progress. -/
inductive Part where
  /-- shared SRAM -/
  | mem
  /-- the Port Interfaces -/
  | ports
  /-- the Memory Arbiter -/
  | arb
  /-- RESET and RQ0 to RQ7 -/
  | pins
  /-- the queue of commands -/
  | queue
  /-- Engine Control, with FRZ -/
  | control
  /-- the Post Monitor -/
  | post
  /-- the job table, its queues, the pass, the closing and the line records -/
  | table
  /-- the dispatcher's start order -/
  | starts
  /-- a channel, but for the dispatcher's messages on their way to it -/
  | channel (c : ChannelId)
  /-- the divider count and the filters -/
  | timebase
  /-- the notify flags -/
  | notify
  deriving DecidableEq, Repr

/-- A channel but for the dispatcher's messages on their way to it. -/
def Channel.own (ch : Channel) : Channel := { ch with yields := [] }

/-- A piece of the engine's state is the same in two engines. -/
def Engine.same (e f : Engine) : Part → Prop
  | .mem => True
  | .ports => True
  | .arb => True
  | .pins => True
  | .queue => True
  | .control => f.ctl = e.ctl
  | .post => f.post = e.post
  | .table => f.jtc = e.jtc
  | .starts => f.disp.nextStart = e.disp.nextStart
  | .channel c => (f.chan c).own = (e.chan c).own
  | .timebase => f.count = e.count ∧ f.filters = e.filters
  | .notify => f.notify = e.notify

/-- A piece of state is the same in two states. -/
def State.same (s t : State) (p : Part) : Prop :=
  match p with
  | .mem => t.mem = s.mem
  | .ports => t.ports = s.ports
  | .arb => t.arb = s.arb
  | .pins => t.resetPin = s.resetPin ∧ t.rq = s.rq
  | .queue => t.pending = s.pending
  | p => s.eng.same t.eng p

/-- Two states agree but for some pieces. -/
def State.SameBut (ps : List Part) (s t : State) : Prop := ∀ p, p ∉ ps → s.same t p

/-- Every channel. -/
def everyChannel : List Part := [.channel 0, .channel 1, .channel 2, .channel 3, .channel 4, .channel 5]

/-! ### Requests at the Engine Interface -/

/-- The request of an owner that waits to be chosen. -/
def EngineInterface.waits (ei : EngineInterface) : Owner → Option Request
  | .channel c => ei.channels[c]
  | .intake => ei.intake
  | .closing => ei.closing
  | .control => ei.control

/-- A request of an owner has been presented and is not yet completed: it waits, or is the unit in progress. -/
def Engine.presents (e : Engine) (o : Owner) (t : EngineStep) (a : EngineAccess) : Prop :=
  e.ei.waits o = some ⟨t, a⟩ ∨ e.ei.unit = some ⟨o, ⟨t, a⟩⟩

/-- The unit in progress is the named access of a step of an owner's work, the arbiter has granted it, and it
names bytes of the SRAM alone. -/
def State.completes (s : State) (o : Owner) (t : EngineStep) (a : EngineAccess) : Prop :=
  s.arb.holder = some .engine ∧ s.eng.ei.unit = some ⟨o, ⟨t, a⟩⟩ ∧ a.inSram = true

/-- A state after the access of a completed unit (R130, R137): memory after it, and the arbiter free. -/
def State.Completed (s t : State) (a : EngineAccess) : Prop :=
  t.mem = (a.perform s.mem).1 ∧ t.arb = { s.arb with holder := none }

/-- The command that completes an engine step. -/
def EngineStep.command : EngineStep → Instr
  | .startAnchorRead => .startAnchorRead
  | .mapReloadRead => .mapReloadRead
  | .postWordRead => .postWordRead
  | .slotRead => .slotRead
  | .clearingPair => .clearingPair
  | .reportWrite => .reportWrite
  | .takenWrite => .takenWrite
  | .runningWrite => .runningWrite
  | .descriptorReading => .descriptorReading
  | .serviceRecordReading => .serviceRecordReading
  | .contextClaim => .contextClaim
  | .claimMarkWrite => .claimMarkWrite
  | .parameterCopy => .parameterCopy
  | .usedMark => .usedMark
  | .burstRead => .burstRead
  | .writtenMark => .writtenMark
  | .burstWrite => .burstWrite
  | .saveAreaWrite => .saveAreaWrite
  | .saveAreaRead => .saveAreaRead
  | .contextDescriptorRead => .contextDescriptorRead
  | .resultWrite => .resultWrite
  | .contextRelease => .contextRelease
  | .releaseMarkWrite => .releaseMarkWrite
  | .contextLostRewrite => .contextLostRewrite
  | .doneWrite => .doneWrite
  | .chainPosting => .chainPosting

/-! ### What statements name -/

/-- BYTES_DONE of a job closed while it waits (R50, R55, R57). -/
def Entry.heldBytes (en : Entry) : Nat := if en.resumeFromContext then en.recordedProgress else 0

/-- An entry after the drain's action on it (R57). -/
def Entry.afterDrain (en : Entry) : Entry :=
  if en.custody = .pending ∨ en.custody = .armed then
    { en with custody := .closing, result := some (plainResult .drained en.heldBytes), serviceNotify := none,
              expiryDue := false }
  else if (en.custody = .active ∨ en.custody = .shadowed) ∧ en.stopReason = none then
    { en with stopReason := some .drain }
  else en

/-- An entry after the expiry due for it is taken (R42, R55, R56). -/
def Entry.afterExpiry (en : Entry) : Entry :=
  if en.expiryDue = false then en
  else if en.custody = .pending ∨ en.custody = .armed ∨ en.custody = .created then
    { en with custody := .closing, result := some (plainResult .timedOut en.heldBytes), serviceNotify := none,
              expiryDue := false }
  else if (en.custody = .active ∨ en.custody = .shadowed) ∧ en.stopReason = none then
    { en with stopReason := some .deadline, expiryDue := false }
  else { en with expiryDue := false }

/-- An entry after an advance of the divider to a count (R54). -/
def Entry.afterTick (count : BitVec 16) (en : Entry) : Entry :=
  if en.custody ≠ .closing ∧ 0 < en.deadline ∧ count.toNat % 2 ^ en.record.deadlineTap = 0 then
    { en with deadline := en.deadline - 1, expiryDue := decide (en.deadline = 1) }
  else en

/-- An entry that no other pending entry stands before (R48). -/
def JobTable.Heads (j : JobTable) (en : Entry) : Prop :=
  en ∈ j.entries ∧ en.custody = .pending ∧
  ∀ x ∈ j.entries, x.custody = .pending → x ≠ en →
    x.record.priority < en.record.priority ∨ (x.record.priority = en.record.priority ∧ en.place < x.place)

/-- A channel that takes a dispatched job (R69): it is active there, with nothing done and nothing read, and the bank
and the messages stay as they were (the empty progress record: log 36). -/
def Channel.Takes (a b : Channel) (j : Job) : Prop :=
  b.own = { a.own with
    state := if j.resume then .restoring else .checking
    work := if j.resume then .saveRead else .runningWrite
    job := some j, progress := Progress.empty, readings := Readings.empty, copies := none, saved := none
    stop := none, yieldHeld := false }

/-- A channel hands its job to closing and is IDLE, its bank being empty (R82, R87). -/
def Channel.HandsOff (a b : Channel) (place : Nat) (r : JobResult) (n : Option ServiceNotify) : Prop :=
  b.own = { a.own with
    state := .idle, work := .none, job := none, progress := Progress.empty, readings := Readings.empty,
    copies := none, saved := none, stop := none, yieldHeld := false, reports := a.reports ++ [.handoff place r n] }

/-- The choice of a free channel whose bank is full (R83). It was `a` before its job left it, and has made the reports
`rs` since: in DRAINING it hands the shadow over and is IDLE, while frozen it resumes the shadow and holds it at its
first boundary, and otherwise it sends a conditional dispatch with the shadow's PRIORITY. -/
def State.FreesFull (ps : List Part) (s t : State) (c : ChannelId) (a : Channel) (sh : Shadow) (rs : List Report) :
    Prop :=
  (s.eng.ctl.state = .draining →
    (t.eng.chan c).own = { a.own with
      state := .idle, work := .none, job := none, progress := Progress.empty, readings := Readings.empty
      copies := none, saved := none, shadow := none, stop := none, yieldHeld := false
      reports := a.reports ++ rs ++
        [.handoff sh.job.place ⟨.drained, .none, .none, .none, 0, sh.progress.bytesDone, 0⟩ none] } ∧
    s.SameBut (.channel c :: ps) t) ∧
  (s.eng.ctl.state ≠ .draining → s.eng.frozen = true →
    (t.eng.chan c).own = { a.own with
      state := .moving, work := .boundary, job := some sh.job
      progress := { sh.progress with unitLeft := 0, writtenDest := false, writtenParam := false }
      readings := Readings.empty, copies := some sh.copies, saved := none, shadow := none, stop := none
      yieldHeld := false, reports := a.reports ++ rs ++ [.resumeShadow sh.job.place] } ∧
    t.eng.disp.nextStart = s.eng.disp.nextStart + 1 ∧
    t.eng.jtc = { s.eng.jtc with entries := s.eng.jtc.entries.map fun x =>
      if x.place = sh.job.place then { x with startOrder := s.eng.disp.nextStart } else x } ∧
    s.SameBut (.channel c :: .table :: .starts :: ps) t) ∧
  (s.eng.ctl.state ≠ .draining → s.eng.frozen = false →
    (t.eng.chan c).own = { a.own with
      state := .free, work := .none, job := none, progress := Progress.empty, readings := Readings.empty
      copies := none, saved := none, stop := none, yieldHeld := false
      reports := a.reports ++ rs ++ [.conditional sh.job.record.priority] } ∧
    s.SameBut (.channel c :: ps) t)

/-- A channel hands its job to closing (R87): with its bank empty it is IDLE, and with a full one it chooses as a free
channel does (R82, R83). -/
def State.Finishes (ps : List Part) (s t : State) (c : ChannelId) (a : Channel) (place : Nat) (r : JobResult)
    (n : Option ServiceNotify) : Prop :=
  (a.shadow = none → a.HandsOff (t.eng.chan c) place r n ∧ s.SameBut (.channel c :: ps) t) ∧
  ∀ sh, a.shadow = some sh → s.FreesFull ps t c a sh [.handoff place r n]

/-- A channel, otherwise as `a`, issues a burst of its job (R91, R102): the read of a MOVE or SUM, the write of a FILL,
or the WRITTEN pair before that write. -/
def Engine.Issues (e : Engine) (c : ChannelId) (a : Channel) (body : Body) (rs : Readings) (b : Burst) : Prop :=
  (e.chan c).own = { a.own with
    work := if body.op = .fill then (if a.progress.writtenDest then .burstWrite b else .writtenMark b)
            else .burstRead b } ∧
  (body.op ≠ .fill → e.presents (.channel c) .burstRead (.read b.source b.count)) ∧
  (body.op = .fill → a.progress.writtenDest = true → e.presents (.channel c) .burstWrite (.write b.dest b.data)) ∧
  ∀ r, body.op = .fill → a.progress.writtenDest = false → rs.dest = some r →
    e.presents (.channel c) .writtenMark (.pair (r.address + 12) (.setBits 0x1000))

/-- A channel, otherwise as `a`, takes a yield at a boundary of the job `j`, whose copies are `rs`: it parks the job in
an empty bank and is free with its bank full, and with a full bank it writes the save area of the context that the job
holds, as 12.4 gives (R76, R80, R81). -/
def State.TakesYield (ps : List Part) (s t : State) (c : ChannelId) (a : Channel) (j : Job) (rs : Readings) : Prop :=
  (∀ sh, a.shadow = none → sh = ⟨j, a.progress, rs⟩ →
    s.FreesFull ps t c { a with shadow := some sh } sh [.parkShadow j.place]) ∧
  ∀ sh cl, a.shadow = some sh → j.claim = some cl →
    (t.eng.chan c).own = { a.own with state := .saving, work := .saveWrite, yieldHeld := false } ∧
    (∃ w1 : Word, t.eng.presents (.channel c) .saveAreaWrite
        (.write cl.saveArea (wordsBytes [1, w1, BitVec.ofNat 32 a.progress.nextSource,
          BitVec.ofNat 32 a.progress.nextDest, BitVec.ofNat 32 a.progress.bytesDone, a.progress.crc, 0, 0])) ∧
      w1.toNat = j.domain.val + 256 * j.slot.val + 65536 *
        (match a.progress.direction with | .ascending => 1 | .descending => 2)) ∧
    s.SameBut (.channel c :: ps) t

/-- `n` bytes lie in one 32-byte block of the SRAM: upward from `x` for an ascending job, and downward from just below it
for a descending one (R90). -/
def Direction.OneBlock (dir : Direction) (x n : Nat) : Prop :=
  ∀ i, i < n →
    match dir with
    | .ascending => (x + i) / 32 = x / 32
    | .descending => (x - 1 - i) / 32 = (x - 1) / 32

/-- A job's next burst may hold `n` bytes, its windows' copies beginning at `src` and `dst` (R90). -/
def Body.MayBurst (b : Body) (paced : Bool) (src dst : Nat) (p : Progress) (n : Nat) : Prop :=
  n ≤ b.length - p.bytesDone ∧ (paced = true → n ≤ p.unitLeft) ∧
  (b.op ≠ .fill → p.direction.OneBlock (src + p.nextSource) n) ∧
  (b.op ≠ .sum → p.direction.OneBlock (dst + p.nextDest) n)

/-- The physical source range and destination range of a transfer share a byte (R13, R92). -/
def Body.RangesShare (b : Body) (source dest : Descriptor) : Prop :=
  ∃ x, source.base.toNat + b.sourceFirst ≤ x ∧ x < source.base.toNat + b.sourceFirst + b.length ∧
    dest.base.toNat + b.destFirst ≤ x ∧ x < dest.base.toNat + b.destFirst + b.length

/-- The direction that a first start chooses (R92): descending for a MOVE whose ranges share a byte and whose destination
begins above its source. -/
def Body.Chooses (b : Body) (source dest : Option Reading) (dir : Direction) : Prop :=
  dir = .descending ↔ b.op = .move ∧ ∃ s d, source = some s ∧ dest = some d ∧ b.RangesShare s.desc d.desc ∧
    s.desc.base.toNat + b.sourceFirst < d.desc.base.toNat + b.destFirst

/-- The next offset of an operand whose first offset is `first`, after `done` bytes (R93): 0 for one that the kind does
not use. -/
def Body.OffsetAfter (b : Body) (used : Bool) (dir : Direction) (first done : Nat) : Nat :=
  if used = false then 0
  else match dir with
    | .ascending => first + done
    | .descending => first + b.length - done

/-- The phase and BYTES_DONE of a check that fails on a channel: START and 0 at a first start, RESUME and the recorded
progress at a resume (R9, R71, R86). -/
def Channel.FailsAt (ch : Channel) (j : Job) (ph : FaultPhase) (n : Nat) : Prop :=
  (ch.state = .checking ∧ ph = .start ∧ n = 0) ∨ (ch.state = .restoring ∧ ph = .resume ∧ n = j.recordedProgress)

/-- The result of a check that fails: a stop that is held is taken, and the fault is not reported (R87). -/
def Channel.failure (ch : Channel) (k : FaultKind) (o : FaultOperand) (ph : FaultPhase) (sel : BitVec 16) (n : Nat) :
    JobResult :=
  match ch.stop with
  | some r => plainResult r.outcome n
  | none => faultResult k o ph sel n

/-- The next offsets of a save area are those that the first offsets, the direction and the progress give (R85, R93,
R115): 0 for an operand the kind does not use. -/
def SaveArea.Agrees (b : Body) (sa : SaveArea) : Prop :=
  sa.nextSource = (if b.op = .fill then 0 else
    match sa.direction with
    | .ascending => b.sourceFirst + sa.bytesDone
    | .descending => b.sourceFirst + b.length - sa.bytesDone) ∧
  sa.nextDest = (if b.op = .sum then 0 else
    match sa.direction with
    | .ascending => b.destFirst + sa.bytesDone
    | .descending => b.destFirst + b.length - sa.bytesDone)

/-- The notify flags after a closing's notify requests (R64, R114). -/
def Engine.notifiedFlag (e : Engine) (en : Entry) (d : Domain) : Bool :=
  e.notify.getLsbD d.val
  || (decide (en.domain = d) && decide ((e.domain d).threshold < en.record.notifyLevel))
  || (match en.serviceNotify with
      | none => false
      | some n => decide (n.domain = d) && decide (en.outcome.outcome = .ok) && (e.domain d).enabled
          && decide ((e.domain d).threshold < n.level))

/-- A port is served next, with the access it has presented (R130). -/
def State.Serves (s : State) (p : Port) (a : PortAccess) : Prop :=
  s.arb.holder = none ∧ s.resetPin = false ∧ s.ports.access[p] = some a ∧
  s.arb.lastGranted.following.find? s.waiting = some (.port p)

/-- The port may make the access (R143): level 0, or the page's right allows it. -/
def Ports.Allows (ps : Ports) (p : Port) (a : PortAccess) : Prop :=
  ps.level[p] = 0 ∨ ∃ m, ps.map[p] = some m ∧
    (m.right (a.word.toNat / 1024) = 3 ∨ (m.right (a.word.toNat / 1024) = 1 ∧ a.isWrite = false))

/-- A violation of a port recorded (R147): its flag is set, and an empty record is filled. -/
def Ports.After (ps : Ports) (p : Port) (k : ViolationKind) (w : BitVec 17) : Ports :=
  { ps with seen := ps.seen ||| (1#4 <<< p.val)
            violation := if ps.violation.isSome then ps.violation else some ⟨p, k, w⟩ }

/-- The arbiter after an access that it grants to a port by the rotation, LOCK being asserted with it or not (R130,
R132, R133; when a BROKEN condition returns to FREE: log 39). -/
def Arbiter.AfterGrant (ar : Arbiter) (p : Port) (lock : Bool) : Arbiter :=
  if lock = false then { ar with lastGranted := .port p, lock := ar.lock.set p .free }
  else match ar.lock[p] with
    | .broken _ => { ar with lastGranted := .port p }
    | _ => { lastGranted := .port p, holder := some (.port p), holdCount := 1, lock := ar.lock.set p .held }

/-- The arbiter after a further access of the locked sequence that a port holds (R132, R133). -/
def Arbiter.AfterSequence (ar : Arbiter) (p : Port) (lock : Bool) : Arbiter :=
  if lock = false then { ar with holder := none, holdCount := 0, lock := ar.lock.set p .free }
  else if 3 ≤ ar.holdCount then { ar with holder := none, holdCount := 0, lock := ar.lock.set p (.broken false) }
  else { ar with holdCount := ar.holdCount + 1 }

/-- A command serves an access that a port has presented, and leaves the arbiter as said: a grant, or the next access of
the sequence that the port holds (R130, R132). -/
def State.ServedBy (s : State) (i : Instr) (p : Port) (a : PortAccess) (ar : Arbiter) : Prop :=
  (i = .arbiterGrant ∧ s.Serves p a ∧ ar = s.arb.AfterGrant p a.lock) ∨
  (i = .lockedSequenceAccess ∧ s.arb.holder = some (.port p) ∧ s.ports.access[p] = some a ∧
    ar = s.arb.AfterSequence p a.lock)

/-- The port's access that a register-write row presents, made with LOCK released (log 10). -/
def rowAccess : Instr → Option (Port × PortAccess)
  | .start p => some (p, ⟨0x10001, true, 0b1111, 1, false⟩)
  | .stop p => some (p, ⟨0x10001, true, 0b1111, 2, false⟩)
  | .mapReload p => some (p, ⟨0x10001, true, 0b1111, 3, false⟩)
  | .engineReset p => some (p, ⟨0x10001, true, 0b1111, 4, false⟩)
  | .clearViolation p => some (p, ⟨0x10001, true, 0b1111, 5, false⟩)
  | .unnamedCommandCode p code =>
    if code = 0 ∨ code = 6 ∨ code = 7 then some (p, ⟨0x10001, true, 0b1111, code.setWidth 32, false⟩) else none
  | .anchorWrite p value => some (p, ⟨0x10000, true, 0b1111, value, false⟩)
  | .noteWrite p value => some (p, ⟨0x10003, true, 0b1111, value, false⟩)
  | .registerDenied p r enables =>
    if r = .status ∨ r = .violation ∨ enables ≠ 0b1111 then
      some (p, ⟨0x10000 + BitVec.ofNat 17 (regList.idxOf r), true, enables, 0, false⟩)
    else none
  | _ => none

/-- A row spells a port's register write (R145, 12.8): the same register and byte enables, and where all four bytes are
enabled the same code for CONTROL and the same value for ANCHOR and NOTE. -/
def Spells (i : Instr) (p : Port) (a : PortAccess) : Prop :=
  ∃ b, rowAccess i = some (p, b) ∧ a.isWrite = true ∧ a.word = b.word ∧ a.enables = b.enables ∧
    (a.enables = 0b1111 → a.word = 0x10001 → a.data.extractLsb' 0 3 = b.data.extractLsb' 0 3) ∧
    (a.enables = 0b1111 → a.word = 0x10000 ∨ a.word = 0x10003 → a.data = b.data)

/-- A port with no access outstanding is served as soon as it presents one (R130, R132): it holds a locked sequence, or
the arbiter has no holder and the rotation comes to it first. -/
def State.ServesRow (s : State) (p : Port) : Prop :=
  s.ports.access[p] = none ∧
  (s.arb.holder = some (.port p) ∨
    (s.arb.holder = none ∧ s.resetPin = false ∧
      s.arb.lastGranted.following.find? (fun r => decide (r = .port p) || s.waiting r) = some (.port p)))

/-- The arbiter after a register-write row has been served (R130, R132, log 10). -/
def Arbiter.AfterRow (ar : Arbiter) (p : Port) : Arbiter :=
  if ar.holder = some (.port p) then ar.AfterSequence p false else ar.AfterGrant p false

/-! ### The anchor block's tests (R148, R149, R156) -/

/-- The tests of START, MAP_RELOAD and the exposure check, in the order they are made (R149, R150, R156). -/
def testOrder : List FaultCode :=
  [.magic, .globalTable, .domainField, .domainLevel, .domainOverlap, .lineField, .mapField, .anchorExposed,
   .tableExposed, .domainExposed]

/-- The failure found among those that stand: the first test in order, and of that test the lowest number. -/
def FirstFault (fails : FaultCode → Nat → Prop) (f : Failure) : Prop :=
  fails f.code f.index.toNat ∧ (∀ i, i < f.index.toNat → ¬ fails f.code i) ∧
  ∀ c i, testOrder.idxOf c < testOrder.idxOf f.code → ¬ fails c i

/-- The map about to be installed for a port above level 0 gives READ_WRITE to a page that holds one of the `len` bytes
from `base` on (R148, R149). -/
def Ports.Exposes (ps : Ports) (b : List Word) (p : Port) (base len : Nat) : Prop :=
  ps.level[p] ≠ 0 ∧ ∃ x, base ≤ x ∧ x < base + len ∧ x ≤ 0x3FFFF ∧ (blockMap b p).right (x / 4096) = 3

/-- The exposure check fails, with the number of a port or of a domain (R149). -/
def Ports.ExposureFault (ps : Ports) (b : List Word) (k : LoadedCopies) (anchor : Nat) : FaultCode → Nat → Prop
  | .anchorExposed, i => ∃ p : Port, p.val = i ∧ ps.Exposes b p anchor 512
  | .tableExposed, i => ∃ p : Port, p.val = i ∧
      (ps.Exposes b p k.globalBase (16 * k.globalCount) ∨
        ∃ d : Domain, (k.domains[d]).enabled = true ∧
          ps.Exposes b p (k.domains[d]).localBase (16 * (k.domains[d]).localCount))
  | .domainExposed, i => ∃ d : Domain, d.val = i ∧ (k.domains[d]).enabled = true ∧
      ∃ p : Port, p ≠ (k.domains[d]).homePort ∧
        (ps.Exposes b p (k.domains[d]).slotBase 1024 ∨ ps.Exposes b p (k.domains[d]).postAddr 4 ∨
          ps.Exposes b p (k.domains[d]).reportAddr 4)
  | _, _ => False

/-- The tests that MAP_RELOAD and START share fail: MAGIC, the maps' rights, and the exposure check against the
locations in `k` (R150, R156). -/
def Ports.MapFault (ps : Ports) (b : List Word) (k : LoadedCopies) (anchor : Nat) : FaultCode → Nat → Prop
  | .magic, i => i = 0 ∧ blockWord b 0 ≠ 0x4B540640
  | .mapField, i => ∃ p : Port, p.val = i ∧ ps.level[p] ≠ 0 ∧ ∃ page : Fin 64, (blockMap b p).right page.val = 2
  | c, i => ps.ExposureFault b k anchor c i

/-- A domain's fields are in range and aligned (R156). -/
def DomainRecord.Fits (r : DomainRecord) : Prop :=
  r.slotBase % 1024 = 0 ∧ r.slotBase ≤ 0x3FC00 ∧ r.postAddr % 4 = 0 ∧ r.postAddr ≤ 0x3FFFC ∧
  r.reportAddr % 4 = 0 ∧ r.reportAddr ≤ 0x3FFFC ∧ r.localCount ≤ 64 ∧ r.localBase % 16 = 0 ∧
  (0 < r.localCount → r.localBase + 16 * r.localCount - 1 ≤ 0x3FFFF)

/-- START's tests 2 to 9 fail, with FAULT_INDEX (R156). -/
def Ports.StartFault (ps : Ports) (b : List Word) (anchor : Nat) : FaultCode → Nat → Prop
  | .globalTable, i => i = 0 ∧
      ¬ ((blockWord b 1).toNat % 16 = 0 ∧ 1 ≤ ((blockWord b 2).extractLsb' 0 10).toNat ∧
        ((blockWord b 2).extractLsb' 0 10).toNat ≤ 512 ∧
        (blockWord b 1).toNat + 16 * ((blockWord b 2).extractLsb' 0 10).toNat - 1 ≤ 0x3FFFF)
  | .domainField, i => ∃ d : Domain, d.val = i ∧ (blockDomain b d).enabled = true ∧
      (¬ (blockDomain b d).Fits ∨
        (∃ k ∈ [1, 2, 3, 6, 7, 10, 11, 15, 18, 19, 27, 28, 29, 30, 31], (domainWord b d 0).getLsbD k = true) ∨
        domainWord b d 5 ≠ 0 ∨ domainWord b d 6 ≠ 0 ∨ domainWord b d 7 ≠ 0)
  | .domainLevel, i => ∃ d : Domain, d.val = i ∧ (blockDomain b d).enabled = true ∧
      (blockDomain b d).level < ps.level[(blockDomain b d).homePort]
  | .domainOverlap, i => ∃ d q : Domain, d.val = i ∧ q < d ∧ (blockDomain b d).enabled = true ∧
      (blockDomain b q).enabled = true ∧
      ((∃ x, (blockDomain b d).slotBase ≤ x ∧ x < (blockDomain b d).slotBase + 1024 ∧
          (blockDomain b q).slotBase ≤ x ∧ x < (blockDomain b q).slotBase + 1024) ∨
        (blockDomain b d).postAddr = (blockDomain b q).postAddr)
  | .lineField, i => ∃ n : Line, n.val = i ∧ (blockLine b n).enabled = true ∧
      ((blockLine b n).edge = 0 ∨ (blockDomain b (blockLine b n).owner).enabled = false ∨
        ∃ k ∈ [1, 2, 3, 7, 10, 11, 19, 20, 21, 22, 23, 24, 25, 26, 27, 28, 29, 30, 31],
          (lineWord b n).getLsbD k = true)
  | c, i => ps.MapFault b (blockCopies b) anchor c i

/-- Where MAP_RELOAD takes the locations of the exposure check from (R150): the loaded copies, or the block as read. -/
def State.ReloadFrom (s : State) (fromCopies : Bool) (b : List Word) (k : LoadedCopies) : Prop :=
  (fromCopies = true ∧ s.eng.ctl.copies = some k) ∨
  ((fromCopies = false ∨ s.eng.ctl.copies = none) ∧ k = blockCopies b)

/-! ### Validation (R23, R106) -/

/-- A record copy fails validation (R23), by the fields of 12.3. -/
def Engine.Invalid (e : Engine) (r : JobRecord) : Prop :=
  1 < (r.w1.extractLsb' 4 2).toNat ∨
  (r.w1.extractLsb' 0 3).toNat ∉ [1, 2, 3, 4] ∨
  ((r.w1.extractLsb' 0 3).toNat ∈ [1, 3] ∧ (r.w1.extractLsb' 16 2).toNat = 3) ∨
  ((r.w1.extractLsb' 0 3).toNat = 1 ∧ r.w1.getLsbD 18 = true ∧ (r.w1.extractLsb' 16 2).toNat = 0) ∨
  ((r.w1.extractLsb' 0 3).toNat = 3 ∧ (r.w1.extractLsb' 16 2).toNat = 0) ∨
  ((r.w1.extractLsb' 0 3).toNat = 2 ∧ ((r.w1.extractLsb' 16 2).toNat ≠ 0 ∨ r.w1.getLsbD 18 = true)) ∨
  (1 ≤ (r.w1.extractLsb' 20 4).toNat ∧ (r.w1.extractLsb' 20 4).toNat ≤ 7) ∨
  (∃ n : Line, (r.w1.extractLsb' 20 4).toNat = 8 + n.val ∧ (e.line n).enabled = false) ∨
  (1 ≤ (r.w1.extractLsb' 24 5).toNat ∧ (r.w1.extractLsb' 24 5).toNat ≤ 15) ∨
  (r.w6.extractLsb' 0 17).toNat = 0 ∨ 65536 < (r.w6.extractLsb' 0 17).toNat ∨
  0x3FFFF < r.w4.toNat ∨ 0x3FFFF < r.w5.toNat ∨
  (∃ k ∈ [3, 6, 7, 11, 15, 19, 29, 30, 31], r.w1.getLsbD k = true) ∨
  ∃ k ∈ [28, 29, 30, 31], r.w6.getLsbD k = true

/-- A service record fails validation (R106), by the fields of 12.5. -/
def ServiceRecord.Invalid (v : ServiceRecord) : Prop :=
  (v.w0.extractLsb' 0 3).toNat ∉ [1, 2, 3] ∨ (v.w0.extractLsb' 4 2).toNat = 3 ∨
  ((v.w0.extractLsb' 0 3).toNat = 2 ∧ (v.w0.extractLsb' 4 2).toNat ≠ 0) ∨
  ((v.w0.extractLsb' 0 3).toNat = 3 ∧ (v.w0.extractLsb' 4 2).toNat = 0) ∨
  (v.w5.extractLsb' 0 17).toNat = 0 ∨ 65536 < (v.w5.extractLsb' 0 17).toNat ∨
  4 < (v.w0.extractLsb' 8 3).toNat ∨
  (1 ≤ (v.w0.extractLsb' 12 4).toNat ∧ (v.w0.extractLsb' 12 4).toNat ≤ 7) ∨
  0x3FFFF < v.w3.toNat ∨ 0x3FFFF < v.w4.toNat ∨
  (∃ k ∈ [3, 6, 7, 11, 19, 20, 21, 22, 23, 24, 25, 26, 27, 28, 29, 30, 31], v.w0.getLsbD k = true) ∨
  v.w2.extractLsb' 16 16 ≠ 0 ∨ v.w5.extractLsb' 17 15 ≠ 0 ∨ v.w6 ≠ 0 ∨ v.w7 ≠ 0

/-! ### The dispatcher's walk (R78, R79) -/

/-- Job `x` is preferred to job `y` as a victim, or as a yield to keep, or ranks with it: lower PRIORITY, then later
start (R78, R79). -/
def Entry.AsGood (x y : Entry) : Prop :=
  x.record.priority < y.record.priority ∨ (x.record.priority = y.record.priority ∧ y.startOrder ≤ x.startOrder)

/-- An unconfirmed yield that can be kept for a pending job of a priority (R79): its job, still in the table (log 35),
has a lower one. -/
def Engine.Keepable (e : Engine) (unconfirmed : List Yield) (prio : BitVec 3) (y : Yield) (x : Entry) : Prop :=
  y ∈ unconfirmed ∧ e.jtc.find y.place = some x ∧ x.record.priority < prio

/-- An eligible victim for a pending job of a priority, while some yields are outstanding (R77, R78). -/
def Engine.Victim (e : Engine) (outstanding : List Yield) (prio : BitVec 3) (x : Entry) (c : ChannelId) : Prop :=
  x ∈ e.jtc.entries ∧ x.custody = .active ∧ x.stopReason = none ∧ x.channel = some c ∧
  ((e.chan c).shadow = none ∨ x.claim.isSome = true) ∧ x.record.priority < prio ∧
  ∀ y ∈ outstanding, y.place ≠ x.place ∧ y.channel ≠ c

/-- The walk of R79 from entry number `i` of the pending list on: from the yields unconfirmed, kept and asked so far to
those kept and those asked when it ends. -/
inductive YieldWalk (e : Engine) :
    (i : Nat) → (unconfirmed kept asked : List Yield) → List Entry → (allKept allAsked : List Yield) → Prop where
  /-- the end of the list -/
  | finish (i : Nat) (u k a : List Yield) : YieldWalk e i u k a [] k a
  /-- as many yields are confirmed as there are entries up to this one -/
  | pass (i : Nat) (u k a : List Yield) (en : Entry) (rest : List Entry) (kept asked : List Yield) :
      i ≤ k.length + a.length → YieldWalk e (i + 1) u k a rest kept asked →
      YieldWalk e i u k a (en :: rest) kept asked
  /-- a yield is kept: of the lowest PRIORITY, then the latest start -/
  | keep (i : Nat) (u k a : List Yield) (en : Entry) (rest : List Entry) (kept asked : List Yield) (y : Yield)
      (x : Entry) :
      k.length + a.length < i → e.Keepable u en.record.priority y x →
      (∀ y' x', e.Keepable u en.record.priority y' x' → x.AsGood x') →
      YieldWalk e (i + 1) (u.filter fun z => z.place ≠ y.place) (k ++ u.filter fun z => z.place = y.place) a rest
        kept asked →
      YieldWalk e i u k a (en :: rest) kept asked
  /-- no yield can be kept, no channel is IDLE, and a victim is asked: the first by its preference -/
  | ask (i : Nat) (u k a : List Yield) (en : Entry) (rest : List Entry) (kept asked : List Yield) (x : Entry)
      (c : ChannelId) :
      k.length + a.length < i → (∀ y x', ¬ e.Keepable u en.record.priority y x') →
      (∀ d, (e.chan d).state ≠ .idle) → e.Victim (u ++ k ++ a) en.record.priority x c →
      (∀ x' d, e.Victim (u ++ k ++ a) en.record.priority x' d → x.AsGood x') →
      YieldWalk e (i + 1) u k (a ++ [⟨c, x.place⟩]) rest kept asked →
      YieldWalk e i u k a (en :: rest) kept asked
  /-- neither is possible, and the walk ends -/
  | stop (i : Nat) (u k a : List Yield) (en : Entry) (rest : List Entry) :
      k.length + a.length < i → (∀ y x', ¬ e.Keepable u en.record.priority y x') →
      (∃ d, (e.chan d).state = .idle) ∨ (∀ x' d, ¬ e.Victim (u ++ k ++ a) en.record.priority x' d) →
      YieldWalk e i u k a (en :: rest) k a

/-- One walk over a pending list, from an engine to the one it leaves: the outstanding yields are those kept and those
asked, each channel is told of its own, and nothing else changes (R77, R79). -/
def Engine.Walked (e f : Engine) (l : List Entry) (kept asked : List Yield) : Prop :=
  YieldWalk e 1 e.disp.yields [] [] l kept asked ∧ f.disp = { e.disp with yields := kept ++ asked } ∧
  (∀ c, (f.chan c).yields = (e.chan c).yields ++
    ((e.disp.yields.filter fun y => y ∉ kept ∧ y.channel = c).map fun y => YieldMessage.withdraw y.place) ++
    ((asked.filter fun y => y.channel = c).map fun y => YieldMessage.ask y.place)) ∧
  f.ei = e.ei ∧ ∀ p, e.same f p

/-- The walks of one occasion to reconsider (R77): a yield that a walk withdraws leaves the set, and so the dispatcher
walks again, until a walk has withdrawn none. -/
inductive YieldWalks (l : List Entry) : Engine → Engine → Prop where
  /-- a walk that keeps every outstanding yield is the last -/
  | last (e f : Engine) (kept asked : List Yield) :
      e.Walked f l kept asked → (∀ y ∈ e.disp.yields, y ∈ kept) → YieldWalks l e f
  /-- a walk that withdraws a yield is followed by another -/
  | again (e f g : Engine) (kept asked : List Yield) :
      e.Walked f l kept asked → (∃ y ∈ e.disp.yields, y ∉ kept) → YieldWalks l f g → YieldWalks l e g

/-! ### Laws that every step keeps -/

/-- The shared SRAM is in canonical form, and no loaded map holds the unlisted right 2 (R143). -/
def State.Sound (s : State) : Prop :=
  s.mem.wf = true ∧ ∀ (p : Port) (m : PageMap), s.ports.map[p] = some m → m.hasUnlisted = false

/-- The take decisions among some decisions. -/
def takesOf (ds : List Decision) : Nat := (ds.filter fun x => match x.verdict with | .take _ => true | _ => false).length

/-- The entries that a pass in flight may still create (R35). -/
def PassStep.room : PassStep → Nat
  | .postWord => 0
  | .slots _ _ _ allowance decided => allowance + takesOf decided
  | .clearing decided => takesOf decided
  | .report rest => takesOf rest
  | .taken _ rest => takesOf rest

/-- The entries that may still be created for a domain. -/
def JobTable.roomFor (j : JobTable) (d : Domain) : Nat :=
  match j.pass with
  | none => 0
  | some p => if p.domain = d then p.step.room else 0

/-- The entries that may still be created. -/
def JobTable.roomInAll (j : JobTable) : Nat :=
  match j.pass with
  | none => 0
  | some p => p.step.room

/-- The capacity law of R43: at most 48 entries, at most 8 of a domain, with what the pass in flight may still
create. -/
def JobTable.Room (j : JobTable) : Prop :=
  j.entries.length + j.roomInAll ≤ 48 ∧ ∀ d, j.countOf d + j.roomFor d ≤ 8

/-- The decisions a pass holds. -/
def PassStep.decisions : PassStep → List Decision
  | .postWord => []
  | .slots _ _ _ _ decided => decided
  | .clearing decided => decided
  | .report rest => rest
  | .taken _ rest => rest

/-- The posted slots that a pass has still to classify. -/
def PassStep.ahead : PassStep → List Slot
  | .slots slot _ rest _ _ => slot :: rest
  | _ => []

/-- The second law of R43: no two entries name the same domain and slot. The pass in flight decides each slot once,
in ascending order (R34), and takes none that the table holds. -/
def JobTable.Unique (j : JobTable) : Prop :=
  j.entries.Pairwise (fun a b => ¬ (a.domain = b.domain ∧ a.slot = b.slot)) ∧
  ∀ p, j.pass = some p →
    (p.step.decisions.map (fun x => x.slot) ++ p.step.ahead).Pairwise (· < ·) ∧
    ∀ x ∈ p.step.decisions, ∀ r, x.verdict = .take r → j.holding p.domain x.slot = none

/-- The entries stand in intake order (R44): by rising place, and below the next place to be given. -/
def JobTable.Ordered (j : JobTable) : Prop :=
  j.entries.Pairwise (fun a b => a.place < b.place) ∧ ∀ en ∈ j.entries, en.place < j.nextPlace

/-- START is in flight exactly while the engine is STARTING (R153, R155). -/
def Control.FlightLaw (c : Control) : Prop :=
  c.state = .starting ↔ ∃ anchor block, c.flight = some ⟨.start, anchor, block⟩

/-- The two conditions of R123: a latched line has an empty armed list, and an overrun line is latched. -/
def JobTable.LineLaw (j : JobTable) : Prop :=
  ∀ n : Line, (j.latch[n] = true → j.armedList n = []) ∧ (j.overrun[n] = true → j.latch[n] = true)

end Sys2Proof.Machine
end

