-- ==== Sys2Proof/Certificates/Slice0/Obligations.lean ====
section
/-! DEFINITION. The statements about the part, in the order of OBLIGATIONS.json. -/

open Sys2Proof Sys2Proof.Machine

/-! ### The queue, reset and the laws that every step keeps -/

/-- A step takes the command at the front of the queue, with the queue's rest; on an empty queue the part idles
(the queue is the model's: log 2). -/
def Obligations.StepTakesFrontCommand : Prop :=
  (∀ (c : Instr) (rest : List Instr) (s : State),
    step { s with pending := c :: rest } = exec c { s with pending := rest }) ∧
  ∀ s : State, s.pending = [] → step s = .next s

/-- The machine right after a power-on reset with RESET still asserted. The empty memory, the levels, FRZ, the
RQ levels, RESET asserted and what an empty progress record holds are the model's choices (logs 4, 5, 6, 14, 36). -/
def Obligations.ResetState : Prop :=
  State.reset.statusWord = 0 ∧
  State.reset.eng.ctl = { state := .stopped, frz := false, cause := .powerOn, command := 0, result := .none,
                          faultCode := .none, faultIndex := 0, anchor := 0, flight := none, copies := none } ∧
  (∀ d : Domain, State.reset.eng.post.attention[d] = .clear ∧ State.reset.eng.post.address[d] = none) ∧
  State.reset.eng.jtc.entries = [] ∧ State.reset.eng.jtc.queue = [] ∧ State.reset.eng.jtc.closing = none ∧
  State.reset.eng.jtc.pass = none ∧
  (∀ n : Line, State.reset.eng.jtc.latch[n] = false ∧ State.reset.eng.jtc.overrun[n] = false ∧
    State.reset.eng.jtc.lineEvents[n] = 0 ∧ State.reset.eng.filters[n] = ⟨none, 0⟩) ∧
  State.reset.eng.disp = ⟨[], 0, none⟩ ∧ (∀ c : ChannelId, State.reset.eng.chan c = Channel.empty) ∧
  (Channel.empty.state = .idle ∧ Channel.empty.job = none ∧ Channel.empty.copies = none ∧
    Channel.empty.shadow = none ∧ Channel.empty.stop = none ∧ Channel.empty.yieldHeld = false) ∧
  State.reset.eng.ei.unit = none ∧ (∀ o : Owner, State.reset.eng.ei.waits o = none) ∧
  State.reset.eng.ei.lastSide = .channels ∧ State.reset.eng.ei.lastStream = .closing ∧
  State.reset.eng.ei.rotation = 5 ∧ State.reset.eng.count = 0 ∧ State.reset.eng.notify = 0 ∧
  (∀ k : Fin 4, State.reset.eng.nl k = false) ∧
  State.reset.arb.lastGranted = .engine ∧ State.reset.arb.holder = none ∧ State.reset.arb.holdCount = 0 ∧
  (∀ p : Port, State.reset.arb.lock[p] = .free ∧ State.reset.ports.map[p] = none ∧
    State.reset.ports.access[p] = none ∧ State.reset.ports.level[p] = 0 ∧ State.reset.waitLine p = false) ∧
  State.reset.ports.seen = 0 ∧ State.reset.ports.broken = 0 ∧ State.reset.ports.violation = none ∧
  State.reset.mem = [] ∧ State.reset.resetPin = true ∧ State.reset.rq = 0 ∧ State.reset.pending = []

/-- The laws that the next statements say every step keeps hold at reset. -/
def Obligations.ResetKeepsLaws : Prop :=
  State.reset.Sound ∧ State.reset.eng.jtc.Room ∧ State.reset.eng.jtc.Ordered ∧ State.reset.eng.jtc.LineLaw ∧
  State.reset.eng.jtc.Unique ∧ State.reset.eng.ctl.FlightLaw

/-- Every step keeps the shared SRAM in canonical form and every loaded map free of the right 2 (R143). -/
def Obligations.StepKeepsMemoryAndMaps : Prop :=
  ∀ s t : State, s.Sound → step s = .next t → t.Sound

/-- Every step keeps the capacity law of R43: at most 48 entries, at most 8 of a domain. -/
def Obligations.StepKeepsTableRoom : Prop :=
  ∀ s t : State, s.eng.jtc.Room → step s = .next t → t.eng.jtc.Room

/-- Every step keeps the entries in intake order (R44), and the two conditions of R123 on latched and overrun lines. -/
def Obligations.StepKeepsOrderAndLines : Prop :=
  ∀ s t : State, s.eng.jtc.Ordered → step s = .next t →
    t.eng.jtc.Ordered ∧ (s.eng.jtc.LineLaw → t.eng.jtc.LineLaw)

/-- Every step keeps START in flight exactly while the engine is STARTING (R153, R155). -/
def Obligations.StepKeepsFlightLaw : Prop :=
  ∀ s t : State, s.eng.ctl.FlightLaw → step s = .next t → t.eng.ctl.FlightLaw

/-- Every step keeps the second law of R43: no two entries name the same domain and slot. -/
def Obligations.StepKeepsUniqueSlots : Prop :=
  ∀ s t : State, s.eng.jtc.Unique → step s = .next t → t.eng.jtc.Unique

/-- No command touches the queue: every command's effect is on everything but the queue. -/
def Obligations.ExecKeepsQueue : Prop :=
  ∀ (i : Instr) (s t : State), exec i s = .next t → t.pending = s.pending

/-! ### The Engine Interface and the dispatcher -/

/-- What every step ends with. A command that changes anything is settled: the dispatcher reconsiders its yields if
anything it looks at has changed (R77), and sends a dispatch, one at a time, naming the lowest IDLE channel, while RUNNING
and not frozen with an entry pending (R69); the Engine Interface then chooses (R137). So no request waits while no unit
is in progress, and leaving RUNNING, or freezing, withdraws every yield. While RUNNING and not frozen, with the table in
intake order, the yields are those of the walk of R79 over the pending list, made again as often as a walk has withdrawn
a yield, and each change is told to its channel (R77). With no unit in progress the
first side with a request is taken, counted from the one after the last side; two waiting JTC streams alternate; on the
channel side the highest PRIORITY, and of equals the first channel after the rotation pointer (R137, R138). When the
blocks choose, a yield of a freed job, and a dispatch in transit are the model's (logs 15, 16, 17, 35). -/
def Obligations.StepEndChoices : Prop :=
  (∀ (i : Instr) (s t : State), exec i s = .next t → t = s ∨
    ((∃ e : Engine, t.eng = s.eng.settle e) ∧
      (t.eng.ei.unit = none → ∀ o : Owner, t.eng.ei.waits o = none) ∧
      (t.eng.ctl.state ≠ s.eng.ctl.state ∨ t.eng.frozen ≠ s.eng.frozen →
        t.eng.ctl.state ≠ .running ∨ t.eng.frozen = true → t.eng.disp.yields = []) ∧
      (t.eng.ctl.state = .running → t.eng.frozen = false → (∃ x ∈ t.eng.jtc.entries, x.custody = .pending) →
        (∃ c, (t.eng.chan c).state = .idle) → t.eng.disp.sent.isSome = true) ∧
      ∀ c, t.eng.disp.sent = some c → s.eng.disp.sent = none ∨ i = .dispatch →
        t.eng.ctl.state = .running ∧ t.eng.frozen = false ∧ (∃ x ∈ t.eng.jtc.entries, x.custody = .pending) ∧
        (t.eng.chan c).state = .idle ∧ ∀ d, d < c → (t.eng.chan d).state ≠ .idle)) ∧
  (∀ before after : Engine,
    (before.view = after.view → before.settle after = after.sendDispatch.chooseUnit) ∧
    (before.view ≠ after.view → before.settle after = after.reconsider.sendDispatch.chooseUnit) ∧
    (before.view = after.view ↔
      (before.jtc.entries.map fun x => (x.place, x.custody, x.stopReason, x.claim.isSome)) =
        (after.jtc.entries.map fun x => (x.place, x.custody, x.stopReason, x.claim.isSome)) ∧
      (∀ c, (before.chan c).state = (after.chan c).state ∧ (before.chan c).shadow = (after.chan c).shadow) ∧
      before.disp.yields = after.disp.yields ∧ before.ctl.state = after.ctl.state ∧ before.frozen = after.frozen)) ∧
  (∀ e : Engine, e.ctl.state ≠ .running ∨ e.frozen = true →
    e.reconsider.disp.yields = [] ∧
    ∀ c, (e.reconsider.chan c).yields = (e.chan c).yields ++
      ((e.disp.yields.filter fun y => y.channel = c).map fun y => YieldMessage.withdraw y.place)) ∧
  (∀ e : Engine, e.ctl.state = .running → e.frozen = false → e.jtc.Ordered →
    ∃ l : List Entry, l.Perm (e.jtc.entries.filter fun x => x.custody = .pending) ∧
      l.Pairwise (fun x y => y.record.priority < x.record.priority ∨
        (x.record.priority = y.record.priority ∧ x.place ≤ y.place)) ∧
      YieldWalks l e e.reconsider) ∧
  (∀ e : Engine,
    (∀ c, e.ctl.state = .running → e.frozen = false → e.disp.sent = none →
      (∃ x ∈ e.jtc.entries, x.custody = .pending) → (e.chan c).state = .idle →
      (∀ d, d < c → (e.chan d).state ≠ .idle) →
      e.sendDispatch = { e with disp := { e.disp with sent := some c } }) ∧
    (e.ctl.state ≠ .running ∨ e.frozen = true ∨ e.disp.sent.isSome = true ∨
      (∀ x ∈ e.jtc.entries, x.custody ≠ .pending) ∨ (∀ c, (e.chan c).state ≠ .idle) → e.sendDispatch = e)) ∧
  ∀ e : Engine,
    ((e.ei.waiting .jtc = true ↔ e.ei.intake ≠ none ∨ e.ei.closing ≠ none) ∧
      (e.ei.waiting .channels = true ↔ ∃ c : ChannelId, e.ei.channels[c] ≠ none) ∧
      (e.ei.waiting .control = true ↔ e.ei.control ≠ none)) ∧
    (e.ei.unit ≠ none ∨ (∀ side, e.ei.waiting side = false) → e.chooseUnit = e) ∧
    ∀ side : Side, e.ei.unit = none →
      (match e.ei.lastSide with
        | .jtc => [Side.channels, .control, .jtc]
        | .channels => [.control, .jtc, .channels]
        | .control => [.jtc, .channels, .control]).find? e.ei.waiting = some side →
      { e.chooseUnit with ei := e.ei } = e ∧ e.chooseUnit.ei.lastSide = side ∧
      (side = .control → e.chooseUnit.ei = { e.ei with
        lastSide := .control, unit := e.ei.control.map fun r => ⟨.control, r⟩, control := none }) ∧
      (side = .jtc → ∀ r : Request,
        (e.ei.intake = some r → e.ei.closing = none ∨ e.ei.lastStream = .closing →
          e.chooseUnit.ei = { e.ei with
            lastSide := .jtc, lastStream := .intake, unit := some ⟨.intake, r⟩, intake := none }) ∧
        (e.ei.closing = some r → e.ei.intake = none ∨ e.ei.lastStream = .intake →
          e.chooseUnit.ei = { e.ei with
            lastSide := .jtc, lastStream := .closing, unit := some ⟨.closing, r⟩, closing := none })) ∧
      (side = .channels → ∃ (c : ChannelId) (r : Request), e.ei.channels[c] = some r ∧
        e.chooseUnit.ei = { e.ei with
          lastSide := .channels, rotation := c, unit := some ⟨.channel c, r⟩, channels := e.ei.channels.set c none } ∧
        ∀ d : ChannelId, e.ei.channels[d] ≠ none → d ≠ c →
          (e.chan d).priority < (e.chan c).priority ∨
          ((e.chan d).priority = (e.chan c).priority ∧
            (c - (e.ei.rotation + 1)).val < (d - (e.ei.rotation + 1)).val))

/-! ### Register writes -/

/-- A CONTROL or ANCHOR write that R145 refuses changes nothing but the violation state, and the arbiter as its access
does: a command from a port above level 0, an ANCHOR write from such a port or while the engine is STARTING, RUNNING or
DRAINING, and a write to STATUS or VIOLATION or with a byte enable clear, from any port (R145 to R147; a row presents
its write and is served in the same step where the arbiter grants it at once: log 10). -/
def Obligations.RegisterWritesDenied : Prop :=
  ∀ (s : State) (p : Port), s.ServesRow p →
    (s.ports.level[p] ≠ 0 →
      ∀ i ∈ [Instr.start p, .stop p, .mapReload p, .engineReset p, .clearViolation p, .unnamedCommandCode p 0,
             .unnamedCommandCode p 6, .unnamedCommandCode p 7],
        ∃ t, exec i s = .next t ∧ t.ports = s.ports.After p .registerDenied 0x10001 ∧ t.arb = s.arb.AfterRow p ∧
          s.SameBut [.ports, .arb] t) ∧
    (∀ v : Word, s.ports.level[p] ≠ 0 ∨ (s.eng.ctl.state ≠ .stopped ∧ s.eng.ctl.state ≠ .failed) →
      ∃ t, exec (.anchorWrite p v) s = .next t ∧ t.ports = s.ports.After p .registerDenied 0x10000 ∧
        t.arb = s.arb.AfterRow p ∧ s.SameBut [.ports, .arb] t) ∧
    ∀ (r : RegName) (en : BitVec 4), r = .status ∨ r = .violation ∨ en ≠ 0b1111 →
      ∃ t, exec (.registerDenied p r en) s = .next t ∧
        t.ports = s.ports.After p .registerDenied (0x10000 + BitVec.ofNat 17 (regList.idxOf r)) ∧
        t.arb = s.arb.AfterRow p ∧ s.SameBut [.ports, .arb] t

/-- START from a level-0 port in STOPPED or FAILED with no command in flight: with ANCHOR aligned it enters STARTING
and asks for the first burst of the anchor block; otherwise it fails with ANCHOR_ALIGN (R153, R155, R156; the row's
service at once: log 10). -/
def Obligations.StartAccepted : Prop :=
  ∀ (s : State) (p : Port), s.ServesRow p → s.ports.level[p] = 0 → s.eng.ctl.flight = none →
    s.eng.ctl.state = .stopped ∨ s.eng.ctl.state = .failed →
    (s.eng.ctl.anchor.toNat % 512 = 0 ∧ s.eng.ctl.anchor.toNat ≤ 0x3FE00 →
      ∃ t, exec (.start p) s = .next t ∧
        t.eng.ctl = { s.eng.ctl with state := .starting, command := 1, result := .busy, faultCode := .none,
                                     faultIndex := 0, flight := some ⟨.start, s.eng.ctl.anchor.toNat, []⟩ } ∧
        t.eng.presents .control .startAnchorRead (.read s.eng.ctl.anchor.toNat 32) ∧
        t.arb = s.arb.AfterRow p ∧ s.SameBut [.control, .arb] t) ∧
    (¬ (s.eng.ctl.anchor.toNat % 512 = 0 ∧ s.eng.ctl.anchor.toNat ≤ 0x3FE00) →
      ∃ t, exec (.start p) s = .next t ∧
        t.eng.ctl = { s.eng.ctl with state := .failed, command := 1, result := .failed, faultCode := .anchorAlign,
                                     faultIndex := 0, flight := none } ∧
        t.arb = s.arb.AfterRow p ∧ s.SameBut [.control, .arb] t)

/-- STOP from a level-0 port in RUNNING with no command in flight: DRAINING, COMMAND_RESULT DONE; every PENDING or
ARMED entry is closed DRAINED in intake order, and every ACTIVE or SHADOWED one without a stop reason is asked to
stop or dropped by one message, in that order; no channel is sent another (R57, R155, R158; the row's service at once:
log 10). -/
def Obligations.StopDrains : Prop :=
  ∀ (s : State) (p : Port), s.ServesRow p → s.ports.level[p] = 0 → s.eng.ctl.flight = none →
    s.eng.ctl.state = .running → s.eng.jtc.Ordered →
    ∃ t, exec (.stop p) s = .next t ∧
      t.eng.ctl = { s.eng.ctl with state := .draining, command := 2, result := .done } ∧
      t.eng.jtc = { s.eng.jtc with
        entries := s.eng.jtc.entries.map Entry.afterDrain
        queue := s.eng.jtc.queue ++
          (s.eng.jtc.entries.filter fun en => en.custody = .pending ∨ en.custody = .armed).map (fun en => en.place) } ∧
      (∀ c : ChannelId, (t.eng.chan c).own = { (s.eng.chan c).own with
        stops := (s.eng.chan c).stops ++ ((s.eng.jtc.entries.filter fun en =>
          en.custody = .active ∧ en.stopReason = none ∧ en.channel = some c).map fun en => ⟨en.place, .drain⟩)
        drops := (s.eng.chan c).drops ++ ((s.eng.jtc.entries.filter fun en =>
          en.custody = .shadowed ∧ en.stopReason = none ∧ en.shadowChannel = some c).map
            fun en => ⟨en.place, .drain⟩) }) ∧
      t.arb = s.arb.AfterRow p ∧ s.SameBut ([.control, .table, .arb] ++ everyChannel) t

/-- MAP_RELOAD from a level-0 port out of STARTING with no command in flight: with ANCHOR aligned it is in flight, with
the loaded copies' locations in RUNNING and DRAINING, and otherwise it fails with ANCHOR_ALIGN; the engine state
stays (R150, R151, R155; the row's service at once: log 10). -/
def Obligations.MapReloadAccepted : Prop :=
  ∀ (s : State) (p : Port), s.ServesRow p → s.ports.level[p] = 0 → s.eng.ctl.flight = none →
    s.eng.ctl.state ≠ .starting →
    (s.eng.ctl.anchor.toNat % 512 = 0 ∧ s.eng.ctl.anchor.toNat ≤ 0x3FE00 →
      ∃ t, exec (.mapReload p) s = .next t ∧
        t.eng.ctl = { s.eng.ctl with command := 3, result := .busy, faultCode := .none, faultIndex := 0,
                                     flight := some ⟨.mapReload (decide (s.eng.ctl.state = .running ∨
                                       s.eng.ctl.state = .draining)), s.eng.ctl.anchor.toNat, []⟩ } ∧
        t.eng.presents .control .mapReloadRead (.read s.eng.ctl.anchor.toNat 32) ∧
        t.arb = s.arb.AfterRow p ∧ s.SameBut [.control, .arb] t) ∧
    (¬ (s.eng.ctl.anchor.toNat % 512 = 0 ∧ s.eng.ctl.anchor.toNat ≤ 0x3FE00) →
      ∃ t, exec (.mapReload p) s = .next t ∧
        t.eng.ctl = { s.eng.ctl with command := 3, result := .failed, faultCode := .anchorAlign, faultIndex := 0,
                                     flight := none } ∧
        t.arb = s.arb.AfterRow p ∧ s.SameBut [.control, .arb] t)

/-- ENGINE_RESET from a level-0 port, whatever the engine is doing: every block of the engine is reset as R160 gives,
the start order begins afresh (R69) and line events not yet taken are discarded (R122); the SRAM, the ports, the copies,
the addresses, ANCHOR and the pins stay, with the arbiter but for the access itself (log 10). That a dispatch in transit
is discarded is the model's choice (log 15), for the manual does not say what becomes of it. While the arbiter has
granted an engine unit the write waits as any access does; were it taken then, that unit would be completed in the
reset's step, and its completion passed to no one (R139; log 9). What an empty progress record holds is the model's
choice (log 36). -/
def Obligations.EngineResetLeaves : Prop :=
  ∀ (s : State) (p : Port),
    (s.ServesRow p → s.ports.level[p] = 0 →
      ∃ t, exec (.engineReset p) s = .next t ∧
        t.eng.ctl = { s.eng.ctl with state := .stopped, cause := .engineReset, command := 4, result := .none,
                                     faultCode := .none, faultIndex := 0, flight := none } ∧
        (∀ d : Domain, t.eng.post.attention[d] = .clear) ∧ t.eng.post.address = s.eng.post.address ∧
        t.eng.jtc.entries = [] ∧ t.eng.jtc.queue = [] ∧ t.eng.jtc.closing = none ∧ t.eng.jtc.pass = none ∧
        (∀ n : Line, t.eng.jtc.latch[n] = false ∧ t.eng.jtc.overrun[n] = false ∧ t.eng.jtc.lineEvents[n] = 0 ∧
          t.eng.filters[n] = ⟨none, 0⟩) ∧
        t.eng.disp = ⟨[], 0, none⟩ ∧ (∀ c : ChannelId, t.eng.chan c = Channel.empty) ∧
        t.eng.ei = EngineInterface.empty ∧ t.eng.count = 0 ∧ t.eng.notify = 0 ∧ (∀ k : Fin 4, t.eng.nl k = false) ∧
        t.mem = s.mem ∧ t.arb = s.arb.AfterRow p ∧ t.ports = s.ports ∧ t.resetPin = s.resetPin ∧ t.rq = s.rq ∧
        t.pending = s.pending) ∧
    (s.ports.access[p] = none → s.arb.holder = some .engine →
      exec (.engineReset p) s = exec (.portAccess p ⟨0x10001, true, 0b1111, 4, false⟩) s) ∧
    (∀ u, s.arb.holder = some .engine → s.eng.ei.unit = some u →
      s.engineReset.mem = (u.request.access.perform s.mem).1 ∧ s.engineReset.arb = { s.arb with holder := none } ∧
      s.engineReset.eng = s.eng.engineReset)

/-- CLEAR_VIOLATION from a level-0 port: the record is emptied and every VIOLATION_SEEN and LOCK_BROKEN flag cleared;
with no command in flight COMMAND takes its code and COMMAND_RESULT reads DONE, and with one both go on showing it
(R134, R147, R155; the row's service at once: log 10). -/
def Obligations.ClearViolationClears : Prop :=
  ∀ (s : State) (p : Port), s.ServesRow p → s.ports.level[p] = 0 →
    ∃ t, exec (.clearViolation p) s = .next t ∧
      t.ports = { s.ports with seen := 0, broken := 0, violation := none } ∧
      (s.eng.ctl.flight = none → t.eng.ctl = { s.eng.ctl with command := 5, result := .done }) ∧
      (s.eng.ctl.flight ≠ none → t.eng.ctl = s.eng.ctl) ∧ t.arb = s.arb.AfterRow p ∧
      s.SameBut [.ports, .control, .arb] t

/-- A command that Engine Control refuses: with no command in flight COMMAND takes the code and COMMAND_RESULT reads
REFUSED; with one in flight the write has no effect at all. So START out of STOPPED and FAILED, STOP out of
RUNNING, MAP_RELOAD in STARTING, and every code that names no command (R155; the row's service at once:
log 10). -/
def Obligations.CommandsRefused : Prop :=
  ∀ (s : State) (p : Port), s.ServesRow p → s.ports.level[p] = 0 →
    (s.eng.ctl.flight = none → ∀ x ∈
      (if s.eng.ctl.state = .stopped ∨ s.eng.ctl.state = .failed then [] else [(Instr.start p, (1 : BitVec 3))]) ++
      (if s.eng.ctl.state = .running then [] else [(.stop p, 2)]) ++
      (if s.eng.ctl.state = .starting then [(.mapReload p, 3)] else []) ++
      [(.unnamedCommandCode p 0, 0), (.unnamedCommandCode p 6, 6), (.unnamedCommandCode p 7, 7)],
        ∃ t, exec x.1 s = .next t ∧ t.eng.ctl = { s.eng.ctl with command := x.2, result := .refused } ∧
          t.arb = s.arb.AfterRow p ∧ s.SameBut [.control, .arb] t) ∧
    (s.eng.ctl.flight ≠ none → ∀ i ∈ [Instr.start p, .stop p, .mapReload p, .unnamedCommandCode p 0,
        .unnamedCommandCode p 6, .unnamedCommandCode p 7],
      ∃ t, exec i s = .next t ∧ t.arb = s.arb.AfterRow p ∧ s.SameBut [.arb] t)

/-- ANCHOR_WRITE from a level-0 port in STOPPED or FAILED replaces the whole value with no test (R145, R162).
NOTE_WRITE clears flag d when its bit is written as 1 from level 0, or from the home port of an enabled domain d; every
other flag stays, and no violation is recorded (R165). A notification line is asserted exactly when an enabled domain
whose NOTIFY_LINE names it has its notify flag set (R165). Each row is served in its own step where the arbiter grants
it at once (log 10). -/
def Obligations.AnchorAndNoteServed : Prop :=
  (∀ (s : State) (p : Port) (v : Word), s.ServesRow p → s.ports.level[p] = 0 →
     s.eng.ctl.state = .stopped ∨ s.eng.ctl.state = .failed →
     ∃ t, exec (.anchorWrite p v) s = .next t ∧ t.eng.ctl = { s.eng.ctl with anchor := v } ∧
       t.registerWord .anchor = v ∧ t.arb = s.arb.AfterRow p ∧ s.SameBut [.control, .arb] t) ∧
  (∀ (s : State) (p : Port) (v : Word), s.ServesRow p →
     ∃ t, exec (.noteWrite p v) s = .next t ∧
       (∀ d : Domain, t.eng.notify.getLsbD d.val = (s.eng.notify.getLsbD d.val && !(v.getLsbD d.val &&
         (decide (s.ports.level[p] = 0) ||
           ((s.eng.domain d).enabled && decide ((s.eng.domain d).homePort = p)))))) ∧
       t.arb = s.arb.AfterRow p ∧ s.SameBut [.notify, .arb] t) ∧
  ∀ (e : Engine) (k : Fin 4), e.nl k = true ↔
    ∃ d : Domain, (e.domain d).enabled = true ∧ (e.domain d).notifyLine = k ∧ e.notify.getLsbD d.val = true

/-! ### Engine Control -/

/-- A burst of the anchor block before the last: its eight words are kept and the next burst is asked for, by START
and by MAP_RELOAD (R150, R156). -/
def Obligations.AnchorBurstReads : Prop :=
  ∀ (s : State) (fl : Flight) (a : Nat), s.eng.ctl.flight = some fl → a = fl.anchor + 4 * fl.block.length →
    fl.block.length + 8 < 128 →
    (fl.kind = .start → s.completes .control .startAnchorRead (.read a 32) →
      ∃ t, exec .startAnchorRead s = .next t ∧ s.Completed t (.read a 32) ∧
        t.eng.ctl = { s.eng.ctl with
          flight := some { fl with block := fl.block ++ bytesWords (s.mem.readBytes a 32) } } ∧
        t.eng.presents .control .startAnchorRead (.read (a + 32) 32) ∧ s.SameBut [.arb, .control] t) ∧
    ∀ fromCopies, fl.kind = .mapReload fromCopies → s.completes .control .mapReloadRead (.read a 32) →
      ∃ t, exec .mapReloadRead s = .next t ∧ s.Completed t (.read a 32) ∧
        t.eng.ctl = { s.eng.ctl with
          flight := some { fl with block := fl.block ++ bytesWords (s.mem.readBytes a 32) } } ∧
        t.eng.presents .control .mapReloadRead (.read (a + 32) 32) ∧ s.SameBut [.arb, .control] t

/-- The last burst of START. The tests 2 to 9 of R156 are made in their order, with the exposure check's conditions in
the order of R149 over the structures of R148: when one fails the engine is FAILED with the code and index of the first
and nothing is replaced. When all pass the copies, the maps of ports above level 0 and the post addresses are those just
read, by the fields of 12.6, latches and overruns are clear, the rotation pointer is 7, every enabled domain is POSTED,
and the engine is RUNNING (R148, R149, R156, R157). The fields are those of 12.6: the global table and FREEZE_TIMEBASE,
the domain records, the line entries, and the page maps with the right of each page. -/
def Obligations.StartEnds : Prop :=
  ∀ (s : State) (anchor : Nat) (block b : List Word) (a : Nat),
    s.eng.ctl.flight = some ⟨.start, anchor, block⟩ → block.length = 120 →
    s.completes .control .startAnchorRead (.read a 32) → b = block ++ bytesWords (s.mem.readBytes a 32) →
    (∀ f, FirstFault (s.ports.StartFault b anchor) f →
      ∃ t, exec .startAnchorRead s = .next t ∧
        t.eng.ctl = { s.eng.ctl with state := .failed, result := .failed, faultCode := f.code, faultIndex := f.index,
                                     flight := none } ∧ s.SameBut [.arb, .control] t) ∧
    ((∀ c i, ¬ s.ports.StartFault b anchor c i) →
      ∃ t, exec .startAnchorRead s = .next t ∧
        t.eng.ctl = { s.eng.ctl with state := .running, result := .done, flight := none,
                                     copies := some (blockCopies b) } ∧
        (∀ d : Domain, t.eng.domain d = blockDomain b d) ∧ (∀ n : Line, t.eng.line n = blockLine b n) ∧
        (∀ d : Domain, (blockDomain b d).enabled = true →
          t.eng.post.attention[d] = .posted ∧ t.eng.post.address[d] = some (blockDomain b d).postAddr) ∧
        (∀ d : Domain, (blockDomain b d).enabled = false →
          t.eng.post.attention[d] = s.eng.post.attention[d] ∧ t.eng.post.address[d] = none) ∧
        (∀ n : Line, t.eng.jtc.latch[n] = false ∧ t.eng.jtc.overrun[n] = false) ∧ t.eng.jtc.rotation = 7 ∧
        (∀ p : Port, t.ports.map[p] = if s.ports.level[p] = 0 then s.ports.map[p] else some (blockMap b p)) ∧
        { t.ports with map := s.ports.map } = s.ports ∧
        { t.eng.jtc with latch := s.eng.jtc.latch, overrun := s.eng.jtc.overrun,
                         lineEvents := s.eng.jtc.lineEvents, rotation := s.eng.jtc.rotation } = s.eng.jtc ∧
        s.SameBut [.arb, .control, .ports, .post, .table] t) ∧
    ((∀ c i, ¬ s.ports.StartFault b anchor c i) ∨ ∃ f, FirstFault (s.ports.StartFault b anchor) f) ∧
    (∀ d : Domain,
      (blockDomain b d).enabled = (b.getD (16 + 8 * d.val) 0).getLsbD 0 ∧
      (blockDomain b d).level = (b.getD (16 + 8 * d.val) 0).extractLsb' 4 2 ∧
      (blockDomain b d).homePort.val = ((b.getD (16 + 8 * d.val) 0).extractLsb' 8 2).toNat ∧
      (blockDomain b d).threshold = (b.getD (16 + 8 * d.val) 0).extractLsb' 12 3 ∧
      (blockDomain b d).notifyLine.val = ((b.getD (16 + 8 * d.val) 0).extractLsb' 16 2).toNat ∧
      (blockDomain b d).localCount = ((b.getD (16 + 8 * d.val) 0).extractLsb' 20 7).toNat ∧
      (blockDomain b d).slotBase = (b.getD (17 + 8 * d.val) 0).toNat ∧
      (blockDomain b d).postAddr = (b.getD (18 + 8 * d.val) 0).toNat ∧
      (blockDomain b d).reportAddr = (b.getD (19 + 8 * d.val) 0).toNat ∧
      (blockDomain b d).localBase = (b.getD (20 + 8 * d.val) 0).toNat) ∧
    (∀ n : Line,
      (blockLine b n).enabled = (b.getD (80 + n.val) 0).getLsbD 0 ∧
      (blockLine b n).owner.val = ((b.getD (80 + n.val) 0).extractLsb' 4 3).toNat ∧
      (blockLine b n).edge = (b.getD (80 + n.val) 0).extractLsb' 8 2 ∧
      (blockLine b n).tap.val = ((b.getD (80 + n.val) 0).extractLsb' 12 4).toNat ∧
      (blockLine b n).count.val = ((b.getD (80 + n.val) 0).extractLsb' 16 3).toNat) ∧
    ((blockCopies b).globalBase = (b.getD 1 0).toNat ∧
      (blockCopies b).globalCount = ((b.getD 2 0).extractLsb' 0 10).toNat ∧
      (blockCopies b).freezeRun = (b.getD 3 0).getLsbD 0) ∧
    (∀ p : Port, blockMap b p = ⟨b.getD (88 + 4 * p.val) 0, b.getD (89 + 4 * p.val) 0, b.getD (90 + 4 * p.val) 0,
      b.getD (91 + 4 * p.val) 0⟩) ∧
    ∀ (m : PageMap) (i : Nat), i < 16 →
      m.right i = m.w0.extractLsb' (2 * i) 2 ∧ m.right (16 + i) = m.w1.extractLsb' (2 * i) 2 ∧
      m.right (32 + i) = m.w2.extractLsb' (2 * i) 2 ∧ m.right (48 + i) = m.w3.extractLsb' (2 * i) 2

/-- The last burst of MAP_RELOAD. MAGIC, the rights of the maps and the exposure check are tested in that order, the
check against the loaded copies' locations for a command accepted in RUNNING or DRAINING and against the block's
otherwise: when a test fails no map changes and the command ends FAILED with the code and index of the first. When all
pass every port above level 0 takes its new map and the command ends DONE; the engine state and the copies stay (R144,
R148 to R151). -/
def Obligations.MapReloadEnds : Prop :=
  ∀ (s : State) (fromCopies : Bool) (anchor : Nat) (block b : List Word) (a : Nat) (k : LoadedCopies),
    s.eng.ctl.flight = some ⟨.mapReload fromCopies, anchor, block⟩ → block.length = 120 →
    s.completes .control .mapReloadRead (.read a 32) → b = block ++ bytesWords (s.mem.readBytes a 32) →
    s.ReloadFrom fromCopies b k →
    (∀ f, FirstFault (s.ports.MapFault b k anchor) f →
      ∃ t, exec .mapReloadRead s = .next t ∧
        t.eng.ctl = { s.eng.ctl with result := .failed, faultCode := f.code, faultIndex := f.index,
                                     flight := none } ∧ s.SameBut [.arb, .control] t) ∧
    ((∀ c i, ¬ s.ports.MapFault b k anchor c i) →
      ∃ t, exec .mapReloadRead s = .next t ∧
        t.eng.ctl = { s.eng.ctl with result := .done, flight := none } ∧
        (∀ p : Port, t.ports.map[p] = if s.ports.level[p] = 0 then s.ports.map[p] else some (blockMap b p)) ∧
        { t.ports with map := s.ports.map } = s.ports ∧ s.SameBut [.arb, .control, .ports] t) ∧
    ((∀ c i, ¬ s.ports.MapFault b k anchor c i) ∨ ∃ f, FirstFault (s.ports.MapFault b k anchor) f)

/-- In DRAINING with an empty table and no pass in flight the engine enters STOPPED: every attention is CLEAR, the
divider count is 0 and every filter unknown; the copies, maps, notify flags and latches stay (R118, R159). -/
def Obligations.DrainCompletes : Prop :=
  ∀ s : State, s.eng.ctl.state = .draining → s.eng.jtc.entries = [] → s.eng.jtc.pass = none →
    ∃ t, exec .drainComplete s = .next t ∧ t.eng.ctl = { s.eng.ctl with state := .stopped } ∧
      (∀ d : Domain, t.eng.post.attention[d] = .clear) ∧ t.eng.post.address = s.eng.post.address ∧
      t.eng.count = 0 ∧ (∀ n : Line, t.eng.filters[n] = ⟨none, 0⟩) ∧ t.eng.frozen = false ∧
      s.SameBut [.control, .post, .timebase] t

/-! ### Pins -/

/-- PIN_RESET and POWER_ON_RESET: RESET is asserted, every block has its reset values, no port holds a map, and the
violation state is empty, with every LOCK_BROKEN flag clear (R134); the start order begins afresh (R69) and line events
not yet taken are discarded (R122). That a dispatch in transit is discarded (log 15), and that FRZ stays as it is driven
(log 5), are the model's choices. A grant unit in progress is completed first: an engine unit already granted, and the
access that the port in a locked sequence has presented, which ends the sequence; an access that waits for its grant waits on
(log 30). A pin reset keeps the SRAM but for that unit; a power-on reset leaves the SRAM with what its operand says
(R128, R144, R147, R161; the SRAM's contents: log 4; one step: log 9; the empty progress record: log 36). -/
def Obligations.PartResets : Prop :=
  ∀ (s : State) (i : Instr) (cells : List Host.Cell) (cause : ResetCause),
    (i = .pinReset ∧ cause = .pin) ∨ (i = .powerOnReset cells ∧ cause = .powerOn) →
    ∃ t, exec i s = .next t ∧ t.resetPin = true ∧
      t.eng.ctl = { state := .stopped, frz := s.eng.ctl.frz, cause := cause, command := 0, result := .none,
                    faultCode := .none, faultIndex := 0, anchor := 0, flight := none, copies := none } ∧
      (∀ d : Domain, t.eng.post.attention[d] = .clear ∧ t.eng.post.address[d] = none ∧
        (t.eng.domain d).enabled = false) ∧
      t.eng.jtc.entries = [] ∧ t.eng.jtc.queue = [] ∧ t.eng.jtc.closing = none ∧ t.eng.jtc.pass = none ∧
      (∀ n : Line, t.eng.jtc.latch[n] = false ∧ t.eng.jtc.overrun[n] = false ∧ t.eng.jtc.lineEvents[n] = 0 ∧
        (t.eng.line n).enabled = false) ∧
      t.eng.disp = ⟨[], 0, none⟩ ∧ (∀ c : ChannelId, t.eng.chan c = Channel.empty) ∧ t.eng.ei = EngineInterface.empty ∧
      t.eng.count = 0 ∧ t.eng.notify = 0 ∧
      t.arb.lastGranted = .engine ∧ t.arb.holder = none ∧ t.arb.holdCount = 0 ∧
      (∀ p : Port, t.arb.lock[p] = .free ∧ t.ports.map[p] = none) ∧
      t.ports.seen = 0 ∧ t.ports.broken = 0 ∧ t.ports.violation = none ∧
      t.ports.level = s.ports.level ∧ t.rq = s.rq ∧ t.pending = s.pending ∧
      ((∀ p : Port, s.arb.holder ≠ some (.port p)) →
        t.ports.access = s.ports.access ∧ t.ports.readData = s.ports.readData ∧
        (i = .pinReset → s.arb.holder ≠ some .engine → t.mem = s.mem)) ∧
      (∀ p : Port, s.arb.holder = some (.port p) →
        t.ports.access[p] = none ∧ (∀ q : Port, q ≠ p → t.ports.access[q] = s.ports.access[q]) ∧
        ∃ u, exec .lockedSequenceAccess s = .next u ∧ t.ports.access = u.ports.access ∧
          t.ports.readData = u.ports.readData ∧ (i = .pinReset → t.mem = u.mem)) ∧
      (∀ u, i = .pinReset → s.arb.holder = some .engine → s.eng.ei.unit = some u →
        t.mem = (u.request.access.perform s.mem).1) ∧
      (i = .powerOnReset cells → t.mem = Memory.ofCells cells)

/-- RESET_RELEASE latches each port's level from its pins (R141); with RESET not asserted it does nothing (log 1). FRZ
asserted makes a RUNNING or DRAINING engine frozen and touches nothing else; FRZ deasserted ends it, and each job held at
a boundary with no tick to wait for issues its next burst, while a paced one goes on waiting for its tick and every other
channel stays as it was (R74, R99, R154). -/
def Obligations.PinEvents : Prop :=
  (∀ (s : State) (l0 l1 l2 l3 : Level),
     (s.resetPin = true → ∃ t, exec (.resetRelease l0 l1 l2 l3) s = .next t ∧ t.resetPin = false ∧ t.rq = s.rq ∧
       t.ports = { s.ports with level := #v[l0, l1, l2, l3] } ∧ s.SameBut [.pins, .ports] t) ∧
     (s.resetPin = false → ∃ t, exec (.resetRelease l0 l1 l2 l3) s = .next t ∧ s.SameBut [] t)) ∧
  ∀ s : State,
    (∃ t, exec .frzAssert s = .next t ∧ t.eng.ctl = { s.eng.ctl with frz := true } ∧
      t.eng.frozen = s.eng.working ∧ s.SameBut [.control] t) ∧
    ∃ t, exec .frzDeassert s = .next t ∧ t.eng.ctl = { s.eng.ctl with frz := false } ∧ t.eng.frozen = false ∧
      (∀ c : ChannelId, (s.eng.chan c).state ≠ .moving ∨ (s.eng.chan c).work ≠ .boundary →
        (t.eng.chan c).own = (s.eng.chan c).own) ∧
      (∀ (c : ChannelId) (j : Job) (rs : Readings) (body : Body), (s.eng.chan c).state = .moving →
        (s.eng.chan c).work = .boundary → (s.eng.chan c).moving = some (j, rs, body) →
        (j.record.paceUnit ≠ 0 → (s.eng.chan c).progress.unitLeft = 0 →
          (t.eng.chan c).own = (s.eng.chan c).own) ∧
        (j.record.paceUnit = 0 ∨ (s.eng.chan c).progress.unitLeft ≠ 0 →
          t.eng.Issues c (s.eng.chan c) body rs
            (formBurst body (decide (j.record.paceUnit ≠ 0)) rs (s.eng.chan c).progress))) ∧
      s.SameBut (.control :: everyChannel) t

/-- Each line's filter holds a level, LOW, HIGH or unknown, and a run count from 0 to 7, which a sample keeps so; both
begin as unknown and 0 after a power-on reset, a pin reset and an ENGINE_RESET, and again whenever the Timebase enters
CLEARED; and no register shows them (R120). -/
def Obligations.FiltersBeginUnknown : Prop :=
  (∀ n : Line, State.reset.eng.filters[n] = ⟨none, 0⟩) ∧
  (∀ (s t : State) (cells : List Host.Cell), exec (.powerOnReset cells) s = .next t ∨ exec .pinReset s = .next t →
    ∀ n : Line, t.eng.filters[n] = ⟨none, 0⟩) ∧
  (∀ (s t : State) (p : Port), s.ServesRow p → s.ports.level[p] = 0 → exec (.engineReset p) s = .next t →
    ∀ n : Line, t.eng.filters[n] = ⟨none, 0⟩) ∧
  (∀ (i : Instr) (s t : State), s.eng.ctl.FlightLaw → exec i s = .next t →
    s.eng.timebase ≠ .cleared → t.eng.timebase = .cleared → ∀ n : Line, t.eng.filters[n] = ⟨none, 0⟩) ∧
  (∀ (f : Filter) (l : LineEntry) (pin : Bool), f.run ≤ 7 → (f.sample l pin).1.run ≤ 7) ∧
  ∀ (s : State) (r : RegName) (fs : Vector Filter 8),
    State.registerWord { s with eng := { s.eng with filters := fs } } r = s.registerWord r

/-! ### Ports and arbiter -/

/-- PORT_ACCESS on a port with none outstanding: the access waits with WAIT asserted, and the first access made with
LOCK asserted after a broken sequence sets LOCK_BROKEN (R131, R133; when the flag is set: log 21). On a port with one
outstanding nothing happens: a processor presents no second access, and that the command is then idle is the model's
choice (log 1). A register-write row presents its write as such an access with LOCK released, and where the arbiter does
not come to it at once it waits as any other (R129; log 10). One presented with LOCK released leaves
a BROKEN condition until its grant (log 39). -/
def Obligations.PortAccessPresented : Prop :=
  (∀ (i : Instr) (p : Port) (a : PortAccess) (s : State), rowAccess i = some (p, a) →
    (s.ports.access[p] = none → ¬ s.ServesRow p → exec i s = exec (.portAccess p a) s) ∧
    (s.ports.access[p] ≠ none → ∃ t, exec i s = .next t ∧ s.SameBut [] t)) ∧
  ∀ (s : State) (p : Port) (a : PortAccess),
    (s.ports.access[p] = none →
      ∃ t, exec (.portAccess p a) s = .next t ∧ t.ports.access[p] = some a ∧ t.waitLine p = true ∧
        (∀ q : Port, q ≠ p → t.ports.access[q] = s.ports.access[q]) ∧
        (s.arb.lock[p] = .broken false → a.lock = true →
          t.ports.broken = s.ports.broken ||| (1#4 <<< p.val) ∧ t.arb.lock[p] = .broken true) ∧
        (s.arb.lock[p] ≠ .broken false ∨ a.lock = false → t.ports.broken = s.ports.broken ∧ t.arb = s.arb) ∧
        t.arb.holder = s.arb.holder ∧
        { t.ports with access := s.ports.access, broken := s.ports.broken } = s.ports ∧
        s.SameBut [.ports, .arb] t) ∧
    (s.ports.access[p] ≠ none → ∃ t, exec (.portAccess p a) s = .next t ∧ s.SameBut [] t)

/-- ARBITER_GRANT to a port whose SRAM access is allowed: a write puts its enabled bytes into the word and leaves
every other byte, a read returns the enabled bytes, and the access completes. An access made with LOCK asserted by a
port whose condition is FREE holds the grant; any other is a single access, and one made with LOCK asserted by a port
whose condition is BROKEN leaves the condition and the hold count as they are (R130 to R133, R142); one made with LOCK
released frees the condition, at its grant when it was BROKEN (log 39). A completed write to the post word of an enabled domain raises its attention in RUNNING and DRAINING; in the other states, with no byte
enabled, or elsewhere, no attention changes (R30). A lane that is not enabled returns nothing (log 28). -/
def Obligations.GrantServesSram : Prop :=
  ∀ (s : State) (p : Port) (a : PortAccess), s.mem.wf = true → s.Serves p a → a.word < 0x10000 → s.ports.Allows p a →
    ∃ t, exec .arbiterGrant s = .next t ∧ t.waitLine p = false ∧ t.arb.lastGranted = .port p ∧
      (∀ q : Port, q ≠ p → t.arb.lock[q] = s.arb.lock[q] ∧ t.ports.access[q] = s.ports.access[q]) ∧
      { t.ports with access := s.ports.access, readData := s.ports.readData } = s.ports ∧
      (s.arb.lock[p] = .free ∧ a.lock = true →
        t.arb.holder = some (.port p) ∧ t.arb.holdCount = 1 ∧ t.arb.lock[p] = .held) ∧
      (a.lock = false → t.arb.holder = none ∧ t.arb.holdCount = s.arb.holdCount ∧ t.arb.lock[p] = .free) ∧
      (∀ fifth, s.arb.lock[p] = .broken fifth → a.lock = true →
        t.arb.holder = none ∧ t.arb.holdCount = s.arb.holdCount ∧ t.arb.lock[p] = .broken fifth) ∧
      (a.isWrite = true →
        (∀ i : Fin 4, t.mem.read (4 * a.word.toNat + i.val) =
          if a.enables.getLsbD i.val then a.data.extractLsb' (8 * i.val) 8
          else s.mem.read (4 * a.word.toNat + i.val)) ∧
        (∀ x : Nat, x < 4 * a.word.toNat ∨ 4 * a.word.toNat + 4 ≤ x → t.mem.read x = s.mem.read x) ∧
        (∀ d : Domain, s.eng.working = true → a.enables ≠ 0 → (s.eng.domain d).enabled = true →
          s.eng.post.address[d] = some (4 * a.word.toNat) → t.eng.post.attention[d] = .posted) ∧
        (∀ d : Domain, s.eng.post.address[d] ≠ some (4 * a.word.toNat) ∨ (s.eng.domain d).enabled = false →
          t.eng.post.attention[d] = s.eng.post.attention[d]) ∧ t.eng.post.address = s.eng.post.address ∧
        (s.eng.working = false ∨ a.enables = 0 → t.eng.post = s.eng.post) ∧
        t.ports.readData = s.ports.readData ∧ s.SameBut [.mem, .ports, .arb, .post] t) ∧
      (a.isWrite = false →
        (∀ i : Fin 4, (t.ports.readData[p])[i] =
          if a.enables.getLsbD i.val then some (s.mem.read (4 * a.word.toNat + i.val)) else none) ∧
        (∀ q : Port, q ≠ p → t.ports.readData[q] = s.ports.readData[q]) ∧
        s.SameBut [.ports, .arb] t)

/-- The page law (R143): a port above level 0 completes no write to a page that its map does not mark READ_WRITE and
no read from a page that it marks NONE or for which it holds no map. Such an access, granted or in a locked sequence,
completes with memory and attention unchanged, a read returning 0, and is recorded; maps, levels, LOCK_BROKEN and the
other ports stay, and the arbiter is left as by any access (R130, R132, R146, R147; when a BROKEN condition is freed:
log 39). -/
def Obligations.PageLaw : Prop :=
  ∀ (s : State) (p : Port) (a : PortAccess) (i : Instr) (ar : Arbiter), a.word < 0x10000 → ¬ s.ports.Allows p a →
    s.ServedBy i p a ar →
    ∃ t, exec i s = .next t ∧ t.waitLine p = false ∧ t.arb = ar ∧
      { t.ports with readData := s.ports.readData } =
        { s.ports.After p (if a.isWrite then .writeDenied else .readDenied) a.word with
          access := s.ports.access.set p none } ∧
      (∀ l : Fin 4, a.isWrite = false → (t.ports.readData[p])[l] = some 0) ∧
      (∀ q : Port, q ≠ p ∨ a.isWrite = true → t.ports.readData[q] = s.ports.readData[q]) ∧ s.SameBut [.ports, .arb] t

/-- Accesses to the registers and to unmapped addresses, served by a grant or within a locked sequence, with the arbiter
as for any access (R129, R132). An unmapped address is refused at every level and a register read returns the whole word
to every port (R142, R145). A register write acts as the row that spells it does, LOCK being released or asserted, and
every register write is spelled by a row (R142, R145; the rows: log 10). The words that the five registers read as are
those of 12.8, every other bit 0 (R147, R155, R162, R163, R165, R166). The rotation is P0, P1, P2, P3, the Engine
Interface, counted from the one after the last granted, and a requester waits that has presented an access or a unit
(R129, R130). The Engine Interface granted is the holder and last granted; with a holder, or while RESET is asserted,
nothing is granted (R128, R130). When an access frees a BROKEN condition is the model's choice: at its grant (log 39). -/
def Obligations.GrantsOtherwise : Prop :=
  (∀ (s : State) (p : Port) (a : PortAccess) (i : Instr) (ar : Arbiter), s.ServedBy i p a ar →
     (0x10005 ≤ a.word →
       ∃ t, exec i s = .next t ∧ t.waitLine p = false ∧ t.arb = ar ∧
         { t.ports with readData := s.ports.readData } =
           { s.ports.After p .unmapped a.word with access := s.ports.access.set p none } ∧
         (∀ l : Fin 4, a.isWrite = false → (t.ports.readData[p])[l] = some 0) ∧
         (∀ q : Port, q ≠ p ∨ a.isWrite = true → t.ports.readData[q] = s.ports.readData[q]) ∧
         s.SameBut [.ports, .arb] t) ∧
     (∀ r : RegName, a.word = 0x10000 + BitVec.ofNat 17 (regList.idxOf r) → a.isWrite = false →
       ∃ t, exec i s = .next t ∧ t.waitLine p = false ∧
         (∀ l : Fin 4, (t.ports.readData[p])[l] = some ((s.registerWord r).extractLsb' (8 * l.val) 8)) ∧
         (∀ q : Port, q ≠ p → t.ports.readData[q] = s.ports.readData[q]) ∧
         { t.ports with readData := s.ports.readData } = { s.ports with access := s.ports.access.set p none } ∧
         t.arb = ar ∧ s.SameBut [.ports, .arb] t) ∧
     (0x10000 ≤ a.word → a.word < 0x10005 → a.isWrite = true → ∃ j, Spells j p a) ∧
     ∀ (j : Instr) (u : State), Spells j p a →
       u = { s with ports := { s.ports with access := s.ports.access.set p none } } →
       u.ServesRow p ∧ ∃ t, exec j u = .next t ∧ exec i s = .next { t with arb := ar }) ∧
  (∀ (s : State) (w : Word), w = s.registerWord .status →
    w.extractLsb' 0 3 = (match s.eng.ctl.state with
      | .stopped => 0 | .starting => 1 | .running => if s.eng.frozen then 6 else 2
      | .draining => if s.eng.frozen then 7 else 3 | .failed => 4) ∧
    w.extractLsb' 3 2 = (match s.eng.ctl.cause with | .powerOn => 0 | .pin => 1 | .engineReset => 2) ∧
    w.extractLsb' 5 3 = s.eng.ctl.command ∧
    w.extractLsb' 8 3 = (match s.eng.ctl.result with
      | .none => 0 | .busy => 1 | .done => 2 | .refused => 3 | .failed => 4) ∧
    w.extractLsb' 11 4 = (match s.eng.ctl.faultCode with
      | .none => 0 | .anchorAlign => 1 | .magic => 2 | .globalTable => 3 | .domainField => 4 | .domainLevel => 5
      | .domainOverlap => 6 | .domainExposed => 7 | .anchorExposed => 8 | .tableExposed => 9 | .lineField => 10
      | .mapField => 11) ∧
    w.extractLsb' 15 3 = s.eng.ctl.faultIndex ∧ w.extractLsb' 18 4 = s.ports.seen ∧
    w.extractLsb' 22 4 = s.ports.broken ∧ w.extractLsb' 26 6 = BitVec.ofNat 6 s.eng.jtc.entries.length) ∧
  (∀ (s : State) (w : Word), w = s.registerWord .violation →
    (s.ports.violation = none → w = 0) ∧
    ∀ v, s.ports.violation = some v →
      w.extractLsb' 0 3 = (match v.kind with
        | .readDenied => 1 | .writeDenied => 2 | .unmapped => 3 | .registerDenied => 4) ∧
      w.extractLsb' 4 2 = BitVec.ofNat 2 v.port.val ∧ w.extractLsb' 10 17 = v.word ∧
      ∀ k ∈ [3, 6, 7, 8, 9, 27, 28, 29, 30, 31], w.getLsbD k = false) ∧
  (∀ s : State, s.registerWord .anchor = s.eng.ctl.anchor ∧
    (s.registerWord .control).toNat = s.eng.ctl.command.toNat ∧ (s.registerWord .note).toNat = s.eng.notify.toNat) ∧
  (Requester.engine.following = [.port 0, .port 1, .port 2, .port 3, .engine] ∧
    Requester.following (.port 0) = [.port 1, .port 2, .port 3, .engine, .port 0] ∧
    Requester.following (.port 1) = [.port 2, .port 3, .engine, .port 0, .port 1] ∧
    Requester.following (.port 2) = [.port 3, .engine, .port 0, .port 1, .port 2] ∧
    Requester.following (.port 3) = [.engine, .port 0, .port 1, .port 2, .port 3]) ∧
  (∀ s : State, (∀ p : Port, s.waiting (.port p) = true ↔ s.ports.access[p] ≠ none) ∧
    (s.waiting .engine = true ↔ s.eng.ei.unit ≠ none)) ∧
  ∀ s : State,
    (s.arb.holder = none → s.resetPin = false →
      s.arb.lastGranted.following.find? s.waiting = some .engine →
      ∃ t, exec .arbiterGrant s = .next t ∧
        t.arb = { s.arb with holder := some .engine, lastGranted := .engine } ∧ s.SameBut [.arb] t) ∧
    (s.arb.holder ≠ none ∨ s.resetPin = true → ∃ t, exec .arbiterGrant s = .next t ∧ s.SameBut [] t)

/-- LOCKED_SEQUENCE_ACCESS of the holding port, an access to the SRAM that is allowed: it is served in the same grant;
made with LOCK released it ends the sequence, as the fourth made with LOCK asserted it breaks it, and otherwise the
hold count rises (R132, R133). A write to a post word within it raises the domain's attention as any port's does, in
RUNNING and DRAINING with a byte enabled, and otherwise no attention changes (R30; accesses to registers and unmapped
addresses within it: GrantsOtherwise). A lane that is not enabled returns nothing (log 28). LOCK_RELEASE between accesses
ends a held sequence and returns a BROKEN condition to FREE (R132, R133); with the condition FREE, or an access
outstanding, nothing happens (the latter the model's choice: log 1). -/
def Obligations.LockedSequence : Prop :=
  (∀ (s : State) (p : Port) (a : PortAccess), s.mem.wf = true → s.arb.holder = some (.port p) →
     s.ports.access[p] = some a → a.word < 0x10000 → s.ports.Allows p a →
     ∃ t, exec .lockedSequenceAccess s = .next t ∧ t.waitLine p = false ∧
       t.arb.lastGranted = s.arb.lastGranted ∧
       (a.lock = false → t.arb.holder = none ∧ t.arb.holdCount = 0 ∧ t.arb.lock[p] = .free) ∧
       (a.lock = true → 3 ≤ s.arb.holdCount →
         t.arb.holder = none ∧ t.arb.holdCount = 0 ∧ t.arb.lock[p] = .broken false) ∧
       (a.lock = true → s.arb.holdCount < 3 → t.arb = { s.arb with holdCount := s.arb.holdCount + 1 }) ∧
       (a.isWrite = true →
         (∀ i : Fin 4, t.mem.read (4 * a.word.toNat + i.val) =
           if a.enables.getLsbD i.val then a.data.extractLsb' (8 * i.val) 8
           else s.mem.read (4 * a.word.toNat + i.val)) ∧
         (∀ x : Nat, x < 4 * a.word.toNat ∨ 4 * a.word.toNat + 4 ≤ x → t.mem.read x = s.mem.read x) ∧
         (∀ d : Domain, s.eng.working = true → a.enables ≠ 0 → (s.eng.domain d).enabled = true →
           s.eng.post.address[d] = some (4 * a.word.toNat) → t.eng.post.attention[d] = .posted) ∧
         (∀ d : Domain, s.eng.post.address[d] ≠ some (4 * a.word.toNat) ∨ (s.eng.domain d).enabled = false →
           t.eng.post.attention[d] = s.eng.post.attention[d]) ∧
         (s.eng.working = false ∨ a.enables = 0 → t.eng.post = s.eng.post) ∧
         t.eng.post.address = s.eng.post.address ∧ t.ports.readData = s.ports.readData) ∧
       (a.isWrite = false →
         (∀ i : Fin 4, (t.ports.readData[p])[i] =
           if a.enables.getLsbD i.val then some (s.mem.read (4 * a.word.toNat + i.val)) else none) ∧
         (∀ q : Port, q ≠ p → t.ports.readData[q] = s.ports.readData[q]) ∧
         t.mem = s.mem ∧ t.eng.post = s.eng.post) ∧
       (∀ q : Port, q ≠ p → t.ports.access[q] = s.ports.access[q] ∧ t.arb.lock[q] = s.arb.lock[q]) ∧
       { t.ports with access := s.ports.access, readData := s.ports.readData } = s.ports ∧
       s.SameBut [.mem, .ports, .arb, .post] t) ∧
  ∀ (s : State) (p : Port),
    (s.ports.access[p] = none → s.arb.lock[p] = .held →
      ∃ t, exec (.lockRelease p) s = .next t ∧ t.arb.holder = none ∧ t.arb.holdCount = 0 ∧ t.arb.lock[p] = .free ∧
        t.arb.lastGranted = s.arb.lastGranted ∧ s.SameBut [.arb] t) ∧
    (∀ b, s.ports.access[p] = none → s.arb.lock[p] = .broken b →
      ∃ t, exec (.lockRelease p) s = .next t ∧ t.arb.lock[p] = .free ∧ t.arb.holder = s.arb.holder ∧
        t.arb.holdCount = s.arb.holdCount ∧ s.SameBut [.arb] t) ∧
    (s.ports.access[p] ≠ none ∨ s.arb.lock[p] = .free →
      ∃ t, exec (.lockRelease p) s = .next t ∧ s.SameBut [] t)

/-- An engine access: a read returns the bytes at consecutive addresses and changes none; a write puts each byte in
its place and leaves every other; a locked pair leaves every byte outside its word, and the word holds what the
pair's operation makes of the word read (R129, R135). Bytes at ascending addresses spell words from their least
significant byte on. -/
def Obligations.EngineAccessBytes : Prop :=
  (∀ w : Word, wordBytes w = [w.extractLsb' 0 8, w.extractLsb' 8 8, w.extractLsb' 16 8, w.extractLsb' 24 8]) ∧
  (∀ ws : List Word, bytesWords (wordsBytes ws) = ws ∧ wordsBytes ws = ws.flatMap wordBytes) ∧
  ∀ m : Memory, m.wf = true →
    (∀ a n : Nat, ((EngineAccess.read a n).perform m).1 = m ∧ ((EngineAccess.read a n).perform m).2.length = n ∧
      ∀ i, (h : i < ((EngineAccess.read a n).perform m).2.length) →
        ((EngineAccess.read a n).perform m).2[i] = m.read (a + i)) ∧
    (∀ (a : Nat) (bs : List Byte), (EngineAccess.write a bs).inSram = true →
      (∀ i, (h : i < bs.length) → ((EngineAccess.write a bs).perform m).1.read (a + i) = bs[i]) ∧
      ∀ x, x < a ∨ a + bs.length ≤ x → ((EngineAccess.write a bs).perform m).1.read x = m.read x) ∧
    ∀ (a : Nat) (op : PairOp), (EngineAccess.pair a op).inSram = true →
      ((EngineAccess.pair a op).perform m).1.word a = op.apply (m.word a) ∧
      (∀ x, x < a ∨ a + 4 ≤ x → ((EngineAccess.pair a op).perform m).1.read x = m.read x)

/-! ### Intake -/

/-- INTAKE_PASS while RUNNING and not frozen with no pass in flight: the first eligible domain after the rotation
pointer is served; its attention is CLEAR, the pointer names it, and its post word is asked for (R32 to R34). -/
def Obligations.IntakePassBegins : Prop :=
  ∀ (s : State) (d : Domain), s.eng.ctl.state = .running → s.eng.ctl.frz = false → s.eng.jtc.pass = none →
    ([s.eng.jtc.rotation + 1, s.eng.jtc.rotation + 2, s.eng.jtc.rotation + 3, s.eng.jtc.rotation + 4,
      s.eng.jtc.rotation + 5, s.eng.jtc.rotation + 6, s.eng.jtc.rotation + 7, s.eng.jtc.rotation].find? fun d =>
        (s.eng.domain d).enabled && (decide (s.eng.post.attention[d] = .posted) ||
          (decide (s.eng.post.attention[d] = .held) &&
            decide (0 < min (8 - s.eng.jtc.countOf d) (48 - s.eng.jtc.entries.length))))) = some d →
    ∃ t, exec .intakePass s = .next t ∧
      t.eng.jtc = { s.eng.jtc with rotation := d, pass := some ⟨d, .postWord, false⟩ } ∧
      t.eng.post = { s.eng.post with attention := s.eng.post.attention.set d .clear } ∧
      t.eng.presents .intake .postWordRead (.read (s.eng.domain d).postAddr 4) ∧ s.SameBut [.post, .table] t

/-- POST_WORD_READ: the allowance is the smaller of 8 less the domain's entries and 48 less the table's, and the
lowest posted slot is read; with none posted the clearing pair follows and clears nothing (R34, R35; log 19). -/
def Obligations.PostWordRead : Prop :=
  ∀ (s : State) (p : Pass) (x : Nat), s.completes .intake .postWordRead (.read x 4) → s.eng.jtc.pass = some p →
    p.step = .postWord →
    ∃ t, exec .postWordRead s = .next t ∧ s.Completed t (.read x 4) ∧ s.SameBut [.arb, .table] t ∧
      (∀ k rest, (slotList.filter fun k => (s.mem.word x).getLsbD k.val) = k :: rest →
        t.eng.jtc = { s.eng.jtc with pass := some { p with step := (.slots k none rest
          (min (8 - s.eng.jtc.countOf p.domain) (48 - s.eng.jtc.entries.length)) []) } } ∧
        t.eng.presents .intake .slotRead (.read ((s.eng.domain p.domain).slotBase + 64 * k.val) 32)) ∧
      ((slotList.filter fun k => (s.mem.word x).getLsbD k.val) = [] →
        t.eng.jtc = { s.eng.jtc with pass := some { p with step := .clearing [] } } ∧
        t.eng.presents .intake .clearingPair (.pair (s.eng.domain p.domain).postAddr (.clearBits 0)))

/-- The table of R34 with the allowance of R35; and SLOT_READ: after the first burst of a slot the second, of words 12 to
15, is read; after the second the slot is classified by the table and the record, and the next posted slot is read, or
after the last the decided bits are cleared by one locked pair (R34 to R36; one command for each burst: log 20). The
record's words are words 0 to 7 of the first burst and 12 to 15 of the second, and its fields those of 12.3. -/
def Obligations.SlotReadClassifies : Prop :=
  (∀ a b : List Word, JobRecord.ofWords a b = ⟨a.getD 0 0, a.getD 1 0, a.getD 2 0, a.getD 3 0, a.getD 4 0, a.getD 5 0,
    a.getD 6 0, a.getD 7 0, b.getD 0 0, b.getD 1 0, b.getD 2 0, b.getD 3 0⟩) ∧
  (∀ r : JobRecord, r.request = r.w1.extractLsb' 4 2 ∧ r.priority = r.w1.extractLsb' 8 3 ∧
    r.notifyLevel = r.w1.extractLsb' 12 3 ∧
    (∀ n : Line, r.line = some n ↔ (r.w1.extractLsb' 20 4).toNat = 8 + n.val) ∧
    (∀ k : Slot, r.chainSlot = some k ↔ (r.w1.extractLsb' 24 5).toNat = 16 + k.val) ∧
    r.context = r.w3.extractLsb' 0 16 ∧ r.deadlineCount = (r.w3.extractLsb' 16 16).toNat ∧
    r.length = (r.w6.extractLsb' 0 17).toNat ∧ r.paceUnit = (r.w6.extractLsb' 17 3).toNat ∧
    r.paceTap = (r.w6.extractLsb' 20 4).toNat ∧ r.deadlineTap = (r.w6.extractLsb' 24 4).toNat) ∧
  (∀ (r : JobRecord) (n : Nat),
     (r.request = 1 → classify true r n = some .cancel) ∧ (r.request ≠ 1 → classify true r n = some .busyPost) ∧
     (r.w0 = 1 → 0 < n → classify false r n = some (.take r) ∧ (Verdict.take r).allowanceAfter n = n - 1) ∧
     (r.w0 = 1 → classify false r 0 = none) ∧ (r.w0 ≠ 1 → classify false r n = some .badPost)) ∧
  ∀ (s : State) (p : Pass) (k : Slot) (rest : List Slot) (n : Nat) (ds : List Decision) (x : Nat),
    s.eng.jtc.pass = some p →
    (p.step = .slots k none rest n ds → s.completes .intake .slotRead (.read x 32) →
      ∃ t, exec .slotRead s = .next t ∧ s.Completed t (.read x 32) ∧
        t.eng.jtc = { s.eng.jtc with
          pass := some { p with step := .slots k (some (bytesWords (s.mem.readBytes x 32))) rest n ds } } ∧
        t.eng.presents .intake .slotRead (.read ((s.eng.domain p.domain).slotBase + 64 * k.val + 48) 16) ∧
        s.SameBut [.arb, .table] t) ∧
    ∀ ws r v, p.step = .slots k (some ws) rest n ds → s.completes .intake .slotRead (.read x 16) →
      r = JobRecord.ofWords ws (bytesWords (s.mem.readBytes x 16)) →
      v = classify (s.eng.jtc.holding p.domain k).isSome r n →
      ∃ t, exec .slotRead s = .next t ∧ s.Completed t (.read x 16) ∧ s.SameBut [.arb, .table] t ∧
        (∀ k' rest', rest = k' :: rest' →
          t.eng.jtc = { s.eng.jtc with pass := some { p with
            left := p.left || v.isNone
            step := (.slots k' none rest' (match v with | none => n | some y => y.allowanceAfter n)
              (ds ++ (match v with | none => [] | some y => [⟨k, y⟩]))) } } ∧
          t.eng.presents .intake .slotRead (.read ((s.eng.domain p.domain).slotBase + 64 * k'.val) 32)) ∧
        (rest = [] →
          t.eng.jtc = { s.eng.jtc with pass := some { p with
            left := p.left || v.isNone
            step := .clearing (ds ++ (match v with | none => [] | some y => [⟨k, y⟩])) } } ∧
          ∃ m : Word, t.eng.presents .intake .clearingPair (.pair (s.eng.domain p.domain).postAddr (.clearBits m)) ∧
            ∀ i, i < 32 → (m.getLsbD i = true ↔
              ∃ y ∈ ds ++ (match v with | none => [] | some y => [⟨k, y⟩]), y.slot.val = i))

/-- The pass's commands that carry decisions out: CLEARING_PAIR with the decisions whose bit the pair read set,
REPORT_WRITE with those that remain, and TAKEN_WRITE with those that remain after the new entry is settled; each goes
on as DecisionsCarriedOut says (R36 to R38). A clearing pair leaves every bit it does not clear as read. -/
def Obligations.PassCommandsCarryOn : Prop :=
  ∀ (s : State) (p : Pass) (x : Nat), s.eng.jtc.pass = some p →
    (∀ ds m, p.step = .clearing ds → s.completes .intake .clearingPair (.pair x (.clearBits m)) →
      ∃ t, exec .clearingPair s = .next t ∧ s.Completed t (.pair x (.clearBits m)) ∧
        (s.mem.wf = true → t.mem.word x = s.mem.word x &&& ~~~m) ∧
        (∀ q : Part, (s.eng.dropUnit.carryOn p (ds.filter fun y => (s.mem.word x).getLsbD y.slot.val)).same t.eng q) ∧
        (∀ o st y, (s.eng.dropUnit.carryOn p (ds.filter fun y => (s.mem.word x).getLsbD y.slot.val)).presents o st y → t.eng.presents o st y) ∧
        t.ports = s.ports ∧ t.resetPin = s.resetPin ∧ t.rq = s.rq ∧ t.pending = s.pending) ∧
    (∀ rest bs, p.step = .report rest → s.completes .intake .reportWrite (.write x bs) →
      ∃ t, exec .reportWrite s = .next t ∧ s.Completed t (.write x bs) ∧
        (∀ q : Part, (s.eng.dropUnit.carryOn p rest).same t.eng q) ∧
        (∀ o st y, (s.eng.dropUnit.carryOn p rest).presents o st y → t.eng.presents o st y) ∧
        t.ports = s.ports ∧ t.resetPin = s.resetPin ∧ t.rq = s.rq ∧ t.pending = s.pending) ∧
    ∀ place rest bs, p.step = .taken place rest → s.completes .intake .takenWrite (.write x bs) →
      ∃ t, exec .takenWrite s = .next t ∧ s.Completed t (.write x bs) ∧
        (∀ q : Part, ((s.eng.dropUnit.setJtc (s.eng.jtc.taken s.eng.isDraining place)).carryOn p rest).same t.eng q) ∧
        (∀ o st y, ((s.eng.dropUnit.setJtc (s.eng.jtc.taken s.eng.isDraining place)).carryOn p rest).presents o st y → t.eng.presents o st y) ∧
        t.ports = s.ports ∧ t.resetPin = s.resetPin ∧ t.rq = s.rq ∧ t.pending = s.pending

/-- What carrying a decision out does: a report write for BUSY_POST, BAD_POST and a cancel that comes too late; a
cancel that closes a PENDING or ARMED entry or asks an ACTIVE or SHADOWED one to stop; a new entry, closed at once by
the first of R37's cases that applies (BAD_JOB by the validation of R23, LINE_NOT_OWNED, CANCELLED), or with its TAKEN
write; and the pass's end (R23, R31, R37, R38, R40, R41, R50). A new entry has its record's DEADLINE_COUNT, no stop reason,
no context and no flag, and awaits its TAKEN write (R42, R44, R54). An entry that is asked to stop takes the STOP_REASON,
and its channel is sent one stop request, or one drop request for a SHADOWED one; nothing happens where one is set (R51,
R52).
An entry whose TAKEN write has completed: PENDING with no TRIGGER; armed on a line whose latch is clear; PENDING
through a set latch, which is cleared with its overrun, the overrun being noted in the entry; CLOSING as DRAINED in
DRAINING; and left in CLOSING when its deadline has closed it (R37, R42, R58, R125). -/
def Obligations.DecisionsCarriedOut : Prop :=
  (∀ (j : JobTable) (en : Entry), j.find en.place = some en → j.Ordered →
     (∀ draining, en.custody = .closing →
       (j.taken draining en.place).find en.place = some { en with takenOutstanding := false } ∧
       (j.taken draining en.place).queue = j.queue) ∧
     (en.custody ≠ .closing →
       (j.taken true en.place).find en.place = some { en with
         takenOutstanding := false, custody := .closing, result := some (plainResult .drained en.heldBytes),
         serviceNotify := none, expiryDue := false } ∧
       (j.taken true en.place).queue = j.queue ++ [en.place] ∧ (j.taken true en.place).latch = j.latch ∧
       (en.record.line = none →
         (j.taken false en.place).find en.place = some { en with takenOutstanding := false, custody := .pending }) ∧
       ∀ n : Line, en.record.line = some n →
         (j.latch[n] = false →
           (j.taken false en.place).find en.place = some { en with takenOutstanding := false, custody := .armed } ∧
           (j.taken false en.place).latch = j.latch) ∧
         (j.latch[n] = true →
           (j.taken false en.place).find en.place = some { en with
             takenOutstanding := false, custody := .pending, lineOverrun := j.overrun[n] } ∧
           (j.taken false en.place).latch[n] = false ∧ (j.taken false en.place).overrun[n] = false))) ∧
  (∀ (e : Engine) (d : Domain) (r : JobRecord),
    (e.Invalid r → e.intakeOutcome d r = some ⟨.fault, .badJob, .record, .start, 0, 0, 0⟩) ∧
    (¬ e.Invalid r → (∃ n : Line, (r.w1.extractLsb' 20 4).toNat = 8 + n.val ∧ (e.line n).owner ≠ d) →
      e.intakeOutcome d r = some ⟨.fault, .lineNotOwned, .line, .start, 0, 0, 0⟩) ∧
    (¬ e.Invalid r → (∀ n : Line, (r.w1.extractLsb' 20 4).toNat = 8 + n.val → (e.line n).owner = d) →
      ((r.w1.extractLsb' 4 2).toNat = 1 →
        e.intakeOutcome d r = some ⟨.cancelled, .none, .none, .none, 0, 0, 0⟩) ∧
      ((r.w1.extractLsb' 4 2).toNat = 0 → e.intakeOutcome d r = none))) ∧
  (∀ (place : Nat) (r : JobRecord) (d : Domain) (k : Slot) (taken : Bool), Entry.fresh place r d k taken = {
    place := place, record := r, domain := d, slot := k, custody := .created
    deadline := (r.w3.extractLsb' 16 16).toNat, expiryDue := false, stopReason := none, claim := none
    resumeFromContext := false, recordedProgress := 0, lineOverrun := false, preempted := false, channel := none
    shadowChannel := none, startOrder := 0, takenOutstanding := taken, result := none, serviceNotify := none }) ∧
  (∀ (e f : Engine) (en : Entry) (r : StopReason), f = e.requestStop en r →
    (en.stopReason ≠ none → f = e) ∧
    (en.stopReason = none → en.custody = .active ∨ en.custody = .shadowed →
      f.jtc = { e.jtc with entries := e.jtc.entries.map fun x =>
        if x.place = en.place then { x with stopReason := some r } else x } ∧
      (∀ c, f.chan c = { e.chan c with
        stops := (e.chan c).stops ++
          (if en.custody = .active ∧ en.channel = some c then [⟨en.place, r⟩] else [])
        drops := (e.chan c).drops ++
          (if en.custody = .shadowed ∧ en.shadowChannel = some c then [⟨en.place, r⟩] else []) }) ∧
      { f with jtc := e.jtc, channels := e.channels } = e)) ∧
  ∀ (e : Engine) (p : Pass) (k : Slot) (rest : List Decision),
    ((e.carryOn p []).jtc = { e.jtc with pass := none } ∧
      (e.carryOn p []).post.attention[p.domain] =
        (if p.left = true ∧ e.post.attention[p.domain] = .clear then .held else e.post.attention[p.domain])) ∧
    (∀ v code, (v = .badPost ∧ code = 1) ∨ (v = .busyPost ∧ code = 2) ∨
        (v = .cancel ∧ code = 3 ∧ (∀ en, e.jtc.holding p.domain k = some en → en.custody = .closing)) →
      (e.carryOn p (⟨k, v⟩ :: rest)).jtc = { e.jtc with pass := some { p with step := .report rest } } ∧
      (e.carryOn p (⟨k, v⟩ :: rest)).presents .intake .reportWrite
        (.write (e.domain p.domain).reportAddr (wordBytes (code ||| (BitVec.ofNat 32 k.val <<< 8))))) ∧
    (∀ en, e.jtc.holding p.domain k = some en → en.custody = .pending ∨ en.custody = .armed →
      e.carryOn p (⟨k, .cancel⟩ :: rest) =
        (e.setJtc (e.jtc.close en.place (plainResult .cancelled en.heldBytes) none)).carryOn p rest) ∧
    (∀ en, e.jtc.holding p.domain k = some en → en.custody = .active ∨ en.custody = .shadowed →
      e.carryOn p (⟨k, .cancel⟩ :: rest) = (e.requestStop en .cancel).carryOn p rest) ∧
    (∀ r out, e.intakeOutcome p.domain r = some out →
      e.carryOn p (⟨k, .take r⟩ :: rest) =
        (e.setJtc ((e.jtc.create r p.domain k false).close e.jtc.nextPlace out none)).carryOn p rest ∧
      (e.jtc.Ordered → (e.jtc.create r p.domain k false).close e.jtc.nextPlace out none = { e.jtc with
        entries := e.jtc.entries ++ [{ Entry.fresh e.jtc.nextPlace r p.domain k false with
          custody := .closing, result := some out }]
        nextPlace := e.jtc.nextPlace + 1
        queue := e.jtc.queue ++ [e.jtc.nextPlace] })) ∧
    ∀ r, e.intakeOutcome p.domain r = none →
      (e.carryOn p (⟨k, .take r⟩ :: rest)).jtc = { e.jtc with
        entries := e.jtc.entries ++ [{
          place := e.jtc.nextPlace, record := r, domain := p.domain, slot := k, custody := .created
          deadline := (r.w3.extractLsb' 16 16).toNat, expiryDue := false, stopReason := none, claim := none
          resumeFromContext := false, recordedProgress := 0, lineOverrun := false, preempted := false
          channel := none, shadowChannel := none, startOrder := 0, takenOutstanding := true, result := none
          serviceNotify := none }]
        nextPlace := e.jtc.nextPlace + 1
        pass := some { p with step := .taken e.jtc.nextPlace rest } } ∧
      (e.carryOn p (⟨k, .take r⟩ :: rest)).presents .intake .takenWrite
        (.write ((e.domain p.domain).slotBase + 64 * k.val) [2, 0, 0, 0])

/-! ### Dispatch and reports -/

/-- DISPATCH: the dispatch that the dispatcher has sent is taken against the pending list as it then stands, whatever the
engine has become since (log 15). The pending head becomes ACTIVE on the IDLE channel it names, with its resume flag
handed over and cleared; a first start writes RUNNING, a resume reads the save area (R48, R69, R71, R85). With the list
empty the dispatch is not made and the channel stays IDLE; with none sent nothing happens (log 1). What the channel's
empty progress record holds is the model's choice (log 36). -/
def Obligations.DispatchTakesHead : Prop :=
  (∀ (s : State) (c : ChannelId) (en : Entry), s.eng.disp.sent = some c → (s.eng.chan c).state = .idle →
    s.eng.jtc.Ordered → s.eng.jtc.Heads en →
    ∃ t, exec .dispatch s = .next t ∧
      t.eng.jtc = { s.eng.jtc with entries := s.eng.jtc.entries.map fun x =>
        if x = en then { en with custody := .active, channel := some c, resumeFromContext := false,
                                 startOrder := s.eng.disp.nextStart } else x } ∧
      t.eng.disp.nextStart = s.eng.disp.nextStart + 1 ∧
      (s.eng.chan c).Takes (t.eng.chan c) ⟨en.place, en.domain, en.slot, en.record, en.resumeFromContext,
        en.recordedProgress, en.claim⟩ ∧ (t.eng.chan c).reports = (s.eng.chan c).reports ∧
      (en.resumeFromContext = false → t.eng.presents (.channel c) .runningWrite
        (.write ((s.eng.domain en.domain).slotBase + 64 * en.slot.val) [3, 0, 0, 0])) ∧
      (∀ cl, en.resumeFromContext = true → en.claim = some cl →
        t.eng.presents (.channel c) .saveAreaRead (.read cl.saveArea 32)) ∧
      s.SameBut [.table, .starts, .channel c] t) ∧
  (∀ (s : State) (c : ChannelId), s.eng.disp.sent = some c → (∀ x ∈ s.eng.jtc.entries, x.custody ≠ .pending) →
    ∃ t, exec .dispatch s = .next t ∧ t.eng.disp.sent = none ∧ s.SameBut [] t) ∧
  ∀ s : State, s.eng.disp.sent = none → ∃ t, exec .dispatch s = .next t ∧ s.SameBut [] t

/-- CONDITIONAL_DISPATCH of a free channel: while RUNNING, a pending head that outranks the shadow goes to the channel,
which keeps its shadow and makes the job's first access (R69, R71, R83, R85; the empty progress record: log 36);
otherwise the shadow resumes, noted as a start, its pacing wait and its marks not kept: frozen, or paced, it waits at its
first boundary, and otherwise its next burst is issued (R69, R80, R83, R99). -/
def Obligations.ConditionalDispatchAnswered : Prop :=
  ∀ (s : State) (c : ChannelId) (prio : BitVec 3) (rest : List Report),
    (s.eng.chan c).reports = .conditional prio :: rest → (s.eng.chan c).state = .free → s.eng.jtc.Ordered →
    (∀ en, s.eng.ctl.state = .running → s.eng.jtc.Heads en → prio < en.record.priority →
      ∃ t, exec (.conditionalDispatch c) s = .next t ∧
        t.eng.jtc = { s.eng.jtc with entries := s.eng.jtc.entries.map fun x =>
          if x = en then { en with custody := .active, channel := some c, resumeFromContext := false,
                                   startOrder := s.eng.disp.nextStart } else x } ∧
        t.eng.disp.nextStart = s.eng.disp.nextStart + 1 ∧
        Channel.Takes { s.eng.chan c with reports := rest } (t.eng.chan c)
          ⟨en.place, en.domain, en.slot, en.record, en.resumeFromContext, en.recordedProgress, en.claim⟩ ∧
        (en.resumeFromContext = false → t.eng.presents (.channel c) .runningWrite
          (.write ((s.eng.domain en.domain).slotBase + 64 * en.slot.val) [3, 0, 0, 0])) ∧
        (∀ cl, en.resumeFromContext = true → en.claim = some cl →
          t.eng.presents (.channel c) .saveAreaRead (.read cl.saveArea 32)) ∧
        s.SameBut [.table, .starts, .channel c] t) ∧
    ∀ sh body p a, (s.eng.chan c).shadow = some sh →
      (s.eng.ctl.state ≠ .running ∨
        ∀ x ∈ s.eng.jtc.entries, x.custody = .pending → ¬ prio < x.record.priority) →
      body = bodyOf sh.job.record sh.copies.service →
      p = { sh.progress with unitLeft := 0, writtenDest := false, writtenParam := false } →
      a = { s.eng.chan c with
        state := .moving, work := .boundary, job := some sh.job, progress := p, readings := Readings.empty
        copies := some sh.copies, saved := none, shadow := none, stop := none, yieldHeld := false
        reports := rest ++ [.resumeShadow sh.job.place] } →
      ∃ t, exec (.conditionalDispatch c) s = .next t ∧
        t.eng.jtc = { s.eng.jtc with entries := s.eng.jtc.entries.map fun x =>
          if x.place = sh.job.place then { x with startOrder := s.eng.disp.nextStart } else x } ∧
        t.eng.disp.nextStart = s.eng.disp.nextStart + 1 ∧
        (s.eng.frozen = true ∨ sh.job.record.paceUnit ≠ 0 → (t.eng.chan c).own = a.own) ∧
        (s.eng.frozen = false → sh.job.record.paceUnit = 0 →
          t.eng.Issues c a body sh.copies (formBurst body false sh.copies p)) ∧
        s.SameBut [.table, .starts, .channel c] t

/-- What the JTC records when it takes a channel's oldest report: a context claim, a park in the shadow bank (with a
drop request when a stop reason is set or the engine is DRAINING), a park in the context (PENDING, or CLOSING by the
stop reason or the drain), a resume, and a handoff; of the channel nothing but its reports and drop requests changes
(R46, R47, R58, R59, R70). -/
def Obligations.ReportsRecorded : Prop :=
  ∀ (s : State) (c : ChannelId) (en : Entry) (rest : List Report), s.eng.jtc.Ordered → en ∈ s.eng.jtc.entries →
    (∀ cl, (s.eng.chan c).reports = .contextClaim en.place cl :: rest →
      ∃ t, exec (.contextClaimReport c) s = .next t ∧ (t.eng.chan c).own = { (s.eng.chan c).own with reports := rest } ∧
        t.eng.jtc = { s.eng.jtc with entries := s.eng.jtc.entries.map fun x =>
          if x = en then { en with claim := some cl } else x } ∧ s.SameBut [.table, .channel c] t) ∧
    ((s.eng.chan c).reports = .parkShadow en.place :: rest →
      ∃ t, exec (.parkShadowReport c) s = .next t ∧
        (t.eng.chan c).own = { (s.eng.chan c).own with reports := rest, drops := (t.eng.chan c).drops } ∧
        t.eng.jtc = { s.eng.jtc with entries := s.eng.jtc.entries.map fun x =>
          if x = en then { en with
            custody := .shadowed, channel := none, shadowChannel := some c, preempted := true
            stopReason := if en.stopReason = none ∧ s.eng.ctl.state = .draining then some .drain else en.stopReason }
          else x } ∧
        (∀ r, en.stopReason = some r → (t.eng.chan c).drops = (s.eng.chan c).drops ++ [⟨en.place, r⟩]) ∧
        (en.stopReason = none → s.eng.ctl.state = .draining →
          (t.eng.chan c).drops = (s.eng.chan c).drops ++ [⟨en.place, .drain⟩]) ∧
        (en.stopReason = none → s.eng.ctl.state ≠ .draining → (t.eng.chan c).drops = (s.eng.chan c).drops) ∧
        s.SameBut [.table, .channel c] t) ∧
    (∀ n, (s.eng.chan c).reports = .parkContext en.place n :: rest →
      ∃ t, exec (.parkContextReport c) s = .next t ∧ (t.eng.chan c).own = { (s.eng.chan c).own with reports := rest } ∧
        (en.stopReason = none → s.eng.ctl.state ≠ .draining →
          t.eng.jtc = { s.eng.jtc with entries := s.eng.jtc.entries.map fun x =>
            if x = en then { en with custody := .pending, channel := none, shadowChannel := none,
                                     recordedProgress := n, resumeFromContext := true, preempted := true } else x }) ∧
        (∀ o, (∃ r, en.stopReason = some r ∧ o = r.outcome) ∨
              (en.stopReason = none ∧ s.eng.ctl.state = .draining ∧ o = .drained) →
          t.eng.jtc = { s.eng.jtc with
            entries := s.eng.jtc.entries.map fun x =>
              if x = en then { en with
                custody := .closing, channel := none, shadowChannel := none, recordedProgress := n,
                resumeFromContext := true, preempted := true, result := some (plainResult o n),
                serviceNotify := none, expiryDue := false } else x
            queue := s.eng.jtc.queue ++ [en.place] }) ∧ s.SameBut [.table, .channel c] t) ∧
    ((s.eng.chan c).reports = .resumeShadow en.place :: rest →
      ∃ t, exec (.resumeShadowReport c) s = .next t ∧ (t.eng.chan c).own = { (s.eng.chan c).own with reports := rest } ∧
        t.eng.jtc = { s.eng.jtc with entries := s.eng.jtc.entries.map fun x =>
          if x = en then { en with custody := .active, channel := some c, shadowChannel := none } else x } ∧
        s.SameBut [.table, .channel c] t) ∧
    ∀ r n, (s.eng.chan c).reports = .handoff en.place r n :: rest → en.custody = .active ∨ en.custody = .shadowed →
      ∃ t, exec (.handoff c) s = .next t ∧ (t.eng.chan c).own = { (s.eng.chan c).own with reports := rest } ∧
        t.eng.jtc = { s.eng.jtc with
          entries := s.eng.jtc.entries.map fun x =>
            if x = en then { en with custody := .closing, result := some r, serviceNotify := n, expiryDue := false }
            else x
          queue := s.eng.jtc.queue ++ [en.place] } ∧ s.SameBut [.table, .channel c] t

/-! ### Lines, Timebase and deadlines -/

/-- LINE_EVENT: the earliest armed entry of the line is released to PENDING, or closed DRAINED in DRAINING; with none
armed LATCH is set, or OVERRUN when LATCH is set (R124). -/
def Obligations.LineEventTaken : Prop :=
  ∀ (s : State) (n : Line) (k : Nat), s.eng.jtc.lineEvents[n] = k + 1 → s.eng.jtc.Ordered →
    ∃ t, exec (.lineEvent n) s = .next t ∧ t.eng.jtc.lineEvents[n] = k ∧ s.SameBut [.table] t ∧
      (∀ en more, (s.eng.jtc.entries.filter fun x => x.custody = .armed ∧ x.record.line = some n) = en :: more →
        t.eng.jtc.latch = s.eng.jtc.latch ∧ t.eng.jtc.overrun = s.eng.jtc.overrun ∧
        (s.eng.ctl.state ≠ .draining →
          t.eng.jtc.entries = (s.eng.jtc.entries.map fun x =>
            if x = en then { en with custody := .pending } else x) ∧ t.eng.jtc.queue = s.eng.jtc.queue) ∧
        (s.eng.ctl.state = .draining →
          t.eng.jtc.entries = (s.eng.jtc.entries.map fun x =>
            if x = en then { en with custody := .closing, result := some (plainResult .drained en.heldBytes),
                                     serviceNotify := none, expiryDue := false } else x) ∧
          t.eng.jtc.queue = s.eng.jtc.queue ++ [en.place])) ∧
      ((s.eng.jtc.entries.filter fun x => x.custody = .armed ∧ x.record.line = some n) = [] →
        t.eng.jtc.entries = s.eng.jtc.entries ∧ t.eng.jtc.queue = s.eng.jtc.queue ∧
        (s.eng.jtc.latch[n] = false → t.eng.jtc.latch = s.eng.jtc.latch.set n true ∧
          t.eng.jtc.overrun = s.eng.jtc.overrun) ∧
        (s.eng.jtc.latch[n] = true → t.eng.jtc.overrun = s.eng.jtc.overrun.set n true ∧
          t.eng.jtc.latch = s.eng.jtc.latch))

/-- The filter's table: the first sample sets the level without an event; an equal sample clears the run count; a
differing one is accepted at once for COUNT 0, and otherwise when the run count reaches COUNT. An accepted change is
an event when EDGE matches it: 1 RISE, 2 FALL, 3 BOTH (R121, R122). -/
def Obligations.FilterSamples : Prop :=
  ∀ (l : LineEntry) (pin level : Bool) (run : Nat),
    Filter.sample ⟨none, run⟩ l pin = (⟨some pin, 0⟩, false) ∧
    (pin = level → Filter.sample ⟨some level, run⟩ l pin = (⟨some level, 0⟩, false)) ∧
    (pin ≠ level → l.count.val = 0 ∨ l.count.val ≤ run + 1 →
      (Filter.sample ⟨some level, run⟩ l pin).1 = ⟨some pin, 0⟩ ∧
      (l.edge = 1 → (Filter.sample ⟨some level, run⟩ l pin).2 = pin) ∧
      (l.edge = 2 → (Filter.sample ⟨some level, run⟩ l pin).2 = !pin) ∧
      (l.edge = 3 → (Filter.sample ⟨some level, run⟩ l pin).2 = true)) ∧
    (pin ≠ level → run + 1 < l.count.val →
      Filter.sample ⟨some level, run⟩ l pin = (⟨some level, run + 1⟩, false))

/-- TAP_TICK: one RCLK period, with the levels of RQ0 to RQ7 in it. The Timebase's condition is that of R118's table, by
the engine state, the frozen condition and FREEZE_TIMEBASE (R154; with no loaded copies, which a working engine has:
log 26). While it does not run only the pins change.
While it runs the count advances by one and wraps, and the filter of an enabled line whose tap ticks samples its pin. The
job of a channel that is paced, waits at a boundary with no unit left and is not held frozen starts, when its tap ticks,
its next unit, the smaller of the unit and the bytes that remain, and issues the first burst of it: the read of a MOVE or
SUM, the write of a FILL or the WRITTEN pair before it; every other channel stays as it was, the tick being lost on it
(R99, R100). With the table in intake order, the deadline count above 0 of each entry not in CLOSING whose tap ticks
falls by one, and an expiry is due when it reaches 0; an expiry that an earlier tick left due is taken first, as R42, R55
and R56 give (R54, R117 to R119, R121; that expiries wait for a step of their own and one command holds all of a period's
ticks: logs 12, 13). -/
def Obligations.TapTickCounts : Prop :=
  (∀ e : Engine,
    (e.frozen = true ↔ (e.ctl.state = .running ∨ e.ctl.state = .draining) ∧ e.ctl.frz = true) ∧
    (e.timebase = .cleared ↔ e.ctl.state ≠ .running ∧ e.ctl.state ≠ .draining) ∧
    (e.timebase = .running ↔ (e.ctl.state = .running ∨ e.ctl.state = .draining) ∧
      (e.frozen = false ∨ ∃ k, e.ctl.copies = some k ∧ k.freezeRun = true)) ∧
    (e.timebase = .paused ↔ e.frozen = true ∧ ∀ k, e.ctl.copies = some k → k.freezeRun = false)) ∧
  ∀ (s : State) (rq : BitVec 8),
   ∃ t, exec (.tapTick rq) s = .next t ∧ t.rq = rq ∧ t.resetPin = s.resetPin ∧
    (s.eng.timebase ≠ .running → s.SameBut [.pins] t) ∧
    (s.eng.timebase = .running →
      t.eng.count = s.eng.count + 1 ∧
      (∀ n : Line, t.eng.filters[n] =
        if (s.eng.line n).enabled = true ∧ (s.eng.count + 1).toNat % 2 ^ (s.eng.line n).tap.val = 0
        then (s.eng.filters[n].sample (s.eng.line n) (rq.getLsbD n.val)).1 else s.eng.filters[n]) ∧
      (∀ n : Line, t.eng.jtc.lineEvents[n] = s.eng.jtc.lineEvents[n] +
        if (s.eng.line n).enabled = true ∧ (s.eng.count + 1).toNat % 2 ^ (s.eng.line n).tap.val = 0 ∧
          (s.eng.filters[n].sample (s.eng.line n) (rq.getLsbD n.val)).2 = true then 1 else 0) ∧
      (∀ (c : ChannelId) (j : Job) (rs : Readings) (body : Body) (p : Progress) (b : Burst),
        (s.eng.chan c).moving = some (j, rs, body) → (s.eng.chan c).state = .moving → (s.eng.chan c).work = .boundary →
        s.eng.frozen = false → j.record.paceUnit ≠ 0 → (s.eng.chan c).progress.unitLeft = 0 →
        (s.eng.count + 1).toNat % 2 ^ j.record.paceTap = 0 →
        p = { (s.eng.chan c).progress with
          unitLeft := min (4 * 2 ^ (j.record.paceUnit - 1)) (body.length - (s.eng.chan c).progress.bytesDone) } →
        b = formBurst body true rs p →
        (t.eng.chan c).own = { (s.eng.chan c).own with
          stops := (t.eng.chan c).stops, drops := (t.eng.chan c).drops, progress := p
          work := if body.op = .fill then (if p.writtenDest then .burstWrite b else .writtenMark b)
                  else .burstRead b } ∧
        (body.op ≠ .fill → t.eng.presents (.channel c) .burstRead (.read b.source b.count)) ∧
        (body.op = .fill → p.writtenDest = true → t.eng.presents (.channel c) .burstWrite (.write b.dest b.data)) ∧
        ∀ r, body.op = .fill → p.writtenDest = false → rs.dest = some r →
          t.eng.presents (.channel c) .writtenMark (.pair (r.address + 12) (.setBits 0x1000))) ∧
      (∀ c : ChannelId,
        (∀ j rs body, (s.eng.chan c).moving = some (j, rs, body) →
          (s.eng.chan c).state ≠ .moving ∨ (s.eng.chan c).work ≠ .boundary ∨ s.eng.frozen = true ∨
          j.record.paceUnit = 0 ∨ (s.eng.chan c).progress.unitLeft ≠ 0 ∨
          (s.eng.count + 1).toNat % 2 ^ j.record.paceTap ≠ 0) →
        (t.eng.chan c).own = { (s.eng.chan c).own with
          stops := (t.eng.chan c).stops, drops := (t.eng.chan c).drops }) ∧
      (s.eng.jtc.Ordered →
        t.eng.jtc.entries = (s.eng.jtc.entries.map fun en => en.afterExpiry.afterTick (s.eng.count + 1)) ∧
        t.eng.jtc.queue = s.eng.jtc.queue ++ ((s.eng.jtc.entries.filter fun en =>
          en.expiryDue = true ∧ (en.custody = .pending ∨ en.custody = .armed ∨ en.custody = .created)).map
            fun en => en.place) ∧
        (∀ c, (t.eng.chan c).stops = (s.eng.chan c).stops ++ ((s.eng.jtc.entries.filter fun en =>
          en.expiryDue = true ∧ en.custody = .active ∧ en.stopReason = none ∧ en.channel = some c).map
            fun en => ⟨en.place, .deadline⟩)) ∧
        (∀ c, (t.eng.chan c).drops = (s.eng.chan c).drops ++ ((s.eng.jtc.entries.filter fun en =>
          en.expiryDue = true ∧ en.custody = .shadowed ∧ en.stopReason = none ∧ en.shadowChannel = some c).map
            fun en => ⟨en.place, .deadline⟩))) ∧
      { t.eng.jtc with entries := s.eng.jtc.entries, queue := s.eng.jtc.queue,
                       lineEvents := s.eng.jtc.lineEvents } = s.eng.jtc ∧
      s.SameBut ([.pins, .timebase, .table] ++ everyChannel) t)

/-- DEADLINE_EXPIRY: the earliest expiry due closes a PENDING or ARMED entry, or one whose TAKEN write is not yet
done, TIMED_OUT; it asks an ACTIVE entry without a stop reason to stop, or drops a SHADOWED one, and changes nothing
more where a stop reason stands or the entry is CLOSING: beside that one message every channel stays as it was (R42, R54
to R56; that it is a command of its own: log 12; with no expiry due it does nothing: log 1). -/
def Obligations.DeadlineExpiryTaken : Prop :=
  (∀ s : State, (∀ x ∈ s.eng.jtc.entries, x.expiryDue = false) →
    ∃ t, exec .deadlineExpiry s = .next t ∧ s.SameBut [] t) ∧
  ∀ (s : State) (en : Entry), s.eng.jtc.entries.find? (fun x => x.expiryDue) = some en → s.eng.jtc.Ordered →
    ∃ t, exec .deadlineExpiry s = .next t ∧
      (en.custody = .pending ∨ en.custody = .armed ∨ en.custody = .created →
        t.eng.jtc = { s.eng.jtc with
          entries := s.eng.jtc.entries.map fun x =>
            if x = en then { en with custody := .closing, result := some (plainResult .timedOut en.heldBytes),
                                     serviceNotify := none, expiryDue := false } else x
          queue := s.eng.jtc.queue ++ [en.place] } ∧ s.SameBut [.table] t) ∧
      (en.custody = .closing →
        t.eng.jtc = { s.eng.jtc with entries := s.eng.jtc.entries.map fun x =>
          if x = en then { en with expiryDue := false } else x } ∧ s.SameBut [.table] t) ∧
      (en.custody = .active ∨ en.custody = .shadowed →
        t.eng.jtc = { s.eng.jtc with entries := s.eng.jtc.entries.map fun x =>
          if x = en then { en with expiryDue := false
                                   stopReason := if en.stopReason = none then some .deadline else en.stopReason }
          else x } ∧
        (∀ c : ChannelId, (t.eng.chan c).own = { (s.eng.chan c).own with
          stops := (s.eng.chan c).stops ++
            (if en.custody = .active ∧ en.stopReason = none ∧ en.channel = some c then [⟨en.place, .deadline⟩] else [])
          drops := (s.eng.chan c).drops ++
            (if en.custody = .shadowed ∧ en.stopReason = none ∧ en.shadowChannel = some c then [⟨en.place, .deadline⟩]
             else []) }) ∧
        s.SameBut (.table :: everyChannel) t)

/-! ### Requests that reach a channel -/

/-- STOP_REQUEST, and DROP_REQUEST of a job not in the shadow bank: one that names no job there is discarded; for the
active job it is held until the next boundary, discarded in FINISHING or when one is held, and taken at once at a
boundary, which hands the job off with the outcome of the reason, its bytes done and no check sum, a full bank then
being handed over in DRAINING, resumed while frozen, and otherwise offered by a conditional dispatch (R70, R75, R83, R84).
DROP_REQUEST of the job in the shadow bank: it is handed to closing with the outcome of the reason and the bytes done
held in the bank, and the active job runs on; a free channel enters IDLE (R84; its conditional dispatch: log 22; what an
empty progress record holds: log 36). The outcome is CANCELLED, TIMED_OUT or DRAINED by the reason, with no fault (R47,
R75). -/
def Obligations.StopAndDropRequestsArrive : Prop :=
  (StopReason.cancel.outcome = .cancelled ∧ StopReason.deadline.outcome = .timedOut ∧
    StopReason.drain.outcome = .drained ∧
    ∀ o n, plainResult o n = ⟨o, .none, .none, .none, 0, n, 0⟩) ∧
  (∀ (a : Channel) (place : Nat), (a.runs place = true ↔ ∃ j, a.job = some j ∧ j.place = place) ∧
    (a.atBoundary = true ↔ a.state = .moving ∧ a.work = .boundary)) ∧
  ∀ (s : State) (c : ChannelId) (place : Nat) (r : StopReason) (rest : List StopMessage),
    (∀ (i : Instr) (a : Channel),
      (i = .stopRequest c ∧ (s.eng.chan c).stops = ⟨place, r⟩ :: rest ∧ a = { s.eng.chan c with stops := rest }) ∨
        (i = .dropRequest c ∧ (s.eng.chan c).drops = ⟨place, r⟩ :: rest ∧ a = { s.eng.chan c with drops := rest } ∧
          ∀ sh, a.shadow = some sh → sh.job.place ≠ place) →
      (a.runs place = false →
        ∃ t, exec i s = .next t ∧ (t.eng.chan c).own = a.own ∧ s.SameBut [.channel c] t) ∧
      (a.runs place = true → a.atBoundary = false →
        ∃ t, exec i s = .next t ∧
          (t.eng.chan c).own = { a.own with
            stop := if a.state = .finishing ∨ a.stop.isSome then a.stop else some r } ∧ s.SameBut [.channel c] t) ∧
      ∀ rs, a.runs place = true → a.atBoundary = true → a.stop = none → a.copies = some rs →
        ∃ t, exec i s = .next t ∧
          s.Finishes [] t c a place (plainResult r.outcome a.progress.bytesDone) (noticeOf rs.service)) ∧
    ∀ sh, (s.eng.chan c).drops = ⟨place, r⟩ :: rest → (s.eng.chan c).shadow = some sh → sh.job.place = place →
      ((s.eng.chan c).state ≠ .free →
        ∃ t, exec (.dropRequest c) s = .next t ∧
          (t.eng.chan c).own = { (s.eng.chan c).own with
            drops := rest, shadow := none
            reports := (s.eng.chan c).reports ++
              [.handoff place (plainResult r.outcome sh.progress.bytesDone) none] } ∧ s.SameBut [.channel c] t) ∧
      (∀ prio more, (s.eng.chan c).state = .free → (s.eng.chan c).reports = more ++ [.conditional prio] →
        (∀ p, .conditional p ∉ more) →
        ∃ t, exec (.dropRequest c) s = .next t ∧
          (t.eng.chan c).own = { (s.eng.chan c).own with
            state := .idle, work := .none, job := none, progress := Progress.empty, readings := Readings.empty
            copies := none, saved := none, shadow := none, stop := none, yieldHeld := false, drops := rest
            reports := more ++ [.handoff place (plainResult r.outcome sh.progress.bytesDone) none] } ∧
          s.SameBut [.channel c] t)

/-- YIELD_REQUEST and YIELD_WITHDRAWAL: a yield for the active job is held until the next boundary, or taken at once
where the job waits at one and is not frozen (that a yield is held, not taken, while its job is held frozen: log 32).
Taken, it parks the job in an empty bank, after which the channel is free with its bank full; with a full bank a job that
holds a claim is parked in its context, the whole save area being written by one burst of eight words as 12.4 gives. One
that names another job is discarded; a withdrawal clears a yield held for the job it names (R70, R76, R80, R81, R83,
R100). -/
def Obligations.YieldMessagesArrive : Prop :=
  ∀ (s : State) (c : ChannelId) (place : Nat) (rest : List YieldMessage),
    ((s.eng.chan c).yields = .ask place :: rest →
      ((s.eng.chan c).runs place = true → ((s.eng.chan c).atBoundary && !s.eng.frozen) = false →
        ∃ t, exec (.yieldRequest c) s = .next t ∧
          (t.eng.chan c).own = { (s.eng.chan c).own with yieldHeld := true } ∧
          (∃ more, (t.eng.chan c).yields = rest ++ more) ∧ s.SameBut [.channel c] t) ∧
      ((s.eng.chan c).runs place = false →
        ∃ t, exec (.yieldRequest c) s = .next t ∧ (∃ more, (t.eng.chan c).yields = rest ++ more) ∧ s.SameBut [] t) ∧
      ∀ j rs, (s.eng.chan c).job = some j → j.place = place → (s.eng.chan c).atBoundary = true →
        s.eng.frozen = false → (s.eng.chan c).copies = some rs → (s.eng.chan c).stop = none →
        (∀ sh, (s.eng.chan c).shadow = none → sh = ⟨j, (s.eng.chan c).progress, rs⟩ →
          ∃ t, exec (.yieldRequest c) s = .next t ∧
            s.FreesFull [] t c { s.eng.chan c with shadow := some sh } sh [.parkShadow place]) ∧
        ∀ sh cl, (s.eng.chan c).shadow = some sh → j.claim = some cl →
          ∃ t, exec (.yieldRequest c) s = .next t ∧
            (t.eng.chan c).own = { (s.eng.chan c).own with state := .saving, work := .saveWrite, yieldHeld := false } ∧
            (∃ w1 : Word, t.eng.presents (.channel c) .saveAreaWrite
                (.write cl.saveArea (wordsBytes [1, w1, BitVec.ofNat 32 (s.eng.chan c).progress.nextSource,
                  BitVec.ofNat 32 (s.eng.chan c).progress.nextDest, BitVec.ofNat 32 (s.eng.chan c).progress.bytesDone,
                  (s.eng.chan c).progress.crc, 0, 0])) ∧
              w1.toNat = j.domain.val + 256 * j.slot.val + 65536 *
                (match (s.eng.chan c).progress.direction with | .ascending => 1 | .descending => 2)) ∧
            s.SameBut [.channel c] t) ∧
    ((s.eng.chan c).yields = .withdraw place :: rest →
      ∃ t, exec (.yieldWithdrawal c) s = .next t ∧ (∃ more, (t.eng.chan c).yields = rest ++ more) ∧
        (t.eng.chan c).own = { (s.eng.chan c).own with
          yieldHeld := if (s.eng.chan c).runs place then false else (s.eng.chan c).yieldHeld } ∧
        s.SameBut [.channel c] t)

/-! ### The window check -/

/-- Steps 4 to 6 of the check, in order (R11): NOT_PRESENT when PRESENT is clear; WRONG_KIND, or GATE_NESTED for a gate
that a service names, when KIND is not accepted; BAD_WINDOW when the window does not lie inside the SRAM, when a
context is not aligned to 32 bytes or smaller than 32, or when a gate's SERVICE is not aligned or not inside. -/
def Obligations.CheckStepsFourToSix : Prop :=
  ∀ (op : Operand) (service : Bool) (el : Level) (range : Option (Nat × Nat)) (d : Descriptor) (k : Nat)
    (accepted inside : Prop), k = (d.kind.extractLsb' 0 4).toNat →
    (accepted ↔ match op with
      | .gate => k = 2
      | .context => k = 3 ∨ k = 4
      | _ => k = 1) →
    (inside ↔ match op with
      | .gate => d.service.toNat % 32 = 0 ∧ d.service.toNat + 31 ≤ 0x3FFFF
      | .context => d.base.toNat + d.limit.toNat ≤ 0x3FFFF ∧ d.base.toNat % 32 = 0 ∧ 31 ≤ d.limit.toNat
      | _ => d.base.toNat + d.limit.toNat ≤ 0x3FFFF) →
    (d.kind.getLsbD 8 = false → checkDescriptor op service el range d = some .notPresent) ∧
    (d.kind.getLsbD 8 = true → ¬ accepted → checkDescriptor op service el range d =
      some (if (op = .source ∨ op = .dest ∨ op = .param) ∧ service = true ∧ k = 2 then .gateNested else .wrongKind)) ∧
    (d.kind.getLsbD 8 = true → accepted → ¬ inside → checkDescriptor op service el range d = some .badWindow) ∧
    (d.kind.getLsbD 8 = true → accepted → inside → ∀ f ∈ [FaultKind.notPresent, .wrongKind, .gateNested, .badWindow],
      checkDescriptor op service el range d ≠ some f)

/-- Steps 1 to 3 and 7 to 9 of the check: a reserved selector bit, the null selector where an operand is required, an
INDEX past its table; an effective level numerically above the window's LEVEL, a right that is missing, READ first for
a context, and a range past LIMIT (R1, R2, R8, R10, R12). The operands a check tests, in their order, an optional one that
is null left out (R2, R9, R104, R108, R111), and the overlap test of a MOVE with a check sum (R13). The descriptor's
fields are those of 12.2. The table a selector names; the effective level, the larger of the selector's RL and the
domain's level, or for a service window the gate's TARGET_LEVEL; and the range an operand is tested over (R1, R3, R8, R12,
R108, R110 to R112). What a job does, with its check sum, and when that is compared: with EXPECT, or for a gate call when
SVC_CRC is not NONE (R97, R113). -/
def Obligations.CheckStepsOthers : Prop :=
  (∀ (sel : BitVec 16) (base count : Nat),
    (sel.extractLsb' 12 4 ≠ 0 → checkSelector sel base count = .error .badSelector) ∧
    (sel.extractLsb' 0 10 = 0 → sel.extractLsb' 12 4 = 0 → checkSelector sel base count = .error .nullSelector) ∧
    (sel.extractLsb' 12 4 = 0 → sel.extractLsb' 0 10 ≠ 0 → count ≤ (sel.extractLsb' 0 9).toNat →
      checkSelector sel base count = .error .badSelector) ∧
    (sel.extractLsb' 12 4 = 0 → sel.extractLsb' 0 10 ≠ 0 → (sel.extractLsb' 0 9).toNat < count →
      checkSelector sel base count = .ok (base + 16 * (sel.extractLsb' 0 9).toNat))) ∧
  (∀ (op : Operand) (service : Bool) (el : Level) (range : Option (Nat × Nat)) (d : Descriptor),
    d.present = true → checkKind op service d = none → windowInside op d = true →
    (d.level < el → checkDescriptor op service el range d = some .level) ∧
    (el ≤ d.level →
      ((op = .source ∨ op = .context) ∧ d.canRead = false → checkDescriptor op service el range d = some .noRead) ∧
      ((op = .dest ∨ op = .param) ∧ d.canWrite = false → checkDescriptor op service el range d = some .noWrite) ∧
      (op = .context ∧ d.canRead = true ∧ d.canWrite = false →
        checkDescriptor op service el range d = some .noWrite) ∧
      ((op = .source ∨ op = .context → d.canRead = true) →
        (op = .dest ∨ op = .param ∨ op = .context → d.canWrite = true) → ∀ first len, range = some (first, len) →
        checkDescriptor op service el range d = if d.limit.toNat < first + len - 1 then some .range else none) ∧
      (op = .gate → range = none → checkDescriptor op service el range d = none))) ∧
  (∀ d : Descriptor, d.level = d.kind.extractLsb' 4 2 ∧ d.targetLevel = d.kind.extractLsb' 6 2 ∧
    d.present = d.kind.getLsbD 8 ∧ d.canRead = d.kind.getLsbD 9 ∧ d.canWrite = d.kind.getLsbD 10) ∧
  (∀ (op : Operand) (service : Bool) (d : Descriptor) (k : Nat), k = (d.kind.extractLsb' 0 4).toNat →
    (checkKind op service d = none ↔ match op with
      | .gate => k = 2
      | .context => k = 3 ∨ k = 4
      | _ => k = 1) ∧
    (windowInside op d = true ↔ match op with
      | .gate => d.service.toNat % 32 = 0 ∧ d.service.toNat + 31 ≤ 0x3FFFF
      | .context => d.base.toNat + d.limit.toNat ≤ 0x3FFFF ∧ d.base.toNat % 32 = 0 ∧ 31 ≤ d.limit.toNat
      | _ => d.base.toNat + d.limit.toNat ≤ 0x3FFFF)) ∧
  (∀ (r : JobRecord) (v : ServiceRecord) (context param : List Operand),
    context = (if r.w3.extractLsb' 0 10 = 0 ∧ r.w3.extractLsb' 12 4 = 0 then [] else [.context]) →
    param = (if v.w2.extractLsb' 0 10 = 0 ∧ v.w2.extractLsb' 12 4 = 0 then [] else [.param]) →
    (r.w1.extractLsb' 0 3 = 1 → firstOperands r = [.source, .dest] ++ context) ∧
    (r.w1.extractLsb' 0 3 = 2 → firstOperands r = [.dest] ++ context) ∧
    (r.w1.extractLsb' 0 3 = 3 → firstOperands r = [.source] ++ context) ∧
    (r.w1.extractLsb' 0 3 = 4 → firstOperands r = [.gate]) ∧
    (v.w0.extractLsb' 0 3 = 1 → serviceOperands r v = [.source, .dest] ++ param ++ context) ∧
    (v.w0.extractLsb' 0 3 = 2 → serviceOperands r v = [.dest] ++ param ++ context) ∧
    (v.w0.extractLsb' 0 3 = 3 → serviceOperands r v = [.source] ++ param ++ context)) ∧
  (∀ (b : Body) (source dest : Option Reading), overlapFails b source dest = true ↔
    b.op = .move ∧ b.crc ≠ 0 ∧ ∃ s d, source = some s ∧ dest = some d ∧ b.RangesShare s.desc d.desc) ∧
  (∀ (e : Engine) (d : Domain) (sel : BitVec 16) (k : LoadedCopies), e.ctl.copies = some k →
    e.tableOf d sel = if sel.getLsbD 9 then ((k.domains[d]).localBase, (k.domains[d]).localCount)
                      else (k.globalBase, k.globalCount)) ∧
  (∀ (level : Level) (sel : BitVec 16), (effectiveLevel level sel).toNat = max level.toNat (sel.extractLsb' 10 2).toNat) ∧
  (∀ (level : Level) (op : Operand), baseLevel level none op = level ∧
    ∀ g : Reading, baseLevel level (some g) op =
      if op = .gate ∨ op = .context then level else g.desc.kind.extractLsb' 6 2) ∧
  (∀ (r : JobRecord), selectorOf r none .source = r.w2.extractLsb' 0 16 ∧
    selectorOf r none .dest = r.w2.extractLsb' 16 16 ∧
    ∀ v : Option ServiceRecord, selectorOf r v .gate = r.w2.extractLsb' 0 16 ∧
      selectorOf r v .context = r.w3.extractLsb' 0 16 ∧
      ∀ w, v = some w → selectorOf r v .source = w.w1.extractLsb' 0 16 ∧
        selectorOf r v .dest = w.w1.extractLsb' 16 16 ∧ selectorOf r v .param = w.w2.extractLsb' 0 16) ∧
  ∀ (r : JobRecord) (v : Option ServiceRecord),
    (∀ k, k = (match v with | none => r.w1.extractLsb' 0 3 | some w => w.w0.extractLsb' 0 3) →
      (k = 1 → (bodyOf r v).op = .move) ∧ (k = 2 → (bodyOf r v).op = .fill) ∧ (k = 3 → (bodyOf r v).op = .sum)) ∧
    (bodyOf r v).crc = (match v with | none => r.w1.extractLsb' 16 2 | some w => w.w0.extractLsb' 4 2) ∧
    (bodyOf r v).compare = (match v with | none => r.w1.getLsbD 18 | some w => decide (w.w0.extractLsb' 4 2 ≠ 0)) ∧
    (bodyOf r v).operand = r.w7 ∧
    (bodyOf r v).length = (r.w6.extractLsb' 0 17).toNat ∧
    (bodyOf r v).sourceFirst = r.w4.toNat + (match v with | none => 0 | some w => w.w3.toNat) ∧
    (bodyOf r v).destFirst = r.w5.toNat + (match v with | none => 0 | some w => w.w4.toNat) ∧
    rangeOf (bodyOf r v) v .gate = none ∧
    rangeOf (bodyOf r v) v .source = some ((bodyOf r v).sourceFirst, (bodyOf r v).length) ∧
    rangeOf (bodyOf r v) v .dest = some ((bodyOf r v).destFirst, (bodyOf r v).length) ∧
    rangeOf (bodyOf r v) v .context = some (0, 32) ∧
    ∀ w, v = some w → rangeOf (bodyOf r v) v .param = some (0, 4 + 4 * (w.w0.extractLsb' 8 3).toNat)

/-- RUNNING_WRITE: the first operand's selector is tested, and its descriptor is read, or the job is handed off with
the fault, BYTES_DONE 0 and FAULT_PHASE START, or with the outcome of a stop that is held; the channel is then IDLE, or
chooses as a free channel does with its bank full (R9, R10, R71, R82, R83, R87). A fault names its operand, the windows
of a service apart from those of a job. -/
def Obligations.RunningWriteBeginsCheck : Prop :=
  (∀ k o ph sel n, faultResult k o ph sel n = ⟨.fault, k, o, ph, sel, n, 0⟩) ∧
  (∀ service : Bool, Operand.fault service .gate = .gate ∧ Operand.fault service .context = .context ∧
    Operand.fault service .param = .param ∧
    Operand.fault service .source = (if service then .serviceSource else .source) ∧
    Operand.fault service .dest = (if service then .serviceDest else .destination)) ∧
  ∀ (s : State) (c : ChannelId) (j : Job) (x : Nat) (bs : List Byte) (op : Operand) (rest : List Operand),
    s.completes (.channel c) .runningWrite (.write x bs) → (s.eng.chan c).job = some j →
    (s.eng.chan c).state = .checking → (s.eng.chan c).readings = Readings.empty →
    firstOperands j.record = op :: rest →
    (∀ addr, checkSelector (selectorOf j.record none op) (s.eng.tableOf j.domain (selectorOf j.record none op)).1
        (s.eng.tableOf j.domain (selectorOf j.record none op)).2 = .ok addr →
      ∃ t, exec .runningWrite s = .next t ∧ s.Completed t (.write x bs) ∧
        (t.eng.chan c).own = { (s.eng.chan c).own with work := .reading op rest } ∧
        t.eng.presents (.channel c) .descriptorReading (.read addr 16) ∧ s.SameBut [.mem, .arb, .channel c] t) ∧
    (∀ k, checkSelector (selectorOf j.record none op) (s.eng.tableOf j.domain (selectorOf j.record none op)).1
        (s.eng.tableOf j.domain (selectorOf j.record none op)).2 = .error k →
      ∃ t, exec .runningWrite s = .next t ∧ s.Completed t (.write x bs) ∧
        s.Finishes [.mem, .arb] t c (s.eng.chan c) j.place
          ((s.eng.chan c).failure k (op.fault false) .start (selectorOf j.record none op) 0) none)

/-- DESCRIPTOR_READING: the reading is tested at the operand's effective level. A failure, of the reading or of the next
operand's selector, hands the job off with the fault, its operand, selector and phase, START with BYTES_DONE 0 or RESUME
with the recorded progress, or with the outcome of a stop that is held. A gate that passes has its service
record read; another operand that passes is followed by the next one's descriptor, and the last operand of a first
start by the claim of the context, by the WRITTEN pair of a parameter window when there is no context, or by the USED
pairs when there is neither; the last operand of a restore is followed by the USED pairs (R8 to R13, R15, R71 to R73,
R86, R87, R105, R111). That a service window's failure carries the SVC_NOTIFY pair of the service record is the model's
choice (log 37). -/
def Obligations.DescriptorReadingTested : Prop :=
  (∀ ws : List Word, Descriptor.ofWords ws =
    { base := ws.getD 0 0, limit := ws.getD 1 0, service := ws.getD 2 0, kind := ws.getD 3 0 }) ∧
  ∀ (s : State) (c : ChannelId) (j : Job) (x : Nat) (op : Operand) (rest : List Operand) (d : Descriptor)
    (rs : Readings) (sel : BitVec 16) (result : Option FaultKind),
    s.completes (.channel c) .descriptorReading (.read x 16) → (s.eng.chan c).job = some j →
    (s.eng.chan c).work = .reading op rest → d = Descriptor.ofWords (bytesWords (s.mem.readBytes x 16)) →
    sel = selectorOf j.record (s.eng.chan c).readings.service op →
    rs = (s.eng.chan c).readings.keep op ⟨(s.eng.tableOf j.domain sel).1 + 16 * selIndex sel, d⟩ →
    result = checkDescriptor op (s.eng.chan c).readings.service.isSome
      (effectiveLevel (baseLevel (s.eng.domain j.domain).level (s.eng.chan c).readings.gate op) sel)
      (rangeOf (bodyOf j.record (s.eng.chan c).readings.service) (s.eng.chan c).readings.service op) d →
    (∀ k ph n, result = some k ∨ (result = none ∧ op = .dest ∧ k = .overlap ∧
        overlapFails (bodyOf j.record (s.eng.chan c).readings.service) rs.source rs.dest = true) →
      (s.eng.chan c).FailsAt j ph n →
      ∃ t, exec .descriptorReading s = .next t ∧ s.Completed t (.read x 16) ∧
        s.Finishes [.arb] t c (s.eng.chan c) j.place
          ((s.eng.chan c).failure k (op.fault (s.eng.chan c).readings.service.isSome) ph sel n)
          (noticeOf (s.eng.chan c).readings.service)) ∧
    (∀ op' rest' k ph n, result = none → op ≠ .gate → op ≠ .dest ∨
        overlapFails (bodyOf j.record (s.eng.chan c).readings.service) rs.source rs.dest = false →
      rest = op' :: rest' →
      checkSelector (selectorOf j.record rs.service op')
        (s.eng.tableOf j.domain (selectorOf j.record rs.service op')).1
        (s.eng.tableOf j.domain (selectorOf j.record rs.service op')).2 = .error k →
      (s.eng.chan c).FailsAt j ph n →
      ∃ t, exec .descriptorReading s = .next t ∧ s.Completed t (.read x 16) ∧
        s.Finishes [.arb] t c (s.eng.chan c) j.place
          ((s.eng.chan c).failure k (op'.fault rs.service.isSome) ph (selectorOf j.record rs.service op') n)
          (noticeOf rs.service)) ∧
    (result = none → op = .gate →
      ∃ t, exec .descriptorReading s = .next t ∧ s.Completed t (.read x 16) ∧
        (t.eng.chan c).own = { (s.eng.chan c).own with readings := rs, work := .serviceRecord } ∧
        t.eng.presents (.channel c) .serviceRecordReading (.read d.service.toNat 32) ∧
        s.SameBut [.arb, .channel c] t) ∧
    (∀ op' rest' addr, result = none → op ≠ .gate → op ≠ .dest ∨
        overlapFails (bodyOf j.record (s.eng.chan c).readings.service) rs.source rs.dest = false →
      rest = op' :: rest' →
      checkSelector (selectorOf j.record rs.service op')
        (s.eng.tableOf j.domain (selectorOf j.record rs.service op')).1
        (s.eng.tableOf j.domain (selectorOf j.record rs.service op')).2 = .ok addr →
      ∃ t, exec .descriptorReading s = .next t ∧ s.Completed t (.read x 16) ∧
        (t.eng.chan c).own = { (s.eng.chan c).own with readings := rs, work := .reading op' rest' } ∧
        t.eng.presents (.channel c) .descriptorReading (.read addr 16) ∧ s.SameBut [.arb, .channel c] t) ∧
    (∀ r, result = none → op = .context → rest = [] → (s.eng.chan c).state = .checking → rs.context = some r →
      ∃ t, exec .descriptorReading s = .next t ∧ s.Completed t (.read x 16) ∧
        (t.eng.chan c).own = { (s.eng.chan c).own with readings := rs, work := .claim } ∧
        t.eng.presents (.channel c) .contextClaim (.pair (r.address + 12) .claim) ∧
        s.SameBut [.arb, .channel c] t) ∧
    (∀ w more, result = none → op ≠ .gate → op ≠ .dest ∨
        overlapFails (bodyOf j.record (s.eng.chan c).readings.service) rs.source rs.dest = false →
      rest = [] → (s.eng.chan c).state = .restoring ∨ (rs.context = none ∧ rs.param = none) →
      rs.kindWords = w :: more →
      ∃ t, exec .descriptorReading s = .next t ∧ s.Completed t (.read x 16) ∧
        (t.eng.chan c).own = { (s.eng.chan c).own with readings := rs, work := .usedMark more } ∧
        t.eng.presents (.channel c) .usedMark (.pair w (.setBits 0x800)) ∧ s.SameBut [.arb, .channel c] t) ∧
    ∀ q, result = none → op ≠ .gate → op ≠ .dest ∨
        overlapFails (bodyOf j.record (s.eng.chan c).readings.service) rs.source rs.dest = false →
      rest = [] → (s.eng.chan c).state = .checking → rs.context = none → rs.param = some q →
      ∃ t, exec .descriptorReading s = .next t ∧ s.Completed t (.read x 16) ∧
        (t.eng.chan c).own = { (s.eng.chan c).own with readings := rs, work := .paramMark } ∧
        t.eng.presents (.channel c) .parameterCopy (.pair (q.address + 12) (.setBits 0x1000)) ∧
        s.SameBut [.arb, .channel c] t

/-- SERVICE_RECORD_READING: an invalid record hands the job off with BAD_WINDOW, and a LENGTH above SVC_MAX_LENGTH with
GATE_RANGE, both on SERVICE with the SOURCE selector; at a resume a save area whose next offsets are not those of the new
record hands it off with CONTEXT_CORRUPT on CONTEXT. Each is at START with BYTES_DONE 0, or RESUME with the recorded
progress; such a failure carries no SVC_NOTIFY pair of the record just read (R114; for the last: log 37). Otherwise the
record is kept and the first service window's descriptor is read, or its selector fails (R86, R105 to R108, R115). The
validation is that of R106, and the record's fields are those of 12.5. -/
def Obligations.ServiceRecordTested : Prop :=
  (∀ a : List Word, ServiceRecord.ofWords a = ⟨a.getD 0 0, a.getD 1 0, a.getD 2 0, a.getD 3 0, a.getD 4 0, a.getD 5 0,
    a.getD 6 0, a.getD 7 0⟩) ∧
  (∀ v : ServiceRecord, (v.valid = false ↔ v.Invalid) ∧ v.paramCount = (v.w0.extractLsb' 8 3).toNat ∧
    v.maxLength = (v.w5.extractLsb' 0 17).toNat ∧ noticeOf none = none ∧ noticeOf (some v) = v.notify ∧
    ∀ n : ServiceNotify, v.notify = some n ↔
      (v.w0.extractLsb' 12 4).toNat = 8 + n.domain.val ∧ n.level = v.w0.extractLsb' 16 3) ∧
  ∀ (s : State) (c : ChannelId) (j : Job) (x : Nat) (v : ServiceRecord),
    s.completes (.channel c) .serviceRecordReading (.read x 32) → (s.eng.chan c).job = some j →
    v = ServiceRecord.ofWords (bytesWords (s.mem.readBytes x 32)) →
    (∀ k o sel ph n,
      (v.Invalid ∧ k = .badWindow ∧ o = .service ∧ sel = j.record.source) ∨
        (¬ v.Invalid ∧ v.maxLength < j.record.length ∧ k = .gateRange ∧ o = .service ∧ sel = j.record.source) ∨
        (¬ v.Invalid ∧ j.record.length ≤ v.maxLength ∧ k = .contextCorrupt ∧ o = .context ∧ sel = j.record.context ∧
          ∃ sa, (s.eng.chan c).saved = some sa ∧ ¬ sa.Agrees (bodyOf j.record (some v))) →
      (s.eng.chan c).FailsAt j ph n →
      ∃ t, exec .serviceRecordReading s = .next t ∧ s.Completed t (.read x 32) ∧
        s.Finishes [.arb] t c (s.eng.chan c) j.place ((s.eng.chan c).failure k o ph sel n)
          (noticeOf (s.eng.chan c).readings.service)) ∧
    (¬ v.Invalid → j.record.length ≤ v.maxLength →
      (∀ sa, (s.eng.chan c).saved = some sa → sa.Agrees (bodyOf j.record (some v))) →
      ∀ op rest, serviceOperands j.record v = op :: rest →
      (∀ addr, checkSelector (selectorOf j.record (some v) op) (s.eng.tableOf j.domain (selectorOf j.record (some v) op)).1
          (s.eng.tableOf j.domain (selectorOf j.record (some v) op)).2 = .ok addr →
        ∃ t, exec .serviceRecordReading s = .next t ∧ s.Completed t (.read x 32) ∧
          (t.eng.chan c).own = { (s.eng.chan c).own with
            readings := { (s.eng.chan c).readings with service := some v }, work := .reading op rest } ∧
          t.eng.presents (.channel c) .descriptorReading (.read addr 16) ∧ s.SameBut [.arb, .channel c] t) ∧
      ∀ k ph n, checkSelector (selectorOf j.record (some v) op)
          (s.eng.tableOf j.domain (selectorOf j.record (some v) op)).1
          (s.eng.tableOf j.domain (selectorOf j.record (some v) op)).2 = .error k →
        (s.eng.chan c).FailsAt j ph n →
        ∃ t, exec .serviceRecordReading s = .next t ∧ s.Completed t (.read x 32) ∧
          s.Finishes [.arb] t c (s.eng.chan c) j.place
            ((s.eng.chan c).failure k (op.fault true) ph (selectorOf j.record (some v) op) n) v.notify)

/-! ### Claims, copies and marks -/

/-- CONTEXT_CLAIM and CLAIM_MARK_WRITE: the claim pair turns CONTEXT_FREE into CONTEXT_HELD, every other bit as read,
and leaves any other word as read; a claim made is followed by the MARK write at the context's BASE, and a failed one
hands the job off with CONTEXT_HELD or WRONG_KIND, or with the outcome of a stop that is held, carrying the SVC_NOTIFY
pair of a gate call (log 37); after the MARK write the claim is reported, and the WRITTEN pair of a parameter window
follows, or else the USED pairs (R46, R72, R87, R112). -/
def Obligations.ContextClaimed : Prop :=
  ∀ (s : State) (c : ChannelId) (j : Job) (x : Nat), (s.eng.chan c).job = some j →
    (s.completes (.channel c) .contextClaim (.pair x .claim) →
      ((s.mem.word x).extractLsb' 0 4 = 3 → ∀ r, (s.eng.chan c).readings.context = some r →
        ∃ t, exec .contextClaim s = .next t ∧ s.Completed t (.pair x .claim) ∧
          (s.mem.wf = true → t.mem.word x = ((s.mem.word x) &&& 0xFFFFFFF0) ||| 4) ∧
          (t.eng.chan c).own = { (s.eng.chan c).own with work := .claimMark } ∧
          t.eng.presents (.channel c) .claimMarkWrite (.write r.desc.base.toNat [0, 0, 0, 0]) ∧
          s.SameBut [.mem, .arb, .channel c] t) ∧
      ((s.mem.word x).extractLsb' 0 4 ≠ 3 → (s.eng.chan c).state = .checking →
        ∃ t, exec .contextClaim s = .next t ∧ s.Completed t (.pair x .claim) ∧
          (s.mem.wf = true → t.mem.word x = s.mem.word x) ∧
          s.Finishes [.mem, .arb] t c (s.eng.chan c) j.place
            ((s.eng.chan c).failure (if (s.mem.word x).extractLsb' 0 4 = 4 then .contextHeld else .wrongKind) .context
              .start j.record.context 0) (noticeOf (s.eng.chan c).readings.service))) ∧
    (∀ r bs w more, s.completes (.channel c) .claimMarkWrite (.write x bs) →
      (s.eng.chan c).readings.context = some r → (s.eng.chan c).readings.param = none →
      (s.eng.chan c).readings.kindWords = w :: more →
      ∃ t, exec .claimMarkWrite s = .next t ∧ s.Completed t (.write x bs) ∧
        (t.eng.chan c).own = { (s.eng.chan c).own with
          job := some { j with claim := some ⟨r.address, r.desc.base.toNat⟩ }
          reports := (s.eng.chan c).reports ++ [.contextClaim j.place ⟨r.address, r.desc.base.toNat⟩]
          work := .usedMark more } ∧
        t.eng.presents (.channel c) .usedMark (.pair w (.setBits 0x800)) ∧ s.SameBut [.mem, .arb, .channel c] t) ∧
    ∀ r q bs, s.completes (.channel c) .claimMarkWrite (.write x bs) →
      (s.eng.chan c).readings.context = some r → (s.eng.chan c).readings.param = some q →
      ∃ t, exec .claimMarkWrite s = .next t ∧ s.Completed t (.write x bs) ∧
        (t.eng.chan c).own = { (s.eng.chan c).own with
          job := some { j with claim := some ⟨r.address, r.desc.base.toNat⟩ }
          reports := (s.eng.chan c).reports ++ [.contextClaim j.place ⟨r.address, r.desc.base.toNat⟩]
          work := .paramMark } ∧
        t.eng.presents (.channel c) .parameterCopy (.pair (q.address + 12) (.setBits 0x1000)) ∧
        s.SameBut [.mem, .arb, .channel c] t

/-- PARAMETER_COPY: the WRITTEN pair is followed by the copy's first burst, up to the block's edge, then by its second
if there is one, and the complete copy by the USED pairs (R15, R112). The identity word is that of 12.5. -/
def Obligations.ParameterCopyMade : Prop :=
  (∀ (j : Job) (level : Level) (n : Nat), n < 8 → (identityWord j level n).toNat =
    j.domain.val + 256 * j.slot.val + 65536 * level.toNat + 16777216 * n) ∧
  ∀ (s : State) (c : ChannelId) (x : Nat),
    (∀ m j v r bs, s.completes (.channel c) .parameterCopy (.pair x (.setBits m)) →
      (s.eng.chan c).work = .paramMark → (s.eng.chan c).job = some j → (s.eng.chan c).readings.service = some v →
      (s.eng.chan c).readings.param = some r →
      bs = wordsBytes (identityWord j (s.eng.domain j.domain).level v.paramCount ::
        [j.record.p0, j.record.p1, j.record.p2, j.record.p3].take v.paramCount) →
      ∃ t, exec .parameterCopy s = .next t ∧ s.Completed t (.pair x (.setBits m)) ∧
        (t.eng.chan c).own = { (s.eng.chan c).own with
          work := (t.eng.chan c).work, progress := { (s.eng.chan c).progress with writtenParam := true } } ∧
        t.eng.presents (.channel c) .parameterCopy
          (.write r.desc.base.toNat (bs.take (32 - r.desc.base.toNat % 32))) ∧
        (t.eng.chan c).work = .paramWrite (if bs.length ≤ 32 - r.desc.base.toNat % 32 then none
          else some (r.desc.base.toNat + (32 - r.desc.base.toNat % 32), bs.drop (32 - r.desc.base.toNat % 32))) ∧
        s.SameBut [.mem, .arb, .channel c] t) ∧
    (∀ bs a more, s.completes (.channel c) .parameterCopy (.write x bs) →
      (s.eng.chan c).work = .paramWrite (some (a, more)) →
      ∃ t, exec .parameterCopy s = .next t ∧ s.Completed t (.write x bs) ∧
        t.eng.presents (.channel c) .parameterCopy (.write a more) ∧
        (t.eng.chan c).own = { (s.eng.chan c).own with work := .paramWrite none } ∧
        s.SameBut [.mem, .arb, .channel c] t) ∧
    ∀ bs w more, s.completes (.channel c) .parameterCopy (.write x bs) → (s.eng.chan c).work = .paramWrite none →
      (s.eng.chan c).readings.kindWords = w :: more →
      ∃ t, exec .parameterCopy s = .next t ∧ s.Completed t (.write x bs) ∧
        t.eng.presents (.channel c) .usedMark (.pair w (.setBits 0x800)) ∧
        (t.eng.chan c).own = { (s.eng.chan c).own with work := .usedMark more } ∧
        s.SameBut [.mem, .arb, .channel c] t

/-- USED_MARK: the next pair is made, in the order of R9 and R111, and after the last the readings become the job's
copies and it enters MOVING at a boundary; a first start begins in the direction of R92 with nothing done, a restore with
what was saved. There a stop that is held is taken, and else a yield that is held; with neither, the job waits when it is
frozen or paced, and otherwise issues its first burst: the read of a MOVE or SUM, the WRITTEN pair of a FILL (R15, R18,
R73 to R76, R80, R81, R86, R92, R93, R99). When within a first start the WRITTEN-done flags are cleared is the model's
choice: as the job enters MOVING (log 38). -/
def Obligations.UsedMarksThenMoving : Prop :=
  (∀ rs : Readings, rs.kindWords = (rs.gate.toList ++ rs.source.toList ++ rs.dest.toList ++ rs.param.toList ++
    rs.context.toList).map fun r => r.address + 12) ∧
  ∀ (s : State) (c : ChannelId) (x : Nat) (m : Word), s.completes (.channel c) .usedMark (.pair x (.setBits m)) →
    (∀ w more, (s.eng.chan c).work = .usedMark (w :: more) →
      ∃ t, exec .usedMark s = .next t ∧ s.Completed t (.pair x (.setBits m)) ∧
        (s.mem.wf = true → t.mem.word x = s.mem.word x ||| m) ∧
        (t.eng.chan c).own = { (s.eng.chan c).own with work := .usedMark more } ∧
        t.eng.presents (.channel c) .usedMark (.pair w (.setBits 0x800)) ∧ s.SameBut [.mem, .arb, .channel c] t) ∧
    ∀ (j : Job) (rs : Readings) (body : Body) (dir : Direction) (p : Progress) (a : Channel),
      (s.eng.chan c).work = .usedMark [] → (s.eng.chan c).job = some j → rs = (s.eng.chan c).readings →
      body = bodyOf j.record rs.service → body.Chooses rs.source rs.dest dir →
      p = (match (s.eng.chan c).saved with
        | some sa => ⟨sa.bytesDone, sa.nextSource, sa.nextDest, sa.direction, sa.crc, 0, false, false, true⟩
        | none => ⟨0, body.OffsetAfter (body.op ≠ .fill) dir body.sourceFirst 0,
            body.OffsetAfter (body.op ≠ .sum) dir body.destFirst 0, dir, 0xFFFFFFFF, 0, false, false, false⟩) →
      a = { s.eng.chan c with
        state := .moving, work := .boundary, progress := p, copies := some rs, readings := Readings.empty
        saved := none } →
      ∃ t, exec .usedMark s = .next t ∧ s.Completed t (.pair x (.setBits m)) ∧
        (∀ r, a.stop = some r →
          s.Finishes [.mem, .arb] t c a j.place (plainResult r.outcome p.bytesDone) (noticeOf rs.service)) ∧
        (a.stop = none → a.yieldHeld = true → s.TakesYield [.mem, .arb] t c a j rs) ∧
        (a.stop = none → a.yieldHeld = false →
          (s.eng.frozen = true ∨ j.record.paceUnit ≠ 0 → (t.eng.chan c).own = a.own) ∧
          (s.eng.frozen = false → j.record.paceUnit = 0 →
            t.eng.Issues c a body rs (formBurst body false rs p)) ∧ s.SameBut [.mem, .arb, .channel c] t)

/-! ### Bursts -/

/-- BURST_READ, WRITTEN_MARK and BURST_WRITE of a burst that is not the last: a MOVE's read is followed by the WRITTEN
pair, or by the write when the pair has been made in the run; the pair by the write. A completed burst, the write of a
MOVE or FILL or the read of a SUM, moves the progress record on by its bytes to a boundary, where a stop that is held is
taken, and else a yield that is held, which parks the job in an empty bank or in its context; with neither the job waits,
frozen or for its tick, or its next burst follows (R74 to R76, R80, R81, R91, R98, R99, R102). A burst holds the most
bytes that R90 allows, from the next offsets upward or from just below them downward; a completed one moves the offsets on
and takes its source bytes into the running CRC, by the shifts of R95 (R93, R96). A FILL's burst is a write, of the pattern
whose byte at destination offset o is byte (o − DEST_OFFSET) mod 4 of OPERAND, from the job's record whether or not a
service runs it (R94, R113). -/
def Obligations.BurstsMoveData : Prop :=
  (∀ (s : State) (c : ChannelId) (j : Job) (rs : Readings) (body : Body) (b : Burst) (x : Nat) (data : List Byte),
     (s.eng.chan c).moving = some (j, rs, body) →
     (s.completes (.channel c) .burstRead (.read x b.count) → (s.eng.chan c).work = .burstRead b →
       data = s.mem.readBytes x b.count → body.op = .move →
       ∃ t, exec .burstRead s = .next t ∧ s.Completed t (.read x b.count) ∧
         ((s.eng.chan c).progress.writtenDest = true →
           (t.eng.chan c).own = { (s.eng.chan c).own with work := .burstWrite { b with data := data } } ∧
           t.eng.presents (.channel c) .burstWrite (.write b.dest data)) ∧
         (∀ r, (s.eng.chan c).progress.writtenDest = false → rs.dest = some r →
           (t.eng.chan c).own = { (s.eng.chan c).own with work := .writtenMark { b with data := data } } ∧
           t.eng.presents (.channel c) .writtenMark (.pair (r.address + 12) (.setBits 0x1000))) ∧
         s.SameBut [.arb, .channel c] t) ∧
     (∀ m, s.completes (.channel c) .writtenMark (.pair x (.setBits m)) → (s.eng.chan c).work = .writtenMark b →
       ∃ t, exec .writtenMark s = .next t ∧ s.Completed t (.pair x (.setBits m)) ∧
         (s.mem.wf = true → t.mem.word x = s.mem.word x ||| m) ∧
         (t.eng.chan c).own = { (s.eng.chan c).own with
           work := .burstWrite b, progress := { (s.eng.chan c).progress with writtenDest := true } } ∧
         t.eng.presents (.channel c) .burstWrite (.write b.dest b.data) ∧ s.SameBut [.mem, .arb, .channel c] t) ∧
     ∀ (i : Instr) (a : EngineAccess) (p : Progress),
       (i = .burstWrite ∧ (∃ bs, a = .write x bs) ∧ (s.eng.chan c).work = .burstWrite b ∧ data = b.data ∧
           s.completes (.channel c) .burstWrite a) ∨
         (i = .burstRead ∧ body.op = .sum ∧ a = .read x b.count ∧ (s.eng.chan c).work = .burstRead b ∧
           data = s.mem.readBytes x b.count ∧ s.completes (.channel c) .burstRead a) →
       p = advance body (s.eng.chan c).progress b.count data → p.bytesDone < body.length →
       ∃ t, exec i s = .next t ∧ s.Completed t a ∧
         (∀ r, (s.eng.chan c).stop = some r →
           s.Finishes [.mem, .arb] t c (s.eng.chan c) j.place (plainResult r.outcome p.bytesDone)
             (noticeOf rs.service)) ∧
         ((s.eng.chan c).stop = none → (s.eng.chan c).yieldHeld = true →
           s.TakesYield [.mem, .arb] t c { s.eng.chan c with progress := p } j rs) ∧
         ((s.eng.chan c).stop = none → (s.eng.chan c).yieldHeld = false →
           (s.eng.frozen = true ∨ (j.record.paceUnit ≠ 0 ∧ p.unitLeft = 0) →
             (t.eng.chan c).own = { (s.eng.chan c).own with progress := p, work := .boundary }) ∧
           (s.eng.frozen = false → j.record.paceUnit = 0 ∨ p.unitLeft ≠ 0 →
             t.eng.Issues c { s.eng.chan c with progress := p } body rs
               (formBurst body (decide (j.record.paceUnit ≠ 0)) rs p)) ∧
           s.SameBut [.mem, .arb, .channel c] t)) ∧
  (∀ (b : Body) (paced : Bool) (rs : Readings) (p : Progress) (src dst : Nat) (u : Burst), u = formBurst b paced rs p →
    (b.op ≠ .fill → ∃ r, rs.source = some r ∧ src = r.desc.base.toNat) →
    (b.op ≠ .sum → ∃ r, rs.dest = some r ∧ dst = r.desc.base.toNat) →
    (p.direction = .descending → (b.op ≠ .fill → b.length - p.bytesDone ≤ p.nextSource) ∧
      (b.op ≠ .sum → b.length - p.bytesDone ≤ p.nextDest)) →
    b.MayBurst paced src dst p u.count ∧ (∀ n, b.MayBurst paced src dst p n → n ≤ u.count) ∧
    (b.op ≠ .fill → u.source = (match p.direction with
      | .ascending => src + p.nextSource | .descending => src + p.nextSource - u.count)) ∧
    (b.op ≠ .sum → u.dest = (match p.direction with
      | .ascending => dst + p.nextDest | .descending => dst + p.nextDest - u.count))) ∧
  (∀ (b : Body) (p : Progress) (n : Nat) (data : List Byte),
    advance b p n data = { p with
      bytesDone := p.bytesDone + n
      nextSource := b.OffsetAfter (b.op ≠ .fill) p.direction b.sourceFirst (p.bytesDone + n)
      nextDest := b.OffsetAfter (b.op ≠ .sum) p.direction b.destFirst (p.bytesDone + n)
      crc := if b.crc ≠ 0 ∧ b.op ≠ .fill then crcBytes (if b.crc = 1 then 0xEDB88320 else 0x82F63B78) p.crc data
             else p.crc
      unitLeft := p.unitLeft - n }) ∧
  (∀ (k r : Word) (f : Word → Word), (∀ x, f x = if x.getLsbD 0 then (x >>> 1) ^^^ k else x >>> 1) →
    crcBytes k r [] = r ∧ ∀ (x : Byte) (xs : List Byte),
      crcBytes k r (x :: xs) = crcBytes k (f (f (f (f (f (f (f (f (r ^^^ x.setWidth 32))))))))) xs) ∧
  (∀ (b : Body) (paced : Bool) (rs : Readings) (p : Progress) (o i : Nat), b.op = .fill → p.direction = .ascending →
    o = p.nextDest → b.destFirst ≤ o →
    (formBurst b paced rs p).data.length = (formBurst b paced rs p).count ∧
    ∀ h : i < (formBurst b paced rs p).data.length,
      (formBurst b paced rs p).data[i] = b.operand.extractLsb' (8 * ((o + i - b.destFirst) % 4)) 8) ∧
  (∀ (r : JobRecord) (v : Option ServiceRecord), (bodyOf r v).operand = r.operand) ∧
  ∀ (e : Engine) (c : ChannelId) (j : Job) (rs : Readings) (body : Body), (e.chan c).moving = some (j, rs, body) →
    body.op = .fill → ((e.issueBurst c).chan c).work = (if (e.chan c).progress.writtenDest then
        .burstWrite (formBurst body (decide (j.record.paceUnit ≠ 0)) rs (e.chan c).progress)
      else .writtenMark (formBurst body (decide (j.record.paceUnit ≠ 0)) rs (e.chan c).progress))

/-- The last burst of a job goes straight to FINISHING: the job is handed off OK with its whole LENGTH and its check
sum, or CHECK_MISMATCH where the sum is compared and differs; a stop that is held is not taken. The channel is then IDLE,
or with a full bank hands the shadow over in DRAINING, resumes it while frozen, and otherwise sends a conditional dispatch
(R74, R82, R83, R87, R97, R113). -/
def Obligations.LastBurstFinishes : Prop :=
  ∀ (s : State) (c : ChannelId) (j : Job) (rs : Readings) (body : Body) (b : Burst) (x : Nat) (sum : Word)
    (p : Progress) (data : List Byte) (i : Instr) (a : EngineAccess),
    (s.eng.chan c).moving = some (j, rs, body) →
    (i = .burstWrite ∧ (∃ bs, a = .write x bs) ∧ (s.eng.chan c).work = .burstWrite b ∧ data = b.data ∧
        s.completes (.channel c) .burstWrite a) ∨
      (i = .burstRead ∧ body.op = .sum ∧ a = .read x b.count ∧ (s.eng.chan c).work = .burstRead b ∧
        data = s.mem.readBytes x b.count ∧ s.completes (.channel c) .burstRead a) →
    p = advance body (s.eng.chan c).progress b.count data → body.length ≤ p.bytesDone →
    sum = (if body.crc ≠ 0 ∧ body.op ≠ .fill then p.crc ^^^ 0xFFFFFFFF else 0) →
    ∃ t, exec i s = .next t ∧ s.Completed t a ∧
      s.Finishes [.mem, .arb] t c (s.eng.chan c) j.place
        (if (body.crc ≠ 0 ∧ body.op ≠ .fill) ∧ body.compare = true ∧ sum ≠ body.operand then
          { outcome := .fault, faultKind := .checkMismatch
            operand := if rs.service.isSome then .serviceSource else .source
            phase := if p.restored then .resume else .start
            selector := selectorOf j.record rs.service .source, bytesDone := body.length, crc := sum }
         else { outcome := .ok, faultKind := .none, operand := .none, phase := .none, selector := 0,
                bytesDone := body.length, crc := sum })
        (noticeOf rs.service)

/-! ### Parks, restores and the free channel -/

/-- SAVE_AREA_WRITE: the park is reported with its bytes done, and the channel, whose bank is full, hands the shadow over
in DRAINING, resumes it while frozen, and otherwise sends a conditional dispatch with the shadow's PRIORITY; when a drop
has emptied the bank during the save it is IDLE (R46, R81 to R84; the empty progress record: log 36). SAVE_AREA_READ: a
save area that is the job's own, with its BYTES_DONE, a listed direction and, but for a gate call, its next offsets, is
followed by the reading of the context descriptor, and any other hands the job off CONTEXT_CORRUPT.
CONTEXT_DESCRIPTOR_READ: a context that reads CONTEXT_HELD is followed by the recheck of the first operand, or by the
fault of its selector, any other hands the job off CONTEXT_CORRUPT; each failure is at RESUME with BYTES_DONE the recorded
progress, or is the outcome of a stop that is held (R85 to R87, R93, R115; 12.4). -/
def Obligations.ParksAndRestores : Prop :=
  (∀ (j : Job) (w0 w1 w2 w3 w4 w5 w6 w7 : Word) (sa : SaveArea),
    acceptSaveArea j [w0, w1, w2, w3, w4, w5, w6, w7] = some sa ↔
      w0 = 1 ∧ (w1.extractLsb' 0 3).toNat = j.domain.val ∧ (w1.extractLsb' 8 4).toNat = j.slot.val ∧
      w4.toNat = j.recordedProgress ∧
      ((w1.extractLsb' 16 2 = 1 ∧ sa = ⟨w4.toNat, w2.toNat, w3.toNat, .ascending, w5⟩) ∨
        (w1.extractLsb' 16 2 = 2 ∧ sa = ⟨w4.toNat, w2.toNat, w3.toNat, .descending, w5⟩))) ∧
  ∀ (s : State) (c : ChannelId) (j : Job) (x : Nat), (s.eng.chan c).job = some j →
    (∀ bs, s.completes (.channel c) .saveAreaWrite (.write x bs) →
      ∃ t, exec .saveAreaWrite s = .next t ∧ s.Completed t (.write x bs) ∧
        (∀ sh, (s.eng.chan c).shadow = some sh →
          s.FreesFull [.mem, .arb] t c (s.eng.chan c) sh [.parkContext j.place (s.eng.chan c).progress.bytesDone]) ∧
        ((s.eng.chan c).shadow = none →
          (t.eng.chan c).own = { (s.eng.chan c).own with
            state := .idle, work := .none, job := none, progress := Progress.empty, readings := Readings.empty
            copies := none, saved := none, stop := none, yieldHeld := false
            reports := (s.eng.chan c).reports ++ [.parkContext j.place (s.eng.chan c).progress.bytesDone] } ∧
          s.SameBut [.mem, .arb, .channel c] t)) ∧
    (∀ ws, s.completes (.channel c) .saveAreaRead (.read x 32) → ws = bytesWords (s.mem.readBytes x 32) →
      (∀ sa cl, acceptSaveArea j ws = some sa → j.record.isGate = true ∨ sa.Agrees (bodyOf j.record none) →
        j.claim = some cl →
        ∃ t, exec .saveAreaRead s = .next t ∧ s.Completed t (.read x 32) ∧
          (t.eng.chan c).own = { (s.eng.chan c).own with saved := some sa, work := .contextRead } ∧
          t.eng.presents (.channel c) .contextDescriptorRead (.read cl.descriptor 16) ∧
          s.SameBut [.arb, .channel c] t) ∧
      ((∀ sa, acceptSaveArea j ws = some sa → j.record.isGate = false ∧ ¬ sa.Agrees (bodyOf j.record none)) →
        (s.eng.chan c).state = .restoring → (s.eng.chan c).readings.service = none →
        ∃ t, exec .saveAreaRead s = .next t ∧ s.Completed t (.read x 32) ∧
          s.Finishes [.arb] t c (s.eng.chan c) j.place
            ((s.eng.chan c).failure .contextCorrupt .context .resume j.record.context j.recordedProgress) none)) ∧
    ∀ d, s.completes (.channel c) .contextDescriptorRead (.read x 16) →
      d = Descriptor.ofWords (bytesWords (s.mem.readBytes x 16)) → (s.eng.chan c).state = .restoring →
      (s.eng.chan c).readings = Readings.empty →
      (∀ op rest, d.kind.extractLsb' 0 4 = 4 → firstOperands j.record = op :: rest →
        (∀ addr, checkSelector (selectorOf j.record none op) (s.eng.tableOf j.domain (selectorOf j.record none op)).1
            (s.eng.tableOf j.domain (selectorOf j.record none op)).2 = .ok addr →
          ∃ t, exec .contextDescriptorRead s = .next t ∧ s.Completed t (.read x 16) ∧
            (t.eng.chan c).own = { (s.eng.chan c).own with work := .reading op rest } ∧
            t.eng.presents (.channel c) .descriptorReading (.read addr 16) ∧ s.SameBut [.arb, .channel c] t) ∧
        ∀ k, checkSelector (selectorOf j.record none op) (s.eng.tableOf j.domain (selectorOf j.record none op)).1
            (s.eng.tableOf j.domain (selectorOf j.record none op)).2 = .error k →
          ∃ t, exec .contextDescriptorRead s = .next t ∧ s.Completed t (.read x 16) ∧
            s.Finishes [.arb] t c (s.eng.chan c) j.place
              ((s.eng.chan c).failure k (op.fault false) .resume (selectorOf j.record none op) j.recordedProgress)
              none) ∧
      (d.kind.extractLsb' 0 4 ≠ 4 →
        ∃ t, exec .contextDescriptorRead s = .next t ∧ s.Completed t (.read x 16) ∧
          s.Finishes [.arb] t c (s.eng.chan c) j.place
            ((s.eng.chan c).failure .contextCorrupt .context .resume j.record.context j.recordedProgress) none)

/-- A free channel whose shadow bank is empty enters IDLE and holds no copies, no progress record and no request
(R82; what the empty progress record holds is the model's choice: log 36). -/
def Obligations.FreeChannelIdles : Prop :=
  ∀ (e : Engine) (c : ChannelId), (e.chan c).shadow = none →
    (e.freeChannel c).chan c = { e.chan c with
      state := .idle, work := .none, job := none, progress := ⟨0, 0, 0, .ascending, 0xFFFFFFFF, 0, false, false, false⟩
      readings := Readings.empty, copies := none, saved := none, stop := none, yieldHeld := false } ∧
    ∀ d : ChannelId, d ≠ c → (e.freeChannel c).chan d = e.chan d

/-! ### Closing -/

/-- CLOSING_BEGIN in RUNNING or DRAINING, frozen or not, with no closing in flight: the head of the closing queue, its
TAKEN write done, has its result words written as one burst: outcome and fault fields, none for an outcome other than
FAULT, LINE_OVERRUN and PREEMPTED as the entry holds them, CONTEXT_LOST clear, BYTES_DONE and CRC_RESULT (R59, R60). The
codes are those of 12.3. -/
def Obligations.ClosingBegins : Prop :=
  ([JobOutcome.ok, .fault, .cancelled, .timedOut, .drained].map JobOutcome.code = [1, 2, 3, 4, 5] ∧
    [FaultKind.none, .badJob, .badSelector, .nullSelector, .notPresent, .wrongKind, .badWindow, .level, .noRead,
      .noWrite, .range, .overlap, .contextHeld, .contextCorrupt, .gateRange, .gateNested, .checkMismatch,
      .lineNotOwned].map FaultKind.code = [0, 1, 2, 3, 4, 5, 6, 7, 8, 9, 10, 11, 12, 13, 14, 15, 16, 17] ∧
    [FaultOperand.none, .source, .destination, .context, .gate, .service, .serviceSource, .serviceDest, .param, .line,
      .record].map FaultOperand.code = [0, 1, 2, 3, 4, 5, 6, 7, 8, 9, 10] ∧
    [FaultPhase.none, .start, .resume].map FaultPhase.code = [0, 1, 2]) ∧
  ∀ (s : State) (en : Entry) (r : JobResult) (more : List Nat), s.eng.working = true →
    s.eng.jtc.closing = none → s.eng.jtc.queue = en.place :: more → s.eng.jtc.find en.place = some en →
    en.takenOutstanding = false → en.result = some r →
    ∃ t, exec .closingBegin s = .next t ∧
      t.eng.jtc = { s.eng.jtc with closing := some ⟨en.place, .result⟩ } ∧
      (∃ w8 w9 : Word, t.eng.presents .closing .resultWrite
          (.write ((s.eng.domain en.domain).slotBase + 64 * en.slot.val + 32)
            (wordsBytes [w8, w9, BitVec.ofNat 32 r.bytesDone, r.crc])) ∧
        w8.extractLsb' 0 8 = (r.outcome.code).extractLsb' 0 8 ∧
        (r.outcome = .fault → w8.extractLsb' 8 8 = (r.faultKind.code).extractLsb' 0 8 ∧
          w8.extractLsb' 16 4 = (r.operand.code).extractLsb' 0 4 ∧
          w8.extractLsb' 20 4 = (r.phase.code).extractLsb' 0 4 ∧ w9 = r.selector.setWidth 32) ∧
        (r.outcome ≠ .fault → w8.extractLsb' 8 16 = 0 ∧ w9 = 0) ∧
        w8 = en.flagsWord false ∧ w8.getLsbD 24 = en.lineOverrun ∧ w8.getLsbD 25 = false ∧ w8.getLsbD 26 = en.preempted ∧
        w8.extractLsb' 27 5 = 0) ∧
      s.SameBut [.table] t

/-- The steps of a closing up to DONE: after the result burst a claimed context is released by a locked pair, and a
job without one goes on to DONE; a pair that reads CONTEXT_HELD writes CONTEXT_FREE, every other bit as read, and is
followed by the MARK write; one that reads anything else writes it back and is followed by the rewrite of the flags
word with CONTEXT_LOST set; and both are followed by the DONE write (R60 to R62). -/
def Obligations.ClosingReleases : Prop :=
  ∀ (s : State) (en : Entry) (st : ClosingStep) (x : Nat) (bs : List Byte),
    s.eng.jtc.closing = some ⟨en.place, st⟩ → s.eng.jtc.find en.place = some en →
    (s.completes .closing .resultWrite (.write x bs) →
      ∃ t, exec .resultWrite s = .next t ∧ s.Completed t (.write x bs) ∧ s.SameBut [.mem, .arb, .table] t ∧
        (∀ cl, en.claim = some cl →
          t.eng.jtc = { s.eng.jtc with closing := some ⟨en.place, .release⟩ } ∧
          t.eng.presents .closing .contextRelease (.pair (cl.descriptor + 12) .release)) ∧
        (en.claim = none →
          t.eng.jtc = { s.eng.jtc with closing := some ⟨en.place, .done⟩ } ∧
          t.eng.presents .closing .doneWrite
            (.write ((s.eng.domain en.domain).slotBase + 64 * en.slot.val) [4, 0, 0, 0]))) ∧
    (∀ cl, en.claim = some cl → s.completes .closing .contextRelease (.pair x .release) →
      ∃ t, exec .contextRelease s = .next t ∧ s.Completed t (.pair x .release) ∧ s.SameBut [.mem, .arb, .table] t ∧
        ((s.mem.word x).extractLsb' 0 4 = 4 →
          (s.mem.wf = true → t.mem.word x = ((s.mem.word x) &&& 0xFFFFFFF0) ||| 3) ∧
          t.eng.jtc = { s.eng.jtc with closing := some ⟨en.place, .mark⟩ } ∧
          t.eng.presents .closing .releaseMarkWrite (.write cl.saveArea [0, 0, 0, 0])) ∧
        ((s.mem.word x).extractLsb' 0 4 ≠ 4 →
          (s.mem.wf = true → t.mem.word x = s.mem.word x) ∧
          t.eng.jtc = { s.eng.jtc with closing := some ⟨en.place, .lost⟩ } ∧
          t.eng.presents .closing .contextLostRewrite
            (.write ((s.eng.domain en.domain).slotBase + 64 * en.slot.val + 32)
              (wordBytes (en.flagsWord false ||| 0x2000000))))) ∧
    ∀ i step, (i = Instr.releaseMarkWrite ∧ step = EngineStep.releaseMarkWrite) ∨
        (i = .contextLostRewrite ∧ step = .contextLostRewrite) → s.completes .closing step (.write x bs) →
      ∃ t, exec i s = .next t ∧ s.Completed t (.write x bs) ∧
        t.eng.jtc = { s.eng.jtc with closing := some ⟨en.place, .done⟩ } ∧
        t.eng.presents .closing .doneWrite
          (.write ((s.eng.domain en.domain).slotBase + 64 * en.slot.val) [4, 0, 0, 0]) ∧
        s.SameBut [.mem, .arb, .table] t

/-- DONE_WRITE and CHAIN_POSTING: a job that closes OK with a CHAIN has the chained slot's bit set in its domain's post
word by one locked pair, every other bit as read, and then the domain's attention is POSTED; then, and at once for any
other job, the notify requests are made and the entry is freed (R62 to R64, R114, R164). -/
def Obligations.ClosingEnds : Prop :=
  ∀ (s : State) (en : Entry) (st : ClosingStep) (x : Nat),
    s.eng.jtc.closing = some ⟨en.place, st⟩ → s.eng.jtc.find en.place = some en →
    (∀ bs, s.completes .closing .doneWrite (.write x bs) →
      ∃ t, exec .doneWrite s = .next t ∧ s.Completed t (.write x bs) ∧
        (∀ k, en.outcome.outcome = .ok → en.record.chainSlot = some k →
          t.eng.jtc = { s.eng.jtc with closing := some ⟨en.place, .chain⟩ } ∧
          (∃ m : Word, t.eng.presents .closing .chainPosting (.pair (s.eng.domain en.domain).postAddr (.setBits m)) ∧
            ∀ i, i < 32 → (m.getLsbD i = true ↔ i = k.val)) ∧ s.SameBut [.mem, .arb, .table] t) ∧
        (en.outcome.outcome ≠ .ok ∨ en.record.chainSlot = none →
          t.eng.jtc = { s.eng.jtc with
            entries := s.eng.jtc.entries.filter fun y => y.place != en.place
            queue := s.eng.jtc.queue.filter fun y => y != en.place, closing := none } ∧
          (∀ d : Domain, t.eng.notify.getLsbD d.val = s.eng.notifiedFlag en d) ∧
          s.SameBut [.mem, .arb, .table, .notify] t)) ∧
    ∀ m, s.completes .closing .chainPosting (.pair x (.setBits m)) →
      ∃ t, exec .chainPosting s = .next t ∧ s.Completed t (.pair x (.setBits m)) ∧
        (s.mem.wf = true → t.mem.word x = s.mem.word x ||| m) ∧
        t.eng.post = { s.eng.post with attention := s.eng.post.attention.set en.domain .posted } ∧
        t.eng.jtc = { s.eng.jtc with
          entries := s.eng.jtc.entries.filter fun y => y.place != en.place
          queue := s.eng.jtc.queue.filter fun y => y != en.place, closing := none } ∧
        (∀ d : Domain, t.eng.notify.getLsbD d.val = s.eng.notifiedFlag en d) ∧
        s.SameBut [.mem, .arb, .post, .table, .notify] t
end

