-- ==== Sys2Proof/Laws/State.lean ====
section
/-! SUPPORT. One lemma for each field of each named update of the engine, of the state and of the job table. -/

namespace Sys2Proof.Machine

/-! ### Engine.setChan -/

@[simp] theorem Engine.setChan_ctl (e : Engine) (c : ChannelId) (ch : Channel) : (e.setChan c ch).ctl = e.ctl := rfl
@[simp] theorem Engine.setChan_post (e : Engine) (c : ChannelId) (ch : Channel) : (e.setChan c ch).post = e.post := rfl
@[simp] theorem Engine.setChan_jtc (e : Engine) (c : ChannelId) (ch : Channel) : (e.setChan c ch).jtc = e.jtc := rfl
@[simp] theorem Engine.setChan_disp (e : Engine) (c : ChannelId) (ch : Channel) : (e.setChan c ch).disp = e.disp := rfl
@[simp] theorem Engine.setChan_channels (e : Engine) (c : ChannelId) (ch : Channel) : (e.setChan c ch).channels = e.channels.set c ch := rfl
@[simp] theorem Engine.setChan_ei (e : Engine) (c : ChannelId) (ch : Channel) : (e.setChan c ch).ei = e.ei := rfl
@[simp] theorem Engine.setChan_count (e : Engine) (c : ChannelId) (ch : Channel) : (e.setChan c ch).count = e.count := rfl
@[simp] theorem Engine.setChan_filters (e : Engine) (c : ChannelId) (ch : Channel) : (e.setChan c ch).filters = e.filters := rfl
@[simp] theorem Engine.setChan_notify (e : Engine) (c : ChannelId) (ch : Channel) : (e.setChan c ch).notify = e.notify := rfl

/-! ### Engine.setAttention -/

@[simp] theorem Engine.setAttention_ctl (e : Engine) (d : Domain) (a : Attention) : (e.setAttention d a).ctl = e.ctl := rfl
@[simp] theorem Engine.setAttention_post (e : Engine) (d : Domain) (a : Attention) : (e.setAttention d a).post = { e.post with attention := e.post.attention.set d a } := rfl
@[simp] theorem Engine.setAttention_jtc (e : Engine) (d : Domain) (a : Attention) : (e.setAttention d a).jtc = e.jtc := rfl
@[simp] theorem Engine.setAttention_disp (e : Engine) (d : Domain) (a : Attention) : (e.setAttention d a).disp = e.disp := rfl
@[simp] theorem Engine.setAttention_channels (e : Engine) (d : Domain) (a : Attention) : (e.setAttention d a).channels = e.channels := rfl
@[simp] theorem Engine.setAttention_ei (e : Engine) (d : Domain) (a : Attention) : (e.setAttention d a).ei = e.ei := rfl
@[simp] theorem Engine.setAttention_count (e : Engine) (d : Domain) (a : Attention) : (e.setAttention d a).count = e.count := rfl
@[simp] theorem Engine.setAttention_filters (e : Engine) (d : Domain) (a : Attention) : (e.setAttention d a).filters = e.filters := rfl
@[simp] theorem Engine.setAttention_notify (e : Engine) (d : Domain) (a : Attention) : (e.setAttention d a).notify = e.notify := rfl

/-! ### Engine.setJtc -/

@[simp] theorem Engine.setJtc_ctl (e : Engine) (j : JobTable) : (e.setJtc j).ctl = e.ctl := rfl
@[simp] theorem Engine.setJtc_post (e : Engine) (j : JobTable) : (e.setJtc j).post = e.post := rfl
@[simp] theorem Engine.setJtc_jtc (e : Engine) (j : JobTable) : (e.setJtc j).jtc = j := rfl
@[simp] theorem Engine.setJtc_disp (e : Engine) (j : JobTable) : (e.setJtc j).disp = e.disp := rfl
@[simp] theorem Engine.setJtc_channels (e : Engine) (j : JobTable) : (e.setJtc j).channels = e.channels := rfl
@[simp] theorem Engine.setJtc_ei (e : Engine) (j : JobTable) : (e.setJtc j).ei = e.ei := rfl
@[simp] theorem Engine.setJtc_count (e : Engine) (j : JobTable) : (e.setJtc j).count = e.count := rfl
@[simp] theorem Engine.setJtc_filters (e : Engine) (j : JobTable) : (e.setJtc j).filters = e.filters := rfl
@[simp] theorem Engine.setJtc_notify (e : Engine) (j : JobTable) : (e.setJtc j).notify = e.notify := rfl

/-! ### Engine.setCtl -/

@[simp] theorem Engine.setCtl_ctl (e : Engine) (k : Control) : (e.setCtl k).ctl = k := rfl
@[simp] theorem Engine.setCtl_post (e : Engine) (k : Control) : (e.setCtl k).post = e.post := rfl
@[simp] theorem Engine.setCtl_jtc (e : Engine) (k : Control) : (e.setCtl k).jtc = e.jtc := rfl
@[simp] theorem Engine.setCtl_disp (e : Engine) (k : Control) : (e.setCtl k).disp = e.disp := rfl
@[simp] theorem Engine.setCtl_channels (e : Engine) (k : Control) : (e.setCtl k).channels = e.channels := rfl
@[simp] theorem Engine.setCtl_ei (e : Engine) (k : Control) : (e.setCtl k).ei = e.ei := rfl
@[simp] theorem Engine.setCtl_count (e : Engine) (k : Control) : (e.setCtl k).count = e.count := rfl
@[simp] theorem Engine.setCtl_filters (e : Engine) (k : Control) : (e.setCtl k).filters = e.filters := rfl
@[simp] theorem Engine.setCtl_notify (e : Engine) (k : Control) : (e.setCtl k).notify = e.notify := rfl

/-! ### Engine.ask -/

@[simp] theorem Engine.ask_ctl (e : Engine) (o : Owner) (t : EngineStep) (a : EngineAccess) : (e.ask o t a).ctl = e.ctl := rfl
@[simp] theorem Engine.ask_post (e : Engine) (o : Owner) (t : EngineStep) (a : EngineAccess) : (e.ask o t a).post = e.post := rfl
@[simp] theorem Engine.ask_jtc (e : Engine) (o : Owner) (t : EngineStep) (a : EngineAccess) : (e.ask o t a).jtc = e.jtc := rfl
@[simp] theorem Engine.ask_disp (e : Engine) (o : Owner) (t : EngineStep) (a : EngineAccess) : (e.ask o t a).disp = e.disp := rfl
@[simp] theorem Engine.ask_channels (e : Engine) (o : Owner) (t : EngineStep) (a : EngineAccess) : (e.ask o t a).channels = e.channels := rfl
@[simp] theorem Engine.ask_ei (e : Engine) (o : Owner) (t : EngineStep) (a : EngineAccess) : (e.ask o t a).ei = e.ei.ask o ⟨t, a⟩ := rfl
@[simp] theorem Engine.ask_count (e : Engine) (o : Owner) (t : EngineStep) (a : EngineAccess) : (e.ask o t a).count = e.count := rfl
@[simp] theorem Engine.ask_filters (e : Engine) (o : Owner) (t : EngineStep) (a : EngineAccess) : (e.ask o t a).filters = e.filters := rfl
@[simp] theorem Engine.ask_notify (e : Engine) (o : Owner) (t : EngineStep) (a : EngineAccess) : (e.ask o t a).notify = e.notify := rfl

/-! ### Engine.askFrom -/

@[simp] theorem Engine.askFrom_ctl (e : Engine) (c : ChannelId) (t : EngineStep) (a : EngineAccess) : (e.askFrom c t a).ctl = e.ctl := rfl
@[simp] theorem Engine.askFrom_post (e : Engine) (c : ChannelId) (t : EngineStep) (a : EngineAccess) : (e.askFrom c t a).post = e.post := rfl
@[simp] theorem Engine.askFrom_jtc (e : Engine) (c : ChannelId) (t : EngineStep) (a : EngineAccess) : (e.askFrom c t a).jtc = e.jtc := rfl
@[simp] theorem Engine.askFrom_disp (e : Engine) (c : ChannelId) (t : EngineStep) (a : EngineAccess) : (e.askFrom c t a).disp = e.disp := rfl
@[simp] theorem Engine.askFrom_channels (e : Engine) (c : ChannelId) (t : EngineStep) (a : EngineAccess) : (e.askFrom c t a).channels = e.channels := rfl
@[simp] theorem Engine.askFrom_ei (e : Engine) (c : ChannelId) (t : EngineStep) (a : EngineAccess) : (e.askFrom c t a).ei = e.ei.ask (.channel c) ⟨t, a⟩ := rfl
@[simp] theorem Engine.askFrom_count (e : Engine) (c : ChannelId) (t : EngineStep) (a : EngineAccess) : (e.askFrom c t a).count = e.count := rfl
@[simp] theorem Engine.askFrom_filters (e : Engine) (c : ChannelId) (t : EngineStep) (a : EngineAccess) : (e.askFrom c t a).filters = e.filters := rfl
@[simp] theorem Engine.askFrom_notify (e : Engine) (c : ChannelId) (t : EngineStep) (a : EngineAccess) : (e.askFrom c t a).notify = e.notify := rfl

/-! ### Engine.askIntake -/

@[simp] theorem Engine.askIntake_ctl (e : Engine) (t : EngineStep) (a : EngineAccess) : (e.askIntake t a).ctl = e.ctl := rfl
@[simp] theorem Engine.askIntake_post (e : Engine) (t : EngineStep) (a : EngineAccess) : (e.askIntake t a).post = e.post := rfl
@[simp] theorem Engine.askIntake_jtc (e : Engine) (t : EngineStep) (a : EngineAccess) : (e.askIntake t a).jtc = e.jtc := rfl
@[simp] theorem Engine.askIntake_disp (e : Engine) (t : EngineStep) (a : EngineAccess) : (e.askIntake t a).disp = e.disp := rfl
@[simp] theorem Engine.askIntake_channels (e : Engine) (t : EngineStep) (a : EngineAccess) : (e.askIntake t a).channels = e.channels := rfl
@[simp] theorem Engine.askIntake_ei (e : Engine) (t : EngineStep) (a : EngineAccess) : (e.askIntake t a).ei = e.ei.ask .intake ⟨t, a⟩ := rfl
@[simp] theorem Engine.askIntake_count (e : Engine) (t : EngineStep) (a : EngineAccess) : (e.askIntake t a).count = e.count := rfl
@[simp] theorem Engine.askIntake_filters (e : Engine) (t : EngineStep) (a : EngineAccess) : (e.askIntake t a).filters = e.filters := rfl
@[simp] theorem Engine.askIntake_notify (e : Engine) (t : EngineStep) (a : EngineAccess) : (e.askIntake t a).notify = e.notify := rfl

/-! ### Engine.askClosing -/

@[simp] theorem Engine.askClosing_ctl (e : Engine) (t : EngineStep) (a : EngineAccess) : (e.askClosing t a).ctl = e.ctl := rfl
@[simp] theorem Engine.askClosing_post (e : Engine) (t : EngineStep) (a : EngineAccess) : (e.askClosing t a).post = e.post := rfl
@[simp] theorem Engine.askClosing_jtc (e : Engine) (t : EngineStep) (a : EngineAccess) : (e.askClosing t a).jtc = e.jtc := rfl
@[simp] theorem Engine.askClosing_disp (e : Engine) (t : EngineStep) (a : EngineAccess) : (e.askClosing t a).disp = e.disp := rfl
@[simp] theorem Engine.askClosing_channels (e : Engine) (t : EngineStep) (a : EngineAccess) : (e.askClosing t a).channels = e.channels := rfl
@[simp] theorem Engine.askClosing_ei (e : Engine) (t : EngineStep) (a : EngineAccess) : (e.askClosing t a).ei = e.ei.ask .closing ⟨t, a⟩ := rfl
@[simp] theorem Engine.askClosing_count (e : Engine) (t : EngineStep) (a : EngineAccess) : (e.askClosing t a).count = e.count := rfl
@[simp] theorem Engine.askClosing_filters (e : Engine) (t : EngineStep) (a : EngineAccess) : (e.askClosing t a).filters = e.filters := rfl
@[simp] theorem Engine.askClosing_notify (e : Engine) (t : EngineStep) (a : EngineAccess) : (e.askClosing t a).notify = e.notify := rfl

/-! ### Engine.setWork -/

@[simp] theorem Engine.setWork_ctl (e : Engine) (c : ChannelId) (w : Work) : (e.setWork c w).ctl = e.ctl := rfl
@[simp] theorem Engine.setWork_post (e : Engine) (c : ChannelId) (w : Work) : (e.setWork c w).post = e.post := rfl
@[simp] theorem Engine.setWork_jtc (e : Engine) (c : ChannelId) (w : Work) : (e.setWork c w).jtc = e.jtc := rfl
@[simp] theorem Engine.setWork_disp (e : Engine) (c : ChannelId) (w : Work) : (e.setWork c w).disp = e.disp := rfl
@[simp] theorem Engine.setWork_channels (e : Engine) (c : ChannelId) (w : Work) : (e.setWork c w).channels = e.channels.set c { e.chan c with work := w } := rfl
@[simp] theorem Engine.setWork_ei (e : Engine) (c : ChannelId) (w : Work) : (e.setWork c w).ei = e.ei := rfl
@[simp] theorem Engine.setWork_count (e : Engine) (c : ChannelId) (w : Work) : (e.setWork c w).count = e.count := rfl
@[simp] theorem Engine.setWork_filters (e : Engine) (c : ChannelId) (w : Work) : (e.setWork c w).filters = e.filters := rfl
@[simp] theorem Engine.setWork_notify (e : Engine) (c : ChannelId) (w : Work) : (e.setWork c w).notify = e.notify := rfl

/-! ### Engine.setPass -/

@[simp] theorem Engine.setPass_ctl (e : Engine) (p : Pass) : (e.setPass p).ctl = e.ctl := rfl
@[simp] theorem Engine.setPass_post (e : Engine) (p : Pass) : (e.setPass p).post = e.post := rfl
@[simp] theorem Engine.setPass_jtc (e : Engine) (p : Pass) : (e.setPass p).jtc = { e.jtc with pass := some p } := rfl
@[simp] theorem Engine.setPass_disp (e : Engine) (p : Pass) : (e.setPass p).disp = e.disp := rfl
@[simp] theorem Engine.setPass_channels (e : Engine) (p : Pass) : (e.setPass p).channels = e.channels := rfl
@[simp] theorem Engine.setPass_ei (e : Engine) (p : Pass) : (e.setPass p).ei = e.ei := rfl
@[simp] theorem Engine.setPass_count (e : Engine) (p : Pass) : (e.setPass p).count = e.count := rfl
@[simp] theorem Engine.setPass_filters (e : Engine) (p : Pass) : (e.setPass p).filters = e.filters := rfl
@[simp] theorem Engine.setPass_notify (e : Engine) (p : Pass) : (e.setPass p).notify = e.notify := rfl

/-! ### Engine.setClosing -/

@[simp] theorem Engine.setClosing_ctl (e : Engine) (place : Nat) (t : ClosingStep) : (e.setClosing place t).ctl = e.ctl := rfl
@[simp] theorem Engine.setClosing_post (e : Engine) (place : Nat) (t : ClosingStep) : (e.setClosing place t).post = e.post := rfl
@[simp] theorem Engine.setClosing_jtc (e : Engine) (place : Nat) (t : ClosingStep) : (e.setClosing place t).jtc = { e.jtc with closing := some ⟨place, t⟩ } := rfl
@[simp] theorem Engine.setClosing_disp (e : Engine) (place : Nat) (t : ClosingStep) : (e.setClosing place t).disp = e.disp := rfl
@[simp] theorem Engine.setClosing_channels (e : Engine) (place : Nat) (t : ClosingStep) : (e.setClosing place t).channels = e.channels := rfl
@[simp] theorem Engine.setClosing_ei (e : Engine) (place : Nat) (t : ClosingStep) : (e.setClosing place t).ei = e.ei := rfl
@[simp] theorem Engine.setClosing_count (e : Engine) (place : Nat) (t : ClosingStep) : (e.setClosing place t).count = e.count := rfl
@[simp] theorem Engine.setClosing_filters (e : Engine) (place : Nat) (t : ClosingStep) : (e.setClosing place t).filters = e.filters := rfl
@[simp] theorem Engine.setClosing_notify (e : Engine) (place : Nat) (t : ClosingStep) : (e.setClosing place t).notify = e.notify := rfl

/-! ### Engine.notifyDomain -/

@[simp] theorem Engine.notifyDomain_ctl (e : Engine) (d : Domain) : (e.notifyDomain d).ctl = e.ctl := rfl
@[simp] theorem Engine.notifyDomain_post (e : Engine) (d : Domain) : (e.notifyDomain d).post = e.post := rfl
@[simp] theorem Engine.notifyDomain_jtc (e : Engine) (d : Domain) : (e.notifyDomain d).jtc = e.jtc := rfl
@[simp] theorem Engine.notifyDomain_disp (e : Engine) (d : Domain) : (e.notifyDomain d).disp = e.disp := rfl
@[simp] theorem Engine.notifyDomain_channels (e : Engine) (d : Domain) : (e.notifyDomain d).channels = e.channels := rfl
@[simp] theorem Engine.notifyDomain_ei (e : Engine) (d : Domain) : (e.notifyDomain d).ei = e.ei := rfl
@[simp] theorem Engine.notifyDomain_count (e : Engine) (d : Domain) : (e.notifyDomain d).count = e.count := rfl
@[simp] theorem Engine.notifyDomain_filters (e : Engine) (d : Domain) : (e.notifyDomain d).filters = e.filters := rfl
@[simp] theorem Engine.notifyDomain_notify (e : Engine) (d : Domain) : (e.notifyDomain d).notify = setFlag e.notify d.val := rfl

/-! ### Engine.dropUnit -/

@[simp] theorem Engine.dropUnit_ctl (e : Engine) : (e.dropUnit).ctl = e.ctl := rfl
@[simp] theorem Engine.dropUnit_post (e : Engine) : (e.dropUnit).post = e.post := rfl
@[simp] theorem Engine.dropUnit_jtc (e : Engine) : (e.dropUnit).jtc = e.jtc := rfl
@[simp] theorem Engine.dropUnit_disp (e : Engine) : (e.dropUnit).disp = e.disp := rfl
@[simp] theorem Engine.dropUnit_channels (e : Engine) : (e.dropUnit).channels = e.channels := rfl
@[simp] theorem Engine.dropUnit_ei (e : Engine) : (e.dropUnit).ei = { e.ei with unit := none } := rfl
@[simp] theorem Engine.dropUnit_count (e : Engine) : (e.dropUnit).count = e.count := rfl
@[simp] theorem Engine.dropUnit_filters (e : Engine) : (e.dropUnit).filters = e.filters := rfl
@[simp] theorem Engine.dropUnit_notify (e : Engine) : (e.dropUnit).notify = e.notify := rfl

/-! ### Engine.clearYield -/

@[simp] theorem Engine.clearYield_ctl (e : Engine) (c : ChannelId) (place : Nat) : (e.clearYield c place).ctl = e.ctl := rfl
@[simp] theorem Engine.clearYield_post (e : Engine) (c : ChannelId) (place : Nat) : (e.clearYield c place).post = e.post := rfl
@[simp] theorem Engine.clearYield_jtc (e : Engine) (c : ChannelId) (place : Nat) : (e.clearYield c place).jtc = e.jtc := rfl
@[simp] theorem Engine.clearYield_disp (e : Engine) (c : ChannelId) (place : Nat) : (e.clearYield c place).disp = { e.disp with yields := e.disp.yields.filter fun y => !(y.channel == c && y.place == place) } := rfl
@[simp] theorem Engine.clearYield_channels (e : Engine) (c : ChannelId) (place : Nat) : (e.clearYield c place).channels = e.channels := rfl
@[simp] theorem Engine.clearYield_ei (e : Engine) (c : ChannelId) (place : Nat) : (e.clearYield c place).ei = e.ei := rfl
@[simp] theorem Engine.clearYield_count (e : Engine) (c : ChannelId) (place : Nat) : (e.clearYield c place).count = e.count := rfl
@[simp] theorem Engine.clearYield_filters (e : Engine) (c : ChannelId) (place : Nat) : (e.clearYield c place).filters = e.filters := rfl
@[simp] theorem Engine.clearYield_notify (e : Engine) (c : ChannelId) (place : Nat) : (e.clearYield c place).notify = e.notify := rfl

/-! ### Engine.noteStart -/

@[simp] theorem Engine.noteStart_ctl (e : Engine) (place : Nat) : (e.noteStart place).ctl = e.ctl := rfl
@[simp] theorem Engine.noteStart_post (e : Engine) (place : Nat) : (e.noteStart place).post = e.post := rfl
@[simp] theorem Engine.noteStart_jtc (e : Engine) (place : Nat) : (e.noteStart place).jtc = e.jtc.update place fun en => { en with startOrder := e.disp.nextStart } := rfl
@[simp] theorem Engine.noteStart_disp (e : Engine) (place : Nat) : (e.noteStart place).disp = { e.disp with nextStart := e.disp.nextStart + 1 } := rfl
@[simp] theorem Engine.noteStart_channels (e : Engine) (place : Nat) : (e.noteStart place).channels = e.channels := rfl
@[simp] theorem Engine.noteStart_ei (e : Engine) (place : Nat) : (e.noteStart place).ei = e.ei := rfl
@[simp] theorem Engine.noteStart_count (e : Engine) (place : Nat) : (e.noteStart place).count = e.count := rfl
@[simp] theorem Engine.noteStart_filters (e : Engine) (place : Nat) : (e.noteStart place).filters = e.filters := rfl
@[simp] theorem Engine.noteStart_notify (e : Engine) (place : Nat) : (e.noteStart place).notify = e.notify := rfl

/-! ### State.unitDone -/

@[simp] theorem State.unitDone_mem (s : State) (u : EngineUnit) : (s.unitDone u).mem = (u.request.access.perform s.mem).1 := rfl
@[simp] theorem State.unitDone_ports (s : State) (u : EngineUnit) : (s.unitDone u).ports = s.ports := rfl
@[simp] theorem State.unitDone_arb (s : State) (u : EngineUnit) : (s.unitDone u).arb = { s.arb with holder := none } := rfl
@[simp] theorem State.unitDone_eng (s : State) (u : EngineUnit) : (s.unitDone u).eng = s.eng.dropUnit := rfl
@[simp] theorem State.unitDone_resetPin (s : State) (u : EngineUnit) : (s.unitDone u).resetPin = s.resetPin := rfl
@[simp] theorem State.unitDone_rq (s : State) (u : EngineUnit) : (s.unitDone u).rq = s.rq := rfl
@[simp] theorem State.unitDone_pending (s : State) (u : EngineUnit) : (s.unitDone u).pending = s.pending := rfl

/-! ### State.pushFront -/

@[simp] theorem State.pushFront_mem (s : State) (c : Instr) : (s.pushFront c).mem = s.mem := rfl
@[simp] theorem State.pushFront_ports (s : State) (c : Instr) : (s.pushFront c).ports = s.ports := rfl
@[simp] theorem State.pushFront_arb (s : State) (c : Instr) : (s.pushFront c).arb = s.arb := rfl
@[simp] theorem State.pushFront_eng (s : State) (c : Instr) : (s.pushFront c).eng = s.eng := rfl
@[simp] theorem State.pushFront_resetPin (s : State) (c : Instr) : (s.pushFront c).resetPin = s.resetPin := rfl
@[simp] theorem State.pushFront_rq (s : State) (c : Instr) : (s.pushFront c).rq = s.rq := rfl
@[simp] theorem State.pushFront_pending (s : State) (c : Instr) : (s.pushFront c).pending = c :: s.pending := rfl

/-! ### State.noteWrite -/

@[simp] theorem State.noteWrite_mem (s : State) (p : Port) (value : Word) : (s.noteWrite p value).mem = s.mem := rfl
@[simp] theorem State.noteWrite_ports (s : State) (p : Port) (value : Word) : (s.noteWrite p value).ports = s.ports := rfl
@[simp] theorem State.noteWrite_arb (s : State) (p : Port) (value : Word) : (s.noteWrite p value).arb = s.arb := rfl
@[simp] theorem State.noteWrite_eng (s : State) (p : Port) (value : Word) : (s.noteWrite p value).eng = { s.eng with notify := s.eng.notify &&& ~~~ (s.noteMask p value) } := rfl
@[simp] theorem State.noteWrite_resetPin (s : State) (p : Port) (value : Word) : (s.noteWrite p value).resetPin = s.resetPin := rfl
@[simp] theorem State.noteWrite_rq (s : State) (p : Port) (value : Word) : (s.noteWrite p value).rq = s.rq := rfl
@[simp] theorem State.noteWrite_pending (s : State) (p : Port) (value : Word) : (s.noteWrite p value).pending = s.pending := rfl

/-! ### State.anchorWrite -/

@[simp] theorem State.anchorWrite_mem (s : State) (value : Word) : (s.anchorWrite value).mem = s.mem := rfl
@[simp] theorem State.anchorWrite_ports (s : State) (value : Word) : (s.anchorWrite value).ports = s.ports := rfl
@[simp] theorem State.anchorWrite_arb (s : State) (value : Word) : (s.anchorWrite value).arb = s.arb := rfl
@[simp] theorem State.anchorWrite_eng (s : State) (value : Word) : (s.anchorWrite value).eng = s.eng.setCtl { s.eng.ctl with anchor := value } := rfl
@[simp] theorem State.anchorWrite_resetPin (s : State) (value : Word) : (s.anchorWrite value).resetPin = s.resetPin := rfl
@[simp] theorem State.anchorWrite_rq (s : State) (value : Word) : (s.anchorWrite value).rq = s.rq := rfl
@[simp] theorem State.anchorWrite_pending (s : State) (value : Word) : (s.anchorWrite value).pending = s.pending := rfl

/-! ### State.onEngine -/

@[simp] theorem State.onEngine_mem (s : State) (f : Engine → Engine) : (s.onEngine f).mem = s.mem := rfl
@[simp] theorem State.onEngine_ports (s : State) (f : Engine → Engine) : (s.onEngine f).ports = s.ports := rfl
@[simp] theorem State.onEngine_arb (s : State) (f : Engine → Engine) : (s.onEngine f).arb = s.arb := rfl
@[simp] theorem State.onEngine_eng (s : State) (f : Engine → Engine) : (s.onEngine f).eng = s.eng.settle (f s.eng) := rfl
@[simp] theorem State.onEngine_resetPin (s : State) (f : Engine → Engine) : (s.onEngine f).resetPin = s.resetPin := rfl
@[simp] theorem State.onEngine_rq (s : State) (f : Engine → Engine) : (s.onEngine f).rq = s.rq := rfl
@[simp] theorem State.onEngine_pending (s : State) (f : Engine → Engine) : (s.onEngine f).pending = s.pending := rfl

/-! ### State.returnData -/

@[simp] theorem State.returnData_mem (s : State) (p : Port) (en : BitVec 4) (w : Word) : (s.returnData p en w).mem = s.mem := rfl
@[simp] theorem State.returnData_ports (s : State) (p : Port) (en : BitVec 4) (w : Word) : (s.returnData p en w).ports = { s.ports with readData := s.ports.readData.set p (lanes en w) } := rfl
@[simp] theorem State.returnData_arb (s : State) (p : Port) (en : BitVec 4) (w : Word) : (s.returnData p en w).arb = s.arb := rfl
@[simp] theorem State.returnData_eng (s : State) (p : Port) (en : BitVec 4) (w : Word) : (s.returnData p en w).eng = s.eng := rfl
@[simp] theorem State.returnData_resetPin (s : State) (p : Port) (en : BitVec 4) (w : Word) : (s.returnData p en w).resetPin = s.resetPin := rfl
@[simp] theorem State.returnData_rq (s : State) (p : Port) (en : BitVec 4) (w : Word) : (s.returnData p en w).rq = s.rq := rfl
@[simp] theorem State.returnData_pending (s : State) (p : Port) (en : BitVec 4) (w : Word) : (s.returnData p en w).pending = s.pending := rfl

/-! ### State.settled -/

@[simp] theorem State.settled_mem (s : State) (f : State → State) : (s.settled f).mem = (f s).mem := rfl
@[simp] theorem State.settled_ports (s : State) (f : State → State) : (s.settled f).ports = (f s).ports := rfl
@[simp] theorem State.settled_arb (s : State) (f : State → State) : (s.settled f).arb = (f s).arb := rfl
@[simp] theorem State.settled_eng (s : State) (f : State → State) : (s.settled f).eng = s.eng.settle (f s).eng := rfl
@[simp] theorem State.settled_resetPin (s : State) (f : State → State) : (s.settled f).resetPin = (f s).resetPin := rfl
@[simp] theorem State.settled_rq (s : State) (f : State → State) : (s.settled f).rq = (f s).rq := rfl
@[simp] theorem State.settled_pending (s : State) (f : State → State) : (s.settled f).pending = (f s).pending := rfl

/-! ### JobTable.update -/

@[simp] theorem JobTable.update_entries (j : JobTable) (place : Nat) (f : Entry → Entry) : (j.update place f).entries = j.entries.map fun en => if en.place = place then f en else en := rfl
@[simp] theorem JobTable.update_nextPlace (j : JobTable) (place : Nat) (f : Entry → Entry) : (j.update place f).nextPlace = j.nextPlace := rfl
@[simp] theorem JobTable.update_queue (j : JobTable) (place : Nat) (f : Entry → Entry) : (j.update place f).queue = j.queue := rfl
@[simp] theorem JobTable.update_closing (j : JobTable) (place : Nat) (f : Entry → Entry) : (j.update place f).closing = j.closing := rfl
@[simp] theorem JobTable.update_rotation (j : JobTable) (place : Nat) (f : Entry → Entry) : (j.update place f).rotation = j.rotation := rfl
@[simp] theorem JobTable.update_pass (j : JobTable) (place : Nat) (f : Entry → Entry) : (j.update place f).pass = j.pass := rfl
@[simp] theorem JobTable.update_latch (j : JobTable) (place : Nat) (f : Entry → Entry) : (j.update place f).latch = j.latch := rfl
@[simp] theorem JobTable.update_overrun (j : JobTable) (place : Nat) (f : Entry → Entry) : (j.update place f).overrun = j.overrun := rfl
@[simp] theorem JobTable.update_lineEvents (j : JobTable) (place : Nat) (f : Entry → Entry) : (j.update place f).lineEvents = j.lineEvents := rfl

/-! ### JobTable.close -/

@[simp] theorem JobTable.close_entries (j : JobTable) (place : Nat) (r : JobResult) (n : Option ServiceNotify) : (j.close place r n).entries = j.entries.map fun en => if en.place = place then { en with custody := .closing, result := some r, serviceNotify := n, expiryDue := false } else en := rfl
@[simp] theorem JobTable.close_nextPlace (j : JobTable) (place : Nat) (r : JobResult) (n : Option ServiceNotify) : (j.close place r n).nextPlace = j.nextPlace := rfl
@[simp] theorem JobTable.close_queue (j : JobTable) (place : Nat) (r : JobResult) (n : Option ServiceNotify) : (j.close place r n).queue = j.queue ++ [place] := rfl
@[simp] theorem JobTable.close_closing (j : JobTable) (place : Nat) (r : JobResult) (n : Option ServiceNotify) : (j.close place r n).closing = j.closing := rfl
@[simp] theorem JobTable.close_rotation (j : JobTable) (place : Nat) (r : JobResult) (n : Option ServiceNotify) : (j.close place r n).rotation = j.rotation := rfl
@[simp] theorem JobTable.close_pass (j : JobTable) (place : Nat) (r : JobResult) (n : Option ServiceNotify) : (j.close place r n).pass = j.pass := rfl
@[simp] theorem JobTable.close_latch (j : JobTable) (place : Nat) (r : JobResult) (n : Option ServiceNotify) : (j.close place r n).latch = j.latch := rfl
@[simp] theorem JobTable.close_overrun (j : JobTable) (place : Nat) (r : JobResult) (n : Option ServiceNotify) : (j.close place r n).overrun = j.overrun := rfl
@[simp] theorem JobTable.close_lineEvents (j : JobTable) (place : Nat) (r : JobResult) (n : Option ServiceNotify) : (j.close place r n).lineEvents = j.lineEvents := rfl

/-! ### JobTable.closeWaiting -/

@[simp] theorem JobTable.closeWaiting_entries (j : JobTable) (en : Entry) (o : JobOutcome) : (j.closeWaiting en o).entries = (j.close en.place (plainResult o en.waitingBytes) none).entries := rfl
@[simp] theorem JobTable.closeWaiting_nextPlace (j : JobTable) (en : Entry) (o : JobOutcome) : (j.closeWaiting en o).nextPlace = j.nextPlace := rfl
@[simp] theorem JobTable.closeWaiting_queue (j : JobTable) (en : Entry) (o : JobOutcome) : (j.closeWaiting en o).queue = j.queue ++ [en.place] := rfl
@[simp] theorem JobTable.closeWaiting_closing (j : JobTable) (en : Entry) (o : JobOutcome) : (j.closeWaiting en o).closing = j.closing := rfl
@[simp] theorem JobTable.closeWaiting_rotation (j : JobTable) (en : Entry) (o : JobOutcome) : (j.closeWaiting en o).rotation = j.rotation := rfl
@[simp] theorem JobTable.closeWaiting_pass (j : JobTable) (en : Entry) (o : JobOutcome) : (j.closeWaiting en o).pass = j.pass := rfl
@[simp] theorem JobTable.closeWaiting_latch (j : JobTable) (en : Entry) (o : JobOutcome) : (j.closeWaiting en o).latch = j.latch := rfl
@[simp] theorem JobTable.closeWaiting_overrun (j : JobTable) (en : Entry) (o : JobOutcome) : (j.closeWaiting en o).overrun = j.overrun := rfl
@[simp] theorem JobTable.closeWaiting_lineEvents (j : JobTable) (en : Entry) (o : JobOutcome) : (j.closeWaiting en o).lineEvents = j.lineEvents := rfl

/-! ### JobTable.free -/

@[simp] theorem JobTable.free_entries (j : JobTable) (place : Nat) : (j.free place).entries = j.entries.filter fun en => en.place != place := rfl
@[simp] theorem JobTable.free_nextPlace (j : JobTable) (place : Nat) : (j.free place).nextPlace = j.nextPlace := rfl
@[simp] theorem JobTable.free_queue (j : JobTable) (place : Nat) : (j.free place).queue = j.queue.filter (· != place) := rfl
@[simp] theorem JobTable.free_closing (j : JobTable) (place : Nat) : (j.free place).closing = none := rfl
@[simp] theorem JobTable.free_rotation (j : JobTable) (place : Nat) : (j.free place).rotation = j.rotation := rfl
@[simp] theorem JobTable.free_pass (j : JobTable) (place : Nat) : (j.free place).pass = j.pass := rfl
@[simp] theorem JobTable.free_latch (j : JobTable) (place : Nat) : (j.free place).latch = j.latch := rfl
@[simp] theorem JobTable.free_overrun (j : JobTable) (place : Nat) : (j.free place).overrun = j.overrun := rfl
@[simp] theorem JobTable.free_lineEvents (j : JobTable) (place : Nat) : (j.free place).lineEvents = j.lineEvents := rfl

/-! ### JobTable.create -/

@[simp] theorem JobTable.create_entries (j : JobTable) (r : JobRecord) (d : Domain) (s : Slot) (taken : Bool) : (j.create r d s taken).entries = j.entries ++ [Entry.fresh j.nextPlace r d s taken] := rfl
@[simp] theorem JobTable.create_nextPlace (j : JobTable) (r : JobRecord) (d : Domain) (s : Slot) (taken : Bool) : (j.create r d s taken).nextPlace = j.nextPlace + 1 := rfl
@[simp] theorem JobTable.create_queue (j : JobTable) (r : JobRecord) (d : Domain) (s : Slot) (taken : Bool) : (j.create r d s taken).queue = j.queue := rfl
@[simp] theorem JobTable.create_closing (j : JobTable) (r : JobRecord) (d : Domain) (s : Slot) (taken : Bool) : (j.create r d s taken).closing = j.closing := rfl
@[simp] theorem JobTable.create_rotation (j : JobTable) (r : JobRecord) (d : Domain) (s : Slot) (taken : Bool) : (j.create r d s taken).rotation = j.rotation := rfl
@[simp] theorem JobTable.create_pass (j : JobTable) (r : JobRecord) (d : Domain) (s : Slot) (taken : Bool) : (j.create r d s taken).pass = j.pass := rfl
@[simp] theorem JobTable.create_latch (j : JobTable) (r : JobRecord) (d : Domain) (s : Slot) (taken : Bool) : (j.create r d s taken).latch = j.latch := rfl
@[simp] theorem JobTable.create_overrun (j : JobTable) (r : JobRecord) (d : Domain) (s : Slot) (taken : Bool) : (j.create r d s taken).overrun = j.overrun := rfl
@[simp] theorem JobTable.create_lineEvents (j : JobTable) (r : JobRecord) (d : Domain) (s : Slot) (taken : Bool) : (j.create r d s taken).lineEvents = j.lineEvents := rfl

/-! ### Reading a channel after an update -/

/-- The channel that was replaced. -/
@[simp] theorem Engine.setChan_chan (e : Engine) (c : ChannelId) (ch : Channel) : (e.setChan c ch).chan c = ch := by
  simp [Engine.setChan, Engine.chan]

/-- Another channel. -/
theorem Engine.setChan_chan_ne (e : Engine) {c d : ChannelId} (ch : Channel) (h : c ≠ d) :
    (e.setChan c ch).chan d = e.chan d := by
  have h' : c.val ≠ d.val := fun hv => h (Fin.ext hv)
  simp [Engine.setChan, Engine.chan, Vector.getElem_set_ne, h']

/-- Replacing every channel's reading is as it stands where the channels are as they stand. -/
theorem Engine.chan_of_channels {e f : Engine} (h : f.channels = e.channels) (c : ChannelId) :
    f.chan c = e.chan c := by simp [Engine.chan, h]

end Sys2Proof.Machine
end

