-- ==== Sys2Proof/Laws/Settle.lean ====
section
/-! SUPPORT. What the end of a step may change (R77, R137): the outstanding yields with the dispatcher's messages,
and which request is the unit in progress; every presented request stays presented. -/

namespace Sys2Proof.Machine

theorem Engine.same_refl (e : Engine) (p : Part) : e.same e p := by
  cases p <;> simp [Engine.same]

theorem Engine.same_trans {e f g : Engine} {p : Part} (h : e.same f p) (h' : f.same g p) : e.same g p := by
  cases p <;> simp only [Engine.same] at * <;> first | trivial | exact h'.trans h | exact ⟨h'.1.trans h.1, h'.2.trans h.2⟩

/-- An engine that differs in the Engine Interface alone. -/
theorem Engine.same_of_ei (e : Engine) (x : EngineInterface) (p : Part) : e.same { e with ei := x } p := by
  cases p <;> simp [Engine.same, Engine.chan]

theorem Engine.chooseUnit_same (e : Engine) (p : Part) : e.same e.chooseUnit p := by
  unfold Engine.chooseUnit
  split
  · exact e.same_refl p
  · split
    · exact e.same_refl p
    · exact e.same_of_ei _ p

/-! ### The dispatcher's messages -/

/-- A message to a channel leaves everything but the messages on their way. -/
theorem Engine.sendYield_same (e : Engine) (c : ChannelId) (m : YieldMessage) (p : Part) :
    e.same (e.sendYield c m) p := by
  cases p with
  | channel d =>
    simp only [Engine.same, Engine.sendYield]
    by_cases h : c = d
    · subst h; simp [Channel.own]
    · rw [Engine.setChan_chan_ne e _ h]
  | _ => simp [Engine.same, Engine.sendYield]

theorem Engine.sendYield_ei (e : Engine) (c : ChannelId) (m : YieldMessage) : (e.sendYield c m).ei = e.ei := rfl

theorem Engine.withdrawAll_same (e : Engine) (ys : List Yield) (p : Part) : e.same (e.withdrawAll ys) p := by
  induction ys generalizing e with
  | nil => exact e.same_refl p
  | cons y ys ih => exact Engine.same_trans (e.sendYield_same _ _ p) (ih _)

theorem Engine.withdrawAll_ei (e : Engine) (ys : List Yield) : (e.withdrawAll ys).ei = e.ei := by
  induction ys generalizing e with
  | nil => rfl
  | cons y ys ih => exact (ih _).trans (e.sendYield_ei _ _)

theorem Engine.askAll_same (e : Engine) (ys : List Yield) (p : Part) : e.same (e.askAll ys) p := by
  induction ys generalizing e with
  | nil => exact e.same_refl p
  | cons y ys ih => exact Engine.same_trans (e.sendYield_same _ _ p) (ih _)

theorem Engine.askAll_ei (e : Engine) (ys : List Yield) : (e.askAll ys).ei = e.ei := by
  induction ys generalizing e with
  | nil => rfl
  | cons y ys ih => exact (ih _).trans (e.sendYield_ei _ _)

theorem Engine.withdrawAll_disp (e : Engine) (ys : List Yield) : (e.withdrawAll ys).disp = e.disp := by
  induction ys generalizing e with
  | nil => rfl
  | cons y ys ih => exact ih _

theorem Engine.askAll_disp (e : Engine) (ys : List Yield) : (e.askAll ys).disp = e.disp := by
  induction ys generalizing e with
  | nil => rfl
  | cons y ys ih => exact ih _

/-- An engine that differs in the outstanding yields alone. -/
theorem Engine.same_of_yields (e : Engine) (ys : List Yield) (p : Part) :
    e.same { e with disp := { e.disp with yields := ys } } p := by
  cases p <;> simp [Engine.same, Engine.chan]

theorem Engine.walkOnce_same (e : Engine) (p : Part) : e.same e.walkOnce p :=
  Engine.same_trans (Engine.same_trans (e.withdrawAll_same _ p) (Engine.askAll_same _ _ p)) (Engine.same_of_yields _ _ p)

theorem Engine.walkOnce_ei (e : Engine) : e.walkOnce.ei = e.ei := by
  simp [Engine.walkOnce, Engine.askAll_ei, Engine.withdrawAll_ei]

theorem Engine.walks_same (n : Nat) (e : Engine) (p : Part) : e.same (e.walks n) p := by
  induction n generalizing e with
  | zero => exact e.same_refl p
  | succ n ih =>
    unfold Engine.walks
    split
    · exact e.walkOnce_same p
    · exact Engine.same_trans (e.walkOnce_same p) (ih _)

theorem Engine.walks_ei (n : Nat) (e : Engine) : (e.walks n).ei = e.ei := by
  induction n generalizing e with
  | zero => rfl
  | succ n ih =>
    unfold Engine.walks
    split
    · exact e.walkOnce_ei
    · exact (ih _).trans e.walkOnce_ei

theorem Engine.reconsider_same (e : Engine) (p : Part) : e.same e.reconsider p := by
  unfold Engine.reconsider
  split
  · exact e.walks_same _ p
  · exact Engine.same_trans (e.withdrawAll_same _ p) (Engine.same_of_yields _ _ p)

theorem Engine.reconsider_ei (e : Engine) : e.reconsider.ei = e.ei := by
  unfold Engine.reconsider
  split
  · exact e.walks_ei _
  · simp [Engine.withdrawAll_ei]

/-- Sending a dispatch changes the dispatch on its way alone. -/
theorem Engine.sendDispatch_eq (e : Engine) :
    e.sendDispatch = e ∨ ∃ c, e.sendDispatch = { e with disp := { e.disp with sent := c } } := by
  unfold Engine.sendDispatch
  split
  · exact .inr ⟨_, rfl⟩
  · exact .inl rfl

theorem Engine.sendDispatch_same (e : Engine) (p : Part) : e.same e.sendDispatch p := by
  rcases e.sendDispatch_eq with h | ⟨c, h⟩ <;> rw [h]
  · exact e.same_refl p
  · cases p <;> simp [Engine.same, Engine.chan]

theorem Engine.sendDispatch_ei (e : Engine) : e.sendDispatch.ei = e.ei := by
  rcases e.sendDispatch_eq with h | ⟨c, h⟩ <;> rw [h]

/-! ### The end of a step -/

/-- What the dispatcher does at the end of a step changes no part that a frame names, and no request. -/
theorem Engine.dispatcher_same (before after : Engine) (p : Part) :
    after.same (if before.view = after.view then after else after.reconsider).sendDispatch p := by
  split
  · exact after.sendDispatch_same p
  · exact Engine.same_trans (after.reconsider_same p) (Engine.sendDispatch_same _ p)

theorem Engine.dispatcher_ei (before after : Engine) :
    (if before.view = after.view then after else after.reconsider).sendDispatch.ei = after.ei := by
  rw [Engine.sendDispatch_ei]
  split
  · rfl
  · exact after.reconsider_ei

/-- The end of a step changes no part that a frame names. -/
theorem Engine.settle_same (before after : Engine) (p : Part) : after.same (before.settle after) p :=
  Engine.same_trans (before.dispatcher_same after p) (Engine.chooseUnit_same _ p)

@[simp] theorem Engine.settle_ctl (b a : Engine) : (b.settle a).ctl = a.ctl := b.settle_same a .control
@[simp] theorem Engine.settle_post (b a : Engine) : (b.settle a).post = a.post := b.settle_same a .post
@[simp] theorem Engine.settle_jtc (b a : Engine) : (b.settle a).jtc = a.jtc := b.settle_same a .table
@[simp] theorem Engine.settle_nextStart (b a : Engine) : (b.settle a).disp.nextStart = a.disp.nextStart :=
  b.settle_same a .starts
@[simp] theorem Engine.settle_count (b a : Engine) : (b.settle a).count = a.count := (b.settle_same a .timebase).1
@[simp] theorem Engine.settle_filters (b a : Engine) : (b.settle a).filters = a.filters := (b.settle_same a .timebase).2
@[simp] theorem Engine.settle_notify (b a : Engine) : (b.settle a).notify = a.notify := b.settle_same a .notify
theorem Engine.settle_chan_own (b a : Engine) (c : ChannelId) : ((b.settle a).chan c).own = (a.chan c).own :=
  b.settle_same a (.channel c)

/-- The Engine Interface after the end of a step is its choice made on the requests as they stood. -/
theorem Engine.settle_ei (b a : Engine) :
    (b.settle a).ei = a.ei ∨ ∃ e : Engine, e.ei = a.ei ∧ a.ei.unit = none ∧ ∃ side, a.ei.waiting side = true ∧
      (b.settle a).ei = e.chooseOn side := by
  have key : ∀ e : Engine, e.chooseUnit.ei = e.ei ∨
      (e.ei.unit = none ∧ ∃ side, e.ei.waiting side = true ∧ e.chooseUnit.ei = e.chooseOn side) := by
    intro e
    unfold Engine.chooseUnit
    split
    · exact .inl rfl
    · rename_i hu
      split
      · exact .inl rfl
      · rename_i side hs
        refine .inr ⟨by simpa using hu, side, ?_, rfl⟩
        exact (List.find?_eq_some_iff_append.mp hs).1
  have he := b.dispatcher_ei a
  rcases key (if b.view = a.view then a else a.reconsider).sendDispatch with h | ⟨hu, side, hs, h⟩
  · exact .inl (h.trans he)
  · rw [he] at hu hs
    exact .inr ⟨_, he, hu, side, hs, h⟩

/-- Making a choice keeps every request presented. -/
theorem Engine.chooseOn_presents (e : Engine) (side : Side) (o : Owner) (r : Request)
    (h : e.ei.waits o = some r) :
    (e.chooseOn side).waits o = some r ∨ (e.chooseOn side).unit = some ⟨o, r⟩ := by
  unfold Engine.chooseOn
  cases side with
  | control => cases o <;> simp_all [EngineInterface.take, EngineInterface.waits]
  | jtc =>
    simp only []
    split
    · left; cases o <;> simpa [EngineInterface.waits] using h
    · cases o <;> simp_all [EngineInterface.take, EngineInterface.waits]
    · cases o <;> simp_all [EngineInterface.take, EngineInterface.waits]
  | channels =>
    simp only []
    split
    · left; cases o <;> simpa [EngineInterface.waits] using h
    · rename_i c hc
      cases o with
      | channel d =>
        by_cases hd : c = d
        · subst hd; right; simp_all [EngineInterface.take, EngineInterface.waits]
        · left
          have hv : c.val ≠ d.val := fun hv => hd (Fin.ext hv)
          simp_all [EngineInterface.waits, Vector.getElem_set_ne]
      | _ => left; simpa [EngineInterface.take, EngineInterface.waits] using h

/-- A request presented before the end of a step is presented after it. -/
theorem Engine.settle_presents (b a : Engine) (o : Owner) (t : EngineStep) (x : EngineAccess)
    (h : a.presents o t x) : (b.settle a).presents o t x := by
  rcases b.settle_ei a with hk | ⟨e, he, hu, side, _, hk⟩
  · simpa [Engine.presents, hk] using h
  · rcases h with h | h
    · have := e.chooseOn_presents side o ⟨t, x⟩ (by rw [he]; exact h)
      simpa [Engine.presents, hk] using this
    · rw [hu] at h; exact absurd h (by simp)

/-- Asking presents the request. -/
theorem Engine.ask_presents (e : Engine) (o : Owner) (t : EngineStep) (a : EngineAccess) :
    (e.ask o t a).presents o t a := by
  left; cases o <;> simp [Engine.ask, EngineInterface.ask, EngineInterface.waits]

/-- A step's effect on the engine leaves the rest of the state. -/
theorem State.onEngine_same (s : State) (f : Engine → Engine) (p : Part) (h : s.eng.same (f s.eng) p) :
    s.same (s.onEngine f) p := by
  have hs := Engine.same_trans h (s.eng.settle_same (f s.eng) p)
  cases p <;> first | rfl | exact ⟨rfl, rfl⟩ | exact hs

/-- A step's effect on the whole part, but for what its end may change. -/
theorem State.settled_same (s : State) (f : State → State) (p : Part) (h : s.same (f s) p) :
    s.same (s.settled f) p := by
  have hs := s.eng.settle_same (f s).eng p
  cases p <;> first | exact h | (simp only [State.same] at h ⊢; exact Engine.same_trans h hs)

end Sys2Proof.Machine
end

