-- ==== Sys2Proof/Laws/ChannelWork.lean ====
section
/-! SUPPORT. What the work of one channel may change (chapter 4): itself, its request at the Engine Interface, the
outstanding yields and the start order; nothing else in the engine. -/

namespace Sys2Proof.Machine

/-- An entry without its start order. -/
def Entry.unstarted (en : Entry) : Entry := { en with startOrder := 0 }

/-- The job table but for the start orders of its entries. -/
def JobTable.unstarted (j : JobTable) : JobTable := { j with entries := j.entries.map Entry.unstarted }

/-- What the work of channel `c` may change. -/
structure Engine.Works (c : ChannelId) (e f : Engine) : Prop where
  ctl : f.ctl = e.ctl
  post : f.post = e.post
  count : f.count = e.count
  filters : f.filters = e.filters
  notify : f.notify = e.notify
  sent : f.disp.sent = e.disp.sent
  table : f.jtc.unstarted = e.jtc.unstarted
  others : ∀ d, d ≠ c → f.chan d = e.chan d
  unit : f.ei.unit = e.ei.unit
  intake : f.ei.intake = e.ei.intake
  closing : f.ei.closing = e.ei.closing
  control : f.ei.control = e.ei.control
  requests : ∀ d : ChannelId, d ≠ c → f.ei.channels[d] = e.ei.channels[d]

namespace Engine.Works

variable {c : ChannelId} {e f g : Engine}

theorem refl (c : ChannelId) (e : Engine) : Engine.Works c e e :=
  ⟨rfl, rfl, rfl, rfl, rfl, rfl, rfl, fun _ _ => rfl, rfl, rfl, rfl, rfl, fun _ _ => rfl⟩

theorem trans (h : Engine.Works c e f) (k : Engine.Works c f g) : Engine.Works c e g :=
  ⟨k.ctl.trans h.ctl, k.post.trans h.post, k.count.trans h.count, k.filters.trans h.filters, k.notify.trans h.notify,
   k.sent.trans h.sent, k.table.trans h.table, fun d hd => (k.others d hd).trans (h.others d hd), k.unit.trans h.unit,
   k.intake.trans h.intake, k.closing.trans h.closing, k.control.trans h.control,
   fun d hd => (k.requests d hd).trans (h.requests d hd)⟩

theorem setChan (c : ChannelId) (e : Engine) (ch : Channel) : Engine.Works c e (e.setChan c ch) :=
  ⟨rfl, rfl, rfl, rfl, rfl, rfl, rfl, fun _ hd => e.setChan_chan_ne ch (Ne.symm hd), rfl, rfl, rfl, rfl, fun _ _ => rfl⟩

theorem setWork (c : ChannelId) (e : Engine) (w : Work) : Engine.Works c e (e.setWork c w) := setChan c e _

theorem askFrom (c : ChannelId) (e : Engine) (t : EngineStep) (a : EngineAccess) :
    Engine.Works c e (e.askFrom c t a) :=
  ⟨rfl, rfl, rfl, rfl, rfl, rfl, rfl, fun _ _ => rfl, rfl, rfl, rfl, rfl, fun d hd => by
    have hv : c.val ≠ d.val := fun hv => hd (Fin.ext hv.symm)
    simp [Engine.askFrom, Engine.ask, EngineInterface.ask, Vector.getElem_set_ne, hv]⟩

theorem clearYield (c : ChannelId) (e : Engine) (d : ChannelId) (place : Nat) :
    Engine.Works c e (e.clearYield d place) :=
  ⟨rfl, rfl, rfl, rfl, rfl, rfl, rfl, fun _ _ => rfl, rfl, rfl, rfl, rfl, fun _ _ => rfl⟩

theorem noteStart (c : ChannelId) (e : Engine) (place : Nat) : Engine.Works c e (e.noteStart place) := by
  refine ⟨rfl, rfl, rfl, rfl, rfl, rfl, ?_, fun _ _ => rfl, rfl, rfl, rfl, rfl, fun _ _ => rfl⟩
  simp only [Engine.noteStart, JobTable.update, JobTable.unstarted, List.map_map]
  congr 1
  refine List.map_congr_left fun en _ => ?_
  simp only [Function.comp]
  split <;> rfl

theorem clearHeldYield (c : ChannelId) (e : Engine) (d : ChannelId) (place : Nat) :
    Engine.Works c e (e.clearHeldYield d place) := by
  unfold Engine.clearHeldYield
  split
  · exact clearYield c e d place
  · exact refl c e

theorem issueWrite (c : ChannelId) (e : Engine) (rs : Readings) (b : Burst) :
    Engine.Works c e (e.issueWrite c rs b) := by
  unfold Engine.issueWrite
  split <;> exact (setWork c e _).trans (askFrom c _ _ _)

theorem issueBurst (c : ChannelId) (e : Engine) : Engine.Works c e (e.issueBurst c) := by
  unfold Engine.issueBurst
  split
  · exact refl c e
  · simp only []
    split
    · exact issueWrite c e _ _
    · exact (setWork c e _).trans (askFrom c _ _ _)

theorem proceed (c : ChannelId) (e : Engine) : Engine.Works c e (e.proceed c) := by
  unfold Engine.proceed
  split
  · exact setWork c e _
  · exact issueBurst c e

theorem resumeShadow (c : ChannelId) (e : Engine) : Engine.Works c e (e.resumeShadow c) := by
  unfold Engine.resumeShadow
  simp only []
  split
  · exact setChan c e _
  · exact ((setChan c e _).trans (noteStart c _ _)).trans (proceed c _)

theorem freeChannel (c : ChannelId) (e : Engine) : Engine.Works c e (e.freeChannel c) := by
  unfold Engine.freeChannel
  simp only []
  split
  · exact setChan c e _
  · split
    · exact setChan c e _
    · split
      · exact resumeShadow c e
      · exact setChan c e _

theorem finish (c : ChannelId) (e : Engine) (r : JobResult) (v : Option ServiceRecord) :
    Engine.Works c e (e.finish c r v) := by
  unfold Engine.finish
  split
  · exact refl c e
  · exact ((clearHeldYield c e _ _).trans (setChan c _ _)).trans (freeChannel c _)

theorem failCheck (c : ChannelId) (e : Engine) (k : FaultKind) (o : FaultOperand) (sel : BitVec 16) :
    Engine.Works c e (e.failCheck c k o sel) := by
  unfold Engine.failCheck
  simp only []
  split
  · exact refl c e
  · split <;> exact finish c e _ _

theorem takeStop (c : ChannelId) (e : Engine) (r : StopReason) : Engine.Works c e (e.takeStop c r) := finish c e _ _

theorem parkShadow (c : ChannelId) (e : Engine) (j : Job) (rs : Readings) : Engine.Works c e (e.parkShadow c j rs) :=
  (setChan c e _).trans (freeChannel c _)

theorem parkContext (c : ChannelId) (e : Engine) (j : Job) (cl : Claim) : Engine.Works c e (e.parkContext c j cl) :=
  (setChan c e _).trans (askFrom c _ _ _)

theorem takeYield (c : ChannelId) (e : Engine) : Engine.Works c e (e.takeYield c) := by
  unfold Engine.takeYield
  split
  · exact refl c e
  · split
    · exact (clearYield c e _ _).trans (parkShadow c _ _ _)
    · exact (clearYield c e _ _).trans (parkContext c _ _ _)
    · exact proceed c e

theorem boundary (c : ChannelId) (e : Engine) : Engine.Works c e (e.boundary c) := by
  unfold Engine.boundary
  split
  · exact takeStop c e _
  · split
    · exact takeYield c e
    · exact proceed c e

theorem burstDone (c : ChannelId) (e : Engine) (n : Nat) (data : List Byte) :
    Engine.Works c e (e.burstDone c n data) := by
  unfold Engine.burstDone
  split
  · exact refl c e
  · simp only []
    split
    · exact finish c e _ _
    · exact (setChan c e _).trans (boundary c _)

theorem enterMoving (c : ChannelId) (e : Engine) : Engine.Works c e (e.enterMoving c) := by
  unfold Engine.enterMoving
  simp only []
  split
  · exact refl c e
  · exact (setChan c e _).trans (boundary c _)

theorem markUsed (c : ChannelId) (e : Engine) (xs : List Nat) : Engine.Works c e (e.markUsed c xs) := by
  cases xs with
  | nil => exact enterMoving c e
  | cons a rest => exact (setWork c e _).trans (askFrom c _ _ _)

theorem beginMarks (c : ChannelId) (e : Engine) : Engine.Works c e (e.beginMarks c) := markUsed c e _

theorem afterClaim (c : ChannelId) (e : Engine) : Engine.Works c e (e.afterClaim c) := by
  unfold Engine.afterClaim
  split
  · exact (setWork c e _).trans (askFrom c _ _ _)
  · exact beginMarks c e

theorem checkPassed (c : ChannelId) (e : Engine) : Engine.Works c e (e.checkPassed c) := by
  unfold Engine.checkPassed
  split
  · exact beginMarks c e
  · split
    · exact (setWork c e _).trans (askFrom c _ _ _)
    · exact afterClaim c e

theorem checkNext (c : ChannelId) (e : Engine) (ops : List Operand) : Engine.Works c e (e.checkNext c ops) := by
  unfold Engine.checkNext
  split
  · exact refl c e
  · exact checkPassed c e
  · simp only []
    split
    · exact failCheck c e _ _ _
    · exact (setWork c e _).trans (askFrom c _ _ _)

theorem checkReading (c : ChannelId) (e : Engine) (op : Operand) (rest : List Operand) (d : Descriptor) :
    Engine.Works c e (e.checkReading c op rest d) := by
  unfold Engine.checkReading
  simp only []
  split
  · exact refl c e
  · split
    · exact failCheck c e _ _ _
    · split
      · exact failCheck c e _ _ _
      · split
        · exact ((setChan c e _).trans (setWork c _ _)).trans (askFrom c _ _ _)
        · exact (setChan c e _).trans (checkNext c _ _)

theorem checkService (c : ChannelId) (e : Engine) (v : ServiceRecord) : Engine.Works c e (e.checkService c v) := by
  unfold Engine.checkService
  simp only []
  split
  · exact refl c e
  · split
    · exact failCheck c e _ _ _
    · split
      · exact failCheck c e _ _ _
      · split
        · exact failCheck c e _ _ _
        · exact (setChan c e _).trans (checkNext c _ _)

theorem checkSaveArea (c : ChannelId) (e : Engine) (ws : List Word) : Engine.Works c e (e.checkSaveArea c ws) := by
  unfold Engine.checkSaveArea
  simp only []
  split
  · exact refl c e
  · split
    · exact (setChan c e _).trans (askFrom c _ _ _)
    · exact failCheck c e _ _ _

theorem checkContext (c : ChannelId) (e : Engine) (d : Descriptor) : Engine.Works c e (e.checkContext c d) := by
  unfold Engine.checkContext
  split
  · exact refl c e
  · split
    · exact checkNext c e _
    · exact failCheck c e _ _ _

theorem claimRead (c : ChannelId) (e : Engine) (w : Word) : Engine.Works c e (e.claimRead c w) := by
  unfold Engine.claimRead
  split
  · exact refl c e
  · split
    · exact (setWork c e _).trans (askFrom c _ _ _)
    · split <;> exact failCheck c e _ _ _

theorem claimMarked (c : ChannelId) (e : Engine) : Engine.Works c e (e.claimMarked c) := by
  unfold Engine.claimMarked
  simp only []
  split
  · exact (setChan c e _).trans (afterClaim c _)
  · exact refl c e

theorem paramMarked (c : ChannelId) (e : Engine) : Engine.Works c e (e.paramMarked c) := by
  unfold Engine.paramMarked
  simp only []
  split
  · exact (setChan c e _).trans (askFrom c _ _ _)
  · exact refl c e

theorem paramWritten (c : ChannelId) (e : Engine) (x : Option (Nat × List Byte)) :
    Engine.Works c e (e.paramWritten c x) := by
  unfold Engine.paramWritten
  split
  · exact (setWork c e _).trans (askFrom c _ _ _)
  · exact beginMarks c e

theorem burstHasRead (c : ChannelId) (e : Engine) (b : Burst) (data : List Byte) :
    Engine.Works c e (e.burstHasRead c b data) := by
  unfold Engine.burstHasRead
  split
  · exact refl c e
  · split
    · exact burstDone c e _ _
    · exact issueWrite c e _ _

theorem contextParked (c : ChannelId) (e : Engine) : Engine.Works c e (e.contextParked c) := by
  unfold Engine.contextParked
  simp only []
  split
  · exact refl c e
  · exact ((clearHeldYield c e _ _).trans (setChan c _ _)).trans (freeChannel c _)

theorem stopArrives (c : ChannelId) (e : Engine) (r : StopReason) : Engine.Works c e (e.stopArrives c r) := by
  unfold Engine.stopArrives
  simp only []
  split
  · exact refl c e
  · split
    · exact takeStop c e _
    · split
      · exact refl c e
      · exact setChan c e _

theorem yieldArrives (c : ChannelId) (e : Engine) : Engine.Works c e (e.yieldArrives c) := by
  unfold Engine.yieldArrives
  simp only []
  split
  · exact (setChan c e _).trans (boundary c _)
  · exact setChan c e _

theorem dropShadow (c : ChannelId) (e : Engine) (sh : Shadow) (r : StopReason) :
    Engine.Works c e (e.dropShadow c sh r) := by
  unfold Engine.dropShadow
  simp only []
  split <;> exact setChan c e _

theorem thaw (c : ChannelId) (e : Engine) : Engine.Works c e (e.thaw c) := by
  unfold Engine.thaw
  split
  · exact proceed c e
  · exact refl c e

theorem paceTick (c : ChannelId) (e : Engine) : Engine.Works c e (e.paceTick c) := by
  unfold Engine.paceTick
  simp only []
  split
  · exact refl c e
  · split
    · exact (setChan c e _).trans (issueBurst c _)
    · exact refl c e

/-- What the laws of the job table see of an entry does not change. -/
theorem entries (h : Engine.Works c e f) : f.jtc.entries.map Entry.unstarted = e.jtc.entries.map Entry.unstarted :=
  congrArg JobTable.entries h.table

theorem nextPlace (h : Engine.Works c e f) : f.jtc.nextPlace = e.jtc.nextPlace := by
  simpa [JobTable.unstarted] using congrArg JobTable.nextPlace h.table

theorem queue (h : Engine.Works c e f) : f.jtc.queue = e.jtc.queue := by
  simpa [JobTable.unstarted] using congrArg JobTable.queue h.table

theorem pass (h : Engine.Works c e f) : f.jtc.pass = e.jtc.pass := by
  simpa [JobTable.unstarted] using congrArg JobTable.pass h.table

theorem latch (h : Engine.Works c e f) : f.jtc.latch = e.jtc.latch := by
  simpa [JobTable.unstarted] using congrArg JobTable.latch h.table

theorem overrun (h : Engine.Works c e f) : f.jtc.overrun = e.jtc.overrun := by
  simpa [JobTable.unstarted] using congrArg JobTable.overrun h.table

/-- No part that a frame names changes but the channel, the start orders and the entries' notes of them. -/
theorem same (h : Engine.Works c e f) (p : Part) (hp : p ≠ .channel c ∧ p ≠ .starts ∧ p ≠ .table) : e.same f p := by
  cases p with
  | mem => trivial
  | ports => trivial
  | arb => trivial
  | pins => trivial
  | queue => trivial
  | control => exact h.ctl
  | post => exact h.post
  | table => exact absurd rfl hp.2.2
  | starts => exact absurd rfl hp.2.1
  | channel d =>
    have hd : d ≠ c := fun hd => hp.1 (by rw [hd])
    simp [Engine.same, h.others d hd]
  | timebase => exact ⟨h.count, h.filters⟩
  | notify => exact h.notify

end Engine.Works

end Sys2Proof.Machine
end

