-- ==== Sys2Proof/Laws/Table.lean ====
section
/-! SUPPORT. The job table in intake order (R44): places name entries, an update changes one entry, and the pending
head is the entry that no other pending entry stands before (R48). What asking entries to stop sends (R51, R52, R57). -/

namespace Sys2Proof.Machine

/-- Two entries with one place are the same entry. -/
theorem JobTable.Ordered.unique {j : JobTable} (h : j.Ordered) {a b : Entry} (ha : a ∈ j.entries) (hb : b ∈ j.entries)
    (hp : a.place = b.place) : a = b := by
  by_contra hne
  have key : ∀ l : List Entry, l.Pairwise (fun a b => a.place < b.place) → a ∈ l → b ∈ l → False := by
    intro l hl
    induction hl with
    | nil => simp
    | cons hx _ ih =>
      intro h1 h2
      rcases List.mem_cons.mp h1 with e1 | h1 <;> rcases List.mem_cons.mp h2 with e2 | h2
      · exact hne (e1.trans e2.symm)
      · have := hx b h2; subst e1; omega
      · have := hx a h1; subst e2; omega
      · exact ih h1 h2
  exact key _ h.1 ha hb

/-- The entries are all different. -/
theorem JobTable.Ordered.nodup {j : JobTable} (h : j.Ordered) : j.entries.Nodup := by
  refine h.1.imp ?_
  intro a b hab hh
  subst hh
  omega

/-- An entry is found by its place. -/
theorem JobTable.Ordered.find {j : JobTable} (h : j.Ordered) {en : Entry} (he : en ∈ j.entries) :
    j.find en.place = some en := by
  unfold JobTable.find
  cases hf : j.entries.find? (fun x => x.place == en.place) with
  | none =>
    rw [List.find?_eq_none] at hf
    have := hf en he
    simp at this
  | some x =>
    have h2 := List.find?_some hf
    simp only [beq_iff_eq] at h2
    rw [h.unique (List.mem_of_find?_eq_some hf) he h2]

/-- An update by place changes that entry alone. -/
theorem JobTable.Ordered.update {j : JobTable} (h : j.Ordered) {en : Entry} (he : en ∈ j.entries) (f : Entry → Entry) :
    j.update en.place f = { j with entries := j.entries.map fun x => if x = en then f en else x } := by
  refine congrArg (fun l => ({ j with entries := l } : JobTable)) ?_
  apply List.map_congr_left
  intro x hx
  by_cases hxe : x = en
  · subst hxe; simp
  · have : x.place ≠ en.place := fun hp => hxe (h.unique hx he hp)
    simp [hxe, this]

/-- Two updates of one place are one. -/
theorem JobTable.update_update (j : JobTable) (p : Nat) (f g : Entry → Entry) (hf : ∀ x, (f x).place = x.place) :
    (j.update p f).update p g = j.update p (fun x => g (f x)) := by
  simp only [JobTable.update, List.map_map]
  congr 1
  apply List.map_congr_left
  intro x _
  simp only [Function.comp]
  split
  · rename_i h; simp [hf, h]
  · rfl

/-! ### The pending list -/

theorem Entry.before_iff {a b : Entry} : a.before b = true ↔ (b.record.priority < a.record.priority ∨
    (a.record.priority = b.record.priority ∧ a.place < b.place)) := by
  simp [Entry.before]

theorem insertEntry_least (en : Entry) (l : List Entry) (h : ∀ x ∈ l, en.before x = true) :
    insertEntry en l = en :: l := by
  cases l with
  | nil => rfl
  | cons x xs => simp [insertEntry, h x (by simp)]

theorem mem_insertEntry (en : Entry) (l : List Entry) (x : Entry) : x ∈ insertEntry en l ↔ x = en ∨ x ∈ l := by
  induction l with
  | nil => simp [insertEntry]
  | cons y ys ih =>
    unfold insertEntry
    split
    · simp
    · simp [ih]; tauto

/-- The pending list's order keeps every entry. -/
theorem mem_sortEntries (l : List Entry) (x : Entry) : x ∈ sortEntries l ↔ x ∈ l := by
  induction l with
  | nil => simp [sortEntries]
  | cons y ys ih => simp [sortEntries, mem_insertEntry, ih]

/-- An entry before every other one comes first. -/
theorem sortEntries_head (en : Entry) (l : List Entry) (hm : en ∈ l) (hnd : l.Nodup)
    (h : ∀ x ∈ l, x ≠ en → en.before x = true ∧ x.before en = false) : (sortEntries l).head? = some en := by
  induction l with
  | nil => simp at hm
  | cons y ys ih =>
    simp only [sortEntries]
    by_cases hy : y = en
    · subst hy
      rw [insertEntry_least]
      · rfl
      · intro x hx
        rw [mem_sortEntries] at hx
        have hne : x ≠ y := fun hh => (List.nodup_cons.mp hnd).1 (hh ▸ hx)
        exact (h x (by simp [hx]) hne).1
    · have hm' : en ∈ ys := by
        rcases List.mem_cons.mp hm with hh | hh
        · exact absurd hh.symm hy
        · exact hh
      have hs := ih hm' (List.nodup_cons.mp hnd).2 (fun x hx => h x (by simp [hx]))
      cases hl : sortEntries ys with
      | nil => simp [hl] at hs
      | cons z zs =>
        simp [hl] at hs
        subst hs
        simp [insertEntry, (h y (by simp) hy).2]

/-- The entry that no other pending entry stands before is the pending head. -/
theorem JobTable.Ordered.head {j : JobTable} (h : j.Ordered) {en : Entry} (hh : j.Heads en) : j.head = some en := by
  obtain ⟨h1, h2, h3⟩ := hh
  apply sortEntries_head
  · simp [h1, h2]
  · exact h.nodup.filter _
  · intro x hx hne
    simp at hx
    have hlt := h3 x hx.1 hx.2 hne
    refine ⟨?_, ?_⟩
    · rw [Entry.before_iff]
      rcases hlt with k | k
      · exact .inl k
      · exact .inr ⟨k.1.symm, k.2⟩
    · rw [Bool.eq_false_iff]
      intro hb
      rw [Entry.before_iff] at hb
      rcases hlt with k | k <;> rcases hb with m | m
      · simp only [BitVec.lt_def] at k m; omega
      · rw [m.1] at k; simp at k
      · rw [k.1] at m; simp at m
      · omega

/-- The pending head is pending and in the table. -/
theorem JobTable.head_mem {j : JobTable} {en : Entry} (h : j.head = some en) :
    en ∈ j.entries ∧ en.custody = .pending := by
  have hm := List.mem_of_mem_head? (show j.pendingList.head? = some en from h)
  unfold JobTable.pendingList at hm
  rw [mem_sortEntries] at hm
  simpa using hm

/-! ### Asking entries to stop (R51, R52, R57) -/

theorem Engine.chan_setChan (e : Engine) (d c : ChannelId) (x : Channel) :
    (e.setChan d x).chan c = if d = c then x else e.chan c := by
  by_cases h : d = c
  · subst h; simp
  · rw [Engine.setChan_chan_ne e x h, if_neg h]

/-- An entry that has a STOP_REASON is asked nothing more. -/
theorem Engine.requestStop_again (e : Engine) {en : Entry} (r : StopReason) (h : en.stopReason ≠ none) :
    e.requestStop en r = e := by
  unfold Engine.requestStop
  rw [if_pos (by cases hs : en.stopReason <;> simp_all)]

/-- What asking an entry to stop sends: one stop request to an ACTIVE entry's channel, one drop request to a SHADOWED
entry's. -/
theorem Engine.requestStop_chan (e : Engine) {en : Entry} (r : StopReason) (hs : en.stopReason = none)
    (h : en.custody = .active ∨ en.custody = .shadowed) (c : ChannelId) :
    (e.requestStop en r).chan c = { e.chan c with
      stops := (e.chan c).stops ++ (if en.custody = .active ∧ en.channel = some c then [⟨en.place, r⟩] else [])
      drops := (e.chan c).drops ++
        (if en.custody = .shadowed ∧ en.shadowChannel = some c then [⟨en.place, r⟩] else []) } := by
  unfold Engine.requestStop
  rw [if_neg (by simp [hs])]
  obtain h | h := h <;> simp only [h, if_true, reduceCtorEq, if_false, Engine.sendStop, Engine.sendDrop]
  · cases en.channel with
    | none => simp [Engine.chan, Engine.setJtc]
    | some d => rw [Engine.chan_setChan]; split <;> simp_all [Engine.chan, Engine.setJtc]
  · cases en.shadowChannel with
    | none => simp [Engine.chan, Engine.setJtc]
    | some d => rw [Engine.chan_setChan]; split <;> simp_all [Engine.chan, Engine.setJtc]

/-- What the drain of some entries sends. -/
theorem Engine.drainEntries_chan (es : List Entry) (e : Engine) (c : ChannelId) :
    (es.foldl Engine.drainEntry e).chan c = { e.chan c with
      stops := (e.chan c).stops ++ ((es.filter fun en =>
        en.custody = .active ∧ en.stopReason = none ∧ en.channel = some c).map fun en => ⟨en.place, .drain⟩)
      drops := (e.chan c).drops ++ ((es.filter fun en =>
        en.custody = .shadowed ∧ en.stopReason = none ∧ en.shadowChannel = some c).map
          fun en => ⟨en.place, .drain⟩) } := by
  induction es generalizing e with
  | nil => simp
  | cons en es ih =>
    rw [List.foldl_cons, ih]
    rcases hc : en.custody <;> simp only [Engine.drainEntry, hc]
    · simp [hc]
    · simp [hc, Engine.setJtc, Engine.chan]
    · simp [hc, Engine.setJtc, Engine.chan]
    · by_cases hs : en.stopReason = none
      · rw [e.requestStop_chan _ hs (.inl hc)]; by_cases h : en.channel = some c <;> simp [hc, hs, h]
      · rw [e.requestStop_again _ hs]; simp [hs]
    · by_cases hs : en.stopReason = none
      · rw [e.requestStop_chan _ hs (.inr hc)]; by_cases h : en.shadowChannel = some c <;> simp [hc, hs, h]
      · rw [e.requestStop_again _ hs]; simp [hs]
    · simp [hc]

end Sys2Proof.Machine
end

