-- ==== Sys2Proof/Laws/Dispatcher.lean ====
section
/-! SUPPORT. What the dispatcher does at the end of a step (R69, R77 to R79): the pending list's order, the walk, the
messages to the channels, and the dispatch it sends. -/

namespace Sys2Proof.Machine

/-! ### The pending list (R48) -/

theorem insertEntry_perm (en : Entry) (l : List Entry) : (insertEntry en l).Perm (en :: l) := by
  induction l with
  | nil => exact List.Perm.refl _
  | cons x xs ih =>
    unfold insertEntry
    split
    · exact List.Perm.refl _
    · exact (ih.cons x).trans (List.Perm.swap en x xs)

theorem sortEntries_perm (l : List Entry) : (sortEntries l).Perm l := by
  induction l with
  | nil => exact List.Perm.refl _
  | cons x xs ih => exact (insertEntry_perm x _).trans (ih.cons x)

/-- Entry `x` does not stand after entry `y` in the pending list's order. -/
def Entry.NotAfter (x y : Entry) : Prop :=
  y.record.priority < x.record.priority ∨ (x.record.priority = y.record.priority ∧ x.place ≤ y.place)

theorem Entry.notAfter_of_before {x y : Entry} (h : x.before y = true) : x.NotAfter y := by
  simp only [Entry.before, Bool.or_eq_true, decide_eq_true_eq, Bool.and_eq_true, beq_iff_eq] at h
  rcases h with h | ⟨h, k⟩
  · exact .inl h
  · exact .inr ⟨h, Nat.le_of_lt k⟩

theorem Entry.notAfter_of_not_before {x y : Entry} (h : ¬ x.before y = true) : y.NotAfter x := by
  simp only [Entry.before, Bool.or_eq_true, decide_eq_true_eq, Bool.and_eq_true, beq_iff_eq, not_or, not_and] at h
  by_cases hp : x.record.priority = y.record.priority
  · exact .inr ⟨hp.symm, Nat.le_of_not_lt (h.2 hp)⟩
  · refine .inl ?_
    have h1 := h.1
    rw [BitVec.lt_def] at h1 ⊢
    have : x.record.priority.toNat ≠ y.record.priority.toNat := fun k => hp (BitVec.eq_of_toNat_eq k)
    omega

theorem Entry.NotAfter.trans {x y z : Entry} (h : x.NotAfter y) (k : y.NotAfter z) : x.NotAfter z := by
  unfold Entry.NotAfter at *
  simp only [BitVec.lt_def, ← BitVec.toNat_inj] at *
  omega

theorem insertEntry_sorted (en : Entry) (l : List Entry) (h : l.Pairwise Entry.NotAfter) :
    (insertEntry en l).Pairwise Entry.NotAfter := by
  induction l with
  | nil => simp [insertEntry]
  | cons x xs ih =>
    obtain ⟨h1, h2⟩ := List.pairwise_cons.mp h
    unfold insertEntry
    split
    · rename_i hb
      have hx := Entry.notAfter_of_before hb
      refine List.pairwise_cons.mpr ⟨fun y hy => ?_, h⟩
      rcases List.mem_cons.mp hy with rfl | hy
      · exact hx
      · exact hx.trans (h1 y hy)
    · rename_i hb
      refine List.pairwise_cons.mpr ⟨fun y hy => ?_, ih h2⟩
      rcases List.mem_cons.mp ((insertEntry_perm en xs).mem_iff.mp hy) with rfl | hy
      · exact Entry.notAfter_of_not_before hb
      · exact h1 y hy

theorem sortEntries_sorted (l : List Entry) : (sortEntries l).Pairwise Entry.NotAfter := by
  induction l with
  | nil => exact List.Pairwise.nil
  | cons x xs ih => exact insertEntry_sorted x _ ih

/-- The pending list holds the PENDING entries. -/
theorem JobTable.pendingList_perm (j : JobTable) :
    j.pendingList.Perm (j.entries.filter fun x => x.custody = .pending) := by
  refine (sortEntries_perm _).trans (List.Perm.of_eq ?_)
  congr 1

/-- The pending list has a head exactly when an entry is PENDING. -/
theorem JobTable.head_isSome (j : JobTable) : j.head.isSome = true ↔ ∃ x ∈ j.entries, x.custody = .pending := by
  have hm : ∀ x, x ∈ j.pendingList ↔ x ∈ j.entries ∧ x.custody = .pending := by
    intro x
    rw [j.pendingList_perm.mem_iff]
    simp
  unfold JobTable.head
  cases hl : j.pendingList with
  | nil =>
    refine ⟨fun h => by simp at h, fun ⟨x, hx⟩ => ?_⟩
    have := (hm x).mpr hx
    rw [hl] at this
    exact absurd this (by simp)
  | cons x xs => exact ⟨fun _ => ⟨x, (hm x).mp (by rw [hl]; exact List.mem_cons_self ..)⟩, fun _ => rfl⟩

/-! ### Preference (R78, R79) -/

theorem Entry.asGood_of_lesser {x y : Entry} (h : x.lesser y = true) : x.AsGood y := by
  simp only [Entry.lesser, Bool.or_eq_true, decide_eq_true_eq, Bool.and_eq_true, beq_iff_eq] at h
  rcases h with h | ⟨h, k⟩
  · exact .inl h
  · exact .inr ⟨h, Nat.le_of_lt k⟩

theorem Entry.asGood_of_not_lesser {x y : Entry} (h : ¬ x.lesser y = true) : y.AsGood x := by
  simp only [Entry.lesser, Bool.or_eq_true, decide_eq_true_eq, Bool.and_eq_true, beq_iff_eq, not_or, not_and] at h
  by_cases hp : x.record.priority = y.record.priority
  · exact .inr ⟨hp.symm, Nat.le_of_not_lt (h.2 hp)⟩
  · refine .inl ?_
    have h1 := h.1
    rw [BitVec.lt_def] at h1 ⊢
    have : x.record.priority.toNat ≠ y.record.priority.toNat := fun k => hp (BitVec.eq_of_toNat_eq k)
    omega

theorem Entry.AsGood.trans {x y z : Entry} (h : x.AsGood y) (k : y.AsGood z) : x.AsGood z := by
  unfold Entry.AsGood at *
  simp only [BitVec.lt_def, ← BitVec.toNat_inj] at *
  omega

/-- The least of some entries is one of them, and as good as each. -/
theorem leastEntry_some {l : List Entry} {x : Entry} (h : leastEntry l = some x) : x ∈ l ∧ ∀ y ∈ l, x.AsGood y := by
  induction l generalizing x with
  | nil => simp [leastEntry] at h
  | cons a xs ih =>
    unfold leastEntry at h
    split at h
    · rename_i hn
      obtain rfl := Option.some.inj h
      have : xs = [] := by
        cases xs with
        | nil => rfl
        | cons b bs => exact absurd hn (by unfold leastEntry; split <;> (try split) <;> simp)
      subst this
      exact ⟨List.mem_cons_self .., fun y hy => by
        obtain rfl := List.mem_singleton.mp hy
        exact .inr ⟨rfl, Nat.le_refl _⟩⟩
    · rename_i y hy
      obtain ⟨hy1, hy2⟩ := ih hy
      split at h
      · rename_i hl
        obtain rfl := Option.some.inj h
        refine ⟨List.mem_cons_of_mem _ hy1, fun z hz => ?_⟩
        rcases List.mem_cons.mp hz with rfl | hz
        · exact Entry.asGood_of_lesser hl
        · exact hy2 z hz
      · rename_i hl
        obtain rfl := Option.some.inj h
        refine ⟨List.mem_cons_self .., fun z hz => ?_⟩
        rcases List.mem_cons.mp hz with rfl | hz
        · exact .inr ⟨rfl, Nat.le_refl _⟩
        · exact (Entry.asGood_of_not_lesser hl).trans (hy2 z hz)

theorem leastEntry_none {l : List Entry} (h : leastEntry l = none) : l = [] := by
  cases l with
  | nil => rfl
  | cons a xs => exact absurd h (by unfold leastEntry; split <;> (try split) <;> simp)

/-- What can be kept for a pending job. -/
theorem Engine.mem_keepable (e : Engine) (u : List Yield) (prio : BitVec 3) (x : Entry) :
    (x ∈ ((u.filterMap e.yieldEntry).filter fun en => decide (en.record.priority < prio))) ↔
      ∃ y, e.Keepable u prio y x := by
  simp only [List.mem_filter, List.mem_filterMap, decide_eq_true_eq, Engine.yieldEntry, Engine.Keepable]
  constructor
  · rintro ⟨⟨y, h1, h2⟩, h3⟩; exact ⟨y, h1, h2, h3⟩
  · rintro ⟨y, h1, h2, h3⟩; exact ⟨⟨y, h1, h2⟩, h3⟩

/-- The yield kept is one that can be kept, and the first by its preference. -/
theorem Engine.keepFor_some {e : Engine} {prio : BitVec 3} {u : List Yield} {x : Entry}
    (h : e.keepFor prio u = some x) :
    ∃ y, e.Keepable u prio y x ∧ y.place = x.place ∧ ∀ y' x', e.Keepable u prio y' x' → x.AsGood x' := by
  obtain ⟨h1, h2⟩ := leastEntry_some h
  obtain ⟨y, hy⟩ := (e.mem_keepable u prio x).mp h1
  refine ⟨y, hy, ?_, fun y' x' hk => h2 x' ((e.mem_keepable u prio x').mpr ⟨y', hk⟩)⟩
  have := List.find?_some hy.2.1
  exact (beq_iff_eq.mp this).symm

theorem Engine.keepFor_none {e : Engine} {prio : BitVec 3} {u : List Yield} (h : e.keepFor prio u = none) :
    ∀ y x, ¬ e.Keepable u prio y x := by
  intro y x hk
  have := leastEntry_none h
  exact absurd ((e.mem_keepable u prio x).mpr ⟨y, hk⟩) (by rw [this]; simp)

theorem mem_channelList (c : ChannelId) : c ∈ channelList := by revert c; decide

theorem Engine.someIdle_iff (e : Engine) : e.someIdle = true ↔ ∃ c, (e.chan c).state = .idle := by
  simp only [Engine.someIdle, List.any_eq_true, beq_iff_eq]
  exact ⟨fun ⟨c, _, h⟩ => ⟨c, h⟩, fun ⟨c, h⟩ => ⟨c, mem_channelList c, h⟩⟩

/-- The victims of a pending job. -/
theorem Engine.mem_victims (e : Engine) (ys : List Yield) (prio : BitVec 3) (x : Entry) :
    (x ∈ e.jtc.entries.filter fun en => e.eligible ys en && decide (en.record.priority < prio)) ↔
      ∃ c, e.Victim ys prio x c := by
  simp only [List.mem_filter, Engine.eligible, Bool.and_eq_true, decide_eq_true_eq, beq_iff_eq, List.all_eq_true,
    bne_iff_ne, Option.isNone_iff_eq_none, Engine.preemptible, Engine.Victim]
  cases hc : x.channel with
  | none => simp
  | some c =>
    simp only [Option.some.injEq, Bool.or_eq_true, Option.isNone_iff_eq_none]
    constructor
    · rintro ⟨h0, ⟨⟨⟨h1, h2⟩, h3⟩, h4⟩, h5⟩
      exact ⟨c, h0, h1, h2, rfl, h3, h5, fun y hy => ⟨(h4 y hy).1, fun k => (h4 y hy).2 (by rw [k])⟩⟩
    · rintro ⟨d, h0, h1, h2, rfl, h3, h5, h4⟩
      exact ⟨h0, ⟨⟨⟨h1, h2⟩, h3⟩, fun y hy => ⟨(h4 y hy).1, fun k => (h4 y hy).2 (by simpa using k)⟩⟩, h5⟩

/-- The victim asked is eligible, and the first by its preference, and no channel is IDLE. -/
theorem Engine.askFor_some {e : Engine} {prio : BitVec 3} {ys : List Yield} {x : Entry}
    (h : e.askFor prio ys = some x) :
    (∀ d, (e.chan d).state ≠ .idle) ∧ (∃ c, e.Victim ys prio x c) ∧
      ∀ x' d, e.Victim ys prio x' d → x.AsGood x' := by
  unfold Engine.askFor at h
  split at h
  · simp at h
  · rename_i hi
    obtain ⟨h1, h2⟩ := leastEntry_some h
    exact ⟨fun d hd => hi (e.someIdle_iff.mpr ⟨d, hd⟩), (e.mem_victims ys prio x).mp h1,
      fun x' d hv => h2 x' ((e.mem_victims ys prio x').mpr ⟨d, hv⟩)⟩

theorem Engine.askFor_none {e : Engine} {prio : BitVec 3} {ys : List Yield} (h : e.askFor prio ys = none) :
    (∃ d, (e.chan d).state = .idle) ∨ ∀ x d, ¬ e.Victim ys prio x d := by
  unfold Engine.askFor at h
  split at h
  · rename_i hi; exact .inl (e.someIdle_iff.mp hi)
  · refine .inr fun x d hv => ?_
    have := leastEntry_none h
    exact absurd ((e.mem_victims ys prio x).mpr ⟨d, hv⟩) (by rw [this]; simp)

/-! ### The walk (R79) -/

/-- The model's walk is a walk of R79. -/
theorem Engine.walk_spec (e : Engine) (i : Nat) (u k a : List Yield) (l : List Entry) :
    YieldWalk e i u k a l (e.walk i u k a l).1 (e.walk i u k a l).2 := by
  induction l generalizing i u k a with
  | nil => exact .finish i u k a
  | cons en rest ih =>
    unfold Engine.walk
    split
    · rename_i hi
      split
      · rename_i x hk
        obtain ⟨y, hy, hp, hg⟩ := Engine.keepFor_some hk
        refine .keep i u k a en rest _ _ y x hi hy hg ?_
        have := ih (i + 1) (u.filter fun z => z.place ≠ y.place) (k ++ u.filter fun z => z.place = y.place) a
        rw [hp] at this ⊢
        convert this using 2 <;> simp [bne, beq_eq_decide]
      · rename_i hk
        have hk := Engine.keepFor_none hk
        split
        · rename_i ha
          exact .stop i u k a en rest hi hk (Engine.askFor_none ha)
        · rename_i v hv
          obtain ⟨h1, ⟨c, hc⟩, h2⟩ := Engine.askFor_some hv
          have hch := hc.2.2.2.1
          split
          · rename_i hn; rw [hn] at hch; simp at hch
          · rename_i d hd
            have : d = c := by rw [hd] at hch; exact Option.some.inj hch
            subst this
            exact .ask i u k a en rest _ _ v d hi hk h1 hc h2 (ih _ _ _ _)
    · rename_i hi
      exact .pass i u k a en rest _ _ (Nat.le_of_not_lt hi) (ih _ _ _ _)

/-! ### Messages to the channels (R76, R79) -/

theorem Engine.sendYield_yields (e : Engine) (d c : ChannelId) (m : YieldMessage) :
    ((e.sendYield d m).chan c).yields = (e.chan c).yields ++ if d = c then [m] else [] := by
  unfold Engine.sendYield
  by_cases h : d = c
  · subst h; simp
  · rw [Engine.setChan_chan_ne e _ h]; simp [h]

theorem Engine.withdrawAll_yields (e : Engine) (ys : List Yield) (c : ChannelId) :
    ((e.withdrawAll ys).chan c).yields = (e.chan c).yields ++
      ((ys.filter fun y => y.channel = c).map fun y => YieldMessage.withdraw y.place) := by
  induction ys generalizing e with
  | nil => simp [Engine.withdrawAll]
  | cons y ys ih =>
    have := ih (e.sendYield y.channel (.withdraw y.place))
    simp only [Engine.withdrawAll, List.foldl_cons] at this ⊢
    rw [this, Engine.sendYield_yields]
    by_cases h : y.channel = c <;> simp [h]

theorem Engine.askAll_yields (e : Engine) (ys : List Yield) (c : ChannelId) :
    ((e.askAll ys).chan c).yields = (e.chan c).yields ++
      ((ys.filter fun y => y.channel = c).map fun y => YieldMessage.ask y.place) := by
  induction ys generalizing e with
  | nil => simp [Engine.askAll]
  | cons y ys ih =>
    have := ih (e.sendYield y.channel (.ask y.place))
    simp only [Engine.askAll, List.foldl_cons] at this ⊢
    rw [this, Engine.sendYield_yields]
    by_cases h : y.channel = c <;> simp [h]

/-- Out of RUNNING, or frozen, the dispatcher withdraws every yield (R77). -/
theorem Engine.reconsider_withdraws {e : Engine} (h : e.ctl.state ≠ .running ∨ e.frozen = true) :
    e.reconsider.disp.yields = [] ∧
    ∀ c, (e.reconsider.chan c).yields = (e.chan c).yields ++
      ((e.disp.yields.filter fun y => y.channel = c).map fun y => YieldMessage.withdraw y.place) := by
  have hf : (e.isRunning && !e.frozen) = false := by
    rcases h with h | h <;> simp [Engine.isRunning, h]
  unfold Engine.reconsider
  rw [if_neg (by simp [hf])]
  exact ⟨rfl, fun c => e.withdrawAll_yields e.disp.yields c⟩

/-- What the model's one walk does is a walk of R79, told to the channels. -/
theorem Engine.walkOnce_walked (e : Engine) :
    e.Walked e.walkOnce e.jtc.pendingList (e.walk 1 e.disp.yields [] [] e.jtc.pendingList).1
      (e.walk 1 e.disp.yields [] [] e.jtc.pendingList).2 := by
  refine ⟨e.walk_spec 1 e.disp.yields [] [] e.jtc.pendingList, ?_, fun c => ?_, e.walkOnce_ei, e.walkOnce_same⟩
  · simp [Engine.walkOnce, Engine.askAll_disp, Engine.withdrawAll_disp]
  · show ((Engine.askAll _ _).chan c).yields = _
    rw [Engine.askAll_yields, Engine.withdrawAll_yields, List.filter_filter]
    congr 4
    funext y
    simp [Bool.and_comm]

theorem Engine.keepsAll_iff (e : Engine) :
    e.keepsAll = true ↔ ∀ y ∈ e.disp.yields, y ∈ (e.walk 1 e.disp.yields [] [] e.jtc.pendingList).1 := by
  simp [Engine.keepsAll]

/-! ### The walks end (R77) -/

theorem Engine.yieldWeight_pos (e : Engine) (y : Yield) : 0 < e.yieldWeight y := by
  unfold Engine.yieldWeight; split <;> exact Nat.pow_pos (by decide)

/-- A victim asked weighs a seventh or less of each yield that could not be kept for the same pending job. -/
theorem Engine.weight_asked {e : Engine} (ho : e.jtc.Ordered) {u : List Yield} {prio : BitVec 3} {x : Entry} {c : ChannelId}
    (hk : ∀ y x', ¬ e.Keepable u prio y x') (hx : x ∈ e.jtc.entries) (hp : x.record.priority < prio) :
    ∀ y ∈ u, 7 * e.yieldWeight ⟨c, x.place⟩ ≤ e.yieldWeight y := by
  intro y hy
  have h1 : e.yieldWeight ⟨c, x.place⟩ = 7 ^ x.record.priority.toNat := by
    simp only [Engine.yieldWeight, Engine.yieldEntry, ho.find hx]
  have h2 : ∀ n, x.record.priority.toNat < n → 7 * 7 ^ x.record.priority.toNat ≤ 7 ^ n := by
    intro n hn
    rw [← Nat.pow_succ']
    exact Nat.pow_le_pow_right (by decide) hn
  rw [h1]
  cases hf : e.jtc.find y.place with
  | none =>
    have : e.yieldWeight y = 7 ^ 8 := by simp only [Engine.yieldWeight, Engine.yieldEntry, hf]
    rw [this]
    exact h2 8 x.record.priority.isLt
  | some z =>
    have : e.yieldWeight y = 7 ^ z.record.priority.toNat := by simp only [Engine.yieldWeight, Engine.yieldEntry, hf]
    rw [this]
    have hz : ¬ z.record.priority < prio := fun h => hk y z ⟨hy, hf, h⟩
    rw [BitVec.lt_def] at hz hp
    exact h2 _ (by omega)

/-- What a walk does with the yields: those unconfirmed are kept or withdrawn, at most one is asked of a channel, and each
of those asked weighs a seventh or less of each withdrawn. -/
theorem YieldWalk.parts {e : Engine} (ho : e.jtc.Ordered) {i : Nat} {u k a : List Yield} {l : List Entry}
    {kept asked : List Yield} (h : YieldWalk e i u k a l kept asked) (hd : ∀ y ∈ u, y ∉ k)
    (hn : (a.map fun y => y.channel).Nodup) :
    ∃ gone new, asked = a ++ new ∧ (u ++ k).Perm (gone ++ kept) ∧ (∀ y ∈ gone, y ∈ u ∧ y ∉ kept) ∧
      (∀ z ∈ new, ∀ y ∈ gone, 7 * e.yieldWeight z ≤ e.yieldWeight y) ∧ (asked.map fun y => y.channel).Nodup := by
  induction h with
  | finish i u k a => exact ⟨u, [], by simp, List.Perm.refl _, fun y hy => ⟨hy, hd y hy⟩, by simp, hn⟩
  | stop i u k a en rest => exact ⟨u, [], by simp, List.Perm.refl _, fun y hy => ⟨hy, hd y hy⟩, by simp, hn⟩
  | pass i u k a en rest kept asked _ _ ih => exact ih hd hn
  | keep i u k a en rest kept asked y x _ _ _ _ ih =>
    obtain ⟨gone, new, h1, h2, h3, h4, h5⟩ := ih (fun z hz => by
      have := List.mem_filter.mp hz
      simp only [decide_eq_true_eq] at this
      simp [hd z this.1, this.2]) hn
    refine ⟨gone, new, h1, .trans ?_ h2, fun z hz => ⟨(List.mem_filter.mp (h3 z hz).1).1, (h3 z hz).2⟩, h4, h5⟩
    have hp := List.filter_append_perm (fun z : Yield => decide (z.place = y.place)) u
    refine (hp.symm.append_right k).trans ?_
    have hq : (u.filter fun z => !decide (z.place = y.place)) = u.filter fun z => decide (z.place ≠ y.place) := by
      congr 1; funext z; simp
    rw [hq]
    generalize (u.filter fun z => decide (z.place = y.place)) = m
    generalize (u.filter fun z => decide (z.place ≠ y.place)) = r
    refine (List.perm_append_comm.append_right k).trans ?_
    rw [List.append_assoc]
    exact List.perm_append_comm.append_left r
  | ask i u k a en rest kept asked x c _ hk _ hv _ _ ih =>
    obtain ⟨hx, _, _, _, _, hp, hf⟩ := hv
    obtain ⟨gone, new, h1, h2, h3, h4, h5⟩ := ih hd (by
      rw [List.map_append, List.nodup_append]
      refine ⟨hn, by simp, fun d hdm f hfm => ?_⟩
      obtain ⟨y, hy, rfl⟩ := List.mem_map.mp hdm
      obtain rfl : f = c := by simpa using hfm
      exact (hf y (by simp [hy])).2)
    refine ⟨gone, ⟨c, x.place⟩ :: new, by simp [h1], h2, h3, fun z hz y hy => ?_, h5⟩
    rcases List.mem_cons.mp hz with rfl | hz
    · exact Engine.weight_asked ho hk hx hp y (h3 y hy).1
    · exact h4 z hz y hy

/-- A walk that withdraws a yield lowers the weight of the set. -/
theorem Engine.Walked.lowers {e f : Engine} (ho : e.jtc.Ordered) {l : List Entry} {kept asked : List Yield}
    (h : e.Walked f l kept asked) (hw : ∃ y ∈ e.disp.yields, y ∉ kept) : f.walkBound < e.walkBound := by
  obtain ⟨gone, new, h1, h2, h3, h4, h5⟩ := h.1.parts ho (by simp) (by simp)
  rw [List.nil_append] at h1
  subst h1
  rw [List.append_nil] at h2
  have hj : f.jtc = e.jtc := h.2.2.2.2 .table
  have hwt : f.yieldWeight = e.yieldWeight := by
    funext y; simp only [Engine.yieldWeight, Engine.yieldEntry, hj]
  have hy : f.disp.yields = kept ++ asked := by rw [h.2.1]
  obtain ⟨y, hm, hk⟩ := hw
  have hg : y ∈ gone := (List.mem_append.mp (h2.mem_iff.mp hm)).resolve_right hk
  have hsum : (e.disp.yields.map e.yieldWeight).sum = (gone.map e.yieldWeight).sum + (kept.map e.yieldWeight).sum := by
    rw [(h2.map e.yieldWeight).sum_eq, List.map_append, List.sum_append]
  have hle : e.yieldWeight y ≤ (gone.map e.yieldWeight).sum := List.le_sum_of_mem (List.mem_map_of_mem hg)
  have hlen : asked.length ≤ 6 := by
    have := h5.length_le_card
    simpa using this
  have hasked : ∀ zs : List Yield, (∀ z ∈ zs, 7 * e.yieldWeight z ≤ e.yieldWeight y) →
      7 * (zs.map e.yieldWeight).sum ≤ zs.length * e.yieldWeight y := by
    intro zs hz
    induction zs with
    | nil => simp
    | cons z zs ih =>
      have := hz z (by simp)
      have := ih fun w hw => hz w (by simp [hw])
      simp only [List.map_cons, List.sum_cons, List.length_cons, Nat.add_mul]
      omega
  have ha := hasked asked fun z hz => h4 z hz y hg
  have : asked.length * e.yieldWeight y ≤ 6 * e.yieldWeight y := Nat.mul_le_mul_right _ hlen
  have := e.yieldWeight_pos y
  unfold Engine.walkBound
  rw [hwt, hy, hsum, List.map_append, List.sum_append]
  omega

/-- The walks made, as many as the bound allows or more, are those of R77. -/
theorem Engine.walks_spec (n : Nat) (e : Engine) (ho : e.jtc.Ordered) (hn : e.walkBound ≤ n) :
    YieldWalks e.jtc.pendingList e (e.walks n) := by
  induction n generalizing e with
  | zero => exact absurd hn (by unfold Engine.walkBound; omega)
  | succ n ih =>
    have hw := e.walkOnce_walked
    have hj : e.walkOnce.jtc = e.jtc := hw.2.2.2.2 .table
    unfold Engine.walks
    split
    · rename_i hk
      exact .last _ _ _ _ hw (e.keepsAll_iff.mp hk)
    · rename_i hk
      rw [e.keepsAll_iff] at hk
      push Not at hk
      have := ih e.walkOnce (by rw [hj]; exact ho) (by have := hw.lowers ho hk; omega)
      rw [hj] at this
      exact .again _ _ _ _ _ hw hk this

/-- While RUNNING and not frozen the dispatcher reconsiders by the walks of R77 and R79. -/
theorem Engine.reconsider_walks {e : Engine} (hr : e.ctl.state = .running) (hf : e.frozen = false)
    (ho : e.jtc.Ordered) : YieldWalks e.jtc.pendingList e e.reconsider := by
  unfold Engine.reconsider
  rw [if_pos (by simp [Engine.isRunning, hr, hf])]
  exact e.walks_spec _ ho (Nat.le_refl _)

/-! ### The dispatch sent (R69) -/

theorem Engine.lowestIdle_eq_some {e : Engine} {c : ChannelId} :
    e.lowestIdle = some c ↔ (e.chan c).state = .idle ∧ ∀ d, d < c → (e.chan d).state ≠ .idle := by
  have key : ∀ f : ChannelId → Bool, ∀ c : ChannelId,
      (channelList.find? f = some c) ↔ (f c = true ∧ ∀ d, d < c → f d = false) := by decide
  unfold Engine.lowestIdle
  rw [key]
  simp

theorem Engine.sendDispatch_yields (e : Engine) : e.sendDispatch.disp.yields = e.disp.yields := by
  rcases e.sendDispatch_eq with h | ⟨c, h⟩ <;> rw [h]

end Sys2Proof.Machine
end

