-- ==== Sys2Proof/Laws/Handoff.lean ====
section
/-! SUPPORT. What finishing does to a channel whose bank is empty (R82, R87), what a dispatch does (R69), and the
frame of a step whose work lies in one channel. -/

namespace Sys2Proof.Machine

/-- A channel whose bank is empty hands its job off and is IDLE; the job table and the start orders stay. -/
theorem Engine.finish_handsOff (e : Engine) (c : ChannelId) (r : JobResult) (v : Option ServiceRecord) (j : Job)
    (hj : (e.chan c).job = some j) (hs : (e.chan c).shadow = none) :
    (e.finish c r v).jtc = e.jtc ∧ (e.finish c r v).disp.nextStart = e.disp.nextStart ∧
    (e.chan c).HandsOff ((e.finish c r v).chan c) j.place r (noticeOf v) := by
  simp only [Engine.finish, hj]
  unfold Engine.freeChannel
  simp only [Engine.setChan_chan, Channel.release, Channel.report, hs]
  refine ⟨?_, ?_, ?_⟩
  · unfold Engine.clearHeldYield; split <;> rfl
  · unfold Engine.clearHeldYield; split <;> rfl
  · simp [Channel.HandsOff, Channel.own, hs]

/-- A dispatch makes the entry ACTIVE on the channel with its resume flag cleared, and gives the channel the job with
its first access; nothing else changes (R69, R71, R85). -/
theorem Engine.dispatchTo_takes (e : Engine) (c : ChannelId) (en : Entry) (hO : e.jtc.Ordered)
    (he : en ∈ e.jtc.entries) :
    (e.dispatchTo c en).jtc = { e.jtc with entries := e.jtc.entries.map fun x =>
        if x = en then { en with custody := .active, channel := some c, resumeFromContext := false,
                                 startOrder := e.disp.nextStart } else x } ∧
    (e.dispatchTo c en).disp.nextStart = e.disp.nextStart + 1 ∧
    (e.chan c).Takes ((e.dispatchTo c en).chan c) en.job ∧
    ((e.dispatchTo c en).chan c).reports = (e.chan c).reports ∧
    ∀ p, p ≠ .table → p ≠ .starts → p ≠ .channel c → e.same (e.dispatchTo c en) p := by
  have hj : ∀ (e : Engine) (j : Job), (e.beginJob c j).jtc = e.jtc ∧ (e.beginJob c j).disp = e.disp := by
    intro e j
    unfold Engine.beginJob
    simp only []
    split <;> exact ⟨rfl, rfl⟩
  have hask : ∀ (e : Engine) (d : ChannelId) (t : EngineStep) (a : EngineAccess), (e.askFrom c t a).chan d = e.chan d :=
    fun _ _ _ _ => rfl
  refine ⟨?_, ?_, ?_, ?_, ?_⟩
  · unfold Engine.dispatchTo
    rw [(hj _ _).1]
    show (e.jtc.update en.place _).update en.place _ = _
    rw [JobTable.update_update (hf := by intro x; rfl), hO.update he]
    rfl
  · unfold Engine.dispatchTo
    rw [(hj _ _).2]
    rfl
  · unfold Engine.dispatchTo Engine.beginJob
    simp only []
    by_cases h : en.job.resume = true
    · rw [if_pos h, hask, Engine.setChan_chan]
      simp only [h, Channel.Takes, Channel.own, Channel.release, if_true]
      rfl
    · rw [if_neg h, hask, Engine.setChan_chan]
      simp only [h, Channel.Takes, Channel.own, Channel.release, Bool.false_eq_true, if_false]
      rfl
  · unfold Engine.dispatchTo Engine.beginJob
    simp only []
    by_cases h : en.job.resume = true
    · rw [if_pos h, hask, Engine.setChan_chan]; rfl
    · rw [if_neg h, hask, Engine.setChan_chan]; rfl
  · intro p h1 h2 h3
    unfold Engine.dispatchTo Engine.beginJob
    simp only []
    split
    all_goals
      cases p with
      | channel d =>
        have hd : c ≠ d := fun hh => h3 (by rw [hh])
        show (Engine.chan _ d).own = _
        rw [hask, Engine.setChan_chan_ne _ _ hd]; rfl
      | table => exact absurd rfl h1
      | starts => exact absurd rfl h2
      | timebase => exact ⟨rfl, rfl⟩
      | _ => trivial

/-- The state after an engine unit is complete and its owner has gone on. -/
theorem State.sameBut_channel {s : State} {m : Memory} {ar : Arbiter} {e : Engine} {c : ChannelId}
    (hw : Engine.Works c s.eng.dropUnit e) (hj : e.jtc = s.eng.jtc)
    (hn : e.disp.nextStart = s.eng.disp.nextStart) :
    s.SameBut [.mem, .arb, .channel c] { s with mem := m, arb := ar, eng := s.eng.settle e } := by
  intro p hp
  have hs := s.eng.settle_same e
  cases p with
  | mem => simp at hp
  | arb => simp at hp
  | ports => rfl
  | pins => exact ⟨rfl, rfl⟩
  | queue => rfl
  | control => exact (hs .control).trans hw.ctl
  | post => exact (hs .post).trans hw.post
  | table => exact (hs .table).trans hj
  | starts => exact (hs .starts).trans hn
  | channel d =>
    have hd : d ≠ c := by
      intro h
      subst h
      simp at hp
    show ((s.eng.settle e).chan d).own = (s.eng.chan d).own
    rw [Engine.settle_chan_own, hw.others d hd]
    rfl
  | timebase => exact ⟨(hs .timebase).1.trans hw.count, (hs .timebase).2.trans hw.filters⟩
  | notify => exact (hs .notify).trans hw.notify

end Sys2Proof.Machine
end

