-- ==== Sys2Proof/Laws/Memory.lean ====
section
/-! SUPPORT. Memory: every operation keeps the canonical form, and reads after writes. -/

namespace Sys2Proof.Machine

/-- A lower bound may be lowered. -/
theorem Memory.wfFrom_mono {m : Memory} {lo lo' : Nat} (h : lo ≤ lo') (hm : Memory.wfFrom lo' m = true) :
    Memory.wfFrom lo m = true := by
  cases m with
  | nil => rfl
  | cons x m =>
    obtain ⟨k, v⟩ := x
    simp only [Memory.wfFrom, Bool.and_eq_true, decide_eq_true_eq] at hm ⊢
    exact ⟨⟨⟨by omega, hm.1.1.2⟩, hm.1.2⟩, hm.2⟩

theorem Memory.wfFrom_put {m : Memory} {lo a : Nat} (b : Byte) (hm : Memory.wfFrom lo m = true) (hlo : lo ≤ a)
    (ha : a < Config.sramSize) : Memory.wfFrom lo (Memory.put m a b) = true := by
  induction m generalizing lo with
  | nil =>
    unfold Memory.put
    split
    · rfl
    · simp_all [Memory.wfFrom]
  | cons x m ih =>
    obtain ⟨k, v⟩ := x
    simp only [Memory.wfFrom, Bool.and_eq_true, decide_eq_true_eq] at hm
    obtain ⟨⟨⟨h1, h2⟩, h3⟩, h4⟩ := hm
    unfold Memory.put
    split
    · split
      · simp [Memory.wfFrom, h1, h2, h3, h4]
      · rename_i hlt hb
        simp [Memory.wfFrom, hlo, ha, hb, h2, h3, h4]
        omega
    · split
      · rename_i _ hak
        subst hak
        split
        · exact Memory.wfFrom_mono (by omega) h4
        · rename_i hb
          simp [Memory.wfFrom, hlo, ha, hb, h4]
      · simp [Memory.wfFrom, h1, h2, h3]
        exact ih h4 (by omega)

/-- A write keeps the canonical form. -/
theorem Memory.wf_write {m : Memory} (a : Nat) (b : Byte) (hm : m.wf = true) : (Memory.write m a b).wf = true := by
  unfold Memory.write
  split
  · exact Memory.wfFrom_put b hm (Nat.zero_le a) ‹_›
  · exact hm

/-- Writes of bytes keep the canonical form. -/
theorem Memory.wf_writeBytes {m : Memory} (a : Nat) (bs : List Byte) (hm : m.wf = true) :
    (Memory.writeBytes m a bs).wf = true := by
  induction bs generalizing m a with
  | nil => exact hm
  | cons b bs ih => exact ih (a + 1) (Memory.wf_write a b hm)

/-- A write of enabled bytes keeps the canonical form. -/
theorem Memory.wf_writeEnabled {m : Memory} (a : Nat) (en : BitVec 4) (w : Word) (hm : m.wf = true) :
    (Memory.writeEnabled m a en w).wf = true := Memory.wf_writeBytes a _ hm

/-- A memory made of cells is in canonical form. -/
theorem Memory.wf_ofCells (cells : List Host.Cell) : (Memory.ofCells cells).wf = true := by
  induction cells with
  | nil => rfl
  | cons x cells ih => exact Memory.wf_write x.1 x.2 ih

/-- An engine access keeps the canonical form. -/
theorem EngineAccess.wf_perform {m : Memory} (a : EngineAccess) (hm : m.wf = true) : (a.perform m).1.wf = true := by
  cases a with
  | read a n => exact hm
  | write a bs => exact Memory.wf_writeBytes a bs hm
  | pair a op => exact Memory.wf_writeBytes a _ hm

/-! ### Reading after writing -/

/-- Below the first entry nothing is listed. -/
theorem Memory.read_below {m : Memory} {lo a : Nat} (hm : Memory.wfFrom lo m = true) (h : a < lo) :
    Memory.read m a = Config.unlistedByte := by
  induction m generalizing lo with
  | nil => rfl
  | cons x m ih =>
    obtain ⟨k, v⟩ := x
    simp only [Memory.wfFrom, Bool.and_eq_true, decide_eq_true_eq] at hm
    have hk : a ≠ k := by omega
    simp only [Memory.read, hk, if_false]
    exact ih hm.2 (by omega)

theorem Memory.read_put {m : Memory} {lo : Nat} (hm : Memory.wfFrom lo m = true) (a : Nat) (b : Byte) (x : Nat) :
    Memory.read (Memory.put m a b) x = if x = a then b else Memory.read m x := by
  induction m generalizing lo with
  | nil =>
    unfold Memory.put
    split
    · simp_all [Memory.read]
    · simp [Memory.read]
  | cons y m ih =>
    obtain ⟨k, v⟩ := y
    simp only [Memory.wfFrom, Bool.and_eq_true, decide_eq_true_eq] at hm
    obtain ⟨⟨⟨h1, h2⟩, h3⟩, h4⟩ := hm
    unfold Memory.put
    split
    · rename_i hlt
      split
      · rename_i hb
        by_cases hx : x = a
        · subst hx
          have : x ≠ k := by omega
          simp only [Memory.read, this, if_false, if_true]
          rw [Memory.read_below h4 (by omega), hb]
        · simp [hx]
      · by_cases hx : x = a <;> simp [Memory.read, hx]
    · split
      · rename_i _ hak
        subst hak
        split
        · rename_i hb
          by_cases hx : x = a
          · subst hx
            simp only [if_true]
            rw [Memory.read_below h4 (by omega), hb]
          · simp [Memory.read, hx]
        · by_cases hx : x = a <;> simp [Memory.read, hx]
      · rename_i _ hne
        by_cases hx : x = k
        · subst hx
          have : x ≠ a := fun h => hne h.symm
          simp [Memory.read, this]
        · simp only [Memory.read, hx, if_false]
          exact ih h4

/-- The byte at an address after a write inside the SRAM. -/
theorem Memory.read_write {m : Memory} (hm : m.wf = true) (a : Nat) (b : Byte) (ha : a < Config.sramSize) (x : Nat) :
    Memory.read (Memory.write m a b) x = if x = a then b else Memory.read m x := by
  unfold Memory.write
  rw [if_pos ha]
  exact Memory.read_put hm a b x

/-- Bytes written leave every other address. -/
theorem Memory.read_writeBytes_outside {m : Memory} (hm : m.wf = true) (a : Nat) (bs : List Byte) (x : Nat)
    (h : x < a ∨ a + bs.length ≤ x) : Memory.read (Memory.writeBytes m a bs) x = Memory.read m x := by
  induction bs generalizing m a with
  | nil => rfl
  | cons b bs ih =>
    simp only [List.length_cons] at h
    simp only [Memory.writeBytes]
    rw [ih (Memory.wf_write a b hm) (a + 1) (by omega)]
    by_cases ha : a < Config.sramSize
    · rw [Memory.read_write hm a b ha]; simp; omega
    · simp [Memory.write, ha]

/-- Bytes written inside the SRAM read as written. -/
theorem Memory.read_writeBytes_inside {m : Memory} (hm : m.wf = true) (a : Nat) (bs : List Byte) (i : Nat)
    (hi : i < bs.length) (ha : a + bs.length ≤ Config.sramSize) :
    Memory.read (Memory.writeBytes m a bs) (a + i) = bs[i] := by
  induction bs generalizing m a i with
  | nil => simp at hi
  | cons b bs ih =>
    simp only [List.length_cons] at hi ha
    simp only [Memory.writeBytes]
    cases i with
    | zero =>
      rw [Memory.read_writeBytes_outside (Memory.wf_write a b hm) (a + 1) bs (a + 0) (by omega)]
      rw [Memory.read_write hm a b (by omega)]
      simp
    | succ i =>
      have := ih (Memory.wf_write a b hm) (a + 1) i (by omega) (by omega)
      rw [show a + 1 + i = a + (i + 1) by omega] at this
      simpa using this

/-- The bytes read from an address are the bytes at the addresses. -/
theorem Memory.readBytes_length (m : Memory) (a n : Nat) : (Memory.readBytes m a n).length = n := by
  induction n generalizing a with
  | zero => rfl
  | succ n ih => simp [Memory.readBytes, ih]

theorem Memory.readBytes_get (m : Memory) (a n i : Nat) (hi : i < (Memory.readBytes m a n).length) :
    (Memory.readBytes m a n)[i] = Memory.read m (a + i) := by
  induction n generalizing a i with
  | zero => simp [Memory.readBytes] at hi
  | succ n ih =>
    cases i with
    | zero => rfl
    | succ i =>
      simp only [Memory.readBytes, List.getElem_cons_succ]
      rw [ih]
      congr 1
      omega

end Sys2Proof.Machine
end

