-- ==== Sys2Proof/Laws/Ports.lean ====
section
/-! SUPPORT. The arbiter after a served access (R130, R132, R133), and what a register-write row does: its access waits,
or is served at once (R129, log 10). -/

namespace Sys2Proof.Machine

/-! ### The arbiter -/

theorem Arbiter.grantPort_eq (ar : Arbiter) (p : Port) (a : PortAccess) : ar.grantPort p a = ar.AfterGrant p a.lock := by
  unfold Arbiter.grantPort Arbiter.AfterGrant
  simp only []
  generalize ar.lock[p] = l
  cases a.lock <;> cases l <;> rfl

theorem Arbiter.sequenceAccess_eq (ar : Arbiter) (p : Port) (a : PortAccess) :
    ar.sequenceAccess p a = ar.AfterSequence p a.lock := by
  unfold Arbiter.sequenceAccess Arbiter.AfterSequence
  cases a.lock
  · simp [Arbiter.setLock]
  · by_cases h : 3 ≤ ar.holdCount
    · have hl : Config.lockLimit ≤ ar.holdCount + 1 := Nat.succ_le_succ h
      simp [hl, h, Arbiter.setLock]
    · have hl : ¬ Config.lockLimit ≤ ar.holdCount + 1 := fun k => h (Nat.le_of_succ_le_succ k)
      simp [hl, h]

/-! ### Presenting -/

/-- An access presented with LOCK released waits, and changes nothing else. -/
theorem State.present_unlocked (s : State) (p : Port) (a : PortAccess) (h : a.lock = false) :
    s.present p a = { s with ports := { s.ports with access := s.ports.access.set p (some a) } } := by
  unfold State.present State.fifthAccess
  rw [if_neg (by simp [h])]

/-- The command of a row is the row's register write. -/
theorem exec_of_rowAccess {i : Instr} {p : Port} {a : PortAccess} (h : rowAccess i = some (p, a)) :
    ∃ r en v, a = registerWriteAccess r en v ∧ ∀ s, exec i s = .next (s.registerRow p r en v) := by
  cases i <;> simp only [rowAccess, Option.some.injEq, Prod.mk.injEq, reduceCtorEq] at h
  case start => obtain ⟨rfl, rfl⟩ := h; exact ⟨.control, _, _, rfl, fun _ => rfl⟩
  case stop => obtain ⟨rfl, rfl⟩ := h; exact ⟨.control, _, _, rfl, fun _ => rfl⟩
  case mapReload => obtain ⟨rfl, rfl⟩ := h; exact ⟨.control, _, _, rfl, fun _ => rfl⟩
  case engineReset => obtain ⟨rfl, rfl⟩ := h; exact ⟨.control, _, _, rfl, fun _ => rfl⟩
  case clearViolation => obtain ⟨rfl, rfl⟩ := h; exact ⟨.control, _, _, rfl, fun _ => rfl⟩
  case anchorWrite => obtain ⟨rfl, rfl⟩ := h; exact ⟨.anchor, _, _, rfl, fun _ => rfl⟩
  case noteWrite => obtain ⟨rfl, rfl⟩ := h; exact ⟨.note, _, _, rfl, fun _ => rfl⟩
  case unnamedCommandCode q code =>
    split at h
    · rename_i hc
      simp only [Option.some.injEq, Prod.mk.injEq] at h
      obtain ⟨rfl, rfl⟩ := h
      refine ⟨.control, _, _, rfl, fun s => ?_⟩
      have : unnamedCode code = true := by simpa [unnamedCode, or_assoc] using hc
      simp [exec, execUnnamedCommandCode, this]
    · simp at h
  case registerDenied q r en =>
    split at h
    · rename_i hc
      simp only [Option.some.injEq, Prod.mk.injEq] at h
      obtain ⟨rfl, rfl⟩ := h
      refine ⟨r, en, 0, by cases r <;> rfl, fun s => ?_⟩
      have : alwaysDenied r en = true := by simpa [alwaysDenied, or_assoc] using hc
      simp [exec, execRegisterDenied, this]
    · simp at h

/-- The state in which a row's access has been presented. -/
theorem State.nextGrant_presented (s : State) (p : Port) (a : PortAccess) :
    State.nextGrant { s with ports := { s.ports with access := s.ports.access.set p (some a) } } =
      if s.arb.holder.isNone && !s.resetPin then
        s.arb.lastGranted.following.find? (fun r => decide (r = .port p) || s.waiting r) else none := by
  unfold State.nextGrant
  congr 2
  funext r
  cases r with
  | engine => simp [State.waiting]
  | port q =>
    by_cases h : q = p
    · subst h; simp [State.waiting]
    · have hv : ¬ p.val = q.val := fun k => h (Fin.ext k.symm)
      simp [State.waiting, Vector.getElem_set_ne, h, hv]

/-- A row on a port with an access outstanding does nothing; it waits where the arbiter does not come to it, and it is
served with the arbiter moved on where it does. -/
theorem State.registerRow_eq (s : State) (p : Port) (r : RegName) (en : BitVec 4) (v : Word) :
    s.registerRow p r en v = s.settled fun s =>
      if s.ports.access[p].isSome then s
      else
        let a := registerWriteAccess r en v
        let u : State := { s with ports := { s.ports with access := s.ports.access.set p (some a) } }
        if s.arb.holder = some (.port p) then State.serveAccess { u with arb := s.arb.AfterSequence p false } p a
        else if u.nextGrant = some (.port p) then State.serveAccess { u with arb := s.arb.AfterGrant p false } p a
        else u := by
  unfold State.registerRow
  congr 1
  funext s
  split
  · rfl
  · rw [State.present_unlocked _ _ _ rfl]
    unfold State.serveNow State.grant
    simp only [Arbiter.sequenceAccess_eq, Arbiter.grantPort_eq, registerWriteAccess]
    split
    · rfl
    · split
      · rename_i hg
        simp only [hg]
        simp
      · rename_i hg
        simp [hg]

end Sys2Proof.Machine
end

