-- ==== Sys2Proof/Laws/Transfer.lean ====
section
/-! SUPPORT. The arithmetic of a transfer as the statements say it (R13, R90, R92, R93), and what issuing a burst does
(R91, R102). -/

namespace Sys2Proof.Machine

/-- Upward, the bytes of one block run to its edge. -/
theorem Direction.oneBlock_ascending (x n : Nat) : Direction.OneBlock .ascending x n ↔ n ≤ bytesToEdge .ascending x := by
  refine ⟨fun h => ?_, fun h i hi => ?_⟩
  · refine Nat.le_of_not_lt fun hc => ?_
    have hi := h (bytesToEdge .ascending x) hc
    simp only [bytesToEdge] at hi
    omega
  · simp only [bytesToEdge] at h ⊢
    omega

/-- Downward, where there are that many bytes below, they run to the edge as well. -/
theorem Direction.oneBlock_descending {x n : Nat} (hn : n ≤ x) :
    Direction.OneBlock .descending x n ↔ n ≤ bytesToEdge .descending x := by
  refine ⟨fun h => ?_, fun h i hi => ?_⟩
  · refine Nat.le_of_not_lt fun hc => ?_
    have hi := h (bytesToEdge .descending x) hc
    simp only [bytesToEdge] at hi hc
    omega
  · simp only [bytesToEdge] at h ⊢
    omega

/-- Two ranges of one length share a byte exactly when each begins before the other ends. -/
theorem Body.rangesMeet_iff (b : Body) (s d : Descriptor) : rangesMeet b s d = true ↔ b.RangesShare s d := by
  simp only [rangesMeet, Body.RangesShare, Bool.and_eq_true, decide_eq_true_eq]
  refine ⟨fun h => ?_, fun ⟨x, hx⟩ => by omega⟩
  exact ⟨max (s.base.toNat + b.sourceFirst) (d.base.toNat + b.destFirst), by omega⟩

/-- The direction of R92 is the one that the channel chooses. -/
theorem Body.Chooses.eq {b : Body} {source dest : Option Reading} {dir : Direction} (h : b.Chooses source dest dir) :
    dir = chooseDirection b source dest := by
  unfold Body.Chooses at h
  unfold chooseDirection
  rcases source with _ | s <;> rcases dest with _ | d
  case some.some =>
    have hr := b.rangesMeet_iff s.desc d.desc
    cases dir <;> simp at h ⊢ <;> grind
  all_goals cases dir <;> simp at h ⊢

theorem Body.nextSource_eq (b : Body) (dir : Direction) (done : Nat) :
    b.nextSource dir done = b.OffsetAfter (b.op ≠ .fill) dir b.sourceFirst done := by
  unfold Body.nextSource Body.OffsetAfter Body.usesSource Body.nextOffset
  cases b.op <;> cases dir <;> rfl

theorem Body.nextDest_eq (b : Body) (dir : Direction) (done : Nat) :
    b.nextDest dir done = b.OffsetAfter (b.op ≠ .sum) dir b.destFirst done := by
  unfold Body.nextDest Body.OffsetAfter Body.usesDest Body.nextOffset
  cases b.op <;> cases dir <;> rfl

/-- A channel that asks for an access waits for it, and is otherwise as it was. -/
theorem Engine.setWork_askFrom_chan (e : Engine) (c : ChannelId) (w : Work) (t : EngineStep) (a : EngineAccess) :
    ((e.setWork c w).askFrom c t a).chan c = { e.chan c with work := w } :=
  e.setChan_chan c _

/-- Issuing the next burst of a job changes its channel's work alone and presents the burst's first access. -/
theorem Engine.issueBurst_issues {e : Engine} {c : ChannelId} {j : Job} {rs : Readings} {body : Body}
    (h : (e.chan c).moving = some (j, rs, body)) :
    (e.issueBurst c).Issues c (e.chan c) body rs
      (formBurst body (decide (j.record.paceUnit ≠ 0)) rs (e.chan c).progress) := by
  unfold Engine.issueBurst Engine.Issues Engine.issueWrite
  simp only [h]
  by_cases hf : body.op = .fill
  · by_cases hw : (e.chan c).progress.writtenDest = true
    · refine ⟨?_, fun k => absurd hf k, fun _ _ => ?_, fun r _ k => absurd hw (by simp [k])⟩
      · simp only [hf, hw, if_true, Engine.setWork_askFrom_chan]; rfl
      · simp only [hf, hw, if_true]; exact Engine.ask_presents _ _ _ _
    · refine ⟨?_, fun k => absurd hf k, fun _ k => absurd k hw, fun r _ _ hr => ?_⟩
      · simp only [hf, hw, if_true, Bool.false_eq_true, if_false, Engine.setWork_askFrom_chan]; rfl
      · simp only [hf, hw, if_true, hr]; exact Engine.ask_presents _ _ _ _
  · refine ⟨?_, fun _ => ?_, fun k => absurd k hf, fun _ k => absurd k hf⟩
    · simp only [hf, if_false, Engine.setWork_askFrom_chan]; rfl
    · simp only [hf, if_false]; exact Engine.ask_presents _ _ _ _

end Sys2Proof.Machine
end

