-- ==== Sys2Proof/Laws/Units.lean ====
section
/-! SUPPORT. What the completion of an engine unit does (R130, R135, R137). -/

namespace Sys2Proof.Machine

/-- A unit that completes is the granted unit of its step. -/
theorem State.completes_granted {s : State} {o : Owner} {t : EngineStep} {a : EngineAccess} (h : s.completes o t a) :
    s.granted t = some ⟨o, ⟨t, a⟩⟩ := by
  obtain ⟨hh, hu, _⟩ := h
  simp [State.granted, hh, hu, Option.filter]

/-- A unit granted and inside the SRAM completes. -/
theorem completeUnit_next {s : State} {o : Owner} {t : EngineStep} {a : EngineAccess} (h : s.completes o t a)
    (k : Owner → List Byte → State → State) :
    completeUnit t k s =
      .next (s.settled fun s => k o (a.perform s.mem).2 (s.unitDone ⟨o, ⟨t, a⟩⟩)) := by
  simp [completeUnit, State.completes_granted h, h.2.2]

/-- Where no such unit is granted, nothing happens (log 1). -/
theorem completeUnit_idle {s : State} {t : EngineStep} (h : s.granted t = none)
    (k : Owner → List Byte → State → State) : completeUnit t k s = .next s := by
  simp [completeUnit, h]

/-- Where the granted unit reaches past the SRAM, the machine stops (log 27). -/
theorem completeUnit_fault {s : State} {t : EngineStep} {u : EngineUnit} (h : s.granted t = some u)
    (ho : u.request.access.inSram = false) (k : Owner → List Byte → State → State) :
    completeUnit t k s = .fault .engineAccessOutsideSram := by
  simp [completeUnit, h, ho]

/-- The engine's part of a unit whose owner's work lies in the engine. -/
theorem completeEngine_next {s : State} {o : Owner} {t : EngineStep} {a : EngineAccess} (h : s.completes o t a)
    (k : Owner → List Byte → Engine → Engine) :
    completeEngine t k s =
      .next { s with
        mem := (a.perform s.mem).1, arb := { s.arb with holder := none }
        eng := s.eng.settle (k o (a.perform s.mem).2 s.eng.dropUnit) } := by
  unfold completeEngine
  rw [completeUnit_next h]
  rfl

/-- The engine's part of a unit of a channel. -/
theorem completeChannel_next {s : State} {c : ChannelId} {t : EngineStep} {a : EngineAccess}
    (h : s.completes (.channel c) t a) (k : ChannelId → List Byte → Engine → Engine) :
    completeChannel t k s =
      .next { s with
        mem := (a.perform s.mem).1, arb := { s.arb with holder := none }
        eng := s.eng.settle (k c (a.perform s.mem).2 s.eng.dropUnit) } := by
  unfold completeChannel
  rw [completeEngine_next h]

end Sys2Proof.Machine
end

