-- ==== Sys2Proof/Laws/Word.lean ====
section
/-! SUPPORT. Words in memory: a word reads as written, and a locked pair leaves what its operation makes of the word. -/

namespace Sys2Proof.Machine

/-- The bytes of a word put together again. -/
theorem bytes_join (w : Word) :
    w.extractLsb' 24 8 ++ w.extractLsb' 16 8 ++ w.extractLsb' 8 8 ++ w.extractLsb' 0 8 = w := by
  have h (a b c d : Byte) (i : Nat) : (a ++ b ++ c ++ d).getLsbD i =
      if i < 8 then d.getLsbD i else if i - 8 < 8 then c.getLsbD (i - 8)
      else if i - 8 - 8 < 8 then b.getLsbD (i - 8 - 8) else a.getLsbD (i - 8 - 8 - 8) := by
    rw [BitVec.getLsbD_append, BitVec.getLsbD_append, BitVec.getLsbD_append]
  apply BitVec.eq_of_getLsbD_eq
  intro i hi
  refine (h _ _ _ _ i).trans ?_
  have hi' : i < 32 := hi
  simp only [BitVec.getLsbD_extractLsb']
  interval_cases i <;> simp

/-- A word written inside the SRAM reads as written. -/
theorem Memory.word_writeBytes {m : Memory} (hm : m.wf = true) (a : Nat) (w : Word)
    (ha : a + 4 ≤ Config.sramSize) : Memory.word (Memory.writeBytes m a (wordBytes w)) a = w := by
  have hr : ∀ i (hi : i < (wordBytes w).length),
      Memory.read (Memory.writeBytes m a (wordBytes w)) (a + i) = (wordBytes w)[i] :=
    fun i hi => Memory.read_writeBytes_inside hm a (wordBytes w) i hi ha
  have h0 := hr 0 (by simp [wordBytes])
  have h1 := hr 1 (by simp [wordBytes])
  have h2 := hr 2 (by simp [wordBytes])
  have h3 := hr 3 (by simp [wordBytes])
  simp only [wordBytes, List.getElem_cons_zero, List.getElem_cons_succ, Nat.add_zero] at h0 h1 h2 h3
  simp only [Memory.word, Memory.readBytes, firstWord, Nat.add_assoc, Nat.reduceAdd, wordBytes]
  rw [h0, h1, h2, h3]
  exact bytes_join w

/-- After a locked pair the word holds what the pair's operation makes of the word read (R135). -/
theorem EngineAccess.pair_word {m : Memory} (hm : m.wf = true) (a : Nat) (op : PairOp)
    (h : (EngineAccess.pair a op).inSram = true) :
    ((EngineAccess.pair a op).perform m).1.word a = op.apply (m.word a) :=
  Memory.word_writeBytes hm a _ (by simpa [EngineAccess.inSram] using h)

end Sys2Proof.Machine
end

