-- ==== Sys2Proof/Tests/Slice0.lean ====
section
/-! SUPPORT. Tests: the operand checks, words and check sums the manual gives, single steps on small states, and for
every statement with hypotheses a state and operands that meet them (test_met_…). -/

namespace Sys2Proof.Tests

set_option Elab.async false

open Sys2Proof Sys2Proof.Machine

/-! ### The operand checks -/

theorem test_codeThatNamesACommand_refused : (Instr.unnamedCommandCode 0 1).wellFormed = false := by decide
theorem test_codeFive_refused : (Instr.unnamedCommandCode 0 5).wellFormed = false := by decide
theorem test_codeSix_admitted : (Instr.unnamedCommandCode 0 6).wellFormed = true := by decide
theorem test_servedRegisterWrite_refused : (Instr.registerDenied 0 .note 0b1111).wellFormed = false := by decide
theorem test_statusWrite_admitted : (Instr.registerDenied 0 .status 0b1111).wellFormed = true := by decide
theorem test_cellPastTheSram_refused : (Instr.powerOnReset [(0x40000, 1)]).wellFormed = false := by decide
theorem test_lastCell_admitted : (Instr.powerOnReset [(0x3FFFF, 1)]).wellFormed = true := by decide
theorem test_noWordSpellsACommand : decodeTableWord 32 0 = none := by decide

/-! ### Small states -/

/-- The state after a step, or the state it began in when it did not answer one. -/
def after (i : Instr) (s : State) : State :=
  match exec i s with
  | .next t => t
  | _ => s

/-- A domain at level 2 whose home port is 1. -/
def domainA : DomainRecord :=
  { enabled := true, level := 2, homePort := 1, threshold := 2, notifyLine := 0, localCount := 4,
    slotBase := 0x2A000, postAddr := 0x2A400, reportAddr := 0x2A404, localBase := 0x800 }

/-- A line of domain 0 on tap 1 with COUNT 2 and EDGE RISE. -/
def lineA : LineEntry := { enabled := true, owner := 0, edge := 1, tap := 1, count := 2 }

/-- Loaded copies with domain 0 and line 0. -/
def copiesA : LoadedCopies :=
  { globalBase := 0x1000, globalCount := 8, freezeRun := false
    domains := (Vector.replicate 8 DomainRecord.disabled).set 0 domainA
    lines := (Vector.replicate 8 LineEntry.disabled).set 0 lineA }

/-- RESET released, levels 0, 2, 2, 3, the engine still STOPPED. -/
def idle : State := after (.resetRelease 0 2 2 3) State.reset

/-- The engine in a state, with the copies loaded. -/
def inState (x : EngineState) : State :=
  { idle with eng := { idle.eng with
    ctl := { idle.eng.ctl with state := x, copies := some copiesA }
    post := { attention := Vector.replicate 8 .clear, address := (Vector.replicate 8 none).set 0 (some 0x2A400) } } }

/-- The engine RUNNING. -/
def running : State := inState .running

/-- A unit that the arbiter has granted to the Engine Interface. -/
def granted (o : Owner) (t : EngineStep) (a : EngineAccess) (s : State) : State :=
  { s with arb := { s.arb with holder := some .engine }
           eng := { s.eng with ei := { s.eng.ei with unit := some ⟨o, ⟨t, a⟩⟩ } } }

/-- Channel 0 replaced. -/
def onChannel (ch : Channel) (s : State) : State := { s with eng := s.eng.setChan 0 ch }

/-- A dispatch for a channel on its way. -/
def dispatched (c : ChannelId) (s : State) : State :=
  { s with eng := { s.eng with disp := { s.eng.disp with sent := some c } } }

/-- The job table replaced. -/
def onTable (j : JobTable) (s : State) : State := { s with eng := s.eng.setJtc j }

/-- A record of a MOVE from GLOBAL 2 to GLOBAL 3, 64 bytes, PRIORITY 3, NOTIFY_LEVEL 4. -/
def recordA : JobRecord := ⟨1, 0x00004301, 0x00030002, 0, 0, 0, 64, 0, 0, 0, 0, 0⟩

/-- The same record with PRIORITY 5 and CHAIN slot 4. -/
def recordB : JobRecord := { recordA with w1 := 0x14004501 }

/-- The same record armed on line 0. -/
def recordL : JobRecord := { recordA with w1 := 0x00804301 }

/-- A SUM with CRC-A and EXPECT of the same source. -/
def recordS : JobRecord := { recordA with w1 := 0x00054303 }

/-- A gate call through GLOBAL 2. -/
def recordG : JobRecord := { recordA with w1 := 0x00004304 }

/-- An entry with place 0 of domain 0, slot 0. -/
def entryA : Entry := { Entry.fresh 0 recordA 0 0 false with custody := .pending }

/-- A table that holds some entries. -/
def tableOf (es : List Entry) : JobTable := { JobTable.empty 7 with entries := es, nextPlace := 8 }

/-- The job of `entryA` as a channel holds it. -/
def jobA : Job := entryA.job

/-- A DATA descriptor with every right, 4 KB at 0x10000. -/
def dataA : Descriptor := ⟨0x10000, 0xFFF, 0, 0x731⟩

/-- The readings of a MOVE. -/
def readingsA : Readings :=
  { Readings.empty with source := some ⟨0x1020, dataA⟩, dest := some ⟨0x1030, { dataA with base := 0x14000 }⟩ }

/-- A channel at the window check. -/
def checkingA : Channel := { Channel.empty with state := .checking, work := .runningWrite, job := some jobA }

/-- A channel in MOVING at a boundary with 32 of 64 bytes done. -/
def movingA : Channel :=
  { Channel.empty with
    state := .moving, work := .boundary, job := some jobA, copies := some readingsA
    progress := { Progress.empty with bytesDone := 32, nextSource := 32, nextDest := 32 } }

/-- The job of a paced record: MOVE, units of 16 bytes, tap 0. -/
def pacedJob : Job := { jobA with record := { recordA with w6 := 0x00060040 } }

/-- A channel that waits at a boundary for a tick. -/
def pacedA : Channel := { movingA with job := some pacedJob }

/-- The job of a paced FILL. -/
def pacedFillJob : Job := { jobA with record := { recordA with w1 := 0x4302, w6 := 0x00060040 } }

/-- Its channel, waiting at a boundary. -/
def pacedFill : Channel := { movingA with job := some pacedFillJob }

/-- A valid service record: MOVE from GLOBAL 2 to GLOBAL 3, parameters through GLOBAL 4, at most 4096 bytes. -/
def serviceA : ServiceRecord := ⟨0x00000201, 0x00030002, 0x00000004, 0, 0, 0x1000, 0, 0⟩

/-- A record with a context through GLOBAL 5. -/
def recordC : JobRecord := { recordA with w3 := 0x0005 }

/-- A shadow in the bank. -/
def shadowA : Shadow := ⟨{ jobA with place := 5 }, movingA.progress, readingsA⟩

/-- A port access that reads or writes the word at 0x100. -/
def accessA (isWrite lock : Bool) : PortAccess := ⟨0x40, isWrite, 0b1111, 0x11223344, lock⟩

/-- Port 1's map: READ of every page. -/
def mapRead : PageMap := ⟨0x55555555, 0x55555555, 0x55555555, 0x55555555⟩

/-- An anchor block whose every domain and line is disabled. -/
def blockA : List Word := [0x4B540640, 0x1000, 8, 0] ++ List.replicate 116 0

/-- Bytes and words put into the SRAM at an address. -/
def withWords (a : Nat) (ws : List Word) (s : State) : State := { s with mem := s.mem.writeBytes a (wordsBytes ws) }

/-- A port's access presented. -/
def presented (p : Port) (a : PortAccess) (s : State) : State :=
  { s with ports := { s.ports with access := s.ports.access.set p (some a) } }

/-- Engine Control's record changed. -/
def withControl (f : Control → Control) (s : State) : State := { s with eng := s.eng.setCtl (f s.eng.ctl) }

/-- The arbiter's record changed. -/
def withArbiter (f : Arbiter → Arbiter) (s : State) : State := { s with arb := f s.arb }

/-- Entries with places and slots from 0 up, in the custody states named. -/
def entriesOf (cs : List Custody) : List Entry :=
  (cs.zip (List.range 48)).map fun x =>
    { entryA with
      place := x.2, slot := fieldFin 16 (BitVec.ofNat 8 x.2), domain := fieldFin 8 (BitVec.ofNat 8 (x.2 / 8)), custody := x.1
      channel := if x.1 = .active then some 0 else none
      shadowChannel := if x.1 = .shadowed then some 0 else none }

/-! ### Words and check sums the manual gives -/

/-- The ASCII bytes "123456789" (chapter 5). -/
def digits : List Byte := [0x31, 0x32, 0x33, 0x34, 0x35, 0x36, 0x37, 0x38, 0x39]

theorem test_crcA_checkValue : crcBytes (crcConstant 1) crcOnes digits ^^^ crcOnes = 0xCBF43926 := by decide +kernel
theorem test_crcB_checkValue : crcBytes (crcConstant 2) crcOnes digits ^^^ crcOnes = 0xE3069283 := by decide +kernel
theorem test_crcA_inTwoBursts :
    crcBytes (crcConstant 1) (crcBytes (crcConstant 1) crcOnes (digits.take 4)) (digits.drop 4) ^^^ crcOnes = 0xCBF43926 := by
  decide +kernel
theorem test_status_atReset : State.reset.statusWord = 0 := by decide +kernel
theorem test_status_afterPinReset : (after .pinReset running).statusWord = 0x8 := by decide +kernel
theorem test_violationWord_ofChapter12 :
    { Ports.powerOn with violation := some ⟨2, .writeDenied, 0xFC04⟩ }.violationWord = 0x03F01022 := by decide +kernel
theorem test_recordFields : recordA.kind = 1 ∧ recordA.priority = 3 ∧ recordA.notifyLevel = 4 := by decide +kernel
theorem test_chainField : recordB.chainSlot = some 4 ∧ recordL.line = some 0 := by decide +kernel
theorem test_resultWord_ok : resultWord (plainResult .ok 64) false false false = 1 := by decide +kernel
theorem test_reportWord_badPost : reportWord .badPost 9 = 0x901 := by decide +kernel
theorem test_clearingPair_ofChapter2 :
    (PairOp.clearBits (slotBits [1, 2, 5, 9])).apply 0x00001026 = 0x00001000 := by decide +kernel
theorem test_claim_keepsOtherBits : PairOp.claim.apply 0x733 = 0x734 ∧ PairOp.claim.apply 0x734 = 0x734 := by decide +kernel
theorem test_selectorFields : selIndex 0x0E05 = 5 ∧ selLocal 0x0E05 = true ∧ selRL 0x0E05 = 3 := by decide +kernel
theorem test_nullSelector_withAnyRl : selNull 0x0C00 = true ∧ selNull 0x0200 = false := by decide +kernel
theorem test_fillPattern_ofChapter5 :
    patternBytes 0x44332211 0x8 0x6 4 = [0x33, 0x44, 0x11, 0x22] := by decide +kernel

/-- The FILL of chapter 5: 40 bytes from 0x30406, in units of 16. -/
def fillA : Body :=
  { op := .fill, crc := 0, sourceFirst := 0, destFirst := 6, length := 40, operand := 0x44332211, compare := false }

/-- The copies of that FILL. -/
def fillCopies : Readings := { Readings.empty with dest := some ⟨0x1030, { dataA with base := 0x30400 }⟩ }

theorem test_pacedFill_firstUnit :
    (formBurst fillA true fillCopies { firstProgress fillA .ascending with unitLeft := 16 }).count = 16 := by
  decide +kernel
theorem test_pacedFill_cutAtTheBlockEdge :
    (formBurst fillA true fillCopies
      { advance fillA (firstProgress fillA .ascending) 16 [] with unitLeft := 16 }).count = 10 := by decide +kernel

/-! ### One step of the commands -/

theorem test_step_emptyQueueIdles : step idle = .next idle := rfl
theorem test_release_latchesLevels : idle.ports.level = #v[0, 2, 2, 3] ∧ idle.resetPin = false := by decide +kernel
theorem test_start_misalignedFails :
    (after (.start 0) (withControl (fun c => { c with anchor := 0x104 }) idle)).statusWord = 0x0C24 := by decide +kernel
theorem test_start_readsTheAnchorBlock :
    (after (.start 0) (withControl (fun c => { c with anchor := 0x400 }) idle)).eng.ei.unit
      = some ⟨.control, ⟨.startAnchorRead, .read 0x400 32⟩⟩ := by decide +kernel
theorem test_unnamedCode_isRefused : (after (.unnamedCommandCode 0 6) idle).eng.ctl.result = .refused := by decide +kernel
theorem test_portWrite_takesEnabledBytes :
    (after .arbiterGrant (presented 0 ⟨0x40, true, 0b0101, 0x11223344, false⟩ idle)).mem = [(0x100, 0x44), (0x102, 0x22)] := by
  decide +kernel
theorem test_deniedWrite_isRecorded :
    (after .arbiterGrant (presented 1 ⟨0xFC04, true, 0b1111, 1, false⟩ idle)).ports.violationWord = 0x03F01012 := by
  decide +kernel
theorem test_portWrite_postsAttention :
    (after .arbiterGrant (presented 0 ⟨0xA900, true, 0b1111, 0x26, false⟩ running)).eng.post.attention[(0 : Domain)]
      = .posted := by decide +kernel
theorem test_dispatch_takesTheHigherPriority :
    (after .dispatch (dispatched 0 (onTable
      (tableOf (entriesOf [.pending] ++ [{ entryA with place := 1, record := recordB, slot := 1 }])) running))).eng.jtc.entries.map (fun en => (en.custody, en.channel))
      = [(.pending, none), (.active, some 0)] := by decide +kernel
theorem test_dispatch_writesRunning :
    (after .dispatch (dispatched 0 (onTable (tableOf [entryA]) running))).eng.ei.unit
      = some ⟨.channel 0, ⟨.runningWrite, .write 0x2A000 [3, 0, 0, 0]⟩⟩ := by decide +kernel
theorem test_dispatch_isSentAtTheEndOfAStep :
    (after (.tapTick 0) (onTable (tableOf [entryA]) (onChannel checkingA running))).eng.disp.sent = some 1 := by
  decide +kernel
theorem test_dispatch_isTakenWhileFrozen :
    ((after .dispatch (dispatched 2 (onTable (tableOf [entryA]) (after .frzAssert running)))).eng.chan 2).state = .checking := by
  decide +kernel
theorem test_registerRow_waitsBehindASequence :
    (after (.start 0) (withArbiter (fun x => { x with holder := some (.port 1) }) idle)).eng.ctl = idle.eng.ctl ∧
    (after (.start 0) (withArbiter (fun x => { x with holder := some (.port 1) }) idle)).waitLine 0 = true := by
  decide +kernel
theorem test_registerRow_takesItsTurn : (after (.start 0) idle).arb.lastGranted = .port 0 := by decide +kernel
theorem test_pinReset_completesTheHeldAccess :
    (after .pinReset (withArbiter (fun x => { x with holder := some (.port 0) }) (presented 0 (accessA true true) idle))).mem
      = [(0x100, 0x44), (0x101, 0x33), (0x102, 0x22), (0x103, 0x11)] := by decide +kernel
theorem test_tapTick_counts : (after (.tapTick 0) running).eng.count = 1 ∧ (after (.tapTick 0) idle).eng.count = 0 := by
  decide +kernel
theorem test_frozenTimebase_pauses : (after (.tapTick 0) (after .frzAssert running)).eng.count = 0 := by decide +kernel
theorem test_stop_drainsThePendingEntry :
    (after (.stop 0) (onTable (tableOf [entryA]) running)).eng.jtc.queue = [0] := by decide +kernel
theorem test_noteWrite_fromTheHomePort :
    (after (.noteWrite 1 0xFF) { running with eng := { running.eng with notify := 0x05 } }).eng.notify = 0x04 := by
  decide +kernel

/-! ### States that meet the hypotheses of the statements -/

/-- The unit of `granted` is one that a completing command completes. -/
theorem completes_granted (o : Owner) (t : EngineStep) (a : EngineAccess) (s : State) (h : a.inSram = true) :
    (granted o t a s).completes o t a := ⟨rfl, rfl, h⟩

/-- Eight entries of domain 0: as many as one domain may have. -/
def fullDomain : JobTable := tableOf (entriesOf (List.replicate 8 .pending))

/-- A table with an entry in each custody state that a drain meets, in intake order. -/
def mixedTable : JobTable := tableOf (entriesOf [.pending, .armed, .active, .shadowed, .closing])

/-- The engine with a command in flight that has read all of the anchor block but its last burst. -/
def lastBurst (st : EngineState) (k : FlightKind) (block : List Word) : State :=
  granted .control (match k with | .start => .startAnchorRead | .mapReload _ => .mapReloadRead) (.read 0x3FFE0 32)
    (withControl (fun c => { c with flight := some ⟨k, 0x3FE00, block⟩ }) (inState st))

theorem test_met_StepTakesFrontCommand : State.reset.pending = [] := rfl

theorem test_met_StepKeepsMemoryAndMaps :
    let s : State := { idle with mem := [(0, 1), (0x3FFFF, 2)], ports := { idle.ports with map := #v[none, some mapRead, none, none] }
                                 pending := [.pinReset] }
    s.Sound ∧ ∃ t, step s = .next t := by
  refine ⟨⟨by decide +kernel, fun p m h => ?_⟩, _, rfl⟩
  have key : ∀ q : Port, ((#v[none, some mapRead, none, none] : Vector (Option PageMap) 4)[q]).all
      (fun x => !x.hasUnlisted) = true := by decide +kernel
  have := key p
  rw [show (#v[none, some mapRead, none, none] : Vector (Option PageMap) 4)[p] = some m from h] at this
  simpa using this

theorem test_met_StepKeepsTableRoom :
    (onTable fullDomain { running with pending := [.dispatch] }).eng.jtc.Room ∧
    ∃ t, step (onTable fullDomain { running with pending := [.dispatch] }) = .next t := by
  refine ⟨?_, _, rfl⟩
  unfold JobTable.Room; decide +kernel

theorem test_met_StepKeepsOrderAndLines :
    (onTable mixedTable { running with pending := [.stop 0] }).eng.jtc.Ordered ∧
    (onTable { mixedTable with latch := mixedTable.latch.set 3 true, overrun := mixedTable.overrun.set 3 true }
      running).eng.jtc.LineLaw ∧
    ∃ t, step (onTable mixedTable { running with pending := [.stop 0] }) = .next t := by
  refine ⟨?_, ?_, _, rfl⟩
  · unfold JobTable.Ordered; decide +kernel
  · unfold JobTable.LineLaw; decide +kernel

theorem test_met_StepKeepsFlightLaw :
    (lastBurst .starting .start []).eng.ctl.FlightLaw ∧ running.eng.ctl.FlightLaw ∧
    ∃ t, step { running with pending := [.stop 0] } = .next t :=
  ⟨⟨fun _ => ⟨0x3FE00, [], rfl⟩, fun _ => rfl⟩,
   ⟨fun h => absurd h (by decide +kernel), fun ⟨_, _, h⟩ => absurd (show (none : Option Flight) = some _ from h) (fun x => nomatch x)⟩, _, rfl⟩

theorem test_met_StepKeepsUniqueSlots :
    JobTable.Unique { fullDomain with pass := some ⟨1, .slots 1 none [2] 8 [⟨0, .take recordA⟩], false⟩ } ∧
    ∃ t, step (onTable fullDomain { running with pending := [.dispatch] }) = .next t := by
  refine ⟨⟨by decide +kernel, ?_⟩, _, rfl⟩
  intro p hp
  obtain rfl := (Option.some.inj hp).symm
  refine ⟨by decide +kernel, ?_⟩
  intro x hx r _
  obtain rfl : x = ⟨0, .take recordA⟩ := by simpa [PassStep.decisions] using hx
  decide +kernel

theorem test_met_ExecKeepsQueue : ∃ t, exec .dispatch { running with pending := [.stop 0] } = .next t := ⟨_, rfl⟩

/-- The Engine Interface idle with a request of each side. -/
def askedInterface : EngineInterface :=
  { EngineInterface.empty with
    channels := (Vector.replicate 6 none).set 0 (some ⟨.usedMark, .pair 0x100C (.setBits 0x800)⟩)
    intake := some ⟨.postWordRead, .read 0x2A400 4⟩, closing := some ⟨.doneWrite, .write 0x2A000 [4, 0, 0, 0]⟩
    control := some ⟨.startAnchorRead, .read 0 32⟩ }

/-- An ACTIVE entry of a PRIORITY on a channel. -/
def victimOf (n : Nat) (c : ChannelId) (prio : BitVec 3) : Entry :=
  { entryA with place := n, custody := .active, channel := some c
                record := { recordA with w1 := 1 ||| (prio.setWidth 32 <<< 8) } }

/-- Victims of PRIORITY 5, 6, 1 and 2 on CH0 to CH3, with jobs of PRIORITY 7 and 4 pending, and yields of the first two
outstanding. -/
def twoYields : Engine :=
  { running.eng with
    jtc := tableOf [victimOf 0 0 5, victimOf 1 1 6, victimOf 2 2 1, victimOf 3 3 2,
      { victimOf 4 4 7 with custody := .pending, channel := none }, { victimOf 5 5 4 with custody := .pending, channel := none }]
    channels := Vector.replicate 6 { Channel.empty with state := .moving }
    disp := { running.eng.disp with yields := [⟨0, 0⟩, ⟨1, 1⟩] } }

/-- R77: the walk that withdraws CH1's yield is followed by one that withdraws CH0's, and that by one that withdraws
none. -/
theorem test_walksGoOnUntilNoneIsWithdrawn :
    twoYields.walkOnce.disp.yields = [⟨0, 0⟩, ⟨2, 2⟩] ∧ twoYields.reconsider.disp.yields = [⟨2, 2⟩, ⟨3, 3⟩] ∧
    (channelList.map fun c => (twoYields.reconsider.chan c).yields) =
      [[.withdraw 0], [.withdraw 1], [.ask 2], [.ask 3], [], []] := by
  decide +kernel

theorem test_met_someSideIsChosen (last : Side) :
    (({ askedInterface with lastSide := last } : EngineInterface).lastSide.following.find?
      ({ askedInterface with lastSide := last } : EngineInterface).waiting).isSome = true := by
  cases last <;> decide +kernel

theorem test_met_freezeAnswers : exec .frzAssert running = .next (after .frzAssert running) := rfl

theorem test_met_StepEndChoices :
    askedInterface.unit = none ∧ [Side.control, .jtc, .channels].find? askedInterface.waiting = some .control ∧
    [Side.jtc, .channels, .control].find? askedInterface.waiting = some .jtc ∧
    [Side.channels, .control, .jtc].find? askedInterface.waiting = some .channels ∧
    askedInterface.lastStream = .closing ∧ idle.eng.ctl.state ≠ .running ∧ (after .frzAssert running).eng.frozen = true ∧
    running.eng.ctl.state = .running ∧ running.eng.frozen = false ∧ running.eng.disp.sent = none ∧
    (∃ x ∈ (onTable (tableOf [entryA]) running).eng.jtc.entries, x.custody = .pending) ∧ (running.eng.chan 0).state = .idle ∧
    (after .frzAssert running).eng.frozen ≠ running.eng.frozen ∧
    (after (.tapTick 0) (onTable (tableOf [entryA]) running)).eng.disp.sent = some 0 ∧
    twoYields.ctl.state = .running ∧ twoYields.frozen = false ∧ twoYields.jtc.Ordered := by
  unfold JobTable.Ordered; decide +kernel

/-! #### Register writes -/

/-- RESET released and a port in a locked sequence, its next access still to come. -/
def holding (p : Port) : State := withArbiter (fun x => { x.setLock p .held with holder := some (.port p), holdCount := 2 }) idle

theorem test_met_ServesRow :
    (∀ p : Port, idle.ServesRow p) ∧ (∀ p : Port, running.ServesRow p) ∧ (holding 2).ServesRow 2 ∧
    ¬ (holding 2).ServesRow 1 ∧ ¬ (presented 1 (accessA true false) idle).ServesRow 3 ∧ ¬ State.reset.ServesRow 0 := by
  unfold State.ServesRow; decide +kernel

theorem test_met_RegisterWritesDenied :
    idle.ServesRow 1 ∧ idle.ports.level[(1 : Port)] ≠ 0 ∧ running.ServesRow 0 ∧
    running.ports.level[(0 : Port)] = 0 ∧ running.eng.ctl.state ≠ .stopped ∧ running.eng.ctl.state ≠ .failed := by
  unfold State.ServesRow; decide +kernel

theorem test_met_StartAccepted :
    idle.ServesRow 0 ∧ idle.ports.level[(0 : Port)] = 0 ∧ idle.eng.ctl.flight = none ∧
    idle.eng.ctl.state = .stopped ∧ idle.eng.ctl.anchor.toNat % 512 = 0 ∧ idle.eng.ctl.anchor.toNat ≤ 0x3FE00 ∧
    ((0x3FE00 : Word).toNat % 512 = 0 ∧ (0x3FE00 : Word).toNat ≤ 0x3FE00) ∧
    ¬ ((0x3FE01 : Word).toNat % 512 = 0 ∧ (0x3FE01 : Word).toNat ≤ 0x3FE00) ∧
    ¬ ((0x40000 : Word).toNat % 512 = 0 ∧ (0x40000 : Word).toNat ≤ 0x3FE00) ∧
    (inState .failed).eng.ctl.state = .failed ∧ (inState .failed).eng.ctl.flight = none := by
  unfold State.ServesRow; decide +kernel

theorem test_met_StopDrains :
    (onTable mixedTable running).ServesRow 0 ∧ (onTable mixedTable running).ports.level[(0 : Port)] = 0 ∧
    (onTable mixedTable running).eng.ctl.flight = none ∧ (onTable mixedTable running).eng.ctl.state = .running ∧
    mixedTable.Ordered ∧
    (∃ en ∈ mixedTable.entries, en.stopReason = none ∧ en.custody = .active ∧ en.channel = some 0) ∧
    ∃ en ∈ mixedTable.entries, en.stopReason = none ∧ en.custody = .shadowed ∧ en.shadowChannel = some 0 := by
  unfold JobTable.Ordered State.ServesRow; decide +kernel

theorem test_met_MapReloadAccepted :
    running.ServesRow 0 ∧ running.ports.level[(0 : Port)] = 0 ∧ running.eng.ctl.flight = none ∧
    running.eng.ctl.state ≠ .starting ∧ running.eng.ctl.anchor.toNat % 512 = 0 ∧
    running.eng.ctl.anchor.toNat ≤ 0x3FE00 ∧ ¬ ((0x3FF00 : Word).toNat % 512 = 0 ∧ (0x3FF00 : Word).toNat ≤ 0x3FE00) := by
  unfold State.ServesRow; decide +kernel

theorem test_met_EngineResetLeaves :
    idle.ServesRow 0 ∧ idle.ports.level[(0 : Port)] = 0 ∧
    (granted .closing .doneWrite (.write 0x2A000 [4, 0, 0, 0]) running).ports.access[(0 : Port)] = none ∧
    (granted .closing .doneWrite (.write 0x2A000 [4, 0, 0, 0]) running).arb.holder = some .engine ∧
    (granted .closing .doneWrite (.write 0x2A000 [4, 0, 0, 0]) running).eng.ei.unit
      = some ⟨.closing, ⟨.doneWrite, .write 0x2A000 [4, 0, 0, 0]⟩⟩ := by
  unfold State.ServesRow; decide +kernel

theorem test_met_ClearViolationClears :
    idle.ServesRow 0 ∧ idle.ports.level[(0 : Port)] = 0 ∧ idle.eng.ctl.flight = none ∧
    (lastBurst .starting .start []).eng.ctl.flight ≠ none := by
  unfold State.ServesRow; decide +kernel

theorem test_met_CommandsRefused :
    running.ServesRow 0 ∧ running.ports.level[(0 : Port)] = 0 ∧ running.eng.ctl.flight = none ∧
    (withControl (fun c => { c with flight := some ⟨.start, 0x400, []⟩ }) (inState .starting)).ServesRow 0 ∧
    (withControl (fun c => { c with flight := some ⟨.start, 0x400, []⟩ }) (inState .starting)).eng.ctl.flight ≠ none := by
  unfold State.ServesRow; decide +kernel

theorem test_met_AnchorAndNoteServed :
    idle.ServesRow 0 ∧ idle.ports.level[(0 : Port)] = 0 ∧ idle.eng.ctl.state = .stopped ∧
    (inState .failed).eng.ctl.state = .failed := by
  unfold State.ServesRow; decide +kernel

/-! #### Engine Control -/

/-- A command in flight that has read fourteen bursts. -/
def midBurst (st : EngineState) (k : FlightKind) : State :=
  granted .control (match k with | .start => .startAnchorRead | .mapReload _ => .mapReloadRead) (.read 0x3FFC0 32)
    (withControl (fun c => { c with flight := some ⟨k, 0x3FE00, blockA.take 112⟩ }) (inState st))

theorem test_met_AnchorBurstReads :
    (midBurst .starting .start).eng.ctl.flight = some ⟨.start, 0x3FE00, blockA.take 112⟩ ∧
    0x3FFC0 = 0x3FE00 + 4 * (blockA.take 112).length ∧ (blockA.take 112).length + 8 < 128 ∧
    (midBurst .starting .start).completes .control .startAnchorRead (.read 0x3FFC0 32) ∧
    (midBurst .running (.mapReload true)).eng.ctl.flight = some ⟨.mapReload true, 0x3FE00, blockA.take 112⟩ ∧
    (midBurst .running (.mapReload true)).completes .control .mapReloadRead (.read 0x3FFC0 32) := by
  unfold State.completes; decide +kernel

/-- The faults named are those a block has, as the model's tests find them. -/
def badBlocks : List (List Word × Failure) :=
  [((blockA.set 0 0), ⟨.magic, 0⟩), ((blockA.set 1 0x1008), ⟨.globalTable, 0⟩),
   ((blockA.set 72 3), ⟨.domainField, 7⟩), ((blockA.set 16 0x101), ⟨.domainLevel, 0⟩),
   (((blockA.set 16 0x121).set 24 0x121), ⟨.domainOverlap, 1⟩), ((blockA.set 87 0x001), ⟨.lineField, 7⟩),
   ((blockA.set 103 0x80000000), ⟨.mapField, 3⟩), ((blockA.set 95 0xC0000000), ⟨.anchorExposed, 1⟩),
   ((blockA.set 96 0x0C), ⟨.tableExposed, 2⟩),
   (((((blockA.set 16 0x121).set 17 0x2A000).set 18 0x2A400).set 19 0x2A404).set 98 0x00300000, ⟨.domainExposed, 0⟩)]

theorem test_badBlocks_failAsNamed :
    badBlocks.map (fun x => idle.ports.startTests (x.1 ++ List.replicate 8 0) 0x3FE00) = badBlocks.map fun x => some x.2 := by
  decide +kernel

/-- Every domain and line of `blockA` is disabled, and so are those of the block read whole. -/
theorem blockA_disabled :
    (∀ d : Domain, (blockDomain (blockA ++ List.replicate 8 0) d).enabled = false) ∧
    (∀ n : Line, (blockLine (blockA ++ List.replicate 8 0) n).enabled = false) ∧
    ∀ (p : Port) (g : Fin 64), (blockMap (blockA ++ List.replicate 8 0) p).right g.val = 0 := by decide +kernel

theorem blockA_exposes_nothing (ps : Ports) (p : Port) (base len : Nat) :
    ¬ ps.Exposes (blockA ++ List.replicate 8 0) p base len := by
  rintro ⟨_, x, _, _, hx, h⟩
  have hg : x / 4096 < 64 := by omega
  have := blockA_disabled.2.2 p ⟨x / 4096, hg⟩
  rw [this] at h
  exact absurd h (by decide)

theorem blockA_hasNoFault (ps : Ports) (anchor : Nat) (c : FaultCode) (i : Nat) :
    ¬ ps.StartFault (blockA ++ List.replicate 8 0) anchor c i := by
  have hd := blockA_disabled.1
  have hl := blockA_disabled.2.1
  have hr := blockA_disabled.2.2
  have he := blockA_exposes_nothing ps
  cases c
  case magic => rintro ⟨_, h⟩; exact h (by decide +kernel)
  case globalTable => rintro ⟨_, h⟩; exact h (by decide +kernel)
  case domainField => rintro ⟨d, _, h, _⟩; rw [hd d] at h; exact absurd h (by decide)
  case domainLevel => rintro ⟨d, _, h, _⟩; rw [hd d] at h; exact absurd h (by decide)
  case domainOverlap => rintro ⟨d, _, _, _, h, _⟩; rw [hd d] at h; exact absurd h (by decide)
  case lineField => rintro ⟨n, _, h, _⟩; rw [hl n] at h; exact absurd h (by decide)
  case mapField => rintro ⟨p, _, _, g, h⟩; exact absurd h (by rw [hr p g]; decide)
  case anchorExposed => rintro ⟨p, _, h⟩; exact he _ _ _ h
  case tableExposed =>
    rintro ⟨p, _, h | ⟨d, _, h⟩⟩
    · exact he _ _ _ h
    · exact he _ _ _ h
  case domainExposed => rintro ⟨d, _, _, p, _, h | h | h⟩ <;> exact he _ _ _ h
  all_goals exact id

theorem test_met_StartEnds :
    (lastBurst .starting .start blockA).eng.ctl.flight = some ⟨.start, 0x3FE00, blockA⟩ ∧ blockA.length = 120 ∧
    (lastBurst .starting .start blockA).completes .control .startAnchorRead (.read 0x3FFE0 32) ∧
    bytesWords ((lastBurst .starting .start blockA).mem.readBytes 0x3FFE0 32) = List.replicate 8 0 ∧
    (∀ c i, ¬ (lastBurst .starting .start blockA).ports.StartFault (blockA ++ List.replicate 8 0) 0x3FE00 c i) ∧
    FirstFault ((lastBurst .starting .start (blockA.set 0 0)).ports.StartFault (blockA.set 0 0 ++ List.replicate 8 0) 0x3FE00)
      ⟨.magic, 0⟩ := by
  refine ⟨by decide +kernel, by decide +kernel, by unfold State.completes; decide +kernel, by decide +kernel,
    fun c i => blockA_hasNoFault _ _ c i, ⟨rfl, by decide +kernel⟩, fun i h => absurd h (Nat.not_lt_zero i), ?_⟩
  intro c i h
  exact absurd h (Nat.not_lt_zero _)

theorem test_met_MapReloadEnds :
    (lastBurst .running (.mapReload true) blockA).eng.ctl.flight = some ⟨.mapReload true, 0x3FE00, blockA⟩ ∧
    (lastBurst .running (.mapReload true) blockA).completes .control .mapReloadRead (.read 0x3FFE0 32) ∧
    (lastBurst .running (.mapReload true) blockA).ReloadFrom true (blockA ++ List.replicate 8 0) copiesA ∧
    (lastBurst .stopped (.mapReload false) blockA).ReloadFrom false (blockA ++ List.replicate 8 0)
      (blockCopies (blockA ++ List.replicate 8 0)) ∧
    (∀ c i, ¬ (lastBurst .stopped (.mapReload false) blockA).ports.MapFault (blockA ++ List.replicate 8 0)
      (blockCopies (blockA ++ List.replicate 8 0)) 0x3FE00 c i) ∧
    FirstFault ((lastBurst .running (.mapReload true) (blockA.set 0 0)).ports.MapFault (blockA.set 0 0 ++ List.replicate 8 0)
      copiesA 0x3FE00) ⟨.magic, 0⟩ := by
  refine ⟨by decide +kernel, by unfold State.completes; decide +kernel, .inl ⟨rfl, by decide +kernel⟩,
    .inr ⟨.inl rfl, rfl⟩, fun c i => ?_, ⟨rfl, by decide +kernel⟩, fun i h => absurd h (Nat.not_lt_zero i), ?_⟩
  · have h := blockA_hasNoFault (lastBurst .stopped (.mapReload false) blockA).ports 0x3FE00 c i
    cases c
    case globalTable => exact id
    case domainField => exact id
    case domainLevel => exact id
    case domainOverlap => exact id
    case lineField => exact id
    all_goals exact h
  · intro c i h
    exact absurd h (Nat.not_lt_zero _)

theorem test_reloadTests_failAsNamed :
    idle.reloadTests true ⟨.mapReload true, 0x3FE00, []⟩ (blockA.set 92 2 ++ List.replicate 8 0) = some ⟨.mapField, 1⟩ ∧
    running.reloadTests true ⟨.mapReload true, 0x3FE00, []⟩ (blockA.set 98 0x00300000 ++ List.replicate 8 0)
      = some ⟨.domainExposed, 0⟩ := by decide +kernel

theorem test_met_DrainCompletes :
    (inState .draining).eng.ctl.state = .draining ∧ (inState .draining).eng.jtc.entries = [] ∧
    (inState .draining).eng.jtc.pass = none := by decide +kernel

/-! #### Pins -/

theorem test_met_PartResets :
    (∀ p : Port, running.arb.holder ≠ some (.port p)) ∧ running.arb.holder ≠ some .engine ∧
    (granted .closing .doneWrite (.write 0x2A000 [4, 0, 0, 0]) running).arb.holder = some .engine ∧
    (granted .closing .doneWrite (.write 0x2A000 [4, 0, 0, 0]) running).eng.ei.unit
      = some ⟨.closing, ⟨.doneWrite, .write 0x2A000 [4, 0, 0, 0]⟩⟩ ∧
    (holding 2).arb.holder = some (.port 2) ∧ (holding 2).ports.access[(2 : Port)] = none ∧
    (presented 2 (accessA false true) (holding 2)).ports.access[(2 : Port)] = some (accessA false true) := by decide +kernel

theorem test_met_PinEvents :
    State.reset.resetPin = true ∧ idle.resetPin = false ∧ (idle.eng.chan 0).atBoundary = false ∧
    movingA.state = .moving ∧ movingA.work = .boundary ∧ movingA.moving = some (jobA, readingsA, bodyOf recordA none) ∧
    jobA.record.paceUnit = 0 ∧ pacedA.moving = some (pacedJob, readingsA, bodyOf pacedJob.record none) ∧
    pacedJob.record.paceUnit ≠ 0 ∧ pacedA.progress.unitLeft = 0 ∧
    { pacedFill with progress := { pacedFill.progress with unitLeft := 16 } }.progress.unitLeft ≠ 0 := by decide +kernel

theorem test_frzDeassert_resumesAHeldFill :
    (after .frzDeassert (onChannel { pacedFill with progress := { pacedFill.progress with unitLeft := 16 } }
      (after .frzAssert running))).eng.ei.unit = some ⟨.channel 0, ⟨.writtenMark, .pair 0x103C (.setBits 0x1000)⟩⟩ ∧
    ((after .frzDeassert (onChannel pacedA (after .frzAssert running))).eng.chan 0) = pacedA := by decide +kernel

theorem test_met_FiltersBeginUnknown :
    (∃ t, exec .pinReset running = .next t) ∧ (∃ t, exec (.powerOnReset []) running = .next t) ∧
    idle.ServesRow 0 ∧ idle.ports.level[(0 : Port)] = 0 ∧ (∃ t, exec (.engineReset 0) idle = .next t) ∧
    (inState .draining).eng.ctl.FlightLaw ∧ exec .drainComplete (inState .draining) = .next (after .drainComplete (inState .draining)) ∧
    (inState .draining).eng.timebase ≠ .cleared ∧ (after .drainComplete (inState .draining)).eng.timebase = .cleared ∧
    (⟨some true, 7⟩ : Filter).run ≤ 7 :=
  ⟨⟨_, rfl⟩, ⟨_, rfl⟩, test_met_ServesRow.1 0, by decide +kernel, ⟨_, rfl⟩,
   ⟨fun h => absurd h (by decide +kernel), fun ⟨_, _, h⟩ => absurd (show (none : Option Flight) = some _ from h) (fun x => nomatch x)⟩, rfl,
   by decide +kernel, by decide +kernel, by decide⟩

/-! #### Ports and arbiter -/

theorem test_met_PortAccessPresented :
    (idle.ports.access[(1 : Port)] = none ∧
      (withArbiter (fun x => x.setLock 1 (.broken false)) idle).arb.lock[(1 : Port)] = .broken false ∧
      idle.arb.lock[(1 : Port)] ≠ .broken false ∧
      (presented 1 (accessA true true) idle).ports.access[(1 : Port)] ≠ none) ∧
    rowAccess (.start 1) = some (1, ⟨0x10001, true, 0b1111, 1, false⟩) ∧
    rowAccess (.unnamedCommandCode 0 7) = some (0, ⟨0x10001, true, 0b1111, 7, false⟩) ∧
    rowAccess (.registerDenied 3 .violation 0) = some (3, ⟨0x10004, true, 0, 0, false⟩) ∧
    (holding 2).ports.access[(1 : Port)] = none ∧ ¬ (holding 2).ServesRow 1 :=
  ⟨by decide +kernel, rfl, rfl, rfl, rfl, test_met_ServesRow.2.2.2.1⟩

theorem test_met_GrantServesSram :
    (∀ a ∈ [accessA true false, accessA false true, { accessA true true with word := 0xFFFF }],
      (presented 0 a running).mem.wf = true ∧ (presented 0 a running).arb.holder = none ∧
      (presented 0 a running).resetPin = false ∧ (presented 0 a running).ports.access[(0 : Port)] = some a ∧
      (presented 0 a running).arb.lastGranted.following.find? (presented 0 a running).waiting = some (.port 0) ∧
      a.word < 0x10000) ∧
    (∀ a, (presented 0 a running).ports.Allows 0 a) ∧ (idle.arb.lock[(0 : Port)] = .free) ∧
    (0xFFFF : BitVec 17) < 0x10000 ∧ idle.eng.working = false ∧ (running.eng.domain 1).enabled = false ∧
    (withArbiter (fun x => x.setLock 0 (.broken true)) (presented 0 (accessA true true) running)).Serves 0 (accessA true true) ∧
    (withArbiter (fun x => x.setLock 0 (.broken true)) (presented 0 (accessA true true) running)).arb.lock[(0 : Port)]
      = .broken true :=
  ⟨by decide +kernel, fun _ => Or.inl rfl, by decide +kernel, by decide, by decide +kernel, by decide +kernel,
   by unfold State.Serves; decide +kernel, rfl⟩

theorem test_portWrite_raisesNothingWhileStopped :
    (after .arbiterGrant (presented 0 { accessA true false with word := 0xA900 }
      { running with eng := { running.eng with ctl := idle.eng.ctl } })).eng.post = running.eng.post ∧
    (after .arbiterGrant (presented 0 { accessA true false with word := 0xA900, enables := 0 } running)).eng.post
      = running.eng.post := by decide +kernel

/-- Port 1, above level 0, with a map that lets it read every page. -/
def mapped (s : State) : State := { s with ports := { s.ports with map := s.ports.map.set 1 (some mapRead) } }

theorem test_met_PageLaw :
    (presented 1 (accessA true false) (mapped running)).ServedBy .arbiterGrant 1 (accessA true false)
      ((mapped running).arb.AfterGrant 1 false) ∧
    ¬ (presented 1 (accessA true false) (mapped running)).ports.Allows 1 (accessA true false) ∧
    (presented 1 (accessA false false) (holding 1)).ServedBy .lockedSequenceAccess 1 (accessA false false)
      ((holding 1).arb.AfterSequence 1 false) ∧
    ¬ (presented 1 (accessA false false) (holding 1)).ports.Allows 1 (accessA false false) ∧
    (accessA true true).word < 0x10000 := by
  refine ⟨.inl ⟨rfl, by unfold State.Serves; decide +kernel, by decide +kernel⟩, ?_,
    .inr ⟨rfl, by decide +kernel, rfl, by decide +kernel⟩, ?_, by decide⟩
  · rintro (h | ⟨m, hm, h⟩)
    · exact absurd h (by decide +kernel)
    · obtain rfl : mapRead = m := Option.some.inj hm
      revert h; decide +kernel
  · rintro (h | ⟨m, hm, _⟩)
    · exact absurd h (by decide +kernel)
    · exact nomatch (show (none : Option PageMap) = some m from hm)

/-- The Engine Interface with a unit that waits for its grant. -/
def unitChosen (s : State) : State :=
  { s with eng := { s.eng with ei := { s.eng.ei with unit := some ⟨.closing, ⟨.doneWrite, .write 0 [4, 0, 0, 0]⟩⟩ } } }

/-- A port access that reads a word. -/
def wordA (w : BitVec 17) : PortAccess := { accessA false false with word := w }

theorem test_met_GrantsOtherwise :
    (presented 2 (wordA 0x10005) running).ServedBy .arbiterGrant 2 (wordA 0x10005) (running.arb.AfterGrant 2 false) ∧
    (presented 2 (wordA 0x10004) (holding 2)).ServedBy .lockedSequenceAccess 2 (wordA 0x10004)
      ((holding 2).arb.AfterSequence 2 false) ∧
    (0x10004 : BitVec 17) = 0x10000 + BitVec.ofNat 17 (regList.idxOf .violation) ∧
    Spells (.unnamedCommandCode 2 6) 2 ⟨0x10001, true, 0b1111, 0xFFFFFFF6, true⟩ ∧
    Spells (.registerDenied 2 .note 0b0111) 2 ⟨0x10003, true, 0b0111, 5, false⟩ ∧
    (unitChosen running).arb.holder = none ∧ (unitChosen running).resetPin = false ∧
    (unitChosen running).arb.lastGranted.following.find? (unitChosen running).waiting = some .engine ∧
    State.reset.resetPin = true ∧ (granted .closing .doneWrite (.write 0 [4, 0, 0, 0]) running).arb.holder ≠ none := by
  refine ⟨.inl ⟨rfl, by unfold State.Serves; decide +kernel, by decide +kernel⟩,
    .inr ⟨rfl, by decide +kernel, by decide +kernel, by decide +kernel⟩, by decide +kernel,
    ⟨_, rfl, by decide +kernel⟩, ⟨_, rfl, by decide +kernel⟩, by decide +kernel⟩

theorem test_lockedSequence_servesARegisterWrite :
    (after .lockedSequenceAccess (presented 0 ⟨0x10003, true, 0b1111, 0x04, true⟩
      { holding 0 with eng := { (holding 0).eng with notify := 0x05 } })).eng.notify = 0x01 := by decide +kernel

/-- Port 0 in a locked sequence, some accesses counted, its next access presented. -/
def inSequence (n : Nat) (a : PortAccess) : State :=
  withArbiter (fun x => { x.setLock 0 .held with holder := some (.port 0), holdCount := n }) (presented 0 a running)

theorem test_met_LockedSequence :
    (∀ n ∈ [1, 2, 3], (inSequence n (accessA true true)).mem.wf = true ∧
      (inSequence n (accessA true true)).arb.holder = some (.port 0) ∧
      (inSequence n (accessA true true)).ports.access[(0 : Port)] = some (accessA true true) ∧
      (inSequence n (accessA true true)).arb.holdCount = n) ∧
    (accessA true true).word < 0x10000 ∧ (inSequence 1 (accessA true true)).ports.Allows 0 (accessA true true) ∧
    (withArbiter (fun x => x.setLock 0 .held) running).arb.lock[(0 : Port)] = .held ∧
    (withArbiter (fun x => x.setLock 0 (.broken true)) running).arb.lock[(0 : Port)] = .broken true ∧
    running.ports.access[(0 : Port)] = none ∧ running.arb.lock[(0 : Port)] = .free ∧ running.eng.working = true ∧
    (running.eng.domain 0).enabled = true ∧ running.eng.post.address[(0 : Domain)] = some (4 * 0xA900) :=
  ⟨by decide +kernel, by decide +kernel, Or.inl rfl, by decide +kernel⟩

theorem test_lockedSequence_writeRaisesAttention :
    (after .lockedSequenceAccess (inSequence 1 { accessA true true with word := 0xA900 })).eng.post.attention[(0 : Domain)]
      = .posted := by decide +kernel

theorem test_lockedSequence_fourthAccessBreaks :
    (after .lockedSequenceAccess (inSequence 3 (accessA true true))).arb.lock[(0 : Port)] = .broken false ∧
    (after .lockedSequenceAccess (inSequence 3 (accessA true false))).arb.lock[(0 : Port)] = .free := by decide +kernel

theorem test_lockedSequence_fifthAccessIsMarked :
    (after (.portAccess 0 (accessA true true)) (withArbiter (fun x => x.setLock 0 (.broken false)) running)).ports.broken = 1 := by
  decide +kernel

theorem test_met_EngineAccessBytes :
    Memory.wf [(0, 1), (0x3FFFF, 2)] = true ∧ (EngineAccess.write 0x3FFFF [1]).inSram = true ∧
    (EngineAccess.pair 0x3FFFC .claim).inSram = true ∧ (EngineAccess.pair 0x3FFFD .claim).inSram = false := by decide +kernel

/-! #### Intake -/

/-- A pass of domain 0 in flight at a step, with its access granted, over a table. -/
def inPass (st : PassStep) (t : EngineStep) (a : EngineAccess) (j : JobTable) : State :=
  granted .intake t a (onTable { j with pass := some ⟨0, st, false⟩ } running)

/-- Domain 0 posted. -/
def posted : State := { running with eng := running.eng.setAttention 0 .posted }

theorem test_met_IntakePassBegins :
    posted.eng.ctl.state = .running ∧ posted.eng.ctl.frz = false ∧ posted.eng.jtc.pass = none ∧
    posted.eng.jtc.rotation = 7 ∧
    ([posted.eng.jtc.rotation + 1, posted.eng.jtc.rotation + 2, posted.eng.jtc.rotation + 3, posted.eng.jtc.rotation + 4,
      posted.eng.jtc.rotation + 5, posted.eng.jtc.rotation + 6, posted.eng.jtc.rotation + 7,
      posted.eng.jtc.rotation].find? fun d =>
        (posted.eng.domain d).enabled && (decide (posted.eng.post.attention[d] = .posted) ||
          (decide (posted.eng.post.attention[d] = .held) &&
            decide (0 < min (8 - posted.eng.jtc.countOf d) (48 - posted.eng.jtc.entries.length))))) = some 0 := by
  decide +kernel

/-- A post word is read. -/
def readingPostWord (w : Word) : State :=
  inPass .postWord .postWordRead (.read 0x2A400 4) (tableOf []) |> withWords 0x2A400 [w]

theorem test_met_PostWordRead :
    (readingPostWord 0x8001).completes .intake .postWordRead (.read 0x2A400 4) ∧
    (readingPostWord 0x8001).eng.jtc.pass = some ⟨0, .postWord, false⟩ ∧
    (slotList.filter fun k => ((readingPostWord 0x8001).mem.word 0x2A400).getLsbD k.val) = [0, 15] ∧
    (slotList.filter fun k => ((readingPostWord 0).mem.word 0x2A400).getLsbD k.val) = [] := by
  unfold State.completes; decide +kernel

theorem test_met_SlotReadClassifies :
    (recordA.request ≠ 1 ∧ recordA.w0 = 1 ∧ { recordA with w1 := 0x00004311 }.request = 1 ∧
      { recordA with w0 := 0 }.w0 ≠ 1) ∧
    (inPass (.slots 0 none [1] 8 []) .slotRead (.read 0x2A000 32) (tableOf [])).completes .intake .slotRead
      (.read 0x2A000 32) ∧
    (inPass (.slots 0 none [1] 8 []) .slotRead (.read 0x2A000 32) (tableOf [])).eng.jtc.pass
      = some ⟨0, .slots 0 none [1] 8 [], false⟩ ∧
    (inPass (.slots 0 (some [1]) [1] 8 []) .slotRead (.read 0x2A030 16) (tableOf [])).completes .intake .slotRead
      (.read 0x2A030 16) ∧
    (inPass (.slots 1 (some [1]) [] 8 []) .slotRead (.read 0x2A070 16) (tableOf [])).eng.jtc.pass
      = some ⟨0, .slots 1 (some [1]) [] 8 [], false⟩ := by
  unfold State.completes; decide +kernel

theorem test_slotRead_takesAReadyRecord :
    (after .slotRead (inPass (.slots 1 (some [1, 0x4301]) [] 8 []) .slotRead (.read 0x2A070 16) (tableOf []))).eng.ei.unit
      = some ⟨.intake, ⟨.clearingPair, .pair 0x2A400 (.clearBits 2)⟩⟩ := by decide +kernel

theorem test_met_PassCommandsCarryOn :
    (inPass (.clearing [⟨0, .take recordA⟩]) .clearingPair (.pair 0x2A400 (.clearBits 1)) (tableOf [])).completes .intake
      .clearingPair (.pair 0x2A400 (.clearBits 1)) ∧
    (inPass (.report []) .reportWrite (.write 0x2A404 [1, 0, 0, 0]) (tableOf [])).completes .intake .reportWrite
      (.write 0x2A404 [1, 0, 0, 0]) ∧
    (inPass (.taken 0 []) .takenWrite (.write 0x2A000 [2, 0, 0, 0]) (tableOf [entryA])).completes .intake .takenWrite
      (.write 0x2A000 [2, 0, 0, 0]) ∧
    (inPass (.taken 0 []) .takenWrite (.write 0x2A000 [2, 0, 0, 0]) (tableOf [entryA])).eng.jtc.pass
      = some ⟨0, .taken 0 [], false⟩ := by
  unfold State.completes; decide +kernel

/-- The engine RUNNING with one entry in a custody state. -/
def holdingOne (c : Custody) : Engine :=
  (running.eng).setJtc (tableOf [{ entryA with custody := c, channel := some 0, shadowChannel := some 1 }])

theorem test_met_DecisionsCarriedOut :
    (tableOf [{ entryA with custody := .closing }]).find 0 = some { entryA with custody := .closing } ∧
    (tableOf [{ entryA with custody := .created }]).find 0 = some { entryA with custody := .created } ∧
    (tableOf [entryA]).Ordered ∧ recordA.line = none ∧ recordL.line = some 0 ∧
    ({ tableOf [entryA] with latch := (Vector.replicate 8 false).set 0 true } : JobTable).latch[(0 : Line)] = true ∧
    (tableOf [entryA]).latch[(0 : Line)] = false ∧
    ((holdingOne .closing).jtc.holding 0 0).isSome = true ∧
    (((holdingOne .pending).jtc.holding 0 0).map fun en => en.custody) = some .pending ∧
    (((holdingOne .armed).jtc.holding 0 0).map fun en => en.custody) = some .armed ∧
    (((holdingOne .active).jtc.holding 0 0).map fun en => en.custody) = some .active ∧
    (((holdingOne .shadowed).jtc.holding 0 0).map fun en => en.custody) = some .shadowed ∧
    (running.eng.intakeOutcome 0 recordA) = none ∧
    (running.eng.intakeOutcome 0 { recordA with w6 := 0 }) = some (faultResult .badJob .record .start 0 0) := by
  unfold JobTable.Ordered; decide +kernel

set_option synthInstance.maxHeartbeats 200000 in
set_option synthInstance.maxSize 1024 in
theorem test_met_validation :
    running.eng.Invalid { recordA with w6 := 0x10001 } ∧ running.eng.Invalid { recordA with w1 := 0x4300 } ∧
    running.eng.Invalid { recordA with w1 := 0x00904301 } ∧ ¬ running.eng.Invalid recordL ∧
    ¬ running.eng.Invalid { recordA with w6 := 0x10000, w4 := 0x3FFFF } ∧
    ¬ running.eng.Invalid { recordA with w1 := 0x00004311 } ∧
    (recordL.w1.extractLsb' 20 4).toNat = 8 + (0 : Line).val ∧ (running.eng.line 0).owner ≠ 1 := by
  unfold Engine.Invalid; decide +kernel

theorem test_intakeOutcome_lineOfAnotherDomain :
    running.eng.intakeOutcome 1 recordL = some (faultResult .lineNotOwned .line .start 0 0) ∧
    running.eng.intakeOutcome 0 recordL = none := by decide +kernel

/-! #### Dispatch and reports -/

/-- A table with a pending head of PRIORITY 5 after a pending entry of PRIORITY 3. -/
def headTable : JobTable := tableOf [entryA, { entryA with place := 1, record := recordB, slot := 1 }]

theorem test_met_DispatchTakesHead :
    (∀ c : ChannelId, (dispatched c (onTable headTable running)).eng.disp.sent = some c ∧
      ((dispatched c (onTable headTable running)).eng.chan c).state = .idle) ∧
    (dispatched 5 (onTable headTable (inState .draining))).eng.disp.sent = some 5 ∧
    headTable.Ordered ∧ headTable.Heads { entryA with place := 1, record := recordB, slot := 1 } ∧
    (tableOf [{ entryA with resumeFromContext := true, claim := some ⟨0x1050, 0x20000⟩ }]).Heads
      { entryA with resumeFromContext := true, claim := some ⟨0x1050, 0x20000⟩ } ∧
    (∀ x ∈ (tableOf [{ entryA with custody := .active }]).entries, x.custody ≠ .pending) ∧ running.eng.disp.sent = none := by
  unfold JobTable.Ordered JobTable.Heads; decide +kernel

/-- A free channel with a shadow and its conditional dispatch sent. -/
def freeA (n : BitVec 3) : Channel :=
  { Channel.empty with state := .free, shadow := some shadowA, reports := [.conditional n] }

theorem test_met_ConditionalDispatchAnswered :
    ((onChannel (freeA 3) (onTable headTable running)).eng.chan 0).reports = [.conditional 3] ∧
    ((onChannel (freeA 3) (onTable headTable running)).eng.chan 0).state = .free ∧
    ((onChannel (freeA 3) (onTable headTable running)).eng.chan 0).shadow = some shadowA ∧
    (onChannel (freeA 3) (onTable headTable running)).eng.ctl.state = .running ∧
    headTable.Ordered ∧ headTable.Heads { entryA with place := 1, record := recordB, slot := 1 } ∧
    (3 : BitVec 3) < recordB.priority ∧ ¬ ((5 : BitVec 3) < recordB.priority) ∧
    (∀ x ∈ headTable.entries, x.custody = .pending → ¬ (5 : BitVec 3) < x.record.priority) ∧
    running.eng.frozen = false ∧ (after .frzAssert running).eng.frozen = true ∧ shadowA.job.record.paceUnit = 0 ∧
    pacedJob.record.paceUnit ≠ 0 := by
  unfold JobTable.Ordered JobTable.Heads; decide +kernel

theorem test_conditionalDispatch_resumesTheShadow :
    (after (.conditionalDispatch 0) (onChannel (freeA 5) running)).eng.ei.unit
      = some ⟨.channel 0, ⟨.burstRead, .read 0x10020 32⟩⟩ := by decide +kernel

/-- Channel 0 with one report made, and an entry in a custody state. -/
def reporting (r : Report) (c : Custody) (stop : Option StopReason) (st : EngineState) : State :=
  onChannel { Channel.empty with reports := [r] } (onTable (tableOf [{ entryA with custody := c, stopReason := stop }]) (inState st))

theorem test_met_ReportsRecorded :
    (∀ r ∈ [Report.contextClaim 0 ⟨0x1050, 0x20000⟩, .parkShadow 0, .parkContext 0 32, .resumeShadow 0,
        .handoff 0 (plainResult .ok 64) none],
      ((reporting r .active none .running).eng.chan 0).reports = r :: [] ∧
      ((reporting r .active (some .cancel) .draining).eng.chan 0).reports = r :: []) ∧
    (reporting (.parkShadow 0) .active none .running).eng.jtc.Ordered ∧
    { entryA with custody := .active } ∈ (reporting (.parkShadow 0) .active none .running).eng.jtc.entries ∧
    { entryA with custody := .active, stopReason := some .cancel }
      ∈ (reporting (.parkShadow 0) .active (some .cancel) .draining).eng.jtc.entries ∧
    { entryA with custody := .shadowed } ∈ (reporting (.handoff 0 (plainResult .ok 64) none) .shadowed none .draining).eng.jtc.entries ∧
    (reporting (.parkShadow 0) .active none .draining).eng.ctl.state = .draining ∧
    (reporting (.parkShadow 0) .active none .running).eng.ctl.state ≠ .draining := by
  unfold JobTable.Ordered; decide +kernel

theorem test_parkContext_ofACancelledJobCloses :
    (after (.parkContextReport 0) (reporting (.parkContext 0 32) .active (some .cancel) .running)).eng.jtc.entries.map
      (fun en => en.result) = [some (plainResult .cancelled 32)] := by decide +kernel

/-! #### Lines, Timebase and deadlines -/

/-- A line event on its way to the JTC, over a table. -/
def lineSent (st : EngineState) (j : JobTable) : State :=
  onTable { j with lineEvents := (Vector.replicate 8 0).set 0 1 } (inState st)

/-- An entry armed on line 0. -/
def armedA : Entry := { entryA with record := recordL, custody := .armed }

theorem test_met_LineEventTaken :
    (lineSent .running (tableOf [armedA])).eng.jtc.lineEvents[(0 : Line)] = 0 + 1 ∧
    (lineSent .running (tableOf [armedA])).eng.jtc.Ordered ∧
    ((lineSent .running (tableOf [armedA])).eng.jtc.entries.filter fun x => x.custody = .armed ∧ x.record.line = some 0)
      = [armedA] ∧
    ((lineSent .running (tableOf [entryA])).eng.jtc.entries.filter fun x => x.custody = .armed ∧ x.record.line = some 0) = [] ∧
    (lineSent .running (tableOf [entryA])).eng.jtc.latch[(0 : Line)] = false ∧
    (lineSent .running { tableOf [] with latch := (Vector.replicate 8 false).set 0 true }).eng.jtc.latch[(0 : Line)] = true ∧
    (lineSent .draining (tableOf [armedA])).eng.ctl.state = .draining := by
  unfold JobTable.Ordered; decide +kernel

theorem test_lineEvent_onALatchedLineOverruns :
    (after (.lineEvent 0) (lineSent .running { tableOf [] with latch := (Vector.replicate 8 false).set 0 true })).eng.jtc.overrun[(0 : Line)]
      = true := by decide +kernel

theorem test_met_FilterSamples :
    ({ lineA with count := 0 } : LineEntry).count.val = 0 ∧ lineA.count.val ≤ 1 + 1 ∧ 0 + 1 < lineA.count.val ∧
    lineA.edge = 1 ∧ ({ lineA with edge := 2 } : LineEntry).edge = 2 ∧ ({ lineA with edge := 3 } : LineEntry).edge = 3 := by
  decide +kernel

theorem test_filter_countOfTwo :
    Filter.sample ⟨some false, 0⟩ lineA true = (⟨some false, 1⟩, false) ∧
    Filter.sample ⟨some false, 1⟩ lineA true = (⟨some true, 0⟩, true) := by decide +kernel

theorem test_met_TapTickCounts :
    ((onChannel pacedA running).eng.chan 0).moving = some (pacedJob, readingsA, bodyOf pacedJob.record none) ∧
    pacedJob.record.paceUnit ≠ 0 ∧ ((onChannel pacedA running).eng.chan 0).state = .moving ∧
    ((onChannel pacedA running).eng.chan 0).work = .boundary ∧ (onChannel pacedA running).eng.frozen = false ∧
    ((onChannel pacedA running).eng.chan 0).progress.unitLeft = 0 ∧
    ((onChannel pacedA running).eng.count + 1).toNat % 2 ^ pacedJob.record.paceTap = 0 ∧
    ((onChannel { pacedA with state := .saving } running).eng.chan 0).state ≠ .moving ∧
    (running.eng.chan 1).moving = none ∧
    ((onChannel pacedFill running).eng.chan 0).moving = some (pacedFillJob, readingsA, bodyOf pacedFillJob.record none) ∧
    (bodyOf pacedFillJob.record none).op = .fill ∧ (bodyOf pacedJob.record none).op ≠ .fill ∧
    pacedFill.progress.writtenDest = false ∧ readingsA.dest = some ⟨0x1030, { dataA with base := 0x14000 }⟩ ∧
    running.eng.timebase = .running ∧ idle.eng.timebase ≠ .running ∧ running.eng.jtc.Ordered := by
  unfold JobTable.Ordered; decide +kernel

theorem test_tapTick_startsTheNextUnit :
    ((after (.tapTick 0) (onChannel pacedA running)).eng.chan 0).progress.unitLeft = 16 ∧
    (after (.tapTick 0) (onChannel pacedA running)).eng.ei.unit = some ⟨.channel 0, ⟨.burstRead, .read 0x10020 16⟩⟩ ∧
    (after (.tapTick 0) (onChannel pacedFill running)).eng.ei.unit
      = some ⟨.channel 0, ⟨.writtenMark, .pair 0x103C (.setBits 0x1000)⟩⟩ := by decide +kernel

/-- An entry whose deadline count has reached 0, in a custody state. -/
def dueA (c : Custody) (stop : Option StopReason) : Entry :=
  { entryA with custody := c, expiryDue := true, stopReason := stop, channel := some 0, shadowChannel := some 0 }

theorem test_met_DeadlineExpiryTaken :
    (∀ en ∈ [dueA .pending none, dueA .armed none, dueA .created none, dueA .active none, dueA .shadowed none,
        dueA .active (some .cancel), dueA .shadowed (some .cancel), dueA .closing none],
      ((onTable (tableOf [en]) running).eng.jtc.entries.find? fun x => x.expiryDue) = some en) ∧
    (tableOf [dueA .pending none]).Ordered ∧ (∀ x ∈ (tableOf [entryA]).entries, x.expiryDue = false) := by
  unfold JobTable.Ordered; decide +kernel

theorem test_deadlineExpiry_asksTheChannel :
    (after .deadlineExpiry (onTable (tableOf [dueA .active none]) running)).eng.chan 0
      = { Channel.empty with stops := [⟨0, .deadline⟩] } ∧
    (after .deadlineExpiry (onTable (tableOf [dueA .active (some .cancel)]) running)).eng.chan 0 = Channel.empty := by
  decide +kernel

theorem test_tapTick_takesDue :
    ((after (.tapTick 0) (onTable (tableOf [dueA .pending none]) running)).eng.jtc.entries.map fun en =>
      (en.custody, en.expiryDue)) = [(.closing, false)] ∧
    ((after (.tapTick 0) (onTable (tableOf [dueA .active none]) running)).eng.chan 0).stops = [⟨0, .deadline⟩] := by
  decide +kernel

/-! #### Requests that reach a channel -/

/-- A message on its way to channel 0. -/
def withStops (ch : Channel) (ms : List StopMessage) : State := onChannel { ch with stops := ms } running

/-- A drop request on its way to channel 0. -/
def withDrops (ch : Channel) (ms : List StopMessage) : State := onChannel { ch with drops := ms } running

theorem test_met_StopAndDropRequestsArrive :
    ((withStops movingA [⟨0, .cancel⟩]).eng.chan 0).stops = [⟨0, .cancel⟩] ∧ movingA.runs 0 = true ∧
    movingA.runs 1 = false ∧ movingA.atBoundary = true ∧ movingA.stop = none ∧ movingA.shadow = none ∧
    movingA.copies = some readingsA ∧ checkingA.runs 0 = true ∧ checkingA.atBoundary = false ∧
    ({ movingA with shadow := some shadowA } : Channel).shadow = some shadowA ∧ (inState .draining).eng.ctl.state = .draining ∧
    (after .frzAssert running).eng.ctl.state ≠ .draining ∧ (after .frzAssert running).eng.frozen = true ∧
    running.eng.ctl.state ≠ .draining ∧ running.eng.frozen = false ∧
    ((withDrops movingA [⟨0, .drain⟩]).eng.chan 0).drops = [⟨0, .drain⟩] ∧
    ((withDrops { movingA with shadow := some shadowA } [⟨5, .drain⟩]).eng.chan 0).shadow = some shadowA ∧
    shadowA.job.place = 5 ∧ ((withDrops { movingA with shadow := some shadowA } [⟨5, .drain⟩]).eng.chan 0).state ≠ .free ∧
    ((withDrops (freeA 3) [⟨5, .drain⟩]).eng.chan 0).state = .free ∧
    ((withDrops (freeA 3) [⟨5, .drain⟩]).eng.chan 0).reports = [] ++ [.conditional 3] := by decide +kernel

theorem test_stopRequest_atABoundaryIsTaken :
    (after (.stopRequest 0) (withStops movingA [⟨0, .cancel⟩])).eng.chan 0
      = { Channel.empty with reports := [.handoff 0 (plainResult .cancelled 32) none] } := by decide +kernel

/-- A stop request that reaches channel 0 at a boundary with its bank full. -/
def stopWithShadow (s : State) : Channel :=
  (after (.stopRequest 0) (onChannel { movingA with shadow := some shadowA, stops := [⟨0, .cancel⟩] } s)).eng.chan 0

theorem test_fullBank_inDrainingIsHandedOver :
    (stopWithShadow (inState .draining)).state = .idle ∧ (stopWithShadow (inState .draining)).reports
      = [.handoff 0 (plainResult .cancelled 32) none, .handoff 5 (plainResult .drained 32) none] := by decide +kernel

theorem test_fullBank_whileFrozenIsResumed :
    (stopWithShadow (after .frzAssert running)).state = .moving ∧ (stopWithShadow (after .frzAssert running)).work = .boundary ∧
    (stopWithShadow (after .frzAssert running)).reports
      = [.handoff 0 (plainResult .cancelled 32) none, .resumeShadow 5] := by decide +kernel

/-- A message of the dispatcher on its way to channel 0. -/
def withYields (ch : Channel) (ms : List YieldMessage) : State := onChannel { ch with yields := ms } running

/-- `jobA` with a context claimed. -/
def claimedJob : Job := { jobA with claim := some ⟨0x1050, 0x20000⟩ }

theorem test_met_YieldMessagesArrive :
    ((withYields movingA [.ask 0]).eng.chan 0).yields = [.ask 0] ∧
    ((withYields movingA [.withdraw 0]).eng.chan 0).yields = [.withdraw 0] ∧
    movingA.runs 0 = true ∧ (checkingA.atBoundary && !running.eng.frozen) = false ∧ checkingA.runs 0 = true ∧
    movingA.runs 3 = false ∧ movingA.job = some jobA ∧ jobA.place = 0 ∧ movingA.atBoundary = true ∧
    running.eng.frozen = false ∧ movingA.copies = some readingsA ∧ movingA.stop = none ∧ movingA.shadow = none ∧
    running.eng.ctl.state = .running ∧
    ((withYields { movingA with shadow := some shadowA, job := some claimedJob } [.ask 0]).eng.chan 0).shadow = some shadowA ∧
    claimedJob.claim = some ⟨0x1050, 0x20000⟩ ∧ claimedJob.place = 0 := by decide +kernel

theorem test_yield_withAFullBankWritesTheSaveArea :
    (after (.yieldRequest 0) (withYields { movingA with shadow := some shadowA, job := some claimedJob } [.ask 0])).eng.ei.unit
      = some ⟨.channel 0, ⟨.saveAreaWrite, .write 0x20000 (wordsBytes [1, 0x00010000, 32, 32, 32, 0xFFFFFFFF, 0, 0])⟩⟩ := by
  decide +kernel

/-! #### The window check -/

/-- A gate descriptor of TARGET_LEVEL 0 with its service record at an address. -/
def gateA (service : Word) : Descriptor := ⟨0, 0, service, 0x132⟩

/-- A context descriptor, free or held, 4 KB at 0x20000. -/
def contextA (k : Word) : Descriptor := ⟨0x20000, 0xFFF, 0, 0x730 ||| k⟩

theorem test_met_CheckStepsFourToSix :
    dataA.kind.getLsbD 8 = true ∧ (dataA.kind.extractLsb' 0 4).toNat = 1 ∧
    ({ dataA with kind := 0x631 } : Descriptor).kind.getLsbD 8 = false ∧
    ((gateA 0x2000).kind.extractLsb' 0 4).toNat = 2 ∧ (gateA 0x2000).service.toNat % 32 = 0 ∧
    (gateA 0x3FFE0).service.toNat + 31 ≤ 0x3FFFF ∧ ¬ ((gateA 0x3FFE1).service.toNat % 32 = 0) ∧
    ((contextA 3).kind.extractLsb' 0 4).toNat = 3 ∧ ((contextA 4).kind.extractLsb' 0 4).toNat = 4 ∧
    dataA.base.toNat + dataA.limit.toNat ≤ 0x3FFFF ∧
    ({ dataA with base := 0x3F000 } : Descriptor).base.toNat + dataA.limit.toNat ≤ 0x3FFFF ∧
    ¬ (({ dataA with base := 0x3F001 } : Descriptor).base.toNat + dataA.limit.toNat ≤ 0x3FFFF) := by decide +kernel

theorem test_checkDescriptor_gateNamedByAService :
    checkDescriptor .source true 0 (some (0, 4)) (gateA 0x2000) = some .gateNested ∧
    checkDescriptor .source false 0 (some (0, 4)) (gateA 0x2000) = some .wrongKind := by decide +kernel

theorem test_met_CheckStepsOthers :
    (0x1000 : BitVec 16).extractLsb' 12 4 ≠ 0 ∧ (0x0C00 : BitVec 16).extractLsb' 0 10 = 0 ∧
    (0x0C00 : BitVec 16).extractLsb' 12 4 = 0 ∧ (0x0002 : BitVec 16).extractLsb' 0 10 ≠ 0 ∧
    2 ≤ ((0x0002 : BitVec 16).extractLsb' 0 9).toNat ∧ ((0x0002 : BitVec 16).extractLsb' 0 9).toNat < 3 ∧
    dataA.present = true ∧ checkKind .source false dataA = none ∧ windowInside .source dataA = true ∧
    ({ dataA with kind := 0x711 } : Descriptor).level < (2 : Level) ∧ (2 : Level) ≤ dataA.level ∧
    ({ dataA with kind := 0x531 } : Descriptor).canRead = false ∧ ({ dataA with kind := 0x331 } : Descriptor).canWrite = false ∧
    dataA.canRead = true ∧ dataA.canWrite = true ∧ dataA.limit.toNat < 0xFFD + 4 - 1 ∧ ¬ dataA.limit.toNat < 0xFFC + 4 - 1 ∧
    checkKind .context false (contextA 3) = none ∧ windowInside .context (contextA 3) = true ∧
    checkKind .gate false (gateA 0x2000) = none ∧ windowInside .gate (gateA 0x2000) = true ∧
    ({ dataA with kind := 0x331 } : Descriptor).canRead = true ∧ ({ dataA with kind := 0x531 } : Descriptor).canWrite = true ∧
    checkKind .source false { dataA with kind := 0x331 } = none ∧ checkKind .dest false { dataA with kind := 0x531 } = none ∧
    running.eng.ctl.copies = some copiesA ∧ recordA.w1.extractLsb' 0 3 = 1 ∧ recordS.w1.extractLsb' 0 3 = 3 ∧
    recordG.w1.extractLsb' 0 3 = 4 ∧ serviceA.w0.extractLsb' 0 3 = 1 ∧ ¬ serviceA.w2.extractLsb' 0 10 = 0 ∧
    recordA.w3.extractLsb' 0 10 = 0 ∧ recordA.w3.extractLsb' 12 4 = 0 := by decide +kernel

theorem test_operands_inTheirOrder :
    firstOperands recordC = [.source, .dest, .context] ∧ firstOperands recordS = [.source] ∧
    serviceOperands recordC serviceA = [.source, .dest, .param, .context] := by decide +kernel

theorem test_checkDescriptor_oneRightIsEnough :
    checkDescriptor .source false 0 (some (0xFFC, 4)) { dataA with kind := 0x331 } = none ∧
    checkDescriptor .dest false 0 (some (0xFFD, 4)) { dataA with kind := 0x531 } = some .range := by decide +kernel

/-- Channel 0 with an access granted. -/
def channelUnit (ch : Channel) (t : EngineStep) (a : EngineAccess) (s : State) : State :=
  granted (.channel 0) t a (onChannel ch s)

theorem test_met_RunningWriteBeginsCheck :
    (channelUnit checkingA .runningWrite (.write 0x2A000 [3, 0, 0, 0]) running).completes (.channel 0) .runningWrite
      (.write 0x2A000 [3, 0, 0, 0]) ∧
    ((channelUnit checkingA .runningWrite (.write 0x2A000 [3, 0, 0, 0]) running).eng.chan 0).job = some jobA ∧
    checkingA.state = .checking ∧ checkingA.readings = Readings.empty ∧ checkingA.stop = none ∧ checkingA.shadow = none ∧
    firstOperands recordA = [.source, .dest] ∧ firstOperands recordG = [.gate] ∧
    checkSelector (selectorOf recordA none .source) (running.eng.tableOf 0 (selectorOf recordA none .source)).1
      (running.eng.tableOf 0 (selectorOf recordA none .source)).2 = .ok 0x1020 ∧
    checkSelector (selectorOf { recordA with w2 := 0x00030008 } none .source)
      (running.eng.tableOf 0 (selectorOf { recordA with w2 := 0x00030008 } none .source)).1
      (running.eng.tableOf 0 (selectorOf { recordA with w2 := 0x00030008 } none .source)).2 = .error .badSelector := by
  unfold State.completes; decide +kernel

/-- A channel that reads the descriptor of an operand for a record, with the readings it has. -/
def readingOp (r : JobRecord) (op : Operand) (rest : List Operand) (rs : Readings) : Channel :=
  { Channel.empty with state := .checking, work := .reading op rest, job := some { jobA with record := r }, readings := rs }

/-- The state in which that channel's read of a descriptor at an address completes. -/
def descriptorRead (r : JobRecord) (op : Operand) (rest : List Operand) (rs : Readings) (x : Nat) (d : Descriptor) : State :=
  withWords x [d.base, d.limit, d.service, d.kind] (channelUnit (readingOp r op rest rs) .descriptorReading (.read x 16) running)

/-- What the check makes of the reading. -/
def readingResult (r : JobRecord) (op : Operand) (rs : Readings) (d : Descriptor) : Option FaultKind :=
  checkDescriptor op rs.service.isSome
    (effectiveLevel (baseLevel (running.eng.domain 0).level rs.gate op) (selectorOf r rs.service op))
    (rangeOf (bodyOf r rs.service) rs.service op) d

/-- The readings of a gate call up to its source. -/
def gateReadings : Readings :=
  { Readings.empty with gate := some ⟨0x1020, gateA 0x2000⟩, service := some serviceA, source := some ⟨0x1020, dataA⟩ }

theorem test_met_DescriptorReadingTested :
    (∀ op ∈ [Operand.source, .gate, .dest, .context, .param],
      (descriptorRead recordA op [] Readings.empty 0x1020 dataA).completes (.channel 0) .descriptorReading (.read 0x1020 16)) ∧
    Descriptor.ofWords (bytesWords ((descriptorRead recordA .source [.dest] Readings.empty 0x1020 dataA).mem.readBytes 0x1020 16)) = dataA ∧
    readingResult recordA .source Readings.empty { dataA with kind := 0 } = some .notPresent ∧
    readingResult { recordA with w1 := 0x00014301 } .dest
      { Readings.empty with source := some ⟨0x1020, dataA⟩ } dataA = none ∧
    overlapFails (bodyOf { recordA with w1 := 0x00014301 } none) (some ⟨0x1020, dataA⟩) (some ⟨0x1030, dataA⟩) = true ∧
    readingResult recordG .gate Readings.empty (gateA 0x2000) = none ∧
    readingResult recordA .source Readings.empty dataA = none ∧
    checkSelector (selectorOf recordA none .dest) (running.eng.tableOf 0 (selectorOf recordA none .dest)).1
      (running.eng.tableOf 0 (selectorOf recordA none .dest)).2 = .ok 0x1030 ∧
    readingResult recordC .context readingsA (contextA 3) = none ∧
    (readingsA.keep .context ⟨0x1050, contextA 3⟩).context = some ⟨0x1050, contextA 3⟩ ∧
    readingResult recordA .dest { Readings.empty with source := some ⟨0x1020, dataA⟩ } { dataA with base := 0x14000 } = none ∧
    overlapFails (bodyOf recordA none) (some ⟨0x1020, dataA⟩) (some ⟨0x1030, { dataA with base := 0x14000 }⟩) = false ∧
    readingsA.kindWords = 0x102C :: [0x103C] ∧
    readingResult recordG .param gateReadings dataA = none ∧
    (readingOp recordA .source [.dest] Readings.empty).FailsAt jobA .start 0 ∧
    ({ readingOp recordA .source [.dest] Readings.empty with state := .restoring } : Channel).FailsAt
      { jobA with recordedProgress := 32 } .resume 32 ∧
    checkSelector (selectorOf { recordA with w2 := 0x00080002 } none .dest)
      (running.eng.tableOf 0 (selectorOf { recordA with w2 := 0x00080002 } none .dest)).1
      (running.eng.tableOf 0 (selectorOf { recordA with w2 := 0x00080002 } none .dest)).2 = .error .badSelector ∧
    (gateReadings.keep .param ⟨0x1040, dataA⟩).param = some ⟨0x1040, dataA⟩ := by
  unfold State.completes Channel.FailsAt; decide +kernel

/-- The state in which a gate call's read of its service record completes. -/
def serviceRead (v : ServiceRecord) : State :=
  withWords 0x2000 [v.w0, v.w1, v.w2, v.w3, v.w4, v.w5, v.w6, v.w7]
    (channelUnit { readingOp recordG .gate [] { Readings.empty with gate := some ⟨0x1020, gateA 0x2000⟩ } with work := .serviceRecord }
      .serviceRecordReading (.read 0x2000 32) running)

set_option synthInstance.maxHeartbeats 200000 in
set_option synthInstance.maxSize 1024 in
theorem test_met_serviceValidation :
    ¬ serviceA.Invalid ∧ { serviceA with w6 := 1 }.Invalid ∧ { serviceA with w5 := 0x10001 }.Invalid ∧
    ¬ { serviceA with w5 := 0x10000 }.Invalid ∧ ¬ { serviceA with w5 := 63 }.Invalid := by
  unfold ServiceRecord.Invalid; decide +kernel

theorem test_met_nextOffsets :
    (⟨32, 32, 32, .ascending, 0⟩ : SaveArea).Agrees (bodyOf recordG (some serviceA)) ∧
    ¬ (⟨32, 33, 32, .ascending, 0⟩ : SaveArea).Agrees (bodyOf recordG (some serviceA)) ∧
    ((serviceRead serviceA).eng.chan 0).FailsAt { jobA with record := recordG } .start 0 := by
  unfold SaveArea.Agrees Channel.FailsAt; decide +kernel

theorem test_met_ServiceRecordTested :
    (serviceRead serviceA).completes (.channel 0) .serviceRecordReading (.read 0x2000 32) ∧
    ServiceRecord.ofWords (bytesWords ((serviceRead serviceA).mem.readBytes 0x2000 32)) = serviceA ∧
    ((serviceRead serviceA).eng.chan 0).saved = none ∧ ((serviceRead serviceA).eng.chan 0).readings.service = none ∧
    serviceA.valid = true ∧ recordG.length ≤ serviceA.maxLength ∧
    { serviceA with w5 := 63 }.valid = true ∧ { serviceA with w5 := 63 }.maxLength < recordG.length ∧
    { serviceA with w6 := 1 }.valid = false ∧ serviceOperands recordG serviceA = [.source, .dest, .param] ∧
    checkSelector (selectorOf recordG (some serviceA) .source) (running.eng.tableOf 0 (selectorOf recordG (some serviceA) .source)).1
      (running.eng.tableOf 0 (selectorOf recordG (some serviceA) .source)).2 = .ok 0x1020 := by
  unfold State.completes; decide +kernel

/-! #### Claims, copies and marks -/

/-- A channel that has checked every operand of a record with a context. -/
def checkedA (w : Work) : Channel :=
  { readingOp recordC .context [] { readingsA with context := some ⟨0x1050, contextA 3⟩ } with work := w }

/-- The state in which the claim pair completes on a kind word. -/
def claiming (k : Word) : State :=
  withWords 0x105C [k] (channelUnit (checkedA .claim) .contextClaim (.pair 0x105C .claim) running)

theorem test_met_ContextClaimed :
    (claiming 0x733).completes (.channel 0) .contextClaim (.pair 0x105C .claim) ∧
    ((claiming 0x733).mem.word 0x105C).extractLsb' 0 4 = 3 ∧ ((claiming 0x734).mem.word 0x105C).extractLsb' 0 4 = 4 ∧
    ((claiming 0x731).mem.word 0x105C).extractLsb' 0 4 ≠ 3 ∧ (claiming 0x733).mem.wf = true ∧
    ((claiming 0x733).eng.chan 0).readings.context = some ⟨0x1050, contextA 3⟩ ∧
    ((claiming 0x734).eng.chan 0).state = .checking ∧ ((claiming 0x734).eng.chan 0).readings.service = none ∧
    (channelUnit (checkedA .claimMark) .claimMarkWrite (.write 0x20000 [0, 0, 0, 0]) running).completes (.channel 0)
      .claimMarkWrite (.write 0x20000 [0, 0, 0, 0]) ∧
    (checkedA .claimMark).readings.param = none ∧ (checkedA .claimMark).readings.kindWords = 0x102C :: [0x103C, 0x105C] ∧
    { (checkedA .claimMark).readings with param := some ⟨0x1040, dataA⟩ }.param = some ⟨0x1040, dataA⟩ := by
  unfold State.completes; decide +kernel

theorem test_contextClaim_turnsFreeIntoHeld : (after .contextClaim (claiming 0x733)).mem.word 0x105C = 0x734 := by
  decide +kernel

/-- A gate call that has claimed nothing and copies its parameters. -/
def copyingA (w : Work) : Channel :=
  { readingOp recordG .param [] { gateReadings with param := some ⟨0x1040, { dataA with base := 0x14018 }⟩ } with work := w }

theorem test_met_ParameterCopyMade :
    (channelUnit (copyingA .paramMark) .parameterCopy (.pair 0x104C (.setBits 0x1000)) running).completes (.channel 0)
      .parameterCopy (.pair 0x104C (.setBits 0x1000)) ∧
    (copyingA .paramMark).work = .paramMark ∧ (copyingA .paramMark).readings.service = some serviceA ∧
    (channelUnit (copyingA (.paramWrite (some (0x14020, [0, 0, 0, 0])))) .parameterCopy (.write 0x14018 [1]) running).completes
      (.channel 0) .parameterCopy (.write 0x14018 [1]) ∧
    (copyingA (.paramWrite (some (0x14020, [0, 0, 0, 0])))).work = .paramWrite (some (0x14020, [0, 0, 0, 0])) ∧
    (copyingA (.paramWrite none)).work = .paramWrite none ∧ (copyingA (.paramWrite none)).readings.kindWords
      = 0x102C :: [0x102C, 0x104C] := by
  unfold State.completes; decide +kernel

theorem test_parameterCopy_isCutAtTheBlockEdge :
    (after .parameterCopy (channelUnit (copyingA .paramMark) .parameterCopy (.pair 0x104C (.setBits 0x1000)) running)).eng.ei.unit
      = some ⟨.channel 0, ⟨.parameterCopy, .write 0x14018 [0, 0, 2, 2, 0, 0, 0, 0]⟩⟩ := by decide +kernel

/-- A channel that makes its USED pairs. -/
def markingA (rest : List Nat) : Channel := { readingOp recordA .dest [] readingsA with work := .usedMark rest }

theorem test_met_UsedMarksThenMoving :
    (channelUnit (markingA [0x103C]) .usedMark (.pair 0x102C (.setBits 0x800)) running).completes (.channel 0) .usedMark
      (.pair 0x102C (.setBits 0x800)) ∧
    (markingA [0x103C]).work = .usedMark (0x103C :: []) ∧ (markingA []).work = .usedMark [] ∧
    (markingA []).job = some jobA ∧ (markingA []).saved = none ∧ (markingA []).stop = none ∧
    (markingA []).yieldHeld = false ∧ running.eng.frozen = false ∧ jobA.record.paceUnit = 0 ∧
    (after .frzAssert running).eng.frozen = true ∧ pacedJob.record.paceUnit ≠ 0 ∧ (markingA []).shadow = none ∧
    { markingA [] with stop := some .cancel }.stop = some .cancel ∧ { markingA [] with yieldHeld := true }.yieldHeld = true ∧
    { markingA [] with shadow := some shadowA, job := some claimedJob }.shadow = some shadowA := by
  unfold State.completes; decide +kernel

/-- The two directions, for a MOVE to a window that begins inside its source and for one to a window apart. -/
theorem test_met_directions :
    (bodyOf recordA none).Chooses (some ⟨0x1020, dataA⟩) (some ⟨0x1030, { dataA with base := 0x10010 }⟩) .descending ∧
    (bodyOf recordA none).Chooses none (some ⟨0x1030, dataA⟩) .ascending :=
  ⟨Iff.intro (fun _ => ⟨by decide, _, _, rfl, rfl, ⟨0x10010, by decide +kernel⟩, by decide +kernel⟩) fun _ => rfl,
   Iff.intro (fun h => nomatch h) fun ⟨_, _, _, h, _⟩ => nomatch h⟩

/-- The last USED pair of a channel about to complete. -/
def lastMark (ch : Channel) (s : State) : State := channelUnit ch .usedMark (.pair 0x103C (.setBits 0x800)) s

theorem test_lastMark_takesAYield :
    (after .usedMark (lastMark { markingA [] with yieldHeld := true } running)).eng.chan 0
      = { Channel.empty with
          state := .free, shadow := some ⟨jobA, Progress.empty, readingsA⟩, reports := [.parkShadow 0, .conditional 3] } := by
  decide +kernel

theorem test_lastMark_ofAPacedJobWaits :
    ((after .usedMark (lastMark { markingA [] with job := some pacedJob } running)).eng.chan 0).work = .boundary := by
  decide +kernel

theorem test_overlappingMove_runsDownward :
    chooseDirection (bodyOf recordA none) (some ⟨0x1020, dataA⟩) (some ⟨0x1030, { dataA with base := 0x10010 }⟩) = .descending ∧
    chooseDirection (bodyOf recordA none) (some ⟨0x1020, dataA⟩) (some ⟨0x1030, { dataA with base := 0x10040 }⟩) = .ascending := by
  decide +kernel

/-! #### Bursts -/

/-- The last burst of `movingA`. -/
def burstA : Burst := ⟨0x10020, 0x14020, 32, []⟩

/-- `movingA` at the first of its two bursts. -/
def firstHalf (w : Work) : Channel :=
  { movingA with work := w, progress := Progress.empty }

/-- A SUM of 64 bytes at the first of its two bursts. -/
def summingFirst : Channel :=
  { firstHalf (.burstRead ⟨0x10000, 0x14000, 32, []⟩) with job := some { jobA with record := recordS } }

/-- A FILL of 64 bytes at the first of its two bursts, its window marked. -/
def fillingFirst : Channel :=
  { firstHalf (.burstWrite ⟨0, 0x14000, 32, []⟩) with
    job := some { jobA with record := { recordA with w1 := 0x4302 } }
    progress := { Progress.empty with writtenDest := true } }

theorem test_sum_thatIsNotDoneReadsOn :
    (after .burstRead (channelUnit summingFirst .burstRead (.read 0x10000 32) running)).eng.ei.unit
      = some ⟨.channel 0, ⟨.burstRead, .read 0x10020 32⟩⟩ := by decide +kernel

theorem test_fill_thatIsNotDoneWritesOn :
    (after .burstWrite (channelUnit fillingFirst .burstWrite (.write 0x14000 [0]) running)).eng.ei.unit
      = some ⟨.channel 0, ⟨.burstWrite, .write 0x14020 (List.replicate 32 0)⟩⟩ := by decide +kernel

theorem test_met_burstsThatAreNotLast :
    (channelUnit summingFirst .burstRead (.read 0x10000 32) running).completes (.channel 0) .burstRead (.read 0x10000 32) ∧
    summingFirst.moving = some ({ jobA with record := recordS }, readingsA, bodyOf recordS none) ∧
    (bodyOf recordS none).op = .sum ∧ fillingFirst.progress.writtenDest = true ∧
    fillingFirst.moving = some ({ jobA with record := { recordA with w1 := 0x4302 } }, readingsA,
      bodyOf { recordA with w1 := 0x4302 } none) ∧
    { firstHalf .none with stop := some .cancel }.stop = some .cancel ∧
    { firstHalf .none with yieldHeld := true }.yieldHeld = true ∧
    { firstHalf .none with shadow := some shadowA, job := some claimedJob }.shadow = some shadowA ∧
    (advance (bodyOf pacedJob.record none) { Progress.empty with unitLeft := 16 } 16 []).unitLeft = 0 ∧
    (advance (bodyOf pacedJob.record none) { Progress.empty with unitLeft := 16 } 10 []).unitLeft ≠ 0 := by
  unfold State.completes; decide +kernel

theorem test_burst_thatParksInItsContext :
    (after .burstRead (channelUnit { summingFirst with
        shadow := some shadowA, yieldHeld := true
        job := some { claimedJob with record := { recordS with w1 := 0x00004303 } } } .burstRead (.read 0x10000 32)
      running)).eng.ei.unit = some ⟨.channel 0, ⟨.saveAreaWrite,
        .write 0x20000 (wordsBytes [1, 0x00010000, 32, 0, 32, 0xFFFFFFFF, 0, 0])⟩⟩ := by decide +kernel

/-- Progress of a descending MOVE of 64 bytes with 32 done. -/
def downward : Progress := { movingA.progress with direction := .descending }

theorem test_met_burstForms :
    (∃ r, readingsA.source = some r ∧ 0x10000 = r.desc.base.toNat) ∧
    (∃ r, readingsA.dest = some r ∧ 0x14000 = r.desc.base.toNat) ∧ downward.direction = .descending ∧
    (bodyOf recordA none).length - downward.bytesDone ≤ downward.nextSource ∧
    (formBurst (bodyOf recordA none) false readingsA downward).source = 0x10000 :=
  ⟨⟨_, rfl, rfl⟩, ⟨_, rfl, rfl⟩, by decide +kernel⟩

theorem test_met_BurstsMoveData :
    ((onChannel movingA running).eng.chan 0).moving = some (jobA, readingsA, bodyOf recordA none) ∧
    (channelUnit { movingA with work := .burstRead burstA } .burstRead (.read 0x10020 32) running).completes (.channel 0)
      .burstRead (.read 0x10020 burstA.count) ∧ (bodyOf recordA none).op = .move ∧
    movingA.progress.writtenDest = false ∧ { movingA.progress with writtenDest := true }.writtenDest = true ∧
    readingsA.dest = some ⟨0x1030, { dataA with base := 0x14000 }⟩ ∧
    (channelUnit { movingA with work := .writtenMark burstA } .writtenMark (.pair 0x103C (.setBits 0x1000)) running).completes
      (.channel 0) .writtenMark (.pair 0x103C (.setBits 0x1000)) ∧
    (channelUnit (firstHalf (.burstWrite ⟨0x10000, 0x14000, 32, []⟩)) .burstWrite (.write 0x14000 [1]) running).completes
      (.channel 0) .burstWrite (.write 0x14000 [1]) ∧
    (advance (bodyOf recordA none) Progress.empty 32 []).bytesDone < (bodyOf recordA none).length ∧
    movingA.stop = none ∧ movingA.yieldHeld = false ∧ running.eng.frozen = false ∧ jobA.record.paceUnit = 0 ∧
    fillA.op = .fill ∧ (firstProgress fillA .ascending).direction = .ascending ∧
    fillA.destFirst ≤ (firstProgress fillA .ascending).nextDest ∧
    ({ movingA with job := some { jobA with record := { recordA with w1 := 0x4302 } } } : Channel).moving
      = some ({ jobA with record := { recordA with w1 := 0x4302 } }, readingsA, bodyOf { recordA with w1 := 0x4302 } none) ∧
    (bodyOf { recordA with w1 := 0x4302 } none).op = .fill := by
  unfold State.completes; decide +kernel

/-- A SUM with CRC-A and EXPECT at its last burst. -/
def summingA : Channel :=
  { movingA with job := some { jobA with record := recordS }, work := .burstRead burstA }

theorem test_met_LastBurstFinishes :
    (channelUnit { movingA with work := .burstWrite burstA } .burstWrite (.write 0x14020 []) running).completes (.channel 0)
      .burstWrite (.write 0x14020 []) ∧
    ({ movingA with work := .burstWrite burstA } : Channel).moving = some (jobA, readingsA, bodyOf recordA none) ∧
    (bodyOf recordA none).length ≤ (advance (bodyOf recordA none) movingA.progress 32 []).bytesDone ∧
    (channelUnit summingA .burstRead (.read 0x10020 32) running).completes (.channel 0) .burstRead (.read 0x10020 burstA.count) ∧
    summingA.moving = some ({ jobA with record := recordS }, readingsA, bodyOf recordS none) ∧ (bodyOf recordS none).op = .sum ∧
    (bodyOf recordS none).crc ≠ 0 ∧ (bodyOf recordS none).compare = true ∧ summingA.shadow = none := by
  unfold State.completes; decide +kernel

theorem test_sum_thatDiffersIsAMismatch :
    ((after .burstRead (channelUnit summingA .burstRead (.read 0x10020 32) running)).eng.chan 0).reports.map
      (fun r => match r with | .handoff _ x _ => (x.outcome, x.faultKind, x.operand) | _ => (.ok, .none, .none))
      = [(.fault, .checkMismatch, .source)] := by decide +kernel

/-! #### Parks, restores and the free channel -/

/-- The save area of `jobA` parked at 32 bytes done. -/
def savedWords : List Word := [1, 0x00010000, 32, 32, 32, 0xFFFFFFFF, 0, 0]

/-- A job that resumes from its context. -/
def resumedJob : Job := { jobA with resume := true, recordedProgress := 32, claim := some ⟨0x1050, 0x20000⟩ }

/-- A channel that restores a job. -/
def restoringA (w : Work) : Channel := { Channel.empty with state := .restoring, work := w, job := some resumedJob }

/-- The state in which its read of the save area completes. -/
def areaRead (ws : List Word) : State :=
  withWords 0x20000 ws (channelUnit (restoringA .saveRead) .saveAreaRead (.read 0x20000 32) running)

/-- The state in which its read of the context descriptor completes. -/
def contextRead (d : Descriptor) : State :=
  withWords 0x1050 [d.base, d.limit, d.service, d.kind]
    (channelUnit (restoringA .contextRead) .contextDescriptorRead (.read 0x1050 16) running)

theorem test_met_ParksAndRestores :
    (channelUnit { movingA with state := .saving, work := .saveWrite, shadow := some shadowA } .saveAreaWrite (.write 0x20000 [1])
      running).completes (.channel 0) .saveAreaWrite (.write 0x20000 [1]) ∧
    running.eng.ctl.state = .running ∧ running.eng.ctl.frz = false ∧ movingA.shadow = none ∧
    saveWords jobA movingA.progress = savedWords ∧
    (areaRead savedWords).completes (.channel 0) .saveAreaRead (.read 0x20000 32) ∧
    (acceptSaveArea resumedJob (bytesWords ((areaRead savedWords).mem.readBytes 0x20000 32)))
      = some ⟨32, 32, 32, .ascending, 0xFFFFFFFF⟩ ∧
    (⟨32, 32, 32, .ascending, 0xFFFFFFFF⟩ : SaveArea).Agrees (bodyOf resumedJob.record none) ∧
    resumedJob.claim = some ⟨0x1050, 0x20000⟩ ∧
    (acceptSaveArea resumedJob (bytesWords ((areaRead (savedWords.set 0 0)).mem.readBytes 0x20000 32))) = none ∧
    (acceptSaveArea resumedJob (savedWords.set 2 33)) = some ⟨32, 33, 32, .ascending, 0xFFFFFFFF⟩ ∧
    ¬ (⟨32, 33, 32, .ascending, 0xFFFFFFFF⟩ : SaveArea).Agrees (bodyOf resumedJob.record none) ∧
    resumedJob.record.isGate = false ∧
    checkSelector (selectorOf { recordA with w2 := 0x00030008 } none .source)
      (running.eng.tableOf 0 (selectorOf { recordA with w2 := 0x00030008 } none .source)).1
      (running.eng.tableOf 0 (selectorOf { recordA with w2 := 0x00030008 } none .source)).2 = .error .badSelector ∧
    (restoringA .saveRead).state = .restoring ∧ (restoringA .saveRead).readings.service = none ∧
    (contextRead (contextA 4)).completes (.channel 0) .contextDescriptorRead (.read 0x1050 16) ∧
    Descriptor.ofWords (bytesWords ((contextRead (contextA 4)).mem.readBytes 0x1050 16)) = contextA 4 ∧
    (contextA 4).kind.extractLsb' 0 4 = 4 ∧ (contextA 3).kind.extractLsb' 0 4 ≠ 4 ∧
    firstOperands resumedJob.record = .source :: [.dest] := by
  unfold State.completes SaveArea.Agrees; decide +kernel

theorem test_met_FreeChannelIdles : (movingA.shadow = none) ∧ (1 : ChannelId) ≠ 0 := by decide +kernel

/-! #### Closing -/

/-- An entry that closes with an outcome. -/
def closingA (r : JobResult) (rec : JobRecord) (cl : Option Claim) : Entry :=
  { entryA with record := rec, custody := .closing, result := some r, claim := cl }

/-- Its closing in flight at a step. -/
def inClosing (en : Entry) (st : ClosingStep) (t : EngineStep) (a : EngineAccess) : State :=
  granted .closing t a (onTable { tableOf [en] with queue := [en.place], closing := some ⟨en.place, st⟩ } running)

/-- A job that closes OK. -/
def okA : Entry := closingA (plainResult .ok 64) recordA none

/-- A job that closes OK and chains slot 4. -/
def chainedA : Entry := closingA (plainResult .ok 64) recordB none

/-- A job that closes CANCELLED with a claimed context. -/
def claimedA : Entry := closingA (plainResult .cancelled 32) recordC (some ⟨0x1050, 0x20000⟩)

theorem test_met_ClosingBegins :
    running.eng.working = true ∧ (inState .draining).eng.working = true ∧
    (JobTable.closing { tableOf [okA] with queue := [0] }) = none ∧
    (JobTable.queue { tableOf [okA] with queue := [0] }) = okA.place :: [] ∧ (tableOf [okA]).find okA.place = some okA ∧
    okA.takenOutstanding = false ∧ okA.result = some (plainResult .ok 64) ∧ (plainResult .ok 64).outcome ≠ .fault ∧
    (faultResult .range .source .start 2 0).outcome = .fault := by decide +kernel

theorem test_closingBegin_writesTheResult :
    (after .closingBegin (onTable { tableOf [okA] with queue := [0] } running)).eng.ei.unit
      = some ⟨.closing, ⟨.resultWrite, .write 0x2A020 [1, 0, 0, 0, 0, 0, 0, 0, 64, 0, 0, 0, 0, 0, 0, 0]⟩⟩ := by decide +kernel

/-- The release pair about to complete on a kind word. -/
def releasing (k : Word) : State := withWords 0x105C [k] (inClosing claimedA .release .contextRelease (.pair 0x105C .release))

theorem test_met_ClosingReleases :
    (inClosing okA .result .resultWrite (.write 0x2A020 [1])).completes .closing .resultWrite (.write 0x2A020 [1]) ∧
    (inClosing okA .result .resultWrite (.write 0x2A020 [1])).eng.jtc.closing = some ⟨okA.place, .result⟩ ∧
    (inClosing okA .result .resultWrite (.write 0x2A020 [1])).eng.jtc.find okA.place = some okA ∧ okA.claim = none ∧
    claimedA.claim = some ⟨0x1050, 0x20000⟩ ∧
    (releasing 0x734).completes .closing .contextRelease (.pair 0x105C .release) ∧
    ((releasing 0x734).mem.word 0x105C).extractLsb' 0 4 = 4 ∧ ((releasing 0x731).mem.word 0x105C).extractLsb' 0 4 ≠ 4 ∧
    (releasing 0x734).mem.wf = true ∧
    (inClosing claimedA .mark .releaseMarkWrite (.write 0x20000 [0, 0, 0, 0])).completes .closing .releaseMarkWrite
      (.write 0x20000 [0, 0, 0, 0]) ∧
    (inClosing claimedA .lost .contextLostRewrite (.write 0x2A020 [3, 0, 0, 2])).completes .closing .contextLostRewrite
      (.write 0x2A020 [3, 0, 0, 2]) := by
  unfold State.completes; decide +kernel

theorem test_met_ClosingEnds :
    (inClosing chainedA .done .doneWrite (.write 0x2A000 [4, 0, 0, 0])).completes .closing .doneWrite
      (.write 0x2A000 [4, 0, 0, 0]) ∧
    (inClosing chainedA .done .doneWrite (.write 0x2A000 [4, 0, 0, 0])).eng.jtc.find 0 = some chainedA ∧
    chainedA.outcome.outcome = .ok ∧ chainedA.record.chainSlot = some 4 ∧ okA.record.chainSlot = none ∧
    claimedA.outcome.outcome ≠ .ok ∧
    (inClosing chainedA .chain .chainPosting (.pair 0x2A400 (.setBits 0x10))).completes .closing .chainPosting
      (.pair 0x2A400 (.setBits 0x10)) ∧
    (inClosing chainedA .chain .chainPosting (.pair 0x2A400 (.setBits 0x10))).mem.wf = true := by
  unfold State.completes; decide +kernel

theorem test_doneWrite_notifiesAndFrees :
    (after .doneWrite (inClosing okA .done .doneWrite (.write 0x2A000 [4, 0, 0, 0]))).eng.notify = 1 ∧
    (after .doneWrite (inClosing okA .done .doneWrite (.write 0x2A000 [4, 0, 0, 0]))).eng.jtc.entries = [] := by
  decide +kernel

theorem test_chainPosting_postsTheSlot :
    (after .chainPosting (inClosing chainedA .chain .chainPosting (.pair 0x2A400 (.setBits 0x10)))).mem.word 0x2A400 = 0x10 ∧
    (after .chainPosting (inClosing chainedA .chain .chainPosting (.pair 0x2A400 (.setBits 0x10)))).eng.post.attention[(0 : Domain)]
      = .posted := by decide +kernel

end Sys2Proof.Tests
end

section
/-! SUPPORT. The state after a channel's unit has completed and the channel has gone on: what it asks for next, what it
hands off, and the frame of either (R82, R83, R87, R130, R137). -/

namespace Sys2Proof.Machine

/-! ### The state after a unit -/

/-- The state in which an access has completed and its owner's work has come to the engine `f` (R130, R137). -/
def State.afterUnit (s : State) (a : EngineAccess) (f : Engine) : State :=
  { s with mem := (a.perform s.mem).1, arb := { s.arb with holder := none }, eng := s.eng.settle f }

theorem completeChannel_afterUnit {s : State} {c : ChannelId} {t : EngineStep} {a : EngineAccess}
    (h : s.completes (.channel c) t a) (k : ChannelId → List Byte → Engine → Engine) :
    completeChannel t k s = .next (s.afterUnit a (k c (a.perform s.mem).2 s.eng.dropUnit)) :=
  completeChannel_next h k

theorem State.afterUnit_completed (s : State) (a : EngineAccess) (f : Engine) : s.Completed (s.afterUnit a f) a :=
  ⟨rfl, rfl⟩

@[simp] theorem State.afterUnit_own (s : State) (a : EngineAccess) (f : Engine) (c : ChannelId) :
    ((s.afterUnit a f).eng.chan c).own = (f.chan c).own :=
  s.eng.settle_chan_own f c

@[simp] theorem State.afterUnit_jtc (s : State) (a : EngineAccess) (f : Engine) : (s.afterUnit a f).eng.jtc = f.jtc :=
  s.eng.settle_jtc f

@[simp] theorem State.afterUnit_nextStart (s : State) (a : EngineAccess) (f : Engine) :
    (s.afterUnit a f).eng.disp.nextStart = f.disp.nextStart :=
  s.eng.settle_nextStart f

theorem State.afterUnit_presents (s : State) (a : EngineAccess) {f : Engine} {o : Owner} {t : EngineStep}
    {x : EngineAccess} (h : f.presents o t x) : (s.afterUnit a f).eng.presents o t x :=
  s.eng.settle_presents f o t x h

@[simp] theorem Engine.dropUnit_chan (e : Engine) (c : ChannelId) : e.dropUnit.chan c = e.chan c := rfl

/-! ### Work of one channel that starts no job -/

/-- What the work of channel `c` may change when it starts no job: the job table and the start orders stay. -/
structure Engine.WorksAlone (c : ChannelId) (e f : Engine) : Prop extends Engine.Works c e f where
  jtc : f.jtc = e.jtc
  nextStart : f.disp.nextStart = e.disp.nextStart

namespace Engine.WorksAlone

variable {c : ChannelId} {e f g : Engine}

theorem refl (c : ChannelId) (e : Engine) : Engine.WorksAlone c e e := ⟨Engine.Works.refl c e, rfl, rfl⟩

theorem trans (h : Engine.WorksAlone c e f) (k : Engine.WorksAlone c f g) : Engine.WorksAlone c e g :=
  ⟨h.toWorks.trans k.toWorks, k.jtc.trans h.jtc, k.nextStart.trans h.nextStart⟩

theorem setChan (h : Engine.WorksAlone c e f) (ch : Channel) : Engine.WorksAlone c e (f.setChan c ch) :=
  h.trans ⟨Engine.Works.setChan c f ch, rfl, rfl⟩

theorem askFrom (h : Engine.WorksAlone c e f) (t : EngineStep) (a : EngineAccess) :
    Engine.WorksAlone c e (f.askFrom c t a) :=
  h.trans ⟨Engine.Works.askFrom c f t a, rfl, rfl⟩

theorem clearYield (h : Engine.WorksAlone c e f) (place : Nat) : Engine.WorksAlone c e (f.clearYield c place) :=
  h.trans ⟨Engine.Works.clearYield c f c place, rfl, rfl⟩

theorem clearHeldYield (h : Engine.WorksAlone c e f) (place : Nat) :
    Engine.WorksAlone c e (f.clearHeldYield c place) := by
  unfold Engine.clearHeldYield
  split
  · exact h.clearYield place
  · exact h

theorem issueBurst (h : Engine.WorksAlone c e f) : Engine.WorksAlone c e (f.issueBurst c) := by
  unfold Engine.issueBurst Engine.issueWrite
  split
  · exact h
  · simp only []
    split
    · split <;> exact (h.setChan _).askFrom _ _
    · exact (h.setChan _).askFrom _ _

theorem frozen (h : Engine.WorksAlone c e f) : f.frozen = e.frozen := by
  simp [Engine.frozen, Engine.working, h.ctl]

end Engine.WorksAlone

/-- The frame of a step that completes a channel's unit: beside memory and the arbiter, what the channel's work may
change. -/
theorem State.sameBut_afterUnit {s : State} {x : EngineAccess} {c : ChannelId} {f : Engine} {ps : List Part}
    (hw : Engine.Works c s.eng.dropUnit f) (hc : .channel c ∈ ps) (ha : .arb ∈ ps)
    (hm : .mem ∈ ps ∨ (x.perform s.mem).1 = s.mem) (ht : .table ∈ ps ∨ f.jtc = s.eng.jtc)
    (hn : .starts ∈ ps ∨ f.disp.nextStart = s.eng.disp.nextStart) : s.SameBut ps (s.afterUnit x f) := by
  intro p hp
  have hs : p ≠ .channel c ∧ p ≠ .starts ∧ p ≠ .table → s.eng.same (s.eng.settle f) p := fun h =>
    Engine.same_trans (e := s.eng) (f := f) (hw.same p h) (s.eng.settle_same f p)
  cases p with
  | mem => exact hm.resolve_left hp
  | arb => exact absurd ha hp
  | ports => rfl
  | pins => exact ⟨rfl, rfl⟩
  | queue => rfl
  | table => exact (s.afterUnit_jtc x f).trans (ht.resolve_left hp)
  | starts => exact (s.afterUnit_nextStart x f).trans (hn.resolve_left hp)
  | channel d => exact hs ⟨fun h => hp (h ▸ hc), by simp, by simp⟩
  | control => exact hs ⟨by simp, by simp, by simp⟩
  | post => exact hs ⟨by simp, by simp, by simp⟩
  | timebase => exact hs ⟨by simp, by simp, by simp⟩
  | notify => exact hs ⟨by simp, by simp, by simp⟩

/-- The frame of a step in which a channel's work starts no job. -/
theorem Engine.WorksAlone.sameBut {s : State} {x : EngineAccess} {c : ChannelId} {f : Engine} {ps : List Part}
    (h : Engine.WorksAlone c s.eng.dropUnit f) (hc : .channel c ∈ ps) (ha : .arb ∈ ps)
    (hm : .mem ∈ ps ∨ (x.perform s.mem).1 = s.mem) : s.SameBut ps (s.afterUnit x f) :=
  State.sameBut_afterUnit h.toWorks hc ha hm (.inr h.jtc) (.inr h.nextStart)

/-! ### A channel that asks for its next access -/

/-- A channel that has become `ch` and asks for its next access: the request is presented, and nothing beside the
channel has changed. -/
theorem State.asks_afterUnit {s : State} {x a : EngineAccess} {c : ChannelId} {g : Engine} {ps : List Part}
    (hw : Engine.WorksAlone c s.eng.dropUnit g) (ch : Channel) (t : EngineStep) (hc : .channel c ∈ ps)
    (ha : .arb ∈ ps) (hm : .mem ∈ ps ∨ (x.perform s.mem).1 = s.mem) :
    ((s.afterUnit x ((g.setChan c ch).askFrom c t a)).eng.chan c).own = ch.own ∧
    (s.afterUnit x ((g.setChan c ch).askFrom c t a)).eng.presents (.channel c) t a ∧
    s.SameBut ps (s.afterUnit x ((g.setChan c ch).askFrom c t a)) := by
  refine ⟨?_, s.afterUnit_presents x (Engine.ask_presents _ _ t a), ((hw.setChan ch).askFrom t a).sameBut hc ha hm⟩
  rw [State.afterUnit_own]
  exact congrArg Channel.own (g.setChan_chan c ch)

/-! ### A channel whose job leaves it -/

/-- What a channel keeps when its job leaves it (R82): the bank and the messages, but for the dispatcher's. -/
def Channel.kept (ch : Channel) : Channel := (ch.release .idle).own

theorem Engine.freeChannel_idle {e : Engine} {c : ChannelId} (h : (e.chan c).shadow = none) :
    e.freeChannel c = e.setChan c ((e.chan c).release .idle) := by
  simp [Engine.freeChannel, h]

theorem Engine.freeChannel_draining {e : Engine} {c : ChannelId} {sh : Shadow} (h : (e.chan c).shadow = some sh)
    (hd : e.ctl.state = .draining) :
    e.freeChannel c = e.setChan c (((e.chan c).handShadow sh .drain).release .idle) := by
  simp [Engine.freeChannel, h, Engine.isDraining, hd]

/-- A channel that resumes its shadow job and is held at its first boundary (R80, R83). -/
def Channel.resumesHeld (ch : Channel) (sh : Shadow) : Channel :=
  { ch.release .moving with
    work := .boundary, job := some sh.job, progress := resumedProgress sh.progress, copies := some sh.copies,
    shadow := none, reports := ch.reports ++ [.resumeShadow sh.job.place] }

/-- While frozen, and not in DRAINING, the shadow job resumes and is held at its first boundary. -/
theorem Engine.freeChannel_frozen {e : Engine} {c : ChannelId} {sh : Shadow} (h : (e.chan c).shadow = some sh)
    (hd : e.ctl.state ≠ .draining) (hf : e.frozen = true) :
    e.freeChannel c =
      ((e.setChan c ((e.chan c).resumesHeld sh)).noteStart sh.job.place).setWork c .boundary := by
  have hf' : ∀ ch : Channel, ((e.setChan c ch).noteStart sh.job.place).frozen = true := fun _ => hf
  simp [Engine.freeChannel, h, Engine.isDraining, hd, hf, Engine.resumeShadow, Engine.proceed, hf']
  rfl

theorem Engine.freeChannel_conditional {e : Engine} {c : ChannelId} {sh : Shadow} (h : (e.chan c).shadow = some sh)
    (hd : e.ctl.state ≠ .draining) (hf : e.frozen = false) :
    e.freeChannel c =
      e.setChan c (((e.chan c).release .free).report (.conditional sh.job.record.priority)) := by
  simp [Engine.freeChannel, h, Engine.isDraining, hd, hf]

theorem Channel.handShadow_own (ch : Channel) (sh : Shadow) (r : StopReason) (st : ChannelState) :
    ((ch.handShadow sh r).release st).own = { ch.kept with
      state := st, shadow := none
      reports := ch.reports ++ [.handoff sh.job.place (plainResult r.outcome sh.progress.bytesDone) none] } := rfl

theorem Channel.release_report_own (ch : Channel) (st : ChannelState) (r : Report) :
    ((ch.release st).report r).own = { ch.kept with state := st, reports := ch.reports ++ [r] } := rfl

theorem Channel.resumesHeld_own (ch : Channel) (sh : Shadow) :
    (ch.resumesHeld sh).own = { ch.kept with
      state := .moving, work := .boundary, job := some sh.job, progress := resumedProgress sh.progress
      copies := some sh.copies, shadow := none, reports := ch.reports ++ [.resumeShadow sh.job.place] } := rfl

/-- A channel that its job has left with the bank full, having made the reports `rs`, chooses as R83 says. -/
theorem State.freesFull_afterUnit {s : State} {x : EngineAccess} {c : ChannelId} {g : Engine} {ps : List Part}
    {a : Channel} {sh : Shadow} {rs : List Report} (hw : Engine.WorksAlone c s.eng.dropUnit g)
    (hk : (g.chan c).kept = { a.kept with reports := a.reports ++ rs }) (hsh : a.shadow = some sh)
    (ha : .arb ∈ ps) (hm : .mem ∈ ps ∨ (x.perform s.mem).1 = s.mem) :
    s.FreesFull ps (s.afterUnit x (g.freeChannel c)) c a sh rs := by
  have hctl : g.ctl = s.eng.ctl := hw.ctl
  have hshadow : (g.chan c).shadow = some sh := (congrArg Channel.shadow hk).trans hsh
  have hreports : (g.chan c).reports = a.reports ++ rs := congrArg Channel.reports hk
  have frame : ∀ f, Engine.WorksAlone c s.eng.dropUnit f → s.SameBut (.channel c :: ps) (s.afterUnit x f) :=
    fun f hf => hf.sameBut (by simp) (List.mem_cons_of_mem _ ha) (hm.imp_left (List.mem_cons_of_mem _))
  refine ⟨fun hd => ?_, fun hd hf => ?_, fun hd hf => ?_⟩
  · rw [Engine.freeChannel_draining hshadow (hctl ▸ hd)]
    refine ⟨?_, frame _ (hw.setChan _)⟩
    rw [State.afterUnit_own, Engine.setChan_chan, Channel.handShadow_own, hk, hreports]
    rfl
  · rw [Engine.freeChannel_frozen hshadow (hctl ▸ hd) (hw.frozen.trans hf)]
    have hjtc : g.jtc = s.eng.jtc := hw.jtc
    have hnext : g.disp.nextStart = s.eng.disp.nextStart := hw.nextStart
    refine ⟨?_, ?_, ?_, ?_⟩
    · have hch : ((g.setChan c ((g.chan c).resumesHeld sh)).noteStart sh.job.place).chan c
          = (g.chan c).resumesHeld sh := g.setChan_chan c _
      rw [State.afterUnit_own, Engine.setWork, Engine.setChan_chan, hch]
      refine (Channel.resumesHeld_own _ _).trans ?_
      rw [hk, hreports]
      rfl
    · rw [State.afterUnit_nextStart, ← hnext]
      rfl
    · rw [State.afterUnit_jtc, ← hjtc, ← hnext]
      rfl
    · exact State.sameBut_afterUnit
        (((hw.setChan _).toWorks.trans (Engine.Works.noteStart c _ _)).trans (Engine.Works.setWork c _ _))
        (by simp) (by simp [ha]) (hm.imp_left fun h => by simp [h]) (.inl (by simp)) (.inl (by simp))
  · rw [Engine.freeChannel_conditional hshadow (hctl ▸ hd) (hw.frozen.trans hf)]
    refine ⟨?_, frame _ (hw.setChan _)⟩
    rw [State.afterUnit_own, Engine.setChan_chan, Channel.release_report_own, hk, hreports]
    rfl

theorem Engine.finish_eq {e : Engine} {c : ChannelId} {j : Job} (hj : (e.chan c).job = some j) (r : JobResult)
    (v : Option ServiceRecord) :
    e.finish c r v = ((e.clearHeldYield c j.place).setChan c
      (((e.chan c).release .finishing).report (.handoff j.place r (noticeOf v)))).freeChannel c := by
  simp [Engine.finish, hj]

/-- Finishing reports the handoff and leaves the channel to its choice as a free one. -/
theorem Engine.finish_frees {e : Engine} {c : ChannelId} {j : Job} (hj : (e.chan c).job = some j) (r : JobResult)
    (v : Option ServiceRecord) :
    ∃ g, e.finish c r v = g.freeChannel c ∧ Engine.WorksAlone c e g ∧
      (g.chan c).kept =
        { (e.chan c).kept with reports := (e.chan c).kept.reports ++ [.handoff j.place r (noticeOf v)] } := by
  refine ⟨_, Engine.finish_eq hj r v, ((Engine.WorksAlone.refl c e).clearHeldYield _).setChan _, ?_⟩
  rw [Engine.setChan_chan]
  rfl

/-- A channel whose job leaves it reports the handoff, and is IDLE or chooses as R83 says. -/
theorem State.finishes_afterUnit {s : State} {x : EngineAccess} {c : ChannelId} {e : Engine} {ps : List Part}
    {a : Channel} {j : Job} (hw : Engine.WorksAlone c s.eng.dropUnit e) (hj : (e.chan c).job = some j)
    (hk : (e.chan c).kept = a.kept) (ha : .arb ∈ ps) (hm : .mem ∈ ps ∨ (x.perform s.mem).1 = s.mem)
    (r : JobResult) (v : Option ServiceRecord) :
    s.Finishes ps (s.afterUnit x (e.finish c r v)) c a j.place r (noticeOf v) := by
  obtain ⟨g, hfin, hg, hkept⟩ := Engine.finish_frees hj r v
  rw [hk] at hkept
  rw [hfin]
  refine ⟨fun hs => ?_, fun sh hs => State.freesFull_afterUnit (hw.trans hg) hkept hs ha hm⟩
  rw [Engine.freeChannel_idle ((congrArg Channel.shadow hkept).trans hs)]
  refine ⟨?_, ((hw.trans hg).setChan _).sameBut (by simp) (List.mem_cons_of_mem _ ha)
    (hm.imp_left (List.mem_cons_of_mem _))⟩
  rw [Channel.HandsOff, State.afterUnit_own, Engine.setChan_chan]
  exact hkept

theorem Channel.FailsAt.phase {ch : Channel} {j : Job} {ph : FaultPhase} {n : Nat} (h : ch.FailsAt j ph n) :
    ch.phase = ph ∧ ch.failedBytes j = n := by
  rcases h with ⟨hs, rfl, rfl⟩ | ⟨hs, rfl, rfl⟩ <;> simp [Channel.phase, Channel.failedBytes, hs]

/-- A check that fails finishes with the fault at its phase, or with the outcome of a stop that is held. -/
theorem Engine.failCheck_finish {e : Engine} {c : ChannelId} {j : Job} {ph : FaultPhase} {n : Nat}
    (hj : (e.chan c).job = some j) (hf : (e.chan c).FailsAt j ph n) (k : FaultKind) (o : FaultOperand)
    (sel : BitVec 16) :
    e.failCheck c k o sel = e.finish c ((e.chan c).failure k o ph sel n) (e.chan c).readings.service := by
  obtain ⟨hph, hn⟩ := hf.phase
  unfold Engine.failCheck Channel.failure
  cases hs : (e.chan c).stop <;> simp [hj, hs, hph, hn]

end Sys2Proof.Machine
end

section
/-! SUPPORT. The fields and the pure functions of the window check (R1 to R13, R97, R108 to R113), with the statements
about the steps of the check. -/

namespace Sys2Proof.Machine

/-! ### Selectors (R1, R2, R10) -/

/-- The null selector has TABLE and INDEX zero, and no reserved bit set. -/
theorem selNull_iff (sel : BitVec 16) :
    selNull sel = true ↔ sel.extractLsb' 0 10 = 0 ∧ sel.extractLsb' 12 4 = 0 := by
  have hlow : (selIndex sel = 0 ∧ selLocal sel = false) ↔ sel.extractLsb' 0 10 = 0 := by
    simp only [selIndex, selLocal, BitVec.getLsbD, Nat.testBit_eq_decide_div_mod_eq, BitVec.toNat_eq,
      BitVec.extractLsb'_toNat, decide_eq_false_iff_not, Nat.shiftRight_eq_div_pow, BitVec.ofNat_eq_ofNat,
      BitVec.toNat_ofNat]
    omega
  simp only [selNull, selReserved, Bool.and_eq_true, beq_iff_eq, Bool.not_eq_true', hlow]

theorem checkSelector_steps (sel : BitVec 16) (base count : Nat) :
    (sel.extractLsb' 12 4 ≠ 0 → checkSelector sel base count = .error .badSelector) ∧
    (sel.extractLsb' 0 10 = 0 → sel.extractLsb' 12 4 = 0 → checkSelector sel base count = .error .nullSelector) ∧
    (sel.extractLsb' 12 4 = 0 → sel.extractLsb' 0 10 ≠ 0 → count ≤ (sel.extractLsb' 0 9).toNat →
      checkSelector sel base count = .error .badSelector) ∧
    (sel.extractLsb' 12 4 = 0 → sel.extractLsb' 0 10 ≠ 0 → (sel.extractLsb' 0 9).toNat < count →
      checkSelector sel base count = .ok (base + 16 * (sel.extractLsb' 0 9).toNat)) := by
  have hnull := selNull_iff sel
  have hreserved : sel.extractLsb' 12 4 = 0 → ¬ selReserved sel ≠ 0 := not_not.mpr
  unfold checkSelector
  refine ⟨fun hr => if_pos hr, fun hn hr => ?_, fun hr hn hc => ?_, fun hr hn hc => ?_⟩
  · rw [if_neg (hreserved hr), if_pos (hnull.mpr ⟨hn, hr⟩)]
  · rw [if_neg (hreserved hr), if_neg fun h => hn (hnull.mp h).1]
    exact if_pos hc
  · rw [if_neg (hreserved hr), if_neg fun h => hn (hnull.mp h).1]
    exact if_neg (Nat.not_le.mpr hc)

/-- A field of the low half of a word is the word's. -/
theorem extractLsb'_bits (w : Word) {lo n : Nat} (h : lo + n ≤ 16) :
    (bits w 0 16).extractLsb' lo n = w.extractLsb' lo n := by
  apply BitVec.eq_of_getLsbD_eq
  intro i hi
  have hi' : lo + i < 16 := by omega
  simp only [bits, BitVec.getLsbD_extractLsb', Nat.zero_add, hi, hi', decide_true, Bool.true_and]

/-- An optional operand is left out when its selector, in the low half of a word, is null (R2). -/
theorem optionalOperand_bits (op : Operand) (w : Word) : optionalOperand op (bits w 0 16) =
    if w.extractLsb' 0 10 = 0 ∧ w.extractLsb' 12 4 = 0 then [] else [op] := by
  rw [optionalOperand, ← extractLsb'_bits w (by omega), ← extractLsb'_bits w (by omega)]
  simp only [selNull_iff]

/-! ### Descriptors (R11, R12) -/

/-- The KINDs that an operand accepts (R5, R104, R109). -/
def Operand.Accepts (op : Operand) (k : Nat) : Prop :=
  match op with
  | .gate => k = 2
  | .context => k = 3 ∨ k = 4
  | _ => k = 1

/-- A window that step 6 finds inside for an operand (R4, R6, R11). -/
def Operand.Inside (op : Operand) (d : Descriptor) : Prop :=
  match op with
  | .gate => d.service.toNat % 32 = 0 ∧ d.service.toNat + 31 ≤ 0x3FFFF
  | .context => d.base.toNat + d.limit.toNat ≤ 0x3FFFF ∧ d.base.toNat % 32 = 0 ∧ 31 ≤ d.limit.toNat
  | _ => d.base.toNat + d.limit.toNat ≤ 0x3FFFF

theorem kindOf_eq_iff (w : Word) (k : BitVec 4) : kindOf w = k ↔ (w.extractLsb' 0 4).toNat = k.toNat :=
  BitVec.toNat_eq

/-- A KIND not accepted is WRONG_KIND, or GATE_NESTED for a gate that a service names (R5, R11). -/
theorem checkKind_eq (op : Operand) (service : Bool) (d : Descriptor) :
    (op.Accepts (d.kind.extractLsb' 0 4).toNat → checkKind op service d = none) ∧
    (¬ op.Accepts (d.kind.extractLsb' 0 4).toNat → checkKind op service d =
      some (if (op = .source ∨ op = .dest ∨ op = .param) ∧ service = true ∧ (d.kind.extractLsb' 0 4).toNat = 2
        then .gateNested else .wrongKind)) := by
  have hdata : ∀ k : Nat, (k = 1 → (if k = 1 then none else if service = true ∧ k = 2 then some FaultKind.gateNested
        else some .wrongKind) = none) ∧
      (¬ k = 1 → (if k = 1 then none else if service = true ∧ k = 2 then some FaultKind.gateNested
        else some .wrongKind) = some (if service = true ∧ k = 2 then .gateNested else .wrongKind)) := by
    intro k
    refine ⟨fun h => if_pos h, fun h => ?_⟩
    rw [if_neg h]
    split <;> rfl
  cases op with
  | gate => simp +contextual [checkKind, Operand.Accepts, kindOf_eq_iff]
  | context => simp +contextual [checkKind, Operand.Accepts, kindOf_eq_iff]
  | source | dest | param => simpa [checkKind, Operand.Accepts, kindOf_eq_iff] using hdata _

theorem checkKind_none_iff (op : Operand) (service : Bool) (d : Descriptor) :
    checkKind op service d = none ↔ op.Accepts (d.kind.extractLsb' 0 4).toNat := by
  obtain ⟨haccepts, hrefuses⟩ := checkKind_eq op service d
  refine ⟨fun h => ?_, haccepts⟩
  by_contra hn
  simp [hrefuses hn] at h

theorem windowInside_iff (op : Operand) (d : Descriptor) : windowInside op d = true ↔ op.Inside d := by
  cases op <;> simp [windowInside, Operand.Inside, and_assoc]

/-! ### Steps 4 to 9 in their order -/

section Steps

variable {op : Operand} {service : Bool} {d : Descriptor} (el : Level) (range : Option (Nat × Nat))

theorem checkDescriptor_absent (hp : d.present = false) :
    checkDescriptor op service el range d = some .notPresent := by
  simp [checkDescriptor, hp]

theorem checkDescriptor_kind {k : FaultKind} (hp : d.present = true) (hk : checkKind op service d = some k) :
    checkDescriptor op service el range d = some k := by
  simp [checkDescriptor, hp, hk]

theorem checkDescriptor_window (hp : d.present = true) (hk : checkKind op service d = none)
    (hw : windowInside op d = false) : checkDescriptor op service el range d = some .badWindow := by
  simp [checkDescriptor, hp, hk, hw]

theorem checkDescriptor_level (hp : d.present = true) (hk : checkKind op service d = none)
    (hw : windowInside op d = true) (hl : d.level < el) : checkDescriptor op service el range d = some .level := by
  simp [checkDescriptor, hp, hk, hw, hl]

/-- Where the level suffices, a missing right comes before the range. -/
theorem checkDescriptor_rights (hp : d.present = true) (hk : checkKind op service d = none)
    (hw : windowInside op d = true) (hl : el ≤ d.level) :
    checkDescriptor op service el range d =
      (missingRight op d).or (if beyondLimit d range then some .range else none) := by
  have hl' : ¬ d.level < el := BitVec.not_lt.mpr hl
  unfold checkDescriptor
  simp only [hp, hk, hw, hl', Bool.not_true, Bool.false_eq_true, if_false]
  cases missingRight op d <;> rfl

theorem missingRight_fault {k : FaultKind} (h : missingRight op d = some k) : k = .noRead ∨ k = .noWrite := by
  cases op <;> simp [missingRight] at h <;> grind

/-- Past step 6 a check fails in steps 7 to 9 alone. -/
theorem checkDescriptor_later {f : FaultKind} (hp : d.present = true) (hk : checkKind op service d = none)
    (hw : windowInside op d = true) (h : checkDescriptor op service el range d = some f) :
    f = .level ∨ f = .noRead ∨ f = .noWrite ∨ f = .range := by
  by_cases hl : d.level < el
  · rw [checkDescriptor_level el range hp hk hw hl] at h
    exact .inl (Option.some.inj h).symm
  · rw [checkDescriptor_rights el range hp hk hw (BitVec.not_lt.mp hl), Option.or_eq_some_iff] at h
    rcases h with h | ⟨_, h⟩
    · exact .inr ((missingRight_fault h).imp_right .inl)
    · simp_all

end Steps

/-- Settles O46: PRESENT, KIND and the window are tested in this order, and no later step gives their faults. -/
theorem checkStepsFourToSix : Obligations.CheckStepsFourToSix := by
  intro op service el range d k accepted inside hk haccepted hinside
  subst hk
  have haccepts : accepted ↔ op.Accepts (d.kind.extractLsb' 0 4).toNat := by cases op <;> exact haccepted
  have hwindow : windowInside op d = true ↔ inside := by
    rw [windowInside_iff]
    cases op <;> exact hinside.symm
  have hkind := checkKind_none_iff op service d
  refine ⟨fun hp => checkDescriptor_absent el range hp, fun hp ha => ?_, fun hp ha hi => ?_, fun hp ha hi f hf h => ?_⟩
  · exact checkDescriptor_kind el range hp ((checkKind_eq op service d).2 (mt haccepts.mpr ha))
  · exact checkDescriptor_window el range hp (hkind.mpr (haccepts.mp ha))
      (Bool.eq_false_iff.mpr (mt hwindow.mp hi))
  · have hlater := checkDescriptor_later el range hp (hkind.mpr (haccepts.mp ha)) (hwindow.mpr hi) h
    simp only [List.mem_cons, List.not_mem_nil, or_false] at hf
    rcases hlater with rfl | rfl | rfl | rfl <;> simp at hf

/-! ### Levels, operands and ranges (R8, R9, R12, R13, R108, R110 to R113) -/

theorem missingRight_read {op : Operand} {d : Descriptor} (h : op = .source ∨ op = .context) (hr : d.canRead = false) :
    missingRight op d = some .noRead := by
  rcases h with rfl | rfl <;> simp [missingRight, hr]

theorem missingRight_write {op : Operand} {d : Descriptor} (h : op = .dest ∨ op = .param) (hw : d.canWrite = false) :
    missingRight op d = some .noWrite := by
  rcases h with rfl | rfl <;> simp [missingRight, hw]

theorem missingRight_context {d : Descriptor} (hr : d.canRead = true) (hw : d.canWrite = false) :
    missingRight .context d = some .noWrite := by
  simp [missingRight, hr, hw]

theorem missingRight_none {op : Operand} {d : Descriptor} (hr : op = .source ∨ op = .context → d.canRead = true)
    (hw : op = .dest ∨ op = .param ∨ op = .context → d.canWrite = true) : missingRight op d = none := by
  cases op <;> simp_all [missingRight]

/-- Steps 7 to 9 for a window that the steps before them accept. -/
theorem checkDescriptor_steps (op : Operand) (service : Bool) (el : Level) (range : Option (Nat × Nat)) (d : Descriptor)
    (hp : d.present = true) (hk : checkKind op service d = none) (hw : windowInside op d = true) :
    (d.level < el → checkDescriptor op service el range d = some .level) ∧
    (el ≤ d.level →
      ((op = .source ∨ op = .context) ∧ d.canRead = false → checkDescriptor op service el range d = some .noRead) ∧
      ((op = .dest ∨ op = .param) ∧ d.canWrite = false → checkDescriptor op service el range d = some .noWrite) ∧
      (op = .context ∧ d.canRead = true ∧ d.canWrite = false →
        checkDescriptor op service el range d = some .noWrite) ∧
      ((op = .source ∨ op = .context → d.canRead = true) →
        (op = .dest ∨ op = .param ∨ op = .context → d.canWrite = true) → ∀ first len, range = some (first, len) →
        checkDescriptor op service el range d = if d.limit.toNat < first + len - 1 then some .range else none) ∧
      (op = .gate → range = none → checkDescriptor op service el range d = none)) := by
  refine ⟨checkDescriptor_level el range hp hk hw, fun hl => ?_⟩
  rw [checkDescriptor_rights el range hp hk hw hl]
  refine ⟨fun ⟨ho, hr⟩ => ?_, fun ⟨ho, hn⟩ => ?_, ?_, fun hr hn first len hrange => ?_, ?_⟩
  · rw [missingRight_read ho hr, Option.some_or]
  · rw [missingRight_write ho hn, Option.some_or]
  · rintro ⟨rfl, hr, hn⟩
    rw [missingRight_context hr hn, Option.some_or]
  · rw [missingRight_none hr hn, hrange, Option.none_or]
    simp only [beyondLimit, decide_eq_true_eq]
  · rintro rfl rfl
    rfl

theorem Xfer.ofCode_listed (k : BitVec 3) : (k = 1 → Xfer.ofCode k = .move) ∧ (k = 2 → Xfer.ofCode k = .fill) ∧
    (k = 3 → Xfer.ofCode k = .sum) := by
  refine ⟨?_, ?_, ?_⟩ <;> rintro rfl <;> rfl

/-- The windows that a transfer reads and writes, in the order of R9. -/
def Xfer.windows : Xfer → List Operand
  | .move => [.source, .dest]
  | .fill => [.dest]
  | .sum => [.source]

/-- The operands of a job that calls no gate, in the order of R9. -/
theorem firstOperands_of_kind {r : JobRecord} {k : BitVec 3} (hk : k ≠ 4) (h : r.w1.extractLsb' 0 3 = k) :
    firstOperands r = (Xfer.ofCode k).windows ++ optionalOperand .context (bits r.w3 0 16) := by
  subst h
  have hgate : r.isGate = false := beq_eq_false_iff_ne.mpr hk
  change _ = (Xfer.ofCode r.kind).windows ++ _
  rw [firstOperands, hgate, plainOperands]
  cases Xfer.ofCode r.kind <;> rfl

/-- The operands of a gate call after its service record, in the order of R111. -/
theorem serviceOperands_of_kind (r : JobRecord) {v : ServiceRecord} {k : BitVec 3} (h : v.w0.extractLsb' 0 3 = k) :
    serviceOperands r v = (Xfer.ofCode k).windows ++ optionalOperand .param (bits v.w2 0 16) ++
      optionalOperand .context (bits r.w3 0 16) := by
  subst h
  change _ = (Xfer.ofCode v.kind).windows ++ _ ++ _
  rw [serviceOperands]
  cases Xfer.ofCode v.kind <;> rfl

theorem overlapFails_iff (b : Body) (source dest : Option Reading) : overlapFails b source dest = true ↔
    b.op = .move ∧ b.crc ≠ 0 ∧ ∃ s d, source = some s ∧ dest = some d ∧ b.RangesShare s.desc d.desc := by
  cases source with
  | none => simp [overlapFails]
  | some s =>
    cases dest with
    | none => simp [overlapFails]
    | some d => simp [overlapFails, ← Body.rangesMeet_iff, and_assoc]

theorem Engine.tableOf_loaded {e : Engine} {k : LoadedCopies} (d : Domain) (sel : BitVec 16)
    (h : e.ctl.copies = some k) :
    e.tableOf d sel = if sel.getLsbD 9 then ((k.domains[d]).localBase, (k.domains[d]).localCount)
      else (k.globalBase, k.globalCount) := by
  simp only [Engine.tableOf, Engine.domain, h, selLocal]

theorem effectiveLevel_toNat (level : Level) (sel : BitVec 16) :
    (effectiveLevel level sel).toNat = max level.toNat (sel.extractLsb' 10 2).toNat := by
  unfold effectiveLevel selRL
  split
  · next h => exact (Nat.max_eq_right (Nat.le_of_lt h)).symm
  · next h => exact (Nat.max_eq_left (BitVec.not_lt.mp h)).symm

theorem baseLevel_eq (level : Level) (op : Operand) : baseLevel level none op = level ∧
    ∀ g : Reading, baseLevel level (some g) op =
      if op = .gate ∨ op = .context then level else g.desc.kind.extractLsb' 6 2 := by
  cases op <;> exact ⟨rfl, fun _ => rfl⟩

/-- The compare flag of a gate call is SVC_CRC not NONE (R113). -/
theorem bne_zero_eq_decide (x : BitVec 2) : (x != 0) = decide (x ≠ 0) := by
  rw [Bool.eq_iff_iff, bne_iff_ne, decide_eq_true_eq]

/-- Settles O47: each part is one of the functions of the check, by its own lemma. -/
theorem checkStepsOthers : Obligations.CheckStepsOthers := by
  refine ⟨checkSelector_steps, checkDescriptor_steps, fun _ => ⟨rfl, rfl, rfl, rfl, rfl⟩, ?kinds, ?operands,
    overlapFails_iff, fun e d sel k h => e.tableOf_loaded d sel h, effectiveLevel_toNat, baseLevel_eq, ?selectors,
    ?bodies⟩
  case kinds =>
    rintro op service d k rfl
    rw [checkKind_none_iff, windowInside_iff]
    cases op <;> exact ⟨Iff.rfl, Iff.rfl⟩
  case operands =>
    intro r v context param hc hp
    rw [hc.trans (optionalOperand_bits .context r.w3).symm, hp.trans (optionalOperand_bits .param v.w2).symm]
    exact ⟨firstOperands_of_kind (by decide), firstOperands_of_kind (by decide), firstOperands_of_kind (by decide),
      fun h => if_pos (beq_iff_eq.mpr h), serviceOperands_of_kind r, serviceOperands_of_kind r,
      serviceOperands_of_kind r⟩
  case selectors =>
    refine fun r => ⟨rfl, rfl, fun v => ⟨rfl, rfl, ?_⟩⟩
    rintro w rfl
    exact ⟨rfl, rfl, rfl⟩
  case bodies =>
    intro r v
    cases v with
    | none =>
      refine ⟨?_, rfl, rfl, rfl, rfl, rfl, rfl, rfl, rfl, rfl, rfl, by simp⟩
      intro k hk
      exact hk ▸ Xfer.ofCode_listed r.kind
    | some v =>
      refine ⟨?_, rfl, bne_zero_eq_decide v.crc, rfl, rfl, Nat.add_comm _ _, Nat.add_comm _ _, rfl, rfl, rfl, rfl, ?_⟩
      · intro k hk
        exact hk ▸ Xfer.ofCode_listed v.kind
      · rintro w hw
        cases hw
        rfl

end Sys2Proof.Machine
end

section
/-! SUPPORT. What the window check of a channel comes to, case by case (R9 to R13, R71 to R73, R86, R105), with the
statements about RUNNING_WRITE and DESCRIPTOR_READING. -/

namespace Sys2Proof.Machine

/-! ### Steps that ask or fail -/

/-- A command whose unit completes, and whose channel becomes `ch` and asks for its next access. -/
theorem exec_asks {s : State} {i : Instr} {x a : EngineAccess} {c : ChannelId} {g : Engine} {ch : Channel}
    {t : EngineStep} {ps : List Part} (hx : exec i s = .next (s.afterUnit x ((g.setChan c ch).askFrom c t a)))
    (hw : Engine.WorksAlone c s.eng.dropUnit g) (hc : .channel c ∈ ps) (ha : .arb ∈ ps)
    (hm : .mem ∈ ps ∨ (x.perform s.mem).1 = s.mem) :
    ∃ u, exec i s = .next u ∧ s.Completed u x ∧ (u.eng.chan c).own = ch.own ∧ u.eng.presents (.channel c) t a ∧
      s.SameBut ps u :=
  ⟨_, hx, s.afterUnit_completed x _, State.asks_afterUnit hw ch t hc ha hm⟩

/-- A command whose unit completes, and whose channel's check fails with the readings as they are in `ch`. -/
theorem exec_fails {s : State} {i : Instr} {x : EngineAccess} {c : ChannelId} {e : Engine} {ps : List Part}
    {ch a : Channel} {j : Job} {ph : FaultPhase} {n : Nat} {k : FaultKind} {o : FaultOperand} {sel : BitVec 16}
    (hx : exec i s = .next (s.afterUnit x (e.failCheck c k o sel))) (hch : e.chan c = ch)
    (hw : Engine.WorksAlone c s.eng.dropUnit e) (hj : ch.job = some j) (hf : ch.FailsAt j ph n)
    (hk : ch.kept = a.kept) (hs : ch.stop = a.stop) (ha : .arb ∈ ps)
    (hm : .mem ∈ ps ∨ (x.perform s.mem).1 = s.mem) :
    ∃ u, exec i s = .next u ∧ s.Completed u x ∧
      s.Finishes ps u c a j.place (a.failure k o ph sel n) (noticeOf ch.readings.service) := by
  subst hch
  have hr : (e.chan c).failure k o ph sel n = a.failure k o ph sel n := by simp only [Channel.failure, hs]
  rw [Engine.failCheck_finish hj hf, hr] at hx
  exact ⟨_, hx, s.afterUnit_completed x _, State.finishes_afterUnit hw hj hk ha hm _ _⟩

/-! ### The next operand, and a check that has passed -/

section Check

variable {e : Engine} {c : ChannelId} {ch : Channel} {j : Job}

theorem Engine.checkNext_reads {op : Operand} {addr : Nat} (hch : e.chan c = ch) (hj : ch.job = some j)
    (rest : List Operand) (h : checkSelector (selectorOf j.record ch.readings.service op)
      (e.tableOf j.domain (selectorOf j.record ch.readings.service op)).1
      (e.tableOf j.domain (selectorOf j.record ch.readings.service op)).2 = .ok addr) :
    e.checkNext c (op :: rest) =
      (e.setChan c { ch with work := .reading op rest }).askFrom c .descriptorReading (.read addr 16) := by
  subst hch
  simp [Engine.checkNext, hj, h, readWords, Engine.setWork]

theorem Engine.checkNext_fails {op : Operand} {k : FaultKind} (hch : e.chan c = ch) (hj : ch.job = some j)
    (rest : List Operand) (h : checkSelector (selectorOf j.record ch.readings.service op)
      (e.tableOf j.domain (selectorOf j.record ch.readings.service op)).1
      (e.tableOf j.domain (selectorOf j.record ch.readings.service op)).2 = .error k) :
    e.checkNext c (op :: rest) = e.failCheck c k (op.fault ch.readings.service.isSome)
      (selectorOf j.record ch.readings.service op) := by
  subst hch
  simp [Engine.checkNext, hj, h]

theorem Engine.checkNext_nil (hch : e.chan c = ch) (hj : ch.job = some j) : e.checkNext c [] = e.checkPassed c := by
  simp [Engine.checkNext, hch, hj]

theorem Engine.beginMarks_cons {w : Nat} {more : List Nat} (hch : e.chan c = ch)
    (h : ch.readings.kindWords = w :: more) :
    e.beginMarks c =
      (e.setChan c { ch with work := .usedMark more }).askFrom c .usedMark (.pair w (.setBits 0x800)) := by
  subst hch
  simp [Engine.beginMarks, h, Engine.markUsed, usedMask, Engine.setWork]

theorem Engine.checkPassed_claims {r : Reading} (hch : e.chan c = ch) (hs : ch.state = .checking)
    (h : ch.readings.context = some r) :
    e.checkPassed c =
      (e.setChan c { ch with work := .claim }).askFrom c .contextClaim (.pair (r.address + 12) .claim) := by
  subst hch
  simp [Engine.checkPassed, hs, h, kindWordAddr, Engine.setWork]

theorem Engine.checkPassed_copies {q : Reading} (hch : e.chan c = ch) (hs : ch.state = .checking)
    (hc : ch.readings.context = none) (hp : ch.readings.param = some q) :
    e.checkPassed c = (e.setChan c { ch with work := .paramMark }).askFrom c .parameterCopy
      (.pair (q.address + 12) (.setBits 0x1000)) := by
  subst hch
  simp [Engine.checkPassed, hs, hc, Engine.afterClaim, hp, writtenPair, kindWordAddr, writtenMask, Engine.setWork]

/-- A restore, and a first start with neither a context nor a parameter window, go on to the USED pairs. -/
theorem Engine.checkPassed_marks (hch : e.chan c = ch)
    (h : ch.state = .restoring ∨ (ch.readings.context = none ∧ ch.readings.param = none)) :
    e.checkPassed c = e.beginMarks c := by
  subst hch
  unfold Engine.checkPassed
  split
  · rfl
  · next hs =>
    obtain ⟨hc, hp⟩ := h.resolve_left hs
    simp [hc, Engine.afterClaim, hp]

end Check

/-! ### RUNNING_WRITE -/

theorem exec_runningWrite {s : State} {c : ChannelId} {j : Job} {a : EngineAccess}
    (h : s.completes (.channel c) .runningWrite a) (hj : (s.eng.chan c).job = some j) :
    exec .runningWrite s = .next (s.afterUnit a (s.eng.dropUnit.checkNext c (firstOperands j.record))) := by
  change execRunningWrite s = _
  rw [execRunningWrite, completeChannel_afterUnit h]
  simp only [Engine.dropUnit_chan, hj]

theorem Operand.fault_names (service : Bool) : Operand.fault service .gate = .gate ∧
    Operand.fault service .context = .context ∧ Operand.fault service .param = .param ∧
    Operand.fault service .source = (if service then .serviceSource else .source) ∧
    Operand.fault service .dest = (if service then .serviceDest else .destination) :=
  ⟨rfl, rfl, rfl, rfl, rfl⟩

/-- Settles O48: the selector of the first operand passes and its descriptor is asked for, or it fails the check. -/
theorem runningWriteBeginsCheck : Obligations.RunningWriteBeginsCheck := by
  refine ⟨fun _ _ _ _ _ => rfl, Operand.fault_names, ?_⟩
  intro s c j x bs op rest hdone hj hstate hread hops
  have hch : s.eng.dropUnit.chan c = { s.eng.chan c with readings := Readings.empty } := by
    rw [Engine.dropUnit_chan, ← hread]
  have hx := exec_runningWrite hdone hj
  rw [hops] at hx
  refine ⟨fun addr hok => ?_, fun k herr => ?_⟩
  · rw [Engine.checkNext_reads hch hj rest hok, ← hread] at hx
    exact exec_asks hx (.refl c _) (by simp) (by simp) (.inl (by simp))
  · rw [Engine.checkNext_fails hch hj rest herr] at hx
    exact exec_fails hx hch (.refl c _) hj (.inl ⟨hstate, rfl, rfl⟩) rfl rfl (by simp) (.inl (by simp))

/-! ### DESCRIPTOR_READING -/

section Reading

variable {e : Engine} {c : ChannelId} {j : Job} {op : Operand} {d : Descriptor} {rs : Readings} {sel : BitVec 16}
  {result : Option FaultKind}

/-- The reading `d` of the operand `op` of the job `j`, with what the check makes of it: the selector it was read by,
the readings with it kept, and the first failure of steps 4 to 9. -/
structure Engine.Tests (e : Engine) (c : ChannelId) (j : Job) (op : Operand) (d : Descriptor) (sel : BitVec 16)
    (rs : Readings) (result : Option FaultKind) : Prop where
  holds : (e.chan c).job = some j
  reads : sel = selectorOf j.record (e.chan c).readings.service op
  keeps : rs = (e.chan c).readings.keep op ⟨(e.tableOf j.domain sel).1 + 16 * selIndex sel, d⟩
  finds : result = checkDescriptor op (e.chan c).readings.service.isSome
    (effectiveLevel (baseLevel (e.domain j.domain).level (e.chan c).readings.gate op) sel)
    (rangeOf (bodyOf j.record (e.chan c).readings.service) (e.chan c).readings.service op) d

theorem Engine.Tests.fails (h : e.Tests c j op d sel rs result) (rest : List Operand) {k : FaultKind}
    (hk : result = some k ∨ (result = none ∧ op = .dest ∧ k = .overlap ∧
      overlapFails (bodyOf j.record (e.chan c).readings.service) rs.source rs.dest = true)) :
    e.checkReading c op rest d = e.failCheck c k (op.fault (e.chan c).readings.service.isSome) sel := by
  obtain ⟨hj, rfl, rfl, rfl⟩ := h
  unfold Engine.checkReading
  rcases hk with hk | ⟨hn, rfl, rfl, ho⟩
  · simp only [hj, hk]
  · simp only [hj, hn, ho, and_self, if_true]

theorem Engine.Tests.passesGate (h : e.Tests c j .gate d sel rs none) (rest : List Operand) :
    e.checkReading c .gate rest d =
      ((e.setChan c { e.chan c with readings := rs }).setChan c
        { e.chan c with readings := rs, work := .serviceRecord }).askFrom c .serviceRecordReading
        (.read d.service.toNat 32) := by
  obtain ⟨hj, rfl, rfl, hr⟩ := h
  unfold Engine.checkReading
  simp [hj, ← hr, readWords, Engine.setWork]

theorem Engine.Tests.passes (h : e.Tests c j op d sel rs none) (rest : List Operand) (hg : op ≠ .gate)
    (ho : op ≠ .dest ∨ overlapFails (bodyOf j.record (e.chan c).readings.service) rs.source rs.dest = false) :
    e.checkReading c op rest d = (e.setChan c { e.chan c with readings := rs }).checkNext c rest := by
  obtain ⟨hj, rfl, rfl, hr⟩ := h
  rw [← Bool.not_eq_true, ← not_and_or] at ho
  unfold Engine.checkReading
  simp only [hj, ← hr, if_neg ho, if_neg hg]

end Reading

theorem exec_descriptorReading {s : State} {c : ChannelId} {op : Operand} {rest : List Operand} {x : Nat}
    (h : s.completes (.channel c) .descriptorReading (.read x 16)) (hw : (s.eng.chan c).work = .reading op rest) :
    exec .descriptorReading s = .next (s.afterUnit (.read x 16)
      (s.eng.dropUnit.checkReading c op rest (Descriptor.ofWords (bytesWords (s.mem.readBytes x 16))))) := by
  change execDescriptorReading s = _
  rw [execDescriptorReading, completeChannel_afterUnit h]
  simp only [Engine.dropUnit_chan, hw]
  rfl

/-- Settles O49: the reading fails, or it passes and the check goes on with the readings that now hold it. -/
theorem descriptorReadingTested : Obligations.DescriptorReadingTested := by
  refine ⟨fun _ => rfl, ?_⟩
  intro s c j x op rest d rs sel result hdone hj hwork hd hsel hrs hresult
  have hx := exec_descriptorReading hdone hwork
  rw [← hd] at hx
  have htest : s.eng.dropUnit.Tests c j op d sel rs result := ⟨hj, hsel, hrs, hresult⟩
  have hstep : Engine.WorksAlone c s.eng.dropUnit (s.eng.dropUnit.setChan c { s.eng.chan c with readings := rs }) :=
    (Engine.WorksAlone.refl c _).setChan _
  have hch := s.eng.dropUnit.setChan_chan c { s.eng.chan c with readings := rs }
  have hnext : result = none → op ≠ .gate → op ≠ .dest ∨
        overlapFails (bodyOf j.record (s.eng.chan c).readings.service) rs.source rs.dest = false →
      exec .descriptorReading s = .next (s.afterUnit (.read x 16)
        ((s.eng.dropUnit.setChan c { s.eng.chan c with readings := rs }).checkNext c rest)) := by
    rintro rfl hg ho
    exact hx.trans (congrArg _ (congrArg _ (htest.passes rest hg ho)))
  refine ⟨?fails, ?nextFails, ?gate, ?nextReads, ?claims, ?marks, ?copies⟩
  case fails =>
    intro k ph n hk hf
    rw [htest.fails rest hk] at hx
    exact exec_fails hx (Engine.dropUnit_chan _ c) (.refl c _) hj hf rfl rfl (by simp) (.inr rfl)
  case nextFails =>
    rintro op' rest' k ph n hn hg ho rfl herr hf
    have hx' := hnext hn hg ho
    rw [Engine.checkNext_fails hch hj rest' herr] at hx'
    exact exec_fails hx' hch hstep hj hf rfl rfl (by simp) (.inr rfl)
  case gate =>
    rintro rfl rfl
    rw [htest.passesGate rest] at hx
    exact exec_asks hx hstep (by simp) (by simp) (.inr rfl)
  case nextReads =>
    rintro op' rest' addr hn hg ho rfl hok
    have hx' := hnext hn hg ho
    rw [Engine.checkNext_reads hch hj rest' hok] at hx'
    exact exec_asks hx' hstep (by simp) (by simp) (.inr rfl)
  case claims =>
    rintro r hn rfl rfl hstate hr
    have hx' := hnext hn (by simp) (.inl (by simp))
    rw [Engine.checkNext_nil hch hj, Engine.checkPassed_claims hch hstate hr] at hx'
    exact exec_asks hx' hstep (by simp) (by simp) (.inr rfl)
  case marks =>
    rintro w more hn hg ho rfl hend hkinds
    have hx' := hnext hn hg ho
    rw [Engine.checkNext_nil hch hj, Engine.checkPassed_marks hch hend, Engine.beginMarks_cons hch hkinds] at hx'
    exact exec_asks hx' hstep (by simp) (by simp) (.inr rfl)
  case copies =>
    rintro q hn hg ho rfl hstate hctx hparam
    have hx' := hnext hn hg ho
    rw [Engine.checkNext_nil hch hj, Engine.checkPassed_copies hch hstate hctx hparam] at hx'
    exact exec_asks hx' hstep (by simp) (by simp) (.inr rfl)

end Sys2Proof.Machine
end

section
/-! SUPPORT. The parameter copy (R112), the USED pairs (R15), and a job's first boundary in MOVING (R73 to R76, R80,
R81, R86, R92), with the statements about PARAMETER_COPY and USED_MARK. -/

namespace Sys2Proof.Machine

/-! ### Words put together from fields -/

/-- A field placed above the bits of a word adds to it. -/
theorem toNat_or_place {a b : Word} {k : Nat} (ha : a.toNat < 2 ^ k) (hb : b.toNat * 2 ^ k < 2 ^ 32) :
    (a ||| place b k).toNat = a.toNat + 2 ^ k * b.toNat := by
  rw [place, BitVec.toNat_or, BitVec.toNat_shiftLeft, Nat.shiftLeft_eq, Nat.mod_eq_of_lt hb, Nat.or_comm,
    Nat.mul_comm, ← Nat.two_pow_add_eq_or_of_lt ha, Nat.add_comm]

/-- The domain, the slot and a small number in the bytes of a word, as the identity word and the save area hold them. -/
theorem toNat_domain_slot (j : Job) {x : Word} (hx : x.toNat < 256) :
    (BitVec.ofNat 32 j.domain.val ||| place (BitVec.ofNat 32 j.slot.val) 8 ||| place x 16).toNat =
      j.domain.val + 256 * j.slot.val + 65536 * x.toNat := by
  have hd := j.domain.isLt
  have hs := j.slot.isLt
  have hdomain : (BitVec.ofNat 32 j.domain.val).toNat = j.domain.val := by simp; omega
  have hslot : (BitVec.ofNat 32 j.slot.val).toNat = j.slot.val := by simp; omega
  have hlow := toNat_or_place (a := BitVec.ofNat 32 j.domain.val) (b := BitVec.ofNat 32 j.slot.val) (k := 8)
    (by omega) (by omega)
  rw [toNat_or_place (by omega) (by omega)]
  omega

/-- The identity word of 12.5. -/
theorem identityWord_toNat (j : Job) (level : Level) {n : Nat} (hn : n < 8) : (identityWord j level n).toNat =
    j.domain.val + 256 * j.slot.val + 65536 * level.toNat + 16777216 * n := by
  have hd := j.domain.isLt
  have hs := j.slot.isLt
  have hl := level.isLt
  have hlevel : (level.setWidth 32).toNat = level.toNat := by simp; omega
  have hcount : (BitVec.ofNat 32 n).toNat = n := by simp; omega
  have hlow := toNat_domain_slot j (x := level.setWidth 32) (by omega)
  rw [identityWord, toNat_or_place (by omega) (by omega)]
  omega

/-- Word 1 of a save area (12.4). -/
theorem saveWord_toNat (j : Job) (dir : Direction) :
    (BitVec.ofNat 32 j.domain.val ||| place (BitVec.ofNat 32 j.slot.val) 8 ||| place dir.code 16).toNat =
      j.domain.val + 256 * j.slot.val + 65536 * (match dir with | .ascending => 1 | .descending => 2) := by
  cases dir <;> exact toNat_domain_slot j (by decide)

/-! ### PARAMETER_COPY -/

theorem Channel.work_of_own {a b : Channel} (h : a.own = b.own) : a.work = b.work :=
  (congrArg Channel.work h : a.own.work = b.own.work)

theorem exec_parameterCopy {s : State} {c : ChannelId} {a : EngineAccess}
    (h : s.completes (.channel c) .parameterCopy a) :
    ((s.eng.chan c).work = .paramMark →
      exec .parameterCopy s = .next (s.afterUnit a (s.eng.dropUnit.paramMarked c))) ∧
    ∀ second, (s.eng.chan c).work = .paramWrite second →
      exec .parameterCopy s = .next (s.afterUnit a (s.eng.dropUnit.paramWritten c second)) := by
  change (_ → execParameterCopy s = _) ∧ ∀ second, _ → execParameterCopy s = _
  rw [execParameterCopy, completeChannel_afterUnit h]
  exact ⟨fun hw => by simp only [Engine.dropUnit_chan, hw], fun second hw => by simp only [Engine.dropUnit_chan, hw]⟩

/-- The copy is cut at the edge of its block (R112). -/
theorem parameterBursts_eq (base : Nat) (bs : List Byte) : parameterBursts base bs =
    (bs.take (32 - base % 32), if bs.length ≤ 32 - base % 32 then none
      else some (base + (32 - base % 32), bs.drop (32 - base % 32))) := by
  by_cases h : bs.length ≤ 32 - base % 32
  · simp [parameterBursts, bytesToEdge, h, List.take_of_length_le h]
  · simp [parameterBursts, bytesToEdge, h]

theorem Engine.paramMarked_writes {e : Engine} {c : ChannelId} {j : Job} {v : ServiceRecord} {r : Reading}
    (hj : (e.chan c).job = some j) (hv : (e.chan c).readings.service = some v)
    (hr : (e.chan c).readings.param = some r) {b : List Byte × Option (Nat × List Byte)}
    (hb : b = parameterBursts r.desc.base.toNat (wordsBytes (parameterWords j (e.domain j.domain).level v))) :
    e.paramMarked c = (e.setChan c { e.chan c with
      work := .paramWrite b.2, progress := { (e.chan c).progress with writtenParam := true } }).askFrom c
      .parameterCopy (.write r.desc.base.toNat b.1) := by
  subst hb
  simp [Engine.paramMarked, hj, hv, hr]

theorem Engine.paramWritten_second {e : Engine} {c : ChannelId} {a : Nat} {bs : List Byte} :
    e.paramWritten c (some (a, bs)) =
      (e.setChan c { e.chan c with work := .paramWrite none }).askFrom c .parameterCopy (.write a bs) := rfl

/-- Settles O52: the WRITTEN pair asks for the first burst, the first burst for the second or for the USED pairs. -/
theorem parameterCopyMade : Obligations.ParameterCopyMade := by
  refine ⟨fun j level n hn => identityWord_toNat j level hn, fun s c x => ⟨?marked, ?second, ?complete⟩⟩
  case marked =>
    intro m j v r bs hdone hwork hj hv hr hbs
    have hx := (exec_parameterCopy hdone).1 hwork
    have hcut := parameterBursts_eq r.desc.base.toNat bs
    rw [Engine.paramMarked_writes (e := s.eng.dropUnit) hj hv hr (hcut.symm.trans (congrArg _ hbs))] at hx
    obtain ⟨u, hu, hcompleted, hown, hpresents, hsame⟩ :=
      exec_asks (ps := [.mem, .arb, .channel c]) hx (.refl c _) (by simp) (by simp) (.inl (by simp))
    have hnext := Channel.work_of_own hown
    refine ⟨u, hu, hcompleted, ?_, hpresents, hnext, hsame⟩
    rw [hown, hnext]
    rfl
  case second =>
    intro bs a more hdone hwork
    have hx := (exec_parameterCopy hdone).2 _ hwork
    rw [Engine.paramWritten_second] at hx
    obtain ⟨u, hu, hcompleted, hown, hpresents, hsame⟩ :=
      exec_asks (ps := [.mem, .arb, .channel c]) hx (.refl c _) (by simp) (by simp) (.inl (by simp))
    exact ⟨u, hu, hcompleted, hpresents, hown, hsame⟩
  case complete =>
    intro bs w more hdone hwork hkinds
    have hx := (exec_parameterCopy hdone).2 none hwork
    rw [Engine.paramWritten, Engine.beginMarks_cons (s.eng.dropUnit_chan c) hkinds] at hx
    obtain ⟨u, hu, hcompleted, hown, hpresents, hsame⟩ :=
      exec_asks (ps := [.mem, .arb, .channel c]) hx (.refl c _) (by simp) (by simp) (.inl (by simp))
    exact ⟨u, hu, hcompleted, hpresents, hown, hsame⟩

/-! ### Boundaries (R74 to R76, R80, R81) -/

section Boundary

variable {e : Engine} {c : ChannelId} {a : Channel} {j : Job} {rs : Readings}

theorem Engine.boundary_stops {r : StopReason} (hch : e.chan c = a) (hc : a.copies = some rs)
    (h : a.stop = some r) :
    e.boundary c = e.finish c (plainResult r.outcome a.progress.bytesDone) rs.service := by
  subst hch
  simp [Engine.boundary, Engine.takeStop, h, hc]

theorem Engine.boundary_yields (hch : e.chan c = a) (h : a.stop = none) (hy : a.yieldHeld = true) :
    e.boundary c = e.takeYield c := by
  simp [Engine.boundary, hch, h, hy]

theorem Engine.boundary_proceeds (hch : e.chan c = a) (h : a.stop = none) (hy : a.yieldHeld = false) :
    e.boundary c = e.proceed c := by
  simp [Engine.boundary, hch, h, hy]

theorem Channel.moving_eq (hj : a.job = some j) (hc : a.copies = some rs) :
    a.moving = some (j, rs, bodyOf j.record rs.service) := by
  simp [Channel.moving, hj, hc]

theorem Engine.proceed_waits (h : e.frozen = true ∨ (e.chan c).waitsForTick = true) :
    e.proceed c = e.setWork c .boundary := by
  simp [Engine.proceed, h]

theorem Engine.proceed_issues (hf : e.frozen = false) (hw : (e.chan c).waitsForTick = false) :
    e.proceed c = e.issueBurst c := by
  simp [Engine.proceed, hf, hw]

theorem Engine.WorksAlone.proceed {d : Engine} (h : Engine.WorksAlone c d e) :
    Engine.WorksAlone c d (e.proceed c) := by
  unfold Engine.proceed
  split
  · exact h.setChan _
  · exact h.issueBurst

theorem Engine.takeYield_parksShadow (hm : (e.chan c).moving = some (j, rs, bodyOf j.record rs.service))
    (h : (e.chan c).shadow = none) : e.takeYield c = (e.clearYield c j.place).parkShadow c j rs := by
  simp [Engine.takeYield, hm, h]

theorem Engine.takeYield_parksContext {sh : Shadow} {cl : Claim}
    (hm : (e.chan c).moving = some (j, rs, bodyOf j.record rs.service)) (h : (e.chan c).shadow = some sh)
    (hcl : j.claim = some cl) : e.takeYield c = (e.clearYield c j.place).parkContext c j cl := by
  simp [Engine.takeYield, hm, h, hcl]

/-- A channel that takes a yield parks its job, in the bank or in the context (R76, R80, R81). -/
theorem State.takesYield_afterUnit {s : State} {x : EngineAccess} {ps : List Part}
    (hw : Engine.WorksAlone c s.eng.dropUnit e) (hch : e.chan c = a) (hj : a.job = some j) (hc : a.copies = some rs)
    (ha : .arb ∈ ps) (hm : .mem ∈ ps ∨ (x.perform s.mem).1 = s.mem) :
    s.TakesYield ps (s.afterUnit x (e.takeYield c)) c a j rs := by
  subst hch
  have hmoving := Channel.moving_eq hj hc
  refine ⟨fun sh hn hsh => ?_, fun sh cl hs hcl => ?_⟩
  · rw [Engine.takeYield_parksShadow hmoving hn]
    refine State.freesFull_afterUnit ((hw.clearYield _).setChan _) ?_ rfl ha hm
    rw [Engine.setChan_chan, hsh]
    rfl
  · rw [Engine.takeYield_parksContext hmoving hs hcl]
    obtain ⟨hown, hpresents, hsame⟩ := State.asks_afterUnit (x := x) (ps := .channel c :: ps)
      (a := writeWords cl.saveArea (saveWords j (e.chan c).progress)) (hw.clearYield j.place)
      { e.chan c with state := .saving, work := .saveWrite, yieldHeld := false } .saveAreaWrite (by simp)
      (List.mem_cons_of_mem _ ha) (hm.imp_left (List.mem_cons_of_mem _))
    exact ⟨hown, ⟨_, hpresents, saveWord_toNat j _⟩, hsame⟩

theorem Engine.Issues.afterUnit {s : State} {x : EngineAccess} {body : Body} {b : Burst}
    (h : e.Issues c a body rs b) : (s.afterUnit x e).eng.Issues c a body rs b := by
  obtain ⟨hown, hread, hwrite, hpair⟩ := h
  exact ⟨(s.afterUnit_own x e c).trans hown, fun hf => s.afterUnit_presents x (hread hf),
    fun hf hw => s.afterUnit_presents x (hwrite hf hw), fun r hf hw hr => s.afterUnit_presents x (hpair r hf hw hr)⟩

end Boundary

/-! ### USED_MARK -/

theorem exec_usedMark {s : State} {c : ChannelId} {a : EngineAccess} {rest : List Nat}
    (h : s.completes (.channel c) .usedMark a) (hw : (s.eng.chan c).work = .usedMark rest) :
    exec .usedMark s = .next (s.afterUnit a (s.eng.dropUnit.markUsed c rest)) := by
  change execUsedMark s = _
  rw [execUsedMark, completeChannel_afterUnit h]
  simp only [Engine.dropUnit_chan, hw]

theorem filterMap_id_cons {α : Type} (o : Option α) (l : List (Option α)) :
    (o :: l).filterMap id = o.toList ++ l.filterMap id := by
  cases o <;> rfl

theorem Readings.kindWords_eq (rs : Readings) : rs.kindWords = (rs.gate.toList ++ rs.source.toList ++
    rs.dest.toList ++ rs.param.toList ++ rs.context.toList).map fun r => r.address + 12 := by
  simp only [Readings.kindWords, filterMap_id_cons, List.filterMap_nil, List.append_nil, List.append_assoc,
    kindWordAddr]

theorem Engine.markUsed_cons (e : Engine) (c : ChannelId) (w : Nat) (more : List Nat) :
    e.markUsed c (w :: more) =
      (e.setChan c { e.chan c with work := .usedMark more }).askFrom c .usedMark (.pair w (.setBits 0x800)) := rfl

/-- The progress record with which a job enters MOVING: what a restore has saved, and else nothing done in the
direction of R92 (R86, R93). -/
def startProgress (saved : Option SaveArea) (body : Body) (dir : Direction) : Progress :=
  match saved with
  | some sa => restoredProgress sa
  | none => firstProgress body dir

/-- After the last USED pair the readings are the job's copies, and it is at a boundary in MOVING (R73, R86). -/
theorem Engine.markUsed_nil {e : Engine} {c : ChannelId} {j : Job} {rs : Readings} {body : Body} {dir : Direction}
    (hj : (e.chan c).job = some j) (hrs : rs = (e.chan c).readings) (hb : body = bodyOf j.record rs.service)
    (hd : body.Chooses rs.source rs.dest dir) :
    e.markUsed c [] = (e.setChan c { e.chan c with
      state := .moving, work := .boundary, progress := startProgress (e.chan c).saved body dir, copies := some rs,
      readings := Readings.empty, saved := none }).boundary c := by
  subst hrs hb
  rw [hd.eq]
  simp only [Engine.markUsed, Engine.enterMoving, hj]
  cases (e.chan c).saved <;> rfl

theorem startProgress_unitLeft (saved : Option SaveArea) (body : Body) (dir : Direction) :
    (startProgress saved body dir).unitLeft = 0 := by
  cases saved <;> rfl

theorem firstProgress_eq (body : Body) (dir : Direction) : firstProgress body dir =
    ⟨0, body.OffsetAfter (body.op ≠ .fill) dir body.sourceFirst 0,
      body.OffsetAfter (body.op ≠ .sum) dir body.destFirst 0, dir, 0xFFFFFFFF, 0, false, false, false⟩ := by
  rw [firstProgress, Body.nextSource_eq, Body.nextDest_eq]
  rfl

/-- Settles O53: a USED pair asks for the next, and the last brings the job to its first boundary in MOVING. -/
theorem usedMarksThenMoving : Obligations.UsedMarksThenMoving := by
  refine ⟨Readings.kindWords_eq, fun s c x m hdone => ⟨fun w more hwork => ?_, ?_⟩⟩
  · have hx := exec_usedMark hdone hwork
    rw [Engine.markUsed_cons] at hx
    obtain ⟨u, hu, hcompleted, hown, hpresents, hsame⟩ :=
      exec_asks (ps := [.mem, .arb, .channel c]) hx (.refl c _) (by simp) (by simp) (.inl (by simp))
    refine ⟨u, hu, hcompleted, fun hwf => ?_, hown, hpresents, hsame⟩
    rw [hcompleted.1]
    exact EngineAccess.pair_word hwf x _ hdone.2.2
  · intro j rs body dir p a hwork hj hrs hbody hdir hp ha
    have hp' : p = startProgress (s.eng.chan c).saved body dir := by
      rw [hp]
      cases (s.eng.chan c).saved with
      | none => exact (firstProgress_eq body dir).symm
      | some sa => rfl
    have hx := exec_usedMark hdone hwork
    rw [Engine.markUsed_nil (e := s.eng.dropUnit) hj hrs hbody hdir, Engine.dropUnit_chan, ← hp', ← ha] at hx
    have hw : Engine.WorksAlone c s.eng.dropUnit (s.eng.dropUnit.setChan c a) := (Engine.WorksAlone.refl c _).setChan a
    have hch := s.eng.dropUnit.setChan_chan c a
    have haj : a.job = some j := by rw [ha]; exact hj
    have hac : a.copies = some rs := by rw [ha]
    have hap : a.progress = p := by rw [ha]
    have hawork : a.work = .boundary := by rw [ha]
    refine ⟨_, hx, s.afterUnit_completed _ _, fun r hr => ?stop, fun hs hy => ?yields, fun hs hy => ?proceeds⟩
    case stop =>
      rw [Engine.boundary_stops hch hac hr, hap]
      exact State.finishes_afterUnit hw (by rw [hch]; exact haj) (congrArg _ hch) (by simp) (.inl (by simp)) _ _
    case yields =>
      rw [Engine.boundary_yields hch hs hy]
      exact State.takesYield_afterUnit hw hch haj hac (by simp) (.inl (by simp))
    case proceeds =>
      have hfrozen : (s.eng.dropUnit.setChan c a).frozen = s.eng.frozen := rfl
      have htick : ((s.eng.dropUnit.setChan c a).chan c).waitsForTick = decide (j.record.paceUnit ≠ 0) := by
        simp [Channel.waitsForTick, haj, hap, hp', startProgress_unitLeft]
      rw [Engine.boundary_proceeds hch hs hy]
      refine ⟨fun hwait => ?_, fun hf hpace => ?_, hw.proceed.sameBut (by simp) (by simp) (.inl (by simp))⟩
      · rw [Engine.proceed_waits (by rw [htick, hfrozen]; simpa using hwait), State.afterUnit_own, Engine.setWork,
          Engine.setChan_chan, hch, ← hawork]
      · rw [Engine.proceed_issues (hfrozen.trans hf) (by rw [htick]; simp [hpace])]
        have hi := Engine.issueBurst_issues ((congrArg Channel.moving hch).trans (Channel.moving_eq haj hac))
        rw [hch, hap, ← hbody] at hi
        simpa [hpace] using hi.afterUnit

end Sys2Proof.Machine
end

section
/-! SUPPORT. What a step can do to the entries and to the intake pass in flight (R33 to R38, R43), as the two laws of R43
see them: the slots that entries hold, and the pass with what it has decided and has still to classify. -/

namespace Sys2Proof.Machine

/-! ### The slots that entries hold -/

/-- The domain and slot of each entry. -/
def JobTable.keys (j : JobTable) : List (Domain × Slot) := j.entries.map fun en => (en.domain, en.slot)

theorem JobTable.keys_length (j : JobTable) : j.keys.length = j.entries.length := by simp [JobTable.keys]

theorem JobTable.countOf_keys (j : JobTable) (d : Domain) : j.countOf d = j.keys.countP fun k => k.1 == d := by
  simp only [JobTable.countOf, JobTable.keys, List.countP_map, ← List.countP_eq_length_filter]
  rfl

theorem JobTable.holding_eq_none (j : JobTable) (d : Domain) (k : Slot) :
    j.holding d k = none ↔ (d, k) ∉ j.keys := by
  simp [JobTable.holding, JobTable.keys]

theorem JobTable.keys_nodup (j : JobTable) :
    j.keys.Nodup ↔ j.entries.Pairwise fun a b => ¬ (a.domain = b.domain ∧ a.slot = b.slot) := by
  simp [JobTable.keys, List.Nodup, List.pairwise_map]

theorem JobTable.keys_update (j : JobTable) (place : Nat) {f : Entry → Entry}
    (hf : ∀ en, (f en).domain = en.domain ∧ (f en).slot = en.slot) : (j.update place f).keys = j.keys := by
  simp only [JobTable.keys, JobTable.update_entries, List.map_map]
  refine List.map_congr_left fun en _ => ?_
  by_cases h : en.place = place <;> simp [h, hf en]

@[simp] theorem JobTable.keys_close (j : JobTable) (place : Nat) (r : JobResult) (n : Option ServiceNotify) :
    (j.close place r n).keys = j.keys :=
  j.keys_update place fun _ => ⟨rfl, rfl⟩

@[simp] theorem JobTable.keys_closeWaiting (j : JobTable) (en : Entry) (o : JobOutcome) :
    (j.closeWaiting en o).keys = j.keys :=
  j.keys_close _ _ _

@[simp] theorem JobTable.keys_create (j : JobTable) (r : JobRecord) (d : Domain) (k : Slot) (taken : Bool) :
    (j.create r d k taken).keys = j.keys ++ [(d, k)] := by
  simp [JobTable.keys, Entry.fresh]

/-! ### Tables that gain no entry -/

/-- No slot is held that was not held before, and the pass in flight is the same or has been given up. -/
def JobTable.Frees (j k : JobTable) : Prop := k.keys.Sublist j.keys ∧ (k.pass = j.pass ∨ k.pass = none)

namespace JobTable.Frees

variable {j k l : JobTable}

theorem of_keys (hk : k.keys = j.keys) (hp : k.pass = j.pass) : j.Frees k := ⟨hk ▸ .refl _, .inl hp⟩

/-- Whatever a table's queues and line records become. -/
theorem of_entries (he : k.entries = j.entries) (hp : k.pass = j.pass) : j.Frees k :=
  of_keys (congrArg (List.map _) he) hp

theorem of_eq (h : k = j) : j.Frees k := of_entries (congrArg _ h) (congrArg _ h)

theorem refl (j : JobTable) : j.Frees j := of_eq rfl

theorem trans (h : j.Frees k) (h' : k.Frees l) : j.Frees l := by
  refine ⟨h'.1.trans h.1, h'.2.elim (fun hp => ?_) .inr⟩
  rw [hp]
  exact h.2

theorem update (j : JobTable) (place : Nat) {f : Entry → Entry}
    (hf : ∀ en, (f en).domain = en.domain ∧ (f en).slot = en.slot) : j.Frees (j.update place f) :=
  of_keys (j.keys_update place hf) rfl

theorem closeWaiting (j : JobTable) (en : Entry) (o : JobOutcome) : j.Frees (j.closeWaiting en o) :=
  of_keys (j.keys_closeWaiting en o) rfl

theorem free (j : JobTable) (place : Nat) : j.Frees (j.free place) :=
  ⟨List.filter_sublist.map _, .inl rfl⟩

/-- A reset empties the table (R43, R160). -/
theorem empty (j : JobTable) (d : Domain) : j.Frees (JobTable.empty d) := ⟨List.nil_sublist _, .inr rfl⟩

theorem foldl {α : Type} {f : Engine → α → Engine} (hf : ∀ (e : Engine) (x : α), e.jtc.Frees (f e x).jtc)
    (xs : List α) (e : Engine) :
    e.jtc.Frees (xs.foldl f e).jtc := by
  induction xs generalizing e with
  | nil => exact refl _
  | cons x xs ih => exact (hf e x).trans (ih _)

end JobTable.Frees

/-- The work of one channel changes start orders alone. -/
theorem Engine.Works.frees {c : ChannelId} {e f : Engine} (h : Engine.Works c e f) : e.jtc.Frees f.jtc := by
  refine .of_keys ?_ h.pass
  have hk : ∀ j : JobTable, j.keys = (j.entries.map Entry.unstarted).map fun en => (en.domain, en.slot) := fun j => by
    simp [JobTable.keys, Entry.unstarted]
  rw [hk, hk, h.entries]

/-! ### How the pass goes on -/

/-- The table while a pass is at a step. -/
def JobTable.inPass (j : JobTable) (p : Pass) (t : PassStep) : JobTable := { j with pass := some { p with step := t } }

/-- A pass of a domain goes on to another step without a new entry: the posted slots are read with the allowance of R35,
decisions are dropped or carried out, or the next slot is decided (R34 to R37). -/
inductive PassStep.Goes (j : JobTable) (d : Domain) : PassStep → PassStep → Prop where
  | reads {u : PassStep} : u.decisions = [] → u.ahead.Pairwise (· < ·) → u.room ≤ j.allowance d → Goes j d .postWord u
  | lessens {t u : PassStep} : u.decisions.Sublist t.decisions → u.ahead.Sublist t.ahead → u.room ≤ t.room →
      Goes j d t u
  | decides {t u : PassStep} (x : Decision) : u.decisions = t.decisions ++ [x] → t.ahead = x.slot :: u.ahead →
      (∀ r, x.verdict = .take r → j.holding d x.slot = none) → u.room ≤ t.room → Goes j d t u

/-- One thing that can happen to the table: entries go, a pass begins, it goes on, or it takes a job. -/
inductive JobTable.Moves (j k : JobTable) : Prop where
  | frees : j.Frees k → Moves j k
  | begins (d : Domain) : k.keys = j.keys → j.pass = none → k.pass = some ⟨d, .postWord, false⟩ → Moves j k
  | goesOn (p q : Pass) : k.keys = j.keys → j.pass = some p → k.pass = some q → q.domain = p.domain →
      PassStep.Goes j p.domain p.step q.step → Moves j k
  | takes (p q : Pass) (x : Decision) (r : JobRecord) : j.pass = some p → k.pass = some q → q.domain = p.domain →
      p.step.decisions = x :: q.step.decisions → x.verdict = .take r → q.step.ahead = [] →
      k.keys = j.keys ++ [(p.domain, x.slot)] → q.step.room + 1 ≤ p.step.room → Moves j k

/-- What can happen to the table in a step. -/
def JobTable.Reaches : JobTable → JobTable → Prop := Relation.ReflTransGen JobTable.Moves

theorem JobTable.Frees.reaches {j k : JobTable} (h : j.Frees k) : j.Reaches k := .single (.frees h)

/-! ### The capacity law (R43) -/

theorem JobTable.room_iff (j : JobTable) : j.Room ↔
    j.keys.length + j.roomInAll ≤ 48 ∧ ∀ d, (j.keys.countP fun k => k.1 == d) + j.roomFor d ≤ 8 := by
  simp only [JobTable.Room, JobTable.keys_length, JobTable.countOf_keys]

theorem JobTable.roomFor_le {j k : JobTable} {p q : Pass} (hj : j.pass = some p) (hk : k.pass = some q)
    (hd : q.domain = p.domain) (hr : q.step.room ≤ p.step.room) (d : Domain) : k.roomFor d ≤ j.roomFor d := by
  simp only [JobTable.roomFor, hj, hk, hd]
  split
  · exact hr
  · exact Nat.le_refl 0

/-- Fewer entries and a smaller room keep the law. -/
theorem JobTable.Room.mono {j k : JobTable} (h : j.Room) (hk : k.keys.Sublist j.keys)
    (hall : k.roomInAll ≤ j.roomInAll) (hfor : ∀ d, k.roomFor d ≤ j.roomFor d) : k.Room := by
  rw [JobTable.room_iff] at h ⊢
  refine ⟨Nat.le_trans (Nat.add_le_add hk.length_le hall) h.1, fun d => ?_⟩
  exact Nat.le_trans (Nat.add_le_add (hk.countP_le) (hfor d)) (h.2 d)

theorem JobTable.Room.frees {j k : JobTable} (h : j.Room) (hf : j.Frees k) : k.Room := by
  obtain ⟨hk, hp | hp⟩ := hf
  · exact h.mono hk (by simp [JobTable.roomInAll, hp]) fun d => by simp [JobTable.roomFor, hp]
  · exact h.mono hk (by simp [JobTable.roomInAll, hp]) fun d => by simp [JobTable.roomFor, hp]

/-- The allowance is what the law leaves to a domain (R35). -/
theorem JobTable.Room.allowance {j : JobTable} (h : j.Room) (d : Domain) :
    j.keys.length + j.allowance d ≤ 48 ∧ (j.keys.countP fun k => k.1 == d) + j.allowance d ≤ 8 := by
  have hall := (j.room_iff.mp h).1
  have hfor := (j.room_iff.mp h).2 d
  simp only [JobTable.allowance, Config.tablePerDomain, Config.tableSize, JobTable.countOf_keys, ← JobTable.keys_length]
  omega

theorem JobTable.Room.goesOn {j k : JobTable} {p q : Pass} (h : j.Room) (hk : k.keys = j.keys) (hp : j.pass = some p)
    (hq : k.pass = some q) (hd : q.domain = p.domain) (hg : PassStep.Goes j p.domain p.step q.step) : k.Room := by
  have hle (hr : q.step.room ≤ p.step.room) : k.Room :=
    h.mono (hk ▸ .refl _) (by simpa [JobTable.roomInAll, hp, hq] using hr) (JobTable.roomFor_le hp hq hd hr)
  generalize ht : p.step = t at hg hle
  generalize hu : q.step = u at hg hle
  cases hg with
  | reads _ _ hr =>
    have ha := h.allowance p.domain
    have hcount := (j.room_iff.mp h).2
    rw [JobTable.room_iff, hk]
    refine ⟨by simp only [JobTable.roomInAll, hq, hu]; omega, fun d => ?_⟩
    by_cases hpd : p.domain = d
    · subst hpd; simp only [JobTable.roomFor, hq, hd, hu, if_true]; omega
    · simpa [JobTable.roomFor, hq, hd, hpd] using Nat.le_trans (Nat.le_add_right _ _) (hcount d)
  | lessens _ _ hr => exact hle hr
  | decides _ _ _ _ hr => exact hle hr

theorem JobTable.Room.takes {j k : JobTable} {p q : Pass} {s : Slot} (h : j.Room) (hp : j.pass = some p)
    (hq : k.pass = some q) (hd : q.domain = p.domain) (hk : k.keys = j.keys ++ [(p.domain, s)])
    (hr : q.step.room + 1 ≤ p.step.room) : k.Room := by
  rw [JobTable.room_iff] at h ⊢
  obtain ⟨hall, hfor⟩ := h
  simp only [JobTable.roomInAll, JobTable.roomFor, hp, hq, hd, hk] at hall hfor ⊢
  refine ⟨by simp only [List.length_append, List.length_singleton]; omega, fun d => ?_⟩
  have := hfor d
  by_cases hpd : p.domain = d
  · simp only [hpd, if_true, List.countP_append, List.countP_singleton, beq_self_eq_true] at this ⊢; omega
  · simpa [hpd, List.countP_append] using this

theorem JobTable.Room.moves {j k : JobTable} (h : j.Room) (hm : j.Moves k) : k.Room := by
  cases hm with
  | frees hf => exact h.frees hf
  | begins d hk _ hq =>
    refine h.mono (hk ▸ List.Sublist.refl _) ?_ fun _ => ?_
    · simp [JobTable.roomInAll, hq, PassStep.room]
    · simp [JobTable.roomFor, hq, PassStep.room]
  | goesOn p q hk hp hq hd hg => exact h.goesOn hk hp hq hd hg
  | takes p q x r hp hq hd _ _ _ hk hr => exact h.takes hp hq hd hk hr

/-! ### One entry for each domain and slot (R43) -/

/-- What the law asks of a pass: each slot is decided once, in ascending order, and none taken that an entry holds. -/
def Pass.Sorted (p : Pass) (keys : List (Domain × Slot)) : Prop :=
  (p.step.decisions.map (fun x => x.slot) ++ p.step.ahead).Pairwise (· < ·) ∧
  ∀ x ∈ p.step.decisions, ∀ r, x.verdict = .take r → (p.domain, x.slot) ∉ keys

theorem JobTable.unique_iff (j : JobTable) : j.Unique ↔ j.keys.Nodup ∧ ∀ p, j.pass = some p → p.Sorted j.keys := by
  simp only [JobTable.Unique, Pass.Sorted, JobTable.keys_nodup, JobTable.holding_eq_none]

theorem JobTable.Unique.frees {j k : JobTable} (h : j.Unique) (hf : j.Frees k) : k.Unique := by
  rw [JobTable.unique_iff] at h ⊢
  obtain ⟨hk, hp⟩ := hf
  refine ⟨h.1.sublist hk, fun p hkp => ?_⟩
  have hj : j.pass = some p := by
    rcases hp with hp | hp
    · exact hp.symm.trans hkp
    · simp [hp] at hkp
  obtain ⟨hs, ht⟩ := h.2 p hj
  exact ⟨hs, fun x hx r hr hm => ht x hx r hr (hk.subset hm)⟩

theorem Pass.Sorted.goesOn {j : JobTable} {p q : Pass} (h : p.Sorted j.keys) (hd : q.domain = p.domain)
    (hg : PassStep.Goes j p.domain p.step q.step) : q.Sorted j.keys := by
  obtain ⟨hs, ht⟩ := h
  unfold Pass.Sorted
  rw [hd]
  generalize p.step = t at hg hs ht
  generalize q.step = u at hg
  cases hg with
  | reads hds ha _ => simpa [hds] using ha
  | lessens hds ha _ =>
    exact ⟨hs.sublist ((hds.map _).append ha), fun x hx => ht x (hds.subset hx)⟩
  | decides x hds ha hx _ =>
    refine ⟨by simpa [hds, ha] using hs, fun y hy r hr => ?_⟩
    rcases List.mem_append.mp (hds ▸ hy) with hy | hy
    · exact ht y hy r hr
    · rw [List.mem_singleton.mp hy] at hr ⊢
      exact (j.holding_eq_none _ _).mp (hx r hr)

/-- The slot of the job taken is another than those that remain to be taken. -/
theorem Pass.Sorted.takes {p q : Pass} {x : Decision} {keys : List (Domain × Slot)} (h : p.Sorted keys)
    (hd : q.domain = p.domain) (hds : p.step.decisions = x :: q.step.decisions) (ha : q.step.ahead = []) :
    q.Sorted (keys ++ [(p.domain, x.slot)]) := by
  obtain ⟨hs, ht⟩ := h
  rw [hds, List.map_cons, List.cons_append, List.pairwise_cons] at hs
  obtain ⟨hfirst, hrest⟩ := hs
  refine ⟨hrest.sublist (by simp [ha]), fun y hy r hr hm => ?_⟩
  rw [hd] at hm
  rcases List.mem_append.mp hm with hm | hm
  · exact ht y (hds ▸ List.mem_cons_of_mem _ hy) r hr hm
  · have hslot : y.slot = x.slot := congrArg Prod.snd (List.mem_singleton.mp hm)
    exact absurd (hfirst y.slot (List.mem_append_left _ (List.mem_map_of_mem hy))) (by simp [hslot])

theorem JobTable.Unique.moves {j k : JobTable} (h : j.Unique) (hm : j.Moves k) : k.Unique := by
  cases hm with
  | frees hf => exact h.frees hf
  | begins d hk _ hq =>
    rw [JobTable.unique_iff] at h ⊢
    refine ⟨hk ▸ h.1, fun p hp => ?_⟩
    obtain rfl := Option.some.inj (hq.symm.trans hp)
    simp [Pass.Sorted, PassStep.decisions, PassStep.ahead]
  | goesOn p q hk hp hq hd hg =>
    rw [JobTable.unique_iff, hk] at *
    refine ⟨h.1, fun q' hq' => ?_⟩
    obtain rfl := Option.some.inj (hq.symm.trans hq')
    exact (h.2 p hp).goesOn hd hg
  | takes p q x r hp hq hd hds hv ha hk _ =>
    rw [JobTable.unique_iff] at h ⊢
    have hsorted := h.2 p hp
    have hnew : (p.domain, x.slot) ∉ j.keys := hsorted.2 x (by simp [hds]) r hv
    rw [hk]
    refine ⟨by simpa [List.nodup_append] using ⟨h.1, fun a b hab hda hsb => hnew (hda ▸ hsb ▸ hab)⟩, fun q' hq' => ?_⟩
    obtain rfl := Option.some.inj (hq.symm.trans hq')
    exact hsorted.takes hd hds ha

/-- A law that every move keeps holds of every table reached. -/
theorem JobTable.Reaches.keeps {j k : JobTable} {L : JobTable → Prop} (h : j.Reaches k)
    (hL : ∀ j k : JobTable, L j → j.Moves k → L k) (hj : L j) : L k := by
  induction h with
  | refl => exact hj
  | tail _ hm ih => exact hL _ _ ih hm

end Sys2Proof.Machine
end

section
/-! SUPPORT. That every step moves the job table as `JobTable.Reaches` says: each shared operation first, then each
command, and the two laws of R43 from it. -/

namespace Sys2Proof.Machine

theorem JobTable.Reaches.refl (j : JobTable) : j.Reaches j := Relation.ReflTransGen.refl

theorem JobTable.Reaches.trans {j k l : JobTable} (h : j.Reaches k) (h' : k.Reaches l) : j.Reaches l :=
  Relation.ReflTransGen.trans h h'

theorem JobTable.Moves.reaches {j k : JobTable} (h : j.Moves k) : j.Reaches k := .single h

/-! ### Operations on entries -/

namespace JobTable.Frees

theorem arm (j : JobTable) (place : Nat) (n : Line) : j.Frees (j.arm place n) := by
  unfold JobTable.arm
  split
  · exact update j place (f := fun en => { en with custody := .pending, lineOverrun := j.overrun[n] })
      fun _ => ⟨rfl, rfl⟩
  · exact update j place fun _ => ⟨rfl, rfl⟩

theorem taken (j : JobTable) (draining : Bool) (place : Nat) : j.Frees (j.taken draining place) := by
  unfold JobTable.taken
  split
  · exact refl j
  · refine (update j place (f := fun x => { x with takenOutstanding := false }) fun _ => ⟨rfl, rfl⟩).trans ?_
    dsimp only
    split
    · exact refl _
    · split
      · exact closeWaiting _ _ _
      · split
        · exact update _ place fun _ => ⟨rfl, rfl⟩
        · exact arm _ place _

theorem contextParked (j : JobTable) (draining : Bool) (place n : Nat) :
    j.Frees (j.contextParked draining place n) := by
  unfold JobTable.contextParked
  split
  · exact refl j
  · refine (update j place (f := fun x => x.contextParkedAt n) fun _ => ⟨rfl, rfl⟩).trans ?_
    dsimp only
    split
    · exact closeWaiting _ _ _
    · split
      · exact closeWaiting _ _ _
      · exact update _ place fun _ => ⟨rfl, rfl⟩

theorem handedOff (j : JobTable) (place : Nat) (r : JobResult) (n : Option ServiceNotify) :
    j.Frees (j.handedOff place r n) := by
  unfold JobTable.handedOff
  split
  · exact refl j
  · split
    · exact of_keys (j.keys_close place r n) rfl
    · exact refl j

theorem lineEvent (j : JobTable) (draining : Bool) (n : Line) : j.Frees (j.lineEvent draining n) := by
  unfold JobTable.lineEvent
  split
  · split
    · exact closeWaiting _ _ _
    · exact update j _ fun _ => ⟨rfl, rfl⟩
  · split <;> exact of_entries rfl rfl

end JobTable.Frees

/-! ### Operations of the engine -/

namespace Engine

theorem sendStop_jtc (e : Engine) (en : Entry) (r : StopReason) : (e.sendStop en r).jtc = e.jtc := by
  unfold Engine.sendStop
  split <;> rfl

theorem sendDrop_jtc (e : Engine) (en : Entry) (r : StopReason) : (e.sendDrop en r).jtc = e.jtc := by
  unfold Engine.sendDrop
  split <;> rfl

theorem requestStop_frees (e : Engine) (en : Entry) (r : StopReason) : e.jtc.Frees (e.requestStop en r).jtc := by
  unfold Engine.requestStop
  split
  · exact .refl _
  · refine (JobTable.Frees.update e.jtc en.place (f := fun x => { x with stopReason := some r })
      fun _ => ⟨rfl, rfl⟩).trans ?_
    dsimp only
    split
    · exact .of_eq (sendDrop_jtc _ _ _)
    · exact .of_eq (sendStop_jtc _ _ _)

theorem drainEntry_frees (e : Engine) (en : Entry) : e.jtc.Frees (e.drainEntry en).jtc := by
  unfold Engine.drainEntry
  cases en.custody with
  | pending | armed => exact .closeWaiting _ _ _
  | active | shadowed => exact e.requestStop_frees en _
  | created | closing => exact .refl _

theorem expire_frees (e : Engine) (en : Entry) : e.jtc.Frees (e.expire en).jtc := by
  unfold Engine.expire
  refine (JobTable.Frees.update e.jtc en.place (f := fun x => { x with expiryDue := false })
    fun _ => ⟨rfl, rfl⟩).trans ?_
  cases en.custody with
  | closing => exact .refl _
  | active | shadowed => exact Engine.requestStop_frees _ en _
  | created | pending | armed => exact .closeWaiting _ _ _

theorem deliverCancel_frees (e : Engine) (d : Domain) (k : Slot) : e.jtc.Frees (e.deliverCancel d k).1.jtc := by
  unfold Engine.deliverCancel
  split
  · exact .refl _
  · rename_i en _
    cases en.custody with
    | closing => exact .refl _
    | active | shadowed => exact e.requestStop_frees en _
    | created | pending | armed => exact .closeWaiting _ _ _

theorem noteStart_frees (e : Engine) (place : Nat) : e.jtc.Frees (e.noteStart place).jtc :=
  .update e.jtc place (f := fun en => { en with startOrder := e.disp.nextStart }) fun _ => ⟨rfl, rfl⟩

theorem beginJob_jtc (e : Engine) (c : ChannelId) (j : Job) : (e.beginJob c j).jtc = e.jtc := by
  unfold Engine.beginJob
  dsimp only
  split <;> rfl

theorem dispatchTo_frees (e : Engine) (c : ChannelId) (en : Entry) : e.jtc.Frees (e.dispatchTo c en).jtc := by
  unfold Engine.dispatchTo
  rw [beginJob_jtc]
  exact (JobTable.Frees.update e.jtc en.place
    (f := fun x => { x with custody := .active, channel := some c, resumeFromContext := false })
    fun _ => ⟨rfl, rfl⟩).trans (noteStart_frees _ _)

theorem takeDispatch_frees (e : Engine) (c : ChannelId) : e.jtc.Frees (e.takeDispatch c).jtc := by
  unfold Engine.takeDispatch
  split
  · split
    · exact dispatchTo_frees _ _ _
    · exact .refl _
  · exact .refl _

theorem answerConditional_frees (e : Engine) (c : ChannelId) (prio : BitVec 3) :
    e.jtc.Frees (e.answerConditional c prio).jtc := by
  unfold Engine.answerConditional
  split
  · split
    · split
      · exact dispatchTo_frees _ _ _
      · exact (Engine.Works.resumeShadow c e).frees
    · exact (Engine.Works.resumeShadow c e).frees
  · exact .refl _

theorem shadowParked_frees (e : Engine) (c : ChannelId) (place : Nat) : e.jtc.Frees (e.shadowParked c place).jtc := by
  unfold Engine.shadowParked
  split
  · exact .refl _
  · refine (JobTable.Frees.update e.jtc place (f := fun x => x.shadowedOn c) fun _ => ⟨rfl, rfl⟩).trans ?_
    dsimp only
    split
    · exact .of_eq (sendDrop_jtc _ _ _)
    · split
      · exact requestStop_frees _ _ _
      · exact .refl _

/-- Taking a report does to the table what the report's own meaning does. -/
theorem takeReport_frees {f : Report → Option (Engine → Engine)}
    (hf : ∀ r (e : Engine), e.jtc.Frees ((f r).getD id e).jtc) (e : Engine) (c : ChannelId) :
    e.jtc.Frees (e.takeReport c f).jtc := by
  unfold Engine.takeReport
  split
  · exact .refl _
  · rename_i r rest _
    have hr := hf r (e.setChan c { e.chan c with reports := rest })
    split
    · exact .refl _
    · rename_i g hg
      rwa [hg] at hr

theorem sampleLine_frees (e : Engine) (rq : BitVec 8) (n : Line) : e.jtc.Frees (e.sampleLine rq n).jtc := by
  unfold Engine.sampleLine
  dsimp only
  split
  · dsimp only
    split <;> exact .of_entries rfl rfl
  · exact .refl _

theorem deadlineTicks_frees (e : Engine) : e.jtc.Frees e.deadlineTicks.jtc := by
  refine .of_keys ?_ rfl
  simp only [JobTable.keys, Engine.deadlineTicks, Engine.setJtc_jtc, List.map_map]
  refine List.map_congr_left fun en _ => ?_
  simp only [Function.comp, Entry.deadlineTick]
  split <;> rfl

theorem takeDue_frees (e : Engine) : e.jtc.Frees e.takeDue.jtc :=
  .foldl expire_frees _ e

theorem sampleLines_frees (rq : BitVec 8) (ns : List Line) (e : Engine) :
    e.jtc.Frees (ns.foldl (fun e n => e.sampleLine rq n) e).jtc :=
  .foldl (fun e n => e.sampleLine_frees rq n) ns e

theorem paceTicks_frees (cs : List ChannelId) (e : Engine) : e.jtc.Frees (cs.foldl Engine.paceTick e).jtc :=
  .foldl (fun e c => (Engine.Works.paceTick c e).frees) cs e

theorem advanceTimebase_frees (e : Engine) (rq : BitVec 8) : e.jtc.Frees (e.advanceTimebase rq).jtc := by
  unfold Engine.advanceTimebase
  refine .trans (.trans (.trans e.takeDue_frees ?_) (deadlineTicks_frees _)) (paceTicks_frees _ _)
  exact sampleLines_frees rq lineList { e.takeDue with count := e.count + 1 }

theorem serviceNotify_jtc (e : Engine) (en : Entry) : ((e.ownNotify en).serviceNotify en).jtc = e.jtc := by
  have hown : (e.ownNotify en).jtc = e.jtc := by
    unfold Engine.ownNotify
    split <;> rfl
  unfold Engine.serviceNotify
  split
  · exact hown
  · split <;> exact hown

theorem closeOut_frees (e : Engine) (en : Entry) : e.jtc.Frees (e.closeOut en).jtc := by
  unfold Engine.closeOut
  rw [Engine.setJtc_jtc, serviceNotify_jtc]
  exact .free _ _

theorem watch_jtc (e : Engine) (addr : Nat) (enables : BitVec 4) : (e.watch addr enables).jtc = e.jtc := by
  have hfold (ds : List Domain) (e : Engine) : (ds.foldl (fun e d => e.watchDomain addr d) e).jtc = e.jtc := by
    induction ds generalizing e with
    | nil => rfl
    | cons d ds ih =>
      rw [List.foldl_cons, ih]
      unfold Engine.watchDomain
      split <;> rfl
  unfold Engine.watch
  split
  · exact hfold _ _
  · rfl

theorem askAnchor_jtc (e : Engine) (t : EngineStep) : (e.askAnchor t).jtc = e.jtc := by
  unfold Engine.askAnchor
  split <;> rfl

theorem beginReading_jtc (e : Engine) (t : EngineStep) : (e.beginReading t).jtc = e.jtc := by
  unfold Engine.beginReading
  split
  · exact askAnchor_jtc _ _
  · rfl

theorem commandStart_jtc (e : Engine) : e.commandStart.jtc = e.jtc := by
  unfold Engine.commandStart
  split
  · exact beginReading_jtc _ _
  · rfl

theorem commandMapReload_jtc (e : Engine) : e.commandMapReload.jtc = e.jtc := by
  unfold Engine.commandMapReload
  split
  · exact beginReading_jtc _ _
  · rfl

theorem commandStop_frees (e : Engine) : e.jtc.Frees e.commandStop.jtc := by
  unfold Engine.commandStop
  split
  · exact .foldl drainEntry_frees _ (e.setCtl _)
  · exact .refl _

end Engine

/-! ### Operations of the whole part -/

namespace State

theorem takeCommand_frees (s : State) (code : BitVec 3) : s.eng.jtc.Frees (s.takeCommand code).eng.jtc := by
  unfold State.takeCommand
  split
  · exact .of_eq s.eng.commandStart_jtc
  · split
    · exact s.eng.commandStop_frees
    · split
      · exact .of_eq s.eng.commandMapReload_jtc
      · split
        · exact .empty _ _
        · split
          · unfold State.clearViolation
            dsimp only
            split <;> exact .refl _
          · exact .refl _

theorem registerWrite_frees (s : State) (p : Port) (r : RegName) (en : BitVec 4) (v : Word) :
    s.eng.jtc.Frees (s.registerWrite p r en v).eng.jtc := by
  unfold State.registerWrite
  split
  · cases r with
    | control => exact s.takeCommand_frees _
    | note | anchor | status | violation => exact .refl _
  · exact .refl _

theorem refuseAccess_eng (s : State) (p : Port) (k : ViolationKind) (a : PortAccess) :
    (s.refuseAccess p k a).eng = s.eng := by
  unfold State.refuseAccess
  dsimp only
  split <;> rfl

theorem serveAccess_frees (s : State) (p : Port) (a : PortAccess) : s.eng.jtc.Frees (s.serveAccess p a).eng.jtc := by
  change s.eng.jtc.Frees (s.decideAccess p a).eng.jtc
  unfold State.decideAccess
  split
  · split
    · unfold State.sramServed
      split
      · exact .of_eq (s.eng.watch_jtc _ _)
      · exact .refl _
    · rw [refuseAccess_eng]; exact .refl _
  · unfold State.registerAccess
    split
    · exact s.registerWrite_frees _ _ _ _
    · exact .refl _
  · rw [refuseAccess_eng]; exact .refl _

theorem present_eng (s : State) (p : Port) (a : PortAccess) : (s.present p a).eng = s.eng := by
  unfold State.present State.fifthAccess
  split <;> rfl

theorem grant_frees (s : State) (r : Requester) : s.eng.jtc.Frees (s.grant r).eng.jtc := by
  unfold State.grant
  split
  · exact .refl _
  · split
    · exact .refl _
    · exact State.serveAccess_frees { s with arb := _ } _ _

theorem serveNow_frees (s : State) (p : Port) (a : PortAccess) : s.eng.jtc.Frees (s.serveNow p a).eng.jtc := by
  unfold State.serveNow
  split
  · exact State.serveAccess_frees { s with arb := _ } _ _
  · split
    · exact s.grant_frees _
    · exact .refl _

theorem registerRow_frees (s : State) (p : Port) (r : RegName) (en : BitVec 4) (v : Word) :
    s.eng.jtc.Frees (s.registerRow p r en v).eng.jtc := by
  rw [State.registerRow, State.settled_eng, Engine.settle_jtc]
  split
  · exact .refl _
  · have h := (s.present p (registerWriteAccess r en v)).serveNow_frees p (registerWriteAccess r en v)
    rwa [present_eng] at h

theorem anchorRead_frees (s : State) (fl : Flight) (ws : List Word) :
    s.eng.jtc.Frees (s.anchorRead fl ws).eng.jtc := by
  unfold State.anchorRead
  dsimp only
  split
  · exact .of_eq (Engine.askAnchor_jtc _ _)
  · split
    · unfold State.startJudged
      split
      · exact .refl _
      · exact .of_entries rfl rfl
    · unfold State.reloadJudged
      split <;> exact .refl _

theorem partReset_frees (s : State) (cause : ResetCause) : s.eng.jtc.Frees (s.partReset cause).eng.jtc :=
  .empty _ _

end State

/-! ### The intake pass -/

theorem takesOf_sublist {ds es : List Decision} (h : ds.Sublist es) : takesOf ds ≤ takesOf es :=
  (h.filter _).length_le

theorem takesOf_append (ds es : List Decision) : takesOf (ds ++ es) = takesOf ds + takesOf es := by
  simp [takesOf]

/-- Where a pass stands when these slots are still to be read: at the first of them, or at the clearing pair (R36). -/
def PassStep.onward (n : Nat) (ds : List Decision) : List Slot → PassStep
  | [] => .clearing ds
  | k :: rest => .slots k none rest n ds

theorem PassStep.onward_decisions (n : Nat) (ds : List Decision) (ks : List Slot) :
    (PassStep.onward n ds ks).decisions = ds := by
  cases ks <;> rfl

theorem PassStep.onward_ahead (n : Nat) (ds : List Decision) (ks : List Slot) :
    (PassStep.onward n ds ks).ahead = ks := by
  cases ks <;> rfl

theorem PassStep.onward_room (n : Nat) (ds : List Decision) (ks : List Slot) :
    (PassStep.onward n ds ks).room ≤ n + takesOf ds := by
  cases ks with
  | nil => exact Nat.le_add_left _ _
  | cons k rest => exact Nat.le_refl _

theorem Engine.readSlots_jtc (e : Engine) (p : Pass) (n : Nat) (ds : List Decision) (ks : List Slot) :
    (e.readSlots p n ds ks).jtc = e.jtc.inPass p (.onward n ds ks) := by
  cases ks <;> rfl

theorem JobTable.inPass_frees {j k : JobTable} (h : j.Frees k) (p : Pass) (t : PassStep) :
    (j.inPass p t).Frees (k.inPass p t) :=
  ⟨h.1, .inl rfl⟩

theorem JobTable.inPass_goes {j : JobTable} {p q : Pass} {u : PassStep} (hp : j.pass = some p)
    (hd : q.domain = p.domain) (hg : PassStep.Goes j p.domain p.step u) : j.Reaches (j.inPass q u) :=
  JobTable.Moves.reaches (.goesOn p { q with step := u } rfl hp rfl hd hg)

/-- Decisions that a pass holds are dropped, and it comes to carry the rest out (R36, R37). -/
theorem JobTable.inPass_report {j : JobTable} {p : Pass} {ds : List Decision} (hp : j.pass = some p)
    (hds : ds.Sublist p.step.decisions) (hr : takesOf ds ≤ p.step.room) : j.Reaches (j.inPass p (.report ds)) :=
  JobTable.inPass_goes hp rfl (.lessens hds (List.nil_sublist _) hr)

theorem classify_take {held : Bool} {r r' : JobRecord} {n : Nat} (h : classify held r n = some (.take r')) :
    held = false ∧ 0 < n := by
  unfold classify at h
  split at h
  · split at h <;> simp at h
  · rename_i hh
    split at h
    · split at h
      · exact ⟨by simpa using hh, ‹_›⟩
      · simp at h
    · simp at h

/-- A decision takes of the allowance what it may still create (R35). -/
theorem classify_room {held : Bool} {r : JobRecord} {n : Nat} {v : Verdict} (h : classify held r n = some v)
    (k : Slot) : v.allowanceAfter n + takesOf [⟨k, v⟩] ≤ n := by
  cases v with
  | take r' =>
    have hn := (classify_take h).2
    change n - 1 + 1 ≤ n
    omega
  | cancel | busyPost | badPost => exact Nat.le_refl n

theorem Engine.slotClassified_reaches {e : Engine} {p : Pass} {k : Slot} {first : Option (List Word)} (r : JobRecord)
    {rest : List Slot} {n : Nat} {ds : List Decision} (hp : e.jtc.pass = some p)
    (hstep : p.step = .slots k first rest n ds) : e.jtc.Reaches (e.slotClassified p k r rest n ds).jtc := by
  unfold Engine.slotClassified
  split <;> rw [Engine.readSlots_jtc]
  · refine JobTable.inPass_goes hp rfl (.lessens ?_ ?_ ?_) <;> rw [hstep]
    · rw [PassStep.onward_decisions]; exact .refl _
    · rw [PassStep.onward_ahead]; exact List.sublist_cons_self _ _
    · exact PassStep.onward_room _ _ _
  · rename_i v hv
    refine JobTable.inPass_goes hp rfl (.decides ⟨k, v⟩ ?_ ?_ ?_ ?_)
    · rw [hstep, PassStep.onward_decisions]; rfl
    · rw [hstep, PassStep.onward_ahead]; rfl
    · intro r' hr'
      obtain rfl : v = .take r' := hr'
      simpa using (classify_take hv).1
    · have hroom := classify_room hv k
      have honward := PassStep.onward_room (v.allowanceAfter n) (ds ++ [⟨k, v⟩]) rest
      rw [takesOf_append] at honward
      rw [hstep]
      change _ ≤ n + takesOf ds
      omega

theorem Engine.endPass_frees (e : Engine) (p : Pass) : e.jtc.Frees (e.endPass p).jtc := by
  unfold Engine.endPass
  dsimp only
  split <;> exact ⟨.refl _, .inr rfl⟩

/-- A job taken: the entry is new, and the pass comes to the rest of its decisions (R37, R42). -/
theorem JobTable.inPass_takes (j : JobTable) {k : JobTable} (p : Pass) (s : Slot) (r : JobRecord)
    (rest : List Decision) {u : PassStep} (hk : k.keys = j.keys ++ [(p.domain, s)])
    (hp : k.pass = some { p with step := u }) (hd : u.decisions = rest) (ha : u.ahead = [])
    (hr : u.room = takesOf rest) : (j.inPass p (.report (⟨s, .take r⟩ :: rest))).Moves k :=
  .takes { p with step := .report (⟨s, .take r⟩ :: rest) } { p with step := u } ⟨s, .take r⟩ r rfl hp rfl
    (by rw [hd]; rfl) rfl ha hk (Nat.le_of_eq (by rw [hr]; rfl))

/-! #### Carrying decisions out, case by case (R37, R40, R41) -/

namespace Engine

theorem writeReport_jtc (e : Engine) (p : Pass) (x : ReportKind) (k : Slot) (rest : List Decision) :
    (e.writeReport p x k rest).jtc = e.jtc.inPass p (.report rest) := rfl

theorem writeTaken_jtc (e : Engine) (p : Pass) (k : Slot) (place : Nat) (rest : List Decision) :
    (e.writeTaken p k place rest).jtc = e.jtc.inPass p (.taken place rest) := rfl

theorem carryOn_nil (e : Engine) (p : Pass) : e.carryOn p [] = e.endPass p := rfl

theorem carryOn_busyPost (e : Engine) (p : Pass) (k : Slot) (rest : List Decision) :
    e.carryOn p (⟨k, .busyPost⟩ :: rest) = e.writeReport p .busyPost k rest := rfl

theorem carryOn_badPost (e : Engine) (p : Pass) (k : Slot) (rest : List Decision) :
    e.carryOn p (⟨k, .badPost⟩ :: rest) = e.writeReport p .badPost k rest := rfl

theorem carryOn_cancel (e : Engine) (p : Pass) (k : Slot) (rest : List Decision) :
    e.carryOn p (⟨k, .cancel⟩ :: rest) =
      if (e.deliverCancel p.domain k).2 then e.writeReport p .cancelLate k rest
      else (e.deliverCancel p.domain k).1.carryOn p rest := rfl

theorem carryOn_take_closed {e : Engine} {p : Pass} {r : JobRecord} {out : JobResult}
    (h : e.intakeOutcome p.domain r = some out) (k : Slot) (rest : List Decision) :
    e.carryOn p (⟨k, .take r⟩ :: rest) =
      (e.setJtc ((e.jtc.create r p.domain k false).close e.jtc.nextPlace out none)).carryOn p rest := by
  rw [Engine.carryOn.eq_def]
  simp only [h]

theorem carryOn_take {e : Engine} {p : Pass} {r : JobRecord} (h : e.intakeOutcome p.domain r = none) (k : Slot)
    (rest : List Decision) :
    e.carryOn p (⟨k, .take r⟩ :: rest) =
      (e.setJtc (e.jtc.create r p.domain k true)).writeTaken p k e.jtc.nextPlace rest := by
  rw [Engine.carryOn.eq_def]
  simp only [h]

end Engine

/-- What the surviving decisions do to the table. -/
theorem Engine.carryOn_reaches (p : Pass) (ds : List Decision) (e : Engine) :
    (e.jtc.inPass p (.report ds)).Reaches (e.carryOn p ds).jtc := by
  induction ds generalizing e with
  | nil =>
    rw [Engine.carryOn_nil]
    exact ((e.setJtc (e.jtc.inPass p (.report []))).endPass_frees p).reaches
  | cons x rest ih =>
    obtain ⟨k, v⟩ := x
    have hdrop : (e.jtc.inPass p (.report (⟨k, v⟩ :: rest))).Reaches (e.jtc.inPass p (.report rest)) :=
      JobTable.inPass_report (p := { p with step := .report (⟨k, v⟩ :: rest) }) rfl (List.sublist_cons_self _ _)
        (takesOf_sublist (List.sublist_cons_self _ _))
    cases v with
    | busyPost => rwa [Engine.carryOn_busyPost, Engine.writeReport_jtc]
    | badPost => rwa [Engine.carryOn_badPost, Engine.writeReport_jtc]
    | cancel =>
      rw [Engine.carryOn_cancel]
      split
      · rwa [Engine.writeReport_jtc]
      · exact (hdrop.trans (JobTable.inPass_frees (e.deliverCancel_frees p.domain k) p _).reaches).trans (ih _)
    | take r =>
      cases hout : e.intakeOutcome p.domain r with
      | some out =>
        rw [Engine.carryOn_take_closed hout]
        refine .trans (JobTable.Moves.reaches ?_) (ih _)
        refine JobTable.inPass_takes e.jtc p k r rest (u := .report rest) ?_ rfl rfl rfl rfl
        exact (JobTable.keys_close _ _ _ _).trans (JobTable.keys_create _ _ _ _ _)
      | none =>
        rw [Engine.carryOn_take hout, Engine.writeTaken_jtc]
        refine JobTable.Moves.reaches (JobTable.inPass_takes e.jtc p k r rest ?_ rfl rfl rfl rfl)
        exact e.jtc.keys_create r p.domain k true

/-! ### Commands -/

theorem onEngine_reaches {s t : State} {f : Engine → Engine}
    (h : Host.Outcome.next (s.onEngine f) = (.next t : Host.Outcome State Fault Refusal))
    (hf : ∀ e : Engine, e.jtc.Reaches (f e).jtc) : s.eng.jtc.Reaches t.eng.jtc := by
  obtain rfl := Host.Outcome.next.inj h
  rw [State.onEngine_eng, Engine.settle_jtc]
  exact hf s.eng

theorem settled_frees {s t : State} {f : State → State}
    (h : Host.Outcome.next (s.settled f) = (.next t : Host.Outcome State Fault Refusal))
    (hf : s.eng.jtc.Frees (f s).eng.jtc) : s.eng.jtc.Reaches t.eng.jtc := by
  obtain rfl := Host.Outcome.next.inj h
  rw [State.settled_eng, Engine.settle_jtc]
  exact hf.reaches

theorem registerRow_reaches {s t : State} {p : Port} {r : RegName} {en : BitVec 4} {v : Word}
    (h : Host.Outcome.next (s.registerRow p r en v) = (.next t : Host.Outcome State Fault Refusal)) :
    s.eng.jtc.Reaches t.eng.jtc := by
  obtain rfl := Host.Outcome.next.inj h
  exact (s.registerRow_frees p r en v).reaches

theorem completeUnit_reaches {s t : State} {x : EngineStep} {k : Owner → List Byte → State → State}
    (h : completeUnit x k s = .next t) (hk : ∀ o data (s : State), s.eng.jtc.Reaches (k o data s).eng.jtc) :
    s.eng.jtc.Reaches t.eng.jtc := by
  unfold completeUnit at h
  split at h
  · obtain rfl := Host.Outcome.next.inj h
    exact .refl _
  · split at h
    · obtain rfl := Host.Outcome.next.inj h
      rw [State.settled_eng, Engine.settle_jtc]
      exact hk _ _ (s.unitDone _)
    · simp at h

theorem completeEngine_reaches {s t : State} {x : EngineStep} {k : Owner → List Byte → Engine → Engine}
    (h : completeEngine x k s = .next t) (hk : ∀ o data (e : Engine), e.jtc.Reaches (k o data e).jtc) :
    s.eng.jtc.Reaches t.eng.jtc :=
  completeUnit_reaches h fun o data s => hk o data s.eng

theorem completeChannel_reaches {s t : State} {x : EngineStep} {k : ChannelId → List Byte → Engine → Engine}
    (h : completeChannel x k s = .next t) (hk : ∀ c data e, Engine.Works c e (k c data e)) :
    s.eng.jtc.Reaches t.eng.jtc := by
  refine completeEngine_reaches h (fun o data e => ?_)
  split
  · exact (hk _ data e).frees.reaches
  · exact .refl _

theorem execIntakePass_reaches {s t : State} (h : execIntakePass s = .next t) : s.eng.jtc.Reaches t.eng.jtc := by
  refine onEngine_reaches h (fun e => ?_)
  split
  · rename_i hdue
    split
    · exact .refl _
    · have hpass : e.jtc.pass = none := by simpa using (Bool.and_eq_true_iff.mp hdue).2
      exact JobTable.Moves.reaches (.begins _ rfl hpass rfl)
  · exact .refl _

theorem slotList_pairwise : slotList.Pairwise (· < ·) := by decide

theorem execPostWordRead_reaches {s t : State} (h : execPostWordRead s = .next t) :
    s.eng.jtc.Reaches t.eng.jtc := by
  refine completeEngine_reaches h (fun _ data e => ?_)
  split
  · rename_i p hp
    split
    · rename_i hstep
      rw [Engine.postWordRead, Engine.readSlots_jtc]
      refine JobTable.inPass_goes hp rfl (hstep ▸ .reads (PassStep.onward_decisions _ _ _) ?_ ?_)
      · rw [PassStep.onward_ahead]
        exact slotList_pairwise.filter _
      · exact PassStep.onward_room _ _ _
    · exact .refl _
  · exact .refl _

theorem execSlotRead_reaches {s t : State} (h : execSlotRead s = .next t) : s.eng.jtc.Reaches t.eng.jtc := by
  refine completeEngine_reaches h (fun _ data e => ?_)
  split
  · exact .refl _
  · rename_i p hp
    split
    · rename_i k rest n ds hstep
      refine JobTable.inPass_goes (q := p) hp rfl (.lessens ?_ ?_ ?_) <;> rw [hstep]
      · exact .refl _
      · exact .refl _
      · exact Nat.le_refl _
    · exact Engine.slotClassified_reaches _ hp ‹_›
    · exact .refl _

theorem execClearingPair_reaches {s t : State} (h : execClearingPair s = .next t) :
    s.eng.jtc.Reaches t.eng.jtc := by
  refine completeEngine_reaches h (fun _ data e => ?_)
  split
  · exact .refl _
  · rename_i p hp
    split
    · rename_i ds hstep
      refine (JobTable.inPass_report hp ?_ ?_).trans (e.carryOn_reaches p _) <;> rw [hstep]
      · exact List.filter_sublist
      · exact takesOf_sublist List.filter_sublist
    · exact .refl _

theorem execReportWrite_reaches {s t : State} (h : execReportWrite s = .next t) : s.eng.jtc.Reaches t.eng.jtc := by
  refine completeEngine_reaches h (fun _ data e => ?_)
  split
  · exact .refl _
  · rename_i p hp
    split
    · rename_i rest hstep
      refine (JobTable.inPass_report hp ?_ ?_).trans (e.carryOn_reaches p rest) <;> rw [hstep]
      · exact .refl _
      · exact Nat.le_refl _
    · exact .refl _

theorem execTakenWrite_reaches {s t : State} (h : execTakenWrite s = .next t) : s.eng.jtc.Reaches t.eng.jtc := by
  refine completeEngine_reaches h (fun _ data e => ?_)
  split
  · exact .refl _
  · rename_i p hp
    split
    · rename_i place rest hstep
      have hreport : e.jtc.Reaches (e.jtc.inPass p (.report rest)) := by
        refine JobTable.inPass_report hp ?_ ?_ <;> rw [hstep]
        · exact .refl _
        · exact Nat.le_refl _
      have htaken := JobTable.inPass_frees (JobTable.Frees.taken e.jtc e.isDraining place) p (.report rest)
      exact (hreport.trans htaken.reaches).trans (Engine.carryOn_reaches p rest (e.setJtc _))
    · exact .refl _

end Sys2Proof.Machine
end

section
/-! SUPPORT. Every command moves the job table as `JobTable.Reaches` says, and every step keeps the two laws of R43. -/

namespace Sys2Proof.Machine

/-! ### Commands of the channels -/

/-- A command that is the work of one channel. -/
theorem channelWork_reaches {s t : State} {f : Engine → Engine} {c : ChannelId}
    (h : Host.Outcome.next (s.onEngine f) = (.next t : Host.Outcome State Fault Refusal))
    (hf : ∀ e : Engine, Engine.Works c e (f e)) : s.eng.jtc.Reaches t.eng.jtc :=
  onEngine_reaches h fun e => (hf e).frees.reaches

/-- A command that takes a report. -/
theorem report_reaches {s t : State} {c : ChannelId} {f : Report → Option (Engine → Engine)}
    (h : Host.Outcome.next (s.onEngine fun e => e.takeReport c f) = (.next t : Host.Outcome State Fault Refusal))
    (hf : ∀ r (e : Engine), e.jtc.Frees ((f r).getD id e).jtc) : s.eng.jtc.Reaches t.eng.jtc :=
  onEngine_reaches h fun e => (Engine.takeReport_frees hf e c).reaches

theorem execRunningWrite_reaches {s t : State} (h : execRunningWrite s = .next t) :
    s.eng.jtc.Reaches t.eng.jtc := by
  refine completeChannel_reaches h (fun c data e => ?_)
  split
  · exact .refl c e
  · exact .checkNext c e _

theorem execDescriptorReading_reaches {s t : State} (h : execDescriptorReading s = .next t) :
    s.eng.jtc.Reaches t.eng.jtc := by
  refine completeChannel_reaches h (fun c data e => ?_)
  split
  · exact .checkReading c e _ _ _
  · exact .refl c e

theorem execParameterCopy_reaches {s t : State} (h : execParameterCopy s = .next t) :
    s.eng.jtc.Reaches t.eng.jtc := by
  refine completeChannel_reaches h (fun c data e => ?_)
  split
  · exact .paramMarked c e
  · exact .paramWritten c e _
  · exact .refl c e

theorem execUsedMark_reaches {s t : State} (h : execUsedMark s = .next t) : s.eng.jtc.Reaches t.eng.jtc := by
  refine completeChannel_reaches h (fun c data e => ?_)
  split
  · exact .markUsed c e _
  · exact .refl c e

theorem execBurstRead_reaches {s t : State} (h : execBurstRead s = .next t) : s.eng.jtc.Reaches t.eng.jtc := by
  refine completeChannel_reaches h (fun c data e => ?_)
  split
  · exact .burstHasRead c e _ _
  · exact .refl c e

theorem execWrittenMark_reaches {s t : State} (h : execWrittenMark s = .next t) : s.eng.jtc.Reaches t.eng.jtc := by
  refine completeChannel_reaches h (fun c data e => ?_)
  split
  · exact (Engine.Works.setChan c e _).trans (.askFrom c _ _ _)
  · exact .refl c e

theorem execBurstWrite_reaches {s t : State} (h : execBurstWrite s = .next t) : s.eng.jtc.Reaches t.eng.jtc := by
  refine completeChannel_reaches h (fun c data e => ?_)
  split
  · exact .burstDone c e _ _
  · exact .refl c e

theorem execServiceRecordReading_reaches {s t : State} (h : execServiceRecordReading s = .next t) :
    s.eng.jtc.Reaches t.eng.jtc :=
  completeChannel_reaches h fun c _ e => .checkService c e _

theorem execContextClaim_reaches {s t : State} (h : execContextClaim s = .next t) :
    s.eng.jtc.Reaches t.eng.jtc :=
  completeChannel_reaches h fun c _ e => .claimRead c e _

theorem execClaimMarkWrite_reaches {s t : State} (h : execClaimMarkWrite s = .next t) :
    s.eng.jtc.Reaches t.eng.jtc :=
  completeChannel_reaches h fun c _ e => .claimMarked c e

theorem execSaveAreaWrite_reaches {s t : State} (h : execSaveAreaWrite s = .next t) :
    s.eng.jtc.Reaches t.eng.jtc :=
  completeChannel_reaches h fun c _ e => .contextParked c e

theorem execSaveAreaRead_reaches {s t : State} (h : execSaveAreaRead s = .next t) :
    s.eng.jtc.Reaches t.eng.jtc :=
  completeChannel_reaches h fun c _ e => .checkSaveArea c e _

theorem execContextDescriptorRead_reaches {s t : State} (h : execContextDescriptorRead s = .next t) :
    s.eng.jtc.Reaches t.eng.jtc :=
  completeChannel_reaches h fun c _ e => .checkContext c e _

theorem execStopRequest_reaches {s t : State} {c : ChannelId} (h : execStopRequest c s = .next t) :
    s.eng.jtc.Reaches t.eng.jtc := by
  refine channelWork_reaches (c := c) h (fun e => ?_)
  dsimp only
  split
  · exact .refl c e
  · split
    · exact (Engine.Works.setChan c e _).trans (.stopArrives c _ _)
    · exact .setChan c e _

theorem execYieldRequest_reaches {s t : State} {c : ChannelId} (h : execYieldRequest c s = .next t) :
    s.eng.jtc.Reaches t.eng.jtc := by
  refine channelWork_reaches (c := c) h (fun e => ?_)
  dsimp only
  split
  · split
    · exact (Engine.Works.setChan c e _).trans (.yieldArrives c _)
    · exact (Engine.Works.setChan c e _).trans (.clearYield c _ _ _)
  · exact .refl c e

theorem execYieldWithdrawal_reaches {s t : State} {c : ChannelId} (h : execYieldWithdrawal c s = .next t) :
    s.eng.jtc.Reaches t.eng.jtc := by
  refine channelWork_reaches (c := c) h (fun e => ?_)
  dsimp only
  split
  · exact .setChan c e _
  · exact .refl c e

theorem execDropRequest_reaches {s t : State} {c : ChannelId} (h : execDropRequest c s = .next t) :
    s.eng.jtc.Reaches t.eng.jtc := by
  refine channelWork_reaches (c := c) h (fun e => ?_)
  dsimp only
  split
  · exact .refl c e
  · split
    · exact (Engine.Works.setChan c e _).trans (.dropShadow c _ _ _)
    · split
      · exact (Engine.Works.setChan c e _).trans (.stopArrives c _ _)
      · exact .setChan c e _

/-! ### Dispatch and reports -/

theorem execDispatch_reaches {s t : State} (h : execDispatch s = .next t) : s.eng.jtc.Reaches t.eng.jtc := by
  refine onEngine_reaches h (fun e => JobTable.Frees.reaches ?_)
  split
  · exact .refl _
  · exact Engine.takeDispatch_frees { e with disp := { e.disp with sent := none } } _

theorem execConditionalDispatch_reaches {s t : State} {c : ChannelId} (h : execConditionalDispatch c s = .next t) :
    s.eng.jtc.Reaches t.eng.jtc := by
  refine report_reaches h (fun r e => ?_)
  cases r with
  | conditional => exact e.answerConditional_frees c _
  | _ => exact .refl _

theorem execContextClaimReport_reaches {s t : State} {c : ChannelId} (h : execContextClaimReport c s = .next t) :
    s.eng.jtc.Reaches t.eng.jtc := by
  refine report_reaches h (fun r e => ?_)
  cases r with
  | contextClaim => exact JobTable.Frees.update e.jtc _ fun _ => ⟨rfl, rfl⟩
  | _ => exact .refl _

theorem execParkShadowReport_reaches {s t : State} {c : ChannelId} (h : execParkShadowReport c s = .next t) :
    s.eng.jtc.Reaches t.eng.jtc := by
  refine report_reaches h (fun r e => ?_)
  cases r with
  | parkShadow => exact e.shadowParked_frees c _
  | _ => exact .refl _

theorem execParkContextReport_reaches {s t : State} {c : ChannelId} (h : execParkContextReport c s = .next t) :
    s.eng.jtc.Reaches t.eng.jtc := by
  refine report_reaches h (fun r e => ?_)
  cases r with
  | parkContext => exact JobTable.Frees.contextParked e.jtc _ _ _
  | _ => exact .refl _

theorem execResumeShadowReport_reaches {s t : State} {c : ChannelId} (h : execResumeShadowReport c s = .next t) :
    s.eng.jtc.Reaches t.eng.jtc := by
  refine report_reaches h (fun r e => ?_)
  cases r with
  | resumeShadow => exact JobTable.Frees.update e.jtc _ fun _ => ⟨rfl, rfl⟩
  | _ => exact .refl _

theorem execHandoff_reaches {s t : State} {c : ChannelId} (h : execHandoff c s = .next t) :
    s.eng.jtc.Reaches t.eng.jtc := by
  refine report_reaches h (fun r e => ?_)
  cases r with
  | handoff => exact JobTable.Frees.handedOff e.jtc _ _ _
  | _ => exact .refl _

/-! ### Lines, Timebase and deadlines -/

theorem execLineEvent_reaches {s t : State} {n : Line} (h : execLineEvent n s = .next t) :
    s.eng.jtc.Reaches t.eng.jtc := by
  refine onEngine_reaches h (fun e => JobTable.Frees.reaches ?_)
  split
  · exact JobTable.Frees.lineEvent { e.jtc with lineEvents := _ } _ n
  · exact .refl _

theorem execTapTick_reaches {s t : State} {rq : BitVec 8} (h : execTapTick rq s = .next t) :
    s.eng.jtc.Reaches t.eng.jtc := by
  refine onEngine_reaches (s := { s with rq := rq }) h (fun e => JobTable.Frees.reaches ?_)
  split
  · exact e.advanceTimebase_frees rq
  · exact .refl _

theorem execDeadlineExpiry_reaches {s t : State} (h : execDeadlineExpiry s = .next t) :
    s.eng.jtc.Reaches t.eng.jtc := by
  refine onEngine_reaches h (fun e => JobTable.Frees.reaches ?_)
  split
  · exact .refl _
  · exact e.expire_frees _

/-! ### Closing -/

/-- A closing's command goes on with the entry of the closing in flight. -/
theorem closing_reaches {s t : State} {x : EngineStep} {k : List Byte → Engine → Entry → Engine}
    (h : completeEngine x (fun _ data e => match e.closingEntry with | none => e | some en => k data e en) s = .next t)
    (hk : ∀ data (e : Engine) en, e.jtc.Frees (k data e en).jtc) : s.eng.jtc.Reaches t.eng.jtc := by
  refine completeEngine_reaches h (fun o data e => JobTable.Frees.reaches ?_)
  split
  · exact .refl _
  · exact hk data e _

theorem execClosingBegin_reaches {s t : State} (h : execClosingBegin s = .next t) :
    s.eng.jtc.Reaches t.eng.jtc := by
  refine onEngine_reaches h (fun e => JobTable.Frees.reaches ?_)
  split
  · exact .refl _
  · exact .of_entries rfl rfl

theorem Engine.writeDone_frees (e : Engine) (en : Entry) : e.jtc.Frees (e.writeDone en).jtc := .of_entries rfl rfl

theorem execResultWrite_reaches {s t : State} (h : execResultWrite s = .next t) : s.eng.jtc.Reaches t.eng.jtc := by
  refine closing_reaches h (fun data e en => ?_)
  split
  · exact .of_entries rfl rfl
  · exact e.writeDone_frees _

theorem Engine.contextReleased_frees (e : Engine) (en : Entry) (w : Word) :
    e.jtc.Frees (e.contextReleased en w).jtc := by
  unfold Engine.contextReleased
  split
  · exact .refl _
  · split <;> exact .of_entries rfl rfl

theorem execDoneWrite_reaches {s t : State} (h : execDoneWrite s = .next t) : s.eng.jtc.Reaches t.eng.jtc := by
  refine closing_reaches h (fun data e en => ?_)
  split
  · exact .of_entries rfl rfl
  · exact e.closeOut_frees _

theorem execContextRelease_reaches {s t : State} (h : execContextRelease s = .next t) :
    s.eng.jtc.Reaches t.eng.jtc :=
  closing_reaches h fun _ e en => e.contextReleased_frees en _

theorem execReleaseMarkWrite_reaches {s t : State} (h : execReleaseMarkWrite s = .next t) :
    s.eng.jtc.Reaches t.eng.jtc :=
  closing_reaches h fun _ e en => e.writeDone_frees en

theorem execContextLostRewrite_reaches {s t : State} (h : execContextLostRewrite s = .next t) :
    s.eng.jtc.Reaches t.eng.jtc :=
  closing_reaches h fun _ e en => e.writeDone_frees en

theorem execChainPosting_reaches {s t : State} (h : execChainPosting s = .next t) :
    s.eng.jtc.Reaches t.eng.jtc :=
  closing_reaches h fun _ e en => Engine.closeOut_frees (e.setAttention _ _) en

/-! ### Engine Control, pins, ports and arbiter -/

theorem execUnnamedCommandCode_reaches {s t : State} {p : Port} {code : BitVec 3}
    (h : execUnnamedCommandCode p code s = .next t) : s.eng.jtc.Reaches t.eng.jtc := by
  unfold execUnnamedCommandCode at h
  split at h
  · exact registerRow_reaches h
  · obtain rfl := Host.Outcome.next.inj h
    exact .refl _

theorem execRegisterDenied_reaches {s t : State} {p : Port} {r : RegName} {en : BitVec 4}
    (h : execRegisterDenied p r en s = .next t) : s.eng.jtc.Reaches t.eng.jtc := by
  unfold execRegisterDenied at h
  split at h
  · exact registerRow_reaches h
  · obtain rfl := Host.Outcome.next.inj h
    exact .refl _

theorem anchorRead_reaches {s t : State} {x : EngineStep}
    (h : completeUnit x (fun _ data s =>
      match s.eng.ctl.flight with
      | none => s
      | some fl => s.anchorRead fl (bytesWords data)) s = .next t) : s.eng.jtc.Reaches t.eng.jtc := by
  refine completeUnit_reaches h (fun o data s => JobTable.Frees.reaches ?_)
  split
  · exact .refl _
  · exact s.anchorRead_frees _ _

theorem execDrainComplete_reaches {s t : State} (h : execDrainComplete s = .next t) :
    s.eng.jtc.Reaches t.eng.jtc := by
  refine onEngine_reaches h (fun e => JobTable.Frees.reaches ?_)
  split <;> exact .refl _

theorem execResetRelease_reaches {s t : State} {l0 l1 l2 l3 : Level} (h : execResetRelease l0 l1 l2 l3 s = .next t) :
    s.eng.jtc.Reaches t.eng.jtc := by
  refine settled_frees h ?_
  split <;> exact .refl _

theorem execPowerOnReset_reaches {s t : State} {cells : List Host.Cell} (h : execPowerOnReset cells s = .next t) :
    s.eng.jtc.Reaches t.eng.jtc :=
  settled_frees h (s.partReset_frees .powerOn)

theorem execFrzAssert_reaches {s t : State} (h : execFrzAssert s = .next t) : s.eng.jtc.Reaches t.eng.jtc :=
  onEngine_reaches h fun _ => .refl _

theorem execFrzDeassert_reaches {s t : State} (h : execFrzDeassert s = .next t) : s.eng.jtc.Reaches t.eng.jtc :=
  onEngine_reaches h fun e => JobTable.Frees.reaches
    (.foldl (fun e c => (Engine.Works.thaw c e).frees) channelList (e.setCtl { e.ctl with frz := false }))

theorem execPortAccess_reaches {s t : State} {p : Port} {a : PortAccess} (h : execPortAccess p a s = .next t) :
    s.eng.jtc.Reaches t.eng.jtc := by
  refine settled_frees h ?_
  split
  · exact .refl _
  · rw [State.present_eng]
    exact .refl _

theorem execArbiterGrant_reaches {s t : State} (h : execArbiterGrant s = .next t) : s.eng.jtc.Reaches t.eng.jtc := by
  refine settled_frees h ?_
  split
  · exact .refl _
  · exact s.grant_frees _

theorem execLockedSequenceAccess_reaches {s t : State} (h : execLockedSequenceAccess s = .next t) :
    s.eng.jtc.Reaches t.eng.jtc := by
  refine settled_frees h ?_
  split
  · exact .refl _
  · exact State.serveAccess_frees { s with arb := _ } _ _

theorem execLockRelease_reaches {s t : State} {p : Port} (h : execLockRelease p s = .next t) :
    s.eng.jtc.Reaches t.eng.jtc := by
  refine settled_frees h ?_
  split <;> exact .refl _

/-! ### Every step -/

/-- Every command moves the job table by the moves of `JobTable.Moves` alone. -/
theorem exec_reaches {i : Instr} {s t : State} (h : exec i s = .next t) : s.eng.jtc.Reaches t.eng.jtc := by
  cases i with
  | start | stop | mapReload | engineReset | clearViolation | anchorWrite | noteWrite => exact registerRow_reaches h
  | unnamedCommandCode => exact execUnnamedCommandCode_reaches h
  | registerDenied => exact execRegisterDenied_reaches h
  | startAnchorRead | mapReloadRead => exact anchorRead_reaches h
  | drainComplete => exact execDrainComplete_reaches h
  | pinReset => exact settled_frees h (s.partReset_frees .pin)
  | powerOnReset => exact execPowerOnReset_reaches h
  | resetRelease => exact execResetRelease_reaches h
  | frzAssert => exact execFrzAssert_reaches h
  | frzDeassert => exact execFrzDeassert_reaches h
  | portAccess => exact execPortAccess_reaches h
  | arbiterGrant => exact execArbiterGrant_reaches h
  | lockedSequenceAccess => exact execLockedSequenceAccess_reaches h
  | lockRelease => exact execLockRelease_reaches h
  | intakePass => exact execIntakePass_reaches h
  | postWordRead => exact execPostWordRead_reaches h
  | slotRead => exact execSlotRead_reaches h
  | clearingPair => exact execClearingPair_reaches h
  | reportWrite => exact execReportWrite_reaches h
  | takenWrite => exact execTakenWrite_reaches h
  | dispatch => exact execDispatch_reaches h
  | conditionalDispatch => exact execConditionalDispatch_reaches h
  | contextClaimReport => exact execContextClaimReport_reaches h
  | parkShadowReport => exact execParkShadowReport_reaches h
  | parkContextReport => exact execParkContextReport_reaches h
  | resumeShadowReport => exact execResumeShadowReport_reaches h
  | handoff => exact execHandoff_reaches h
  | lineEvent => exact execLineEvent_reaches h
  | tapTick => exact execTapTick_reaches h
  | deadlineExpiry => exact execDeadlineExpiry_reaches h
  | stopRequest => exact execStopRequest_reaches h
  | yieldRequest => exact execYieldRequest_reaches h
  | yieldWithdrawal => exact execYieldWithdrawal_reaches h
  | dropRequest => exact execDropRequest_reaches h
  | runningWrite => exact execRunningWrite_reaches h
  | descriptorReading => exact execDescriptorReading_reaches h
  | serviceRecordReading => exact execServiceRecordReading_reaches h
  | contextClaim => exact execContextClaim_reaches h
  | claimMarkWrite => exact execClaimMarkWrite_reaches h
  | parameterCopy => exact execParameterCopy_reaches h
  | usedMark => exact execUsedMark_reaches h
  | burstRead => exact execBurstRead_reaches h
  | writtenMark => exact execWrittenMark_reaches h
  | burstWrite => exact execBurstWrite_reaches h
  | saveAreaWrite => exact execSaveAreaWrite_reaches h
  | saveAreaRead => exact execSaveAreaRead_reaches h
  | contextDescriptorRead => exact execContextDescriptorRead_reaches h
  | closingBegin => exact execClosingBegin_reaches h
  | resultWrite => exact execResultWrite_reaches h
  | contextRelease => exact execContextRelease_reaches h
  | releaseMarkWrite => exact execReleaseMarkWrite_reaches h
  | contextLostRewrite => exact execContextLostRewrite_reaches h
  | doneWrite => exact execDoneWrite_reaches h
  | chainPosting => exact execChainPosting_reaches h

theorem step_reaches {s t : State} (h : step s = .next t) : s.eng.jtc.Reaches t.eng.jtc := by
  unfold step at h
  split at h
  · obtain rfl := Host.Outcome.next.inj h
    exact .refl _
  · rename_i rest _
    exact exec_reaches (s := { s with pending := rest }) h

/-- Settles O5: the law is kept by every move of the table, and a step makes only such moves. -/
theorem stepKeepsTableRoom : Obligations.StepKeepsTableRoom :=
  fun _ _ hroom hstep => (step_reaches hstep).keeps (fun _ _ hj hm => hj.moves hm) hroom

/-- Settles O8: the law is kept by every move of the table, and a step makes only such moves. -/
theorem stepKeepsUniqueSlots : Obligations.StepKeepsUniqueSlots :=
  fun _ _ hunique hstep => (step_reaches hstep).keeps (fun _ _ hj hm => hj.moves hm) hunique

end Sys2Proof.Machine
end

section
/-! SUPPORT. The intake pass's readings and its table of decisions (R32 to R36): the fields of a record, the post word's
bits, and the statements about INTAKE_PASS, POST_WORD_READ, SLOT_READ and the commands that carry decisions out. -/

namespace Sys2Proof.Machine

/-! ### Bits and fields -/

/-- A bit of a word as a digit of its value. -/
theorem getLsbD_iff_div {n : Nat} (w : BitVec n) (i : Nat) : w.getLsbD i = true ↔ w.toNat / 2 ^ i % 2 = 1 := by
  rw [BitVec.getLsbD, Nat.testBit_eq_decide_div_mod_eq, decide_eq_true_eq]

/-- A field of a word as digits of its value. -/
theorem toNat_field {n : Nat} (w : BitVec n) (lo k : Nat) : (w.extractLsb' lo k).toNat = w.toNat / 2 ^ lo % 2 ^ k := by
  rw [BitVec.extractLsb'_toNat, Nat.shiftRight_eq_div_pow]

theorem fieldFin_val {n k : Nat} [NeZero n] (x : BitVec k) (h : 2 ^ k ≤ n) : (fieldFin n x).val = x.toNat :=
  Nat.mod_eq_of_lt (Nat.lt_of_lt_of_le x.isLt h)

/-- TRIGGER names the line whose code it holds (12.3). -/
theorem JobRecord.line_eq_some (r : JobRecord) (n : Line) :
    r.line = some n ↔ (r.w1.extractLsb' 20 4).toNat = 8 + n.val := by
  have hbit := getLsbD_iff_div r.w1 23
  have hval : (fieldFin 8 (bits r.w1 20 3)).val = r.w1.toNat / 2 ^ 20 % 2 ^ 3 := by
    rw [fieldFin_val _ (by decide)]
    exact toNat_field r.w1 20 3
  have hn := n.isLt
  rw [toNat_field]
  unfold JobRecord.line bit
  split
  · rename_i h
    rw [Option.some.injEq, Fin.ext_iff, hval]
    have := hbit.mp h
    omega
  · rename_i h
    refine ⟨fun k => absurd k (by simp), fun k => absurd (hbit.mpr ?_) h⟩
    omega

/-- CHAIN names the slot whose code it holds (12.3). -/
theorem JobRecord.chainSlot_eq_some (r : JobRecord) (k : Slot) :
    r.chainSlot = some k ↔ (r.w1.extractLsb' 24 5).toNat = 16 + k.val := by
  have hbit := getLsbD_iff_div r.w1 28
  have hval : (fieldFin 16 (bits r.w1 24 4)).val = r.w1.toNat / 2 ^ 24 % 2 ^ 4 := by
    rw [fieldFin_val _ (by decide)]
    exact toNat_field r.w1 24 4
  have hk := k.isLt
  rw [toNat_field]
  unfold JobRecord.chainSlot bit
  split
  · rename_i h
    rw [Option.some.injEq, Fin.ext_iff, hval]
    have := hbit.mp h
    omega
  · rename_i h
    refine ⟨fun c => absurd c (by simp), fun c => absurd (hbit.mpr ?_) h⟩
    omega

/-- The bits of the post word for some slots are those of the slots. -/
theorem slotBits_getLsbD (ks : List Slot) {i : Nat} (hi : i < 32) :
    (slotBits ks).getLsbD i = true ↔ ∃ k ∈ ks, k.val = i := by
  induction ks with
  | nil => simp [slotBits]
  | cons k ks ih =>
    have hone : (1#32 <<< k.val).getLsbD i = true ↔ k.val = i := by
      simp only [BitVec.getLsbD_shiftLeft, BitVec.getLsbD_one]
      simp
      omega
    rw [slotBits, BitVec.getLsbD_or, Bool.or_eq_true, hone, ih]
    simp

/-! ### The frame of an intake command -/

theorem completeEngine_afterUnit {s : State} {o : Owner} {t : EngineStep} {a : EngineAccess}
    (h : s.completes o t a) (k : Owner → List Byte → Engine → Engine) :
    completeEngine t k s = .next (s.afterUnit a (k o (a.perform s.mem).2 s.eng.dropUnit)) :=
  completeEngine_next h k

/-- A state after a unit agrees with the one before it where its engine does. -/
theorem State.afterUnit_sameBut {s : State} {x : EngineAccess} {f : Engine} {ps : List Part} (ha : .arb ∈ ps)
    (hm : .mem ∈ ps ∨ (x.perform s.mem).1 = s.mem) (hf : ∀ p, p ∉ ps → s.eng.same f p) :
    s.SameBut ps (s.afterUnit x f) := by
  intro p hp
  have hs := Engine.same_trans (hf p hp) (s.eng.settle_same f p)
  cases p with
  | mem => exact hm.resolve_left hp
  | arb => exact absurd ha hp
  | ports | queue => rfl
  | pins => exact ⟨rfl, rfl⟩
  | _ => exact hs

/-- An engine that differs in the job table and the Engine Interface alone. -/
theorem Engine.same_of_jtc_ei (e : Engine) (j : JobTable) (x : EngineInterface) {p : Part} (hp : p ≠ .table) :
    e.same { e with jtc := j, ei := x } p := by
  cases p with
  | table => exact absurd rfl hp
  | mem | ports | arb | pins | queue => trivial
  | timebase => exact ⟨rfl, rfl⟩
  | _ => rfl

/-- An intake command that reads, and goes on in the table and the Engine Interface alone. -/
theorem State.sameBut_intake (s : State) (x n : Nat) {f : Engine} (hf : f = { s.eng with jtc := f.jtc, ei := f.ei }) :
    s.SameBut [.arb, .table] (s.afterUnit (.read x n) f) :=
  State.afterUnit_sameBut (by simp) (.inr rfl) fun p hp => by
    rw [hf]
    exact s.eng.same_of_jtc_ei _ _ fun h => hp (by simp [h])

/-! ### INTAKE_PASS -/

/-- Eligibility as R32 and R35 give it. -/
theorem Engine.wantsPass_eq (e : Engine) : e.wantsPass = fun d : Domain => (e.domain d).enabled &&
    (decide (e.post.attention[d] = .posted) || (decide (e.post.attention[d] = .held) &&
      decide (0 < min (8 - e.jtc.countOf d) (48 - e.jtc.entries.length)))) := by
  funext d
  unfold Engine.wantsPass
  cases e.post.attention[d] <;> simp [JobTable.allowance, Config.tablePerDomain, Config.tableSize]

theorem Engine.beginPass_presents (e : Engine) (d : Domain) :
    (e.beginPass d).presents .intake .postWordRead (.read (e.domain d).postAddr 4) :=
  Engine.ask_presents _ _ _ _

theorem Engine.beginPass_same (e : Engine) (d : Domain) {p : Part} (hp : p ≠ .post ∧ p ≠ .table) :
    e.same (e.beginPass d) p := by
  cases p with
  | post => exact absurd rfl hp.1
  | table => exact absurd rfl hp.2
  | mem | ports | arb | pins | queue => trivial
  | timebase => exact ⟨rfl, rfl⟩
  | _ => rfl

theorem exec_intakePass {s : State} {d : Domain} (hrun : s.eng.ctl.state = .running) (hfrz : s.eng.ctl.frz = false)
    (hpass : s.eng.jtc.pass = none) (hd : s.eng.nextDomain = some d) :
    exec .intakePass s = .next (s.onEngine fun e => e.beginPass d) := by
  have hdue : (s.eng.isRunning && !s.eng.frozen && s.eng.jtc.pass.isNone) = true := by
    simp [Engine.isRunning, Engine.frozen, hrun, hfrz, hpass]
  change execIntakePass s = _
  simp only [execIntakePass, State.onEngine, hdue, if_true, hd]

/-- Settles O32: the domain is the first that wants a pass, and beginning the pass changes attention and table alone. -/
theorem intakePassBegins : Obligations.IntakePassBegins := by
  intro s d hrun hfrz hpass hfirst
  have hnext : s.eng.nextDomain = some d := by
    rw [Engine.nextDomain, Engine.wantsPass_eq]
    exact hfirst
  refine ⟨_, exec_intakePass hrun hfrz hpass hnext, ?_, ?_, ?_, fun p hp => ?_⟩
  · exact Engine.settle_jtc _ _
  · exact Engine.settle_post _ _
  · exact Engine.settle_presents _ _ _ _ _ (s.eng.beginPass_presents d)
  · exact State.onEngine_same s _ p (s.eng.beginPass_same d ⟨fun h => hp (by simp [h]), fun h => hp (by simp [h])⟩)

/-! ### POST_WORD_READ -/

theorem Engine.readSlots_presents_cons (e : Engine) (p : Pass) (n : Nat) (ds : List Decision) (k : Slot)
    (rest : List Slot) :
    (e.readSlots p n ds (k :: rest)).presents .intake .slotRead
      (.read ((e.domain p.domain).slotBase + 64 * k.val) 32) :=
  Engine.ask_presents _ _ _ _

theorem Engine.readSlots_presents_nil (e : Engine) (p : Pass) (n : Nat) (ds : List Decision) :
    (e.readSlots p n ds []).presents .intake .clearingPair
      (.pair (e.domain p.domain).postAddr (.clearBits (slotBits (ds.map fun x => x.slot)))) :=
  Engine.ask_presents _ _ _ _

theorem exec_postWordRead {s : State} {p : Pass} {x : Nat} (h : s.completes .intake .postWordRead (.read x 4))
    (hp : s.eng.jtc.pass = some p) (hstep : p.step = .postWord) :
    exec .postWordRead s =
      .next (s.afterUnit (.read x 4) (s.eng.dropUnit.postWordRead p (s.mem.word x))) := by
  have hp' : s.eng.dropUnit.jtc.pass = some p := hp
  change execPostWordRead s = _
  rw [execPostWordRead, completeEngine_afterUnit h]
  simp only [hp', hstep, if_true]
  rfl

theorem State.sameBut_readSlots (s : State) (x m : Nat) (p : Pass) (n : Nat) (ds : List Decision) (ks : List Slot) :
    s.SameBut [.arb, .table] (s.afterUnit (.read x m) (s.eng.dropUnit.readSlots p n ds ks)) := by
  cases ks <;> exact s.sameBut_intake x m rfl

/-- Settles O33: the allowance is that of the table, and the posted slots are read from the lowest on. -/
theorem postWordRead : Obligations.PostWordRead := by
  intro s p x h hp hstep
  refine ⟨_, exec_postWordRead h hp hstep, s.afterUnit_completed _ _, s.sameBut_readSlots x 4 p _ _ _,
    fun k rest hk => ?_, fun hk => ?_⟩
  · have hread : s.eng.dropUnit.postWordRead p (s.mem.word x) =
        s.eng.dropUnit.readSlots p (s.eng.jtc.allowance p.domain) [] (k :: rest) := congrArg _ hk
    rw [hread, State.afterUnit_jtc, Engine.readSlots_jtc]
    exact ⟨rfl, s.afterUnit_presents _ (Engine.readSlots_presents_cons _ _ _ _ _ _)⟩
  · have hread : s.eng.dropUnit.postWordRead p (s.mem.word x) =
        s.eng.dropUnit.readSlots p (s.eng.jtc.allowance p.domain) [] [] := congrArg _ hk
    rw [hread, State.afterUnit_jtc, Engine.readSlots_jtc]
    exact ⟨rfl, s.afterUnit_presents _ (Engine.readSlots_presents_nil _ _ _ _)⟩

/-! ### SLOT_READ -/

theorem JobRecord.ready_iff (r : JobRecord) : r.ready = true ↔ r.w0 = 1 := by simp [JobRecord.ready]

/-- The table of R34, and the allowance of R35. -/
theorem classify_table (r : JobRecord) (n : Nat) :
    (r.request = 1 → classify true r n = some .cancel) ∧ (r.request ≠ 1 → classify true r n = some .busyPost) ∧
    (r.w0 = 1 → 0 < n → classify false r n = some (.take r) ∧ (Verdict.take r).allowanceAfter n = n - 1) ∧
    (r.w0 = 1 → classify false r 0 = none) ∧ (r.w0 ≠ 1 → classify false r n = some .badPost) := by
  refine ⟨fun h => by simp [classify, h], fun h => by simpa [classify] using h, fun h hn => ⟨?_, rfl⟩,
    fun h => ?_, fun h => ?_⟩
  · simp [classify, r.ready_iff.mpr h, hn]
  · simp [classify, r.ready_iff.mpr h]
  · simp [classify, Bool.eq_false_iff.mpr (mt r.ready_iff.mp h)]

theorem exec_slotRead_first {s : State} {p : Pass} {k : Slot} {rest : List Slot} {n x : Nat} {ds : List Decision}
    (h : s.completes .intake .slotRead (.read x 32)) (hp : s.eng.jtc.pass = some p)
    (hstep : p.step = .slots k none rest n ds) :
    exec .slotRead s = .next (s.afterUnit (.read x 32) ((s.eng.dropUnit.setPass
      { p with step := .slots k (some (bytesWords (s.mem.readBytes x 32))) rest n ds }).askIntake .slotRead
        (readWords ((s.eng.domain p.domain).slotWord k 12) 4))) := by
  have hp' : s.eng.dropUnit.jtc.pass = some p := hp
  change execSlotRead s = _
  rw [execSlotRead, completeEngine_afterUnit h]
  simp only [hp', hstep]
  rfl

theorem exec_slotRead_second {s : State} {p : Pass} {k : Slot} {ws : List Word} {rest : List Slot} {n x : Nat}
    {ds : List Decision} (h : s.completes .intake .slotRead (.read x 16)) (hp : s.eng.jtc.pass = some p)
    (hstep : p.step = .slots k (some ws) rest n ds) :
    exec .slotRead s = .next (s.afterUnit (.read x 16) (s.eng.dropUnit.slotClassified p k
      (JobRecord.ofWords ws (bytesWords (s.mem.readBytes x 16))) rest n ds)) := by
  have hp' : s.eng.dropUnit.jtc.pass = some p := hp
  change execSlotRead s = _
  rw [execSlotRead, completeEngine_afterUnit h]
  simp only [hp', hstep]
  rfl

theorem clearing_mask (ds : List Decision) {i : Nat} (hi : i < 32) :
    (slotBits (ds.map fun y => y.slot)).getLsbD i = true ↔ ∃ y ∈ ds, y.slot.val = i := by
  rw [slotBits_getLsbD _ hi]
  simp

/-- What the pass does once a slot is classified and `ds` are its decisions: the next slot's reading, or the clearing
pair. -/
theorem State.afterUnit_readSlots (s : State) (x m : Nat) (p : Pass) (n : Nat) (ds : List Decision) (ks : List Slot) :
    (∀ k' rest', ks = k' :: rest' →
      (s.afterUnit (.read x m) (s.eng.dropUnit.readSlots p n ds ks)).eng.jtc =
        s.eng.jtc.inPass p (.slots k' none rest' n ds) ∧
      (s.afterUnit (.read x m) (s.eng.dropUnit.readSlots p n ds ks)).eng.presents .intake .slotRead
        (.read ((s.eng.domain p.domain).slotBase + 64 * k'.val) 32)) ∧
    (ks = [] →
      (s.afterUnit (.read x m) (s.eng.dropUnit.readSlots p n ds ks)).eng.jtc = s.eng.jtc.inPass p (.clearing ds) ∧
      ∃ w : Word, (s.afterUnit (.read x m) (s.eng.dropUnit.readSlots p n ds ks)).eng.presents .intake .clearingPair
          (.pair (s.eng.domain p.domain).postAddr (.clearBits w)) ∧
        ∀ i, i < 32 → (w.getLsbD i = true ↔ ∃ y ∈ ds, y.slot.val = i)) := by
  refine ⟨?_, ?_⟩
  · rintro k' rest' rfl
    exact ⟨s.eng.settle_jtc _, s.afterUnit_presents _ (Engine.readSlots_presents_cons _ _ _ _ _ _)⟩
  · rintro rfl
    exact ⟨s.eng.settle_jtc _, _, s.afterUnit_presents _ (Engine.readSlots_presents_nil _ _ _ _),
      fun i hi => clearing_mask ds hi⟩

/-- Settles O34: the fields and the table one by one, and SLOT_READ by which of a slot's two bursts is done. -/
theorem slotReadClassifies : Obligations.SlotReadClassifies := by
  refine ⟨fun _ _ => rfl, fun r => ?fields, classify_table, fun s p k rest n ds x hp => ⟨fun hstep h => ?first, ?second⟩⟩
  case fields =>
    exact ⟨rfl, rfl, rfl, r.line_eq_some, r.chainSlot_eq_some, rfl, rfl, rfl, rfl, rfl, rfl⟩
  case first =>
    refine ⟨_, exec_slotRead_first h hp hstep, ?_, ?_, ?_, ?_⟩
    · exact s.afterUnit_completed _ _
    · exact s.afterUnit_jtc _ _
    · exact s.afterUnit_presents _ (Engine.ask_presents _ _ _ _)
    · exact s.sameBut_intake x 32 rfl
  case second =>
    intro ws r v hstep h hr hv
    have hexec := exec_slotRead_second h hp hstep
    rw [← hr, Engine.slotClassified] at hexec
    have hv' : classify (s.eng.dropUnit.jtc.holding p.domain k).isSome r n = v := hv.symm
    rw [hv'] at hexec
    cases v with
    | none =>
      refine ⟨_, hexec, s.afterUnit_completed _ _, s.sameBut_readSlots x 16 _ _ _ _, ?_⟩
      simp only [List.append_nil, Option.isNone_none, Bool.or_true]
      exact s.afterUnit_readSlots x 16 { p with left := true } n ds rest
    | some y =>
      refine ⟨_, hexec, s.afterUnit_completed _ _, s.sameBut_readSlots x 16 _ _ _ _, ?_⟩
      simp only [Option.isNone_some, Bool.or_false]
      exact s.afterUnit_readSlots x 16 p _ _ rest

/-! ### CLEARING_PAIR, REPORT_WRITE and TAKEN_WRITE -/

theorem exec_clearingPair {s : State} {p : Pass} {ds : List Decision} {x : Nat} {op : PairOp}
    (h : s.completes .intake .clearingPair (.pair x op)) (hp : s.eng.jtc.pass = some p)
    (hstep : p.step = .clearing ds) :
    exec .clearingPair s = .next (s.afterUnit (.pair x op)
      (s.eng.dropUnit.carryOn p (ds.filter fun y => (s.mem.word x).getLsbD y.slot.val))) := by
  have hp' : s.eng.dropUnit.jtc.pass = some p := hp
  change execClearingPair s = _
  rw [execClearingPair, completeEngine_afterUnit h]
  simp only [hp', hstep]
  rfl

theorem exec_reportWrite {s : State} {p : Pass} {rest : List Decision} {a : EngineAccess}
    (h : s.completes .intake .reportWrite a) (hp : s.eng.jtc.pass = some p) (hstep : p.step = .report rest) :
    exec .reportWrite s = .next (s.afterUnit a (s.eng.dropUnit.carryOn p rest)) := by
  have hp' : s.eng.dropUnit.jtc.pass = some p := hp
  change execReportWrite s = _
  rw [execReportWrite, completeEngine_afterUnit h]
  simp only [hp', hstep]

theorem exec_takenWrite {s : State} {p : Pass} {place : Nat} {rest : List Decision} {a : EngineAccess}
    (h : s.completes .intake .takenWrite a) (hp : s.eng.jtc.pass = some p) (hstep : p.step = .taken place rest) :
    exec .takenWrite s = .next (s.afterUnit a
      ((s.eng.dropUnit.setJtc (s.eng.jtc.taken s.eng.isDraining place)).carryOn p rest)) := by
  have hp' : s.eng.dropUnit.jtc.pass = some p := hp
  change execTakenWrite s = _
  rw [execTakenWrite, completeEngine_afterUnit h]
  simp only [hp', hstep]
  rfl

/-- The end of a step keeps what the owner's work has come to. -/
theorem State.afterUnit_keeps (s : State) (a : EngineAccess) (f : Engine) :
    (∀ q : Part, f.same (s.afterUnit a f).eng q) ∧
    (∀ o st y, f.presents o st y → (s.afterUnit a f).eng.presents o st y) ∧
    (s.afterUnit a f).ports = s.ports ∧ (s.afterUnit a f).resetPin = s.resetPin ∧ (s.afterUnit a f).rq = s.rq ∧
    (s.afterUnit a f).pending = s.pending :=
  ⟨s.eng.settle_same f, fun o st y h => s.eng.settle_presents f o st y h, rfl, rfl, rfl, rfl⟩

/-- Settles O35: each command completes its access and carries the decisions on. -/
theorem passCommandsCarryOn : Obligations.PassCommandsCarryOn := by
  intro s p x hp
  refine ⟨fun ds m hstep h => ?_, fun rest bs hstep h => ?_, fun place rest bs hstep h => ?_⟩
  · exact ⟨_, exec_clearingPair h hp hstep, s.afterUnit_completed _ _, fun hwf => EngineAccess.pair_word hwf x _ h.2.2,
      s.afterUnit_keeps _ _⟩
  · exact ⟨_, exec_reportWrite h hp hstep, s.afterUnit_completed _ _, s.afterUnit_keeps _ _⟩
  · exact ⟨_, exec_takenWrite h hp hstep, s.afterUnit_completed _ _, s.afterUnit_keeps _ _⟩

end Sys2Proof.Machine
end

section
/-! SUPPORT. The decisions of a pass carried out (R23, R37, R40 to R42, R50 to R52, R58, R125): the validation of a record,
what a cancel does, how an entry settles after its TAKEN write, and the statement about them. -/

namespace Sys2Proof.Machine

/-! ### Validation (R23) -/

/-- Some bit of a word under a mask is set. -/
theorem and_mask_ne_zero (w : Word) {m : Word} {ks : List Nat} (hm : ∀ i < 32, m.getLsbD i = decide (i ∈ ks))
    (hks : ∀ k ∈ ks, k < 32) : ((w &&& m) != 0) = true ↔ ∃ k ∈ ks, w.getLsbD k = true := by
  rw [bne_iff_ne]
  refine ⟨fun h => ?_, fun ⟨k, hk, hw⟩ hz => ?_⟩
  · by_contra hn
    refine h (BitVec.eq_of_getLsbD_eq fun i hi => ?_)
    rw [BitVec.getLsbD_and, hm i hi, show (0 : Word).getLsbD i = false from BitVec.getLsbD_zero,
      Bool.and_eq_false_iff, decide_eq_false_iff_not]
    by_cases hmem : i ∈ ks
    · exact .inl (Bool.eq_false_iff.mpr fun hb => hn ⟨i, hmem, hb⟩)
    · exact .inr hmem
  · have hbit : (w &&& m).getLsbD k = true := by rw [BitVec.getLsbD_and, hw, hm k (hks k hk)]; simpa using hk
    rw [hz] at hbit
    simp at hbit

theorem bne_iff_toNat {n : Nat} (x c : BitVec n) : (x != c) = true ↔ x.toNat ≠ c.toNat := by
  rw [bne_iff_ne, ne_eq, BitVec.toNat_eq]

theorem JobRecord.reservedSet_iff (r : JobRecord) : r.reservedSet = true ↔
    (∃ k ∈ [3, 6, 7, 11, 15, 19, 29, 30, 31], r.w1.getLsbD k = true) ∨
      ∃ k ∈ [28, 29, 30, 31], r.w6.getLsbD k = true := by
  rw [JobRecord.reservedSet, Bool.or_eq_true, and_mask_ne_zero (ks := [3, 6, 7, 11, 15, 19, 29, 30, 31]) r.w1
    (by decide) (by decide), and_mask_ne_zero (ks := [28, 29, 30, 31]) r.w6 (by decide) (by decide)]

theorem JobRecord.line_eq_none (r : JobRecord) : r.line = none ↔ (r.w1.extractLsb' 20 4).toNat < 8 := by
  refine ⟨fun h => ?_, fun h => ?_⟩
  · by_contra hlt
    have hval : (r.w1.extractLsb' 20 4).toNat < 16 := BitVec.isLt _
    have hsome := (r.line_eq_some ⟨(r.w1.extractLsb' 20 4).toNat - 8, by omega⟩).mpr (by simp only; omega)
    simp [h] at hsome
  · cases hl : r.line with
    | none => rfl
    | some n => have := (r.line_eq_some n).mp hl; omega

theorem JobRecord.chainSlot_eq_none (r : JobRecord) : r.chainSlot = none ↔ (r.w1.extractLsb' 24 5).toNat < 16 := by
  refine ⟨fun h => ?_, fun h => ?_⟩
  · by_contra hlt
    have hval : (r.w1.extractLsb' 24 5).toNat < 32 := BitVec.isLt _
    have hsome := (r.chainSlot_eq_some ⟨(r.w1.extractLsb' 24 5).toNat - 16, by omega⟩).mpr (by simp only; omega)
    simp [h] at hsome
  · cases hc : r.chainSlot with
    | none => rfl
    | some k => have := (r.chainSlot_eq_some k).mp hc; omega

/-- TRIGGER is unlisted, or names a line not enabled (R23). -/
def Engine.badTrigger (e : Engine) (r : JobRecord) : Bool :=
  match r.line with
  | some n => !(e.line n).enabled
  | none => r.trigger != 0

theorem Engine.badTrigger_iff (e : Engine) (r : JobRecord) : e.badTrigger r = true ↔
    (1 ≤ (r.w1.extractLsb' 20 4).toNat ∧ (r.w1.extractLsb' 20 4).toNat ≤ 7) ∨
      ∃ n : Line, (r.w1.extractLsb' 20 4).toNat = 8 + n.val ∧ (e.line n).enabled = false := by
  simp only [← JobRecord.line_eq_some, Engine.badTrigger]
  cases hl : r.line with
  | none =>
    have hlt := r.line_eq_none.mp hl
    have hne : (r.trigger != 0) = true ↔ (r.w1.extractLsb' 20 4).toNat ≠ 0 := bne_iff_toNat _ _
    simp only [hne, reduceCtorEq, false_and, exists_false, or_false]
    omega
  | some n =>
    have hval := (r.line_eq_some n).mp hl
    have hlisted : ¬ (1 ≤ (r.w1.extractLsb' 20 4).toNat ∧ (r.w1.extractLsb' 20 4).toNat ≤ 7) := by omega
    simp only [hlisted, false_or, Bool.not_eq_true', Option.some.injEq, exists_eq_left']

/-- An unlisted CHAIN (R23). -/
theorem JobRecord.chain_iff (r : JobRecord) : (r.chain != 0 && r.chainSlot.isNone) = true ↔
    1 ≤ (r.w1.extractLsb' 24 5).toNat ∧ (r.w1.extractLsb' 24 5).toNat ≤ 15 := by
  have hne : (r.chain != 0) = true ↔ (r.w1.extractLsb' 24 5).toNat ≠ 0 := bne_iff_toNat _ _
  rw [Bool.and_eq_true, hne, Option.isNone_iff_eq_none, r.chainSlot_eq_none]
  omega

theorem Engine.badJob_tests (e : Engine) (r : JobRecord) : e.badJob r =
    (decide (1 < r.request) || !(r.kind == 1 || r.kind == 2 || r.kind == 3 || r.kind == 4)
      || ((r.kind == 1 || r.kind == 3) && r.crc == 3) || (r.kind == 1 && r.expect && r.crc == 0)
      || (r.kind == 3 && r.crc == 0) || (r.kind == 2 && (r.crc != 0 || r.expect)) || e.badTrigger r
      || (r.chain != 0 && r.chainSlot.isNone) || r.length == 0 || decide (65536 < r.length)
      || decide (0x3FFFF < r.sourceOffset) || decide (0x3FFFF < r.destOffset) || r.reservedSet) := rfl

/-- The validation of R23, test by test. -/
theorem Engine.badJob_iff (e : Engine) (r : JobRecord) : e.badJob r = true ↔ e.Invalid r := by
  have hkind (c : BitVec 3) : r.kind = c ↔ (r.w1.extractLsb' 0 3).toNat = c.toNat := BitVec.toNat_eq
  have hcrc (c : BitVec 2) : r.crc = c ↔ (r.w1.extractLsb' 16 2).toNat = c.toNat := BitVec.toNat_eq
  rw [e.badJob_tests]
  simp only [Bool.or_eq_true, Bool.and_eq_true, r.chain_iff, e.badTrigger_iff, r.reservedSet_iff, Bool.not_eq_true',
    Bool.or_eq_false_iff, decide_eq_true_eq, beq_iff_eq, bne_iff_ne, beq_eq_false_iff_ne, ne_eq, hkind, hcrc, or_assoc,
    and_assoc]
  have hnone : ∀ n : Nat, (¬ n = 1 ∧ ¬ n = 2 ∧ ¬ n = 3 ∧ ¬ n = 4) ↔ n ∉ [1, 2, 3, 4] := fun n => by simp
  have hsum : ∀ n : Nat, (n = 1 ∨ n = 3) ↔ n ∈ [1, 3] := fun n => by simp
  exact or_congr Iff.rfl (or_congr (hnone _) (or_congr (and_congr_left' (hsum _)) Iff.rfl))

theorem Engine.lineNotOwned_iff (e : Engine) (d : Domain) (r : JobRecord) : e.lineNotOwned d r = true ↔
    ∃ n : Line, (r.w1.extractLsb' 20 4).toNat = 8 + n.val ∧ (e.line n).owner ≠ d := by
  simp only [← JobRecord.line_eq_some, Engine.lineNotOwned]
  cases r.line <;> simp

/-- How intake closes an entry at once (R37 cases 1 to 3), by the fields of 12.3. -/
theorem Engine.intakeOutcome_cases (e : Engine) (d : Domain) (r : JobRecord) :
    (e.Invalid r → e.intakeOutcome d r = some ⟨.fault, .badJob, .record, .start, 0, 0, 0⟩) ∧
    (¬ e.Invalid r → (∃ n : Line, (r.w1.extractLsb' 20 4).toNat = 8 + n.val ∧ (e.line n).owner ≠ d) →
      e.intakeOutcome d r = some ⟨.fault, .lineNotOwned, .line, .start, 0, 0, 0⟩) ∧
    (¬ e.Invalid r → (∀ n : Line, (r.w1.extractLsb' 20 4).toNat = 8 + n.val → (e.line n).owner = d) →
      ((r.w1.extractLsb' 4 2).toNat = 1 →
        e.intakeOutcome d r = some ⟨.cancelled, .none, .none, .none, 0, 0, 0⟩) ∧
      ((r.w1.extractLsb' 4 2).toNat = 0 → e.intakeOutcome d r = none)) := by
  have hrequest (c : BitVec 2) : r.request = c ↔ (r.w1.extractLsb' 4 2).toNat = c.toNat := BitVec.toNat_eq
  have howned : e.lineNotOwned d r = true ↔ _ := e.lineNotOwned_iff d r
  unfold Engine.intakeOutcome
  rw [← e.badJob_iff]
  refine ⟨fun hbad => if_pos hbad, fun hbad hline => ?_, fun hbad hline => ⟨fun hr => ?_, fun hr => ?_⟩⟩
  · rw [if_neg hbad, if_pos (howned.mpr hline)]; rfl
  all_goals
    have hnot : ¬ e.lineNotOwned d r = true := fun h => by
      obtain ⟨n, hn, ho⟩ := howned.mp h
      exact ho (hline n hn)
    rw [if_neg hbad, if_neg hnot]
  · rw [if_pos ((hrequest 1).mpr hr)]; rfl
  · exact if_neg fun h => by simp [(hrequest 1).mp h] at hr

/-! ### After the TAKEN write (R37, R42, R58, R125) -/

theorem JobTable.find_place {j : JobTable} {place : Nat} {en : Entry} (h : j.find place = some en) :
    en.place = place := by
  simpa using List.find?_some h

theorem JobTable.find_update {j : JobTable} {place : Nat} {en : Entry} {f : Entry → Entry}
    (h : j.find place = some en) (hf : ∀ x, (f x).place = x.place) :
    (j.update place f).find place = some (f en) := by
  have hplace (x : Entry) : (if x.place = place then f x else x).place = x.place := by
    split
    · exact hf x
    · rfl
  simp only [JobTable.find, JobTable.update_entries, List.find?_map, Function.comp_def, hplace]
  rw [show List.find? (fun x : Entry => x.place == place) j.entries = some en from h, Option.map_some,
    if_pos (JobTable.find_place h)]

/-- An entry whose TAKEN write is made. -/
def Entry.written (en : Entry) : Entry := { en with takenOutstanding := false }

section Taken

variable {j : JobTable} {en : Entry} (hfind : j.find en.place = some en)
include hfind

theorem JobTable.find_written : (j.update en.place Entry.written).find en.place = some en.written :=
  JobTable.find_update hfind fun _ => rfl

theorem JobTable.taken_closing (draining : Bool) (h : en.custody = .closing) :
    j.taken draining en.place = j.update en.place Entry.written := by
  simp only [JobTable.taken, hfind, h, if_true]
  rfl

theorem JobTable.taken_draining (h : en.custody ≠ .closing) :
    j.taken true en.place = (j.update en.place Entry.written).closeWaiting en .drained := by
  simp only [JobTable.taken, hfind, h, if_false, if_true]
  rfl

theorem JobTable.taken_untriggered (h : en.custody ≠ .closing) (hline : en.record.line = none) :
    j.taken false en.place =
      (j.update en.place Entry.written).update en.place fun x => { x with custody := .pending } := by
  simp only [JobTable.taken, hfind, h, if_false, hline, Bool.false_eq_true]
  rfl

theorem JobTable.taken_triggered (h : en.custody ≠ .closing) {n : Line} (hline : en.record.line = some n) :
    j.taken false en.place = (j.update en.place Entry.written).arm en.place n := by
  simp only [JobTable.taken, hfind, h, if_false, hline, Bool.false_eq_true]
  rfl

/-- An entry triggered by a line whose latch is clear is armed (R125). -/
theorem JobTable.taken_arms (h : en.custody ≠ .closing) {n : Line} (hline : en.record.line = some n)
    (hlatch : j.latch[n] = false) :
    (j.taken false en.place).find en.place = some { en with takenOutstanding := false, custody := .armed } ∧
      (j.taken false en.place).latch = j.latch := by
  have hlatch' : (j.update en.place Entry.written).latch[n] = false := hlatch
  rw [JobTable.taken_triggered hfind h hline, JobTable.arm, hlatch', if_neg Bool.false_ne_true]
  exact ⟨JobTable.find_update (JobTable.find_written hfind) fun _ => rfl, rfl⟩

/-- An entry triggered by a latched line is pending, and takes the latch and the overrun with it (R125). -/
theorem JobTable.taken_latched (h : en.custody ≠ .closing) {n : Line} (hline : en.record.line = some n)
    (hlatch : j.latch[n] = true) :
    (j.taken false en.place).find en.place = some { en with
      takenOutstanding := false, custody := .pending, lineOverrun := j.overrun[n] } ∧
    (j.taken false en.place).latch[n] = false ∧ (j.taken false en.place).overrun[n] = false := by
  have hlatch' : (j.update en.place Entry.written).latch[n] = true := hlatch
  rw [JobTable.taken_triggered hfind h hline, JobTable.arm, hlatch', if_pos rfl]
  refine ⟨?_, Vector.getElem_set_self _, Vector.getElem_set_self _⟩
  exact JobTable.find_update (f := fun x => { x with custody := .pending, lineOverrun := j.overrun[n] })
    (JobTable.find_written hfind) fun _ => rfl

end Taken

/-! ### Asking an entry to stop (R51, R52) -/

theorem Engine.requestStop_jtc {e : Engine} {en : Entry} {r : StopReason} (hs : en.stopReason = none) :
    (e.requestStop en r).jtc = e.jtc.update en.place fun x => { x with stopReason := some r } := by
  unfold Engine.requestStop
  rw [if_neg (by simp [hs])]
  dsimp only
  split
  · exact Engine.sendDrop_jtc _ _ _
  · exact Engine.sendStop_jtc _ _ _

/-- Asking changes the table and the channels alone. -/
theorem Engine.requestStop_rest (e : Engine) (en : Entry) (r : StopReason) :
    { e.requestStop en r with jtc := e.jtc, channels := e.channels } = e := by
  unfold Engine.requestStop Engine.sendStop Engine.sendDrop
  split
  · rfl
  · dsimp only
    split <;> split <;> rfl

/-! ### Cancels (R40, R50, R51) -/

theorem Engine.deliverCancel_late {e : Engine} {d : Domain} {k : Slot}
    (h : ∀ en, e.jtc.holding d k = some en → en.custody = .closing) : (e.deliverCancel d k).2 = true := by
  unfold Engine.deliverCancel
  split
  · rfl
  · rename_i en hen
    rw [h en hen]

theorem Engine.deliverCancel_waiting {e : Engine} {d : Domain} {k : Slot} {en : Entry}
    (hen : e.jtc.holding d k = some en) (h : en.custody = .pending ∨ en.custody = .armed) :
    e.deliverCancel d k =
      (e.setJtc (e.jtc.close en.place (plainResult .cancelled en.heldBytes) none), false) := by
  unfold Engine.deliverCancel
  rcases h with h | h <;> simp only [hen, h] <;> rfl

theorem Engine.deliverCancel_running {e : Engine} {d : Domain} {k : Slot} {en : Entry}
    (hen : e.jtc.holding d k = some en) (h : en.custody = .active ∨ en.custody = .shadowed) :
    e.deliverCancel d k = (e.requestStop en .cancel, false) := by
  unfold Engine.deliverCancel
  rcases h with h | h <;> simp only [hen, h]

/-! ### New entries (R37, R42, R44) -/

/-- An entry closed as it is made stands last in the table, in CLOSING. -/
theorem JobTable.Ordered.create_close {j : JobTable} (h : j.Ordered) (r : JobRecord) (d : Domain) (k : Slot)
    (out : JobResult) :
    (j.create r d k false).close j.nextPlace out none = { j with
      entries := j.entries ++ [{ Entry.fresh j.nextPlace r d k false with custody := .closing, result := some out }]
      nextPlace := j.nextPlace + 1
      queue := j.queue ++ [j.nextPlace] } := by
  have hold : (j.entries.map fun en => if en.place = j.nextPlace then
      { en with custody := .closing, result := some out, serviceNotify := none, expiryDue := false } else en) =
      j.entries := by
    refine (List.map_congr_left fun en hen => ?_).trans (List.map_id _)
    exact if_neg (Nat.ne_of_lt (h.2 en hen))
  simp only [JobTable.close, JobTable.update, JobTable.create, List.map_append, hold]
  simp [Entry.fresh]

/-! ### Decisions carried out -/

theorem Engine.endPass_attention (e : Engine) (p : Pass) :
    (e.endPass p).post.attention[p.domain] =
      if p.left = true ∧ e.post.attention[p.domain] = .clear then .held else e.post.attention[p.domain] := by
  unfold Engine.endPass
  dsimp only
  by_cases h : p.left = true ∧ e.post.attention[p.domain] = .clear
  · rw [if_pos h, if_pos (by simpa using h)]
    exact Vector.getElem_set_self _
  · rw [if_neg h, if_neg (by simpa using h)]
    rfl

theorem Engine.endPass_jtc (e : Engine) (p : Pass) : (e.endPass p).jtc = { e.jtc with pass := none } := by
  unfold Engine.endPass
  dsimp only
  split <;> rfl

theorem wordsBytes_singleton (w : Word) : wordsBytes [w] = wordBytes w := List.append_nil _

theorem Engine.writeReport_presents (e : Engine) (p : Pass) (x : ReportKind) (k : Slot) (rest : List Decision) :
    (e.writeReport p x k rest).presents .intake .reportWrite
      (.write (e.domain p.domain).reportAddr (wordBytes (x.code ||| (BitVec.ofNat 32 k.val <<< 8)))) := by
  rw [← wordsBytes_singleton]
  exact Engine.ask_presents _ _ _ _

/-- A decision that is only reported (R41). -/
theorem Engine.carryOn_reports {e : Engine} {p : Pass} {k : Slot} {v : Verdict} {code : Nat} (rest : List Decision)
    (h : (v = .badPost ∧ code = 1) ∨ (v = .busyPost ∧ code = 2) ∨
      (v = .cancel ∧ code = 3 ∧ ∀ en, e.jtc.holding p.domain k = some en → en.custody = .closing)) :
    (e.carryOn p (⟨k, v⟩ :: rest)).jtc = { e.jtc with pass := some { p with step := .report rest } } ∧
    (e.carryOn p (⟨k, v⟩ :: rest)).presents .intake .reportWrite
      (.write (e.domain p.domain).reportAddr (wordBytes ((code : Word) ||| (BitVec.ofNat 32 k.val <<< 8)))) := by
  rcases h with ⟨rfl, rfl⟩ | ⟨rfl, rfl⟩ | ⟨rfl, rfl, hlate⟩
  · rw [Engine.carryOn_badPost]
    exact ⟨rfl, e.writeReport_presents p .badPost k rest⟩
  · rw [Engine.carryOn_busyPost]
    exact ⟨rfl, e.writeReport_presents p .busyPost k rest⟩
  · rw [Engine.carryOn_cancel, if_pos (Engine.deliverCancel_late hlate)]
    exact ⟨rfl, e.writeReport_presents p .cancelLate k rest⟩

/-- A cancel that is in time (R40). -/
theorem Engine.carryOn_cancels {e f : Engine} {p : Pass} {k : Slot} (h : e.deliverCancel p.domain k = (f, false))
    (rest : List Decision) : e.carryOn p (⟨k, .cancel⟩ :: rest) = f.carryOn p rest := by
  rw [Engine.carryOn_cancel, h]
  rfl

/-- Settles O36: the entry after its TAKEN write, the first case of R37, the new entry, the request to stop, and then
each decision by its verdict. -/
theorem decisionsCarriedOut : Obligations.DecisionsCarriedOut := by
  refine ⟨fun j en hfind _ => ⟨fun draining hc => ?_, fun hc => ⟨?_, ?_, ?_, fun hline => ?_, fun n hline => ⟨?_, ?_⟩⟩⟩,
    Engine.intakeOutcome_cases, fun _ _ _ _ _ => rfl, ?stops, fun e p k rest => ⟨?ends, ?reports, ?waits, ?runs,
    ?closed, ?taken⟩⟩
  · rw [JobTable.taken_closing hfind draining hc]
    exact ⟨JobTable.find_written hfind, rfl⟩
  · rw [JobTable.taken_draining hfind hc]
    exact JobTable.find_update (JobTable.find_written hfind) fun _ => rfl
  · rw [JobTable.taken_draining hfind hc]; rfl
  · rw [JobTable.taken_draining hfind hc]; rfl
  · rw [JobTable.taken_untriggered hfind hc hline]
    exact JobTable.find_update (JobTable.find_written hfind) fun _ => rfl
  · exact JobTable.taken_arms hfind hc hline
  · exact JobTable.taken_latched hfind hc hline
  case stops =>
    rintro e f en r rfl
    exact ⟨e.requestStop_again r, fun hs hc =>
      ⟨Engine.requestStop_jtc hs, e.requestStop_chan r hs hc, e.requestStop_rest en r⟩⟩
  case ends =>
    rw [Engine.carryOn_nil]
    exact ⟨e.endPass_jtc p, e.endPass_attention p⟩
  case reports => exact fun v code h => Engine.carryOn_reports rest h
  case waits => exact fun en hen hc => Engine.carryOn_cancels (Engine.deliverCancel_waiting hen hc) rest
  case runs => exact fun en hen hc => Engine.carryOn_cancels (Engine.deliverCancel_running hen hc) rest
  case closed =>
    exact fun r out hout => ⟨Engine.carryOn_take_closed hout k rest, fun h => h.create_close r p.domain k out⟩
  case taken =>
    intro r hout
    rw [Engine.carryOn_take hout]
    exact ⟨rfl, Engine.ask_presents _ _ _ _⟩

end Sys2Proof.Machine
end

section
/-! SUPPORT. The end of the drain and ENGINE_RESET (R118, R159, R160): what a register-write row does where it is served at
once, and that a reset engine stays as it is at the end of the step. -/

namespace Sys2Proof.Machine

/-! ### DRAIN_COMPLETE -/

theorem exec_drainComplete {s : State} (hstate : s.eng.ctl.state = .draining) (hentries : s.eng.jtc.entries = [])
    (hpass : s.eng.jtc.pass = none) : exec .drainComplete s = .next (s.onEngine Engine.enterStopped) := by
  have hdrained : s.eng.drained = true := by simp [Engine.drained, Engine.isDraining, hstate, hentries, hpass]
  change execDrainComplete s = _
  simp only [execDrainComplete, State.onEngine, hdrained, if_true]

theorem Engine.enterStopped_same (e : Engine) {p : Part} (hp : p ∉ [Part.control, .post, .timebase]) :
    e.same e.enterStopped p := by
  cases p with
  | control | post | timebase => exact absurd (by simp) hp
  | mem | ports | arb | pins | queue => trivial
  | _ => rfl

/-- Settles O22: entering STOPPED changes the engine state, attention and the Timebase alone. -/
theorem drainCompletes : Obligations.DrainCompletes := by
  intro s hstate hentries hpass
  have hctl : (s.onEngine Engine.enterStopped).eng.ctl = { s.eng.ctl with state := .stopped } := Engine.settle_ctl _ _
  have hpost : (s.onEngine Engine.enterStopped).eng.post =
      { s.eng.post with attention := Vector.replicate 8 .clear } := Engine.settle_post _ _
  refine ⟨_, exec_drainComplete hstate hentries hpass, hctl, fun d => ?_, ?_, Engine.settle_count _ _, fun n => ?_, ?_,
    fun p hp => State.onEngine_same s _ p (s.eng.enterStopped_same hp)⟩
  · rw [hpost]; exact Vector.getElem_replicate _
  · rw [hpost]
  · have hfilters : (s.onEngine Engine.enterStopped).eng.filters = Vector.replicate 8 Filter.unknown :=
      Engine.settle_filters _ _
    rw [hfilters]; exact Vector.getElem_replicate _
  · rw [Engine.frozen, Engine.working, hctl]; rfl

/-! ### A row served at once (R130, R132, log 10) -/

theorem State.ServesRow.holder {s : State} {p : Port} (h : s.ServesRow p) : (s.arb.AfterRow p).holder = none := by
  unfold Arbiter.AfterRow Arbiter.AfterSequence Arbiter.AfterGrant
  obtain ⟨_, hh | ⟨hh, _⟩⟩ := h <;> simp [hh]

/-- The state in which a row's access has been presented and granted. -/
def State.rowGranted (s : State) (p : Port) (a : PortAccess) : State :=
  { s with ports := { s.ports with access := s.ports.access.set p (some a) }, arb := s.arb.AfterRow p }

/-- A row is served at once where the port holds a locked sequence or the rotation comes to it. -/
theorem State.registerRow_served {s : State} {p : Port} (h : s.ServesRow p) (r : RegName) (en : BitVec 4) (v : Word) :
    s.registerRow p r en v = s.settled fun s =>
      (s.rowGranted p (registerWriteAccess r en v)).serveAccess p (registerWriteAccess r en v) := by
  obtain ⟨hfree, hholder⟩ := h
  rw [State.registerRow_eq]
  unfold State.settled
  have hnone : s.ports.access[p].isSome = false := by rw [hfree]; rfl
  simp only [hnone, Bool.false_eq_true, if_false]
  by_cases hh : s.arb.holder = some (.port p)
  · simp only [hh, if_true, State.rowGranted, Arbiter.AfterRow]
  · obtain ⟨hidle, hreset, hfind⟩ := hholder.resolve_left hh
    have hgrant := s.nextGrant_presented p (registerWriteAccess r en v)
    rw [show (s.arb.holder.isNone && !s.resetPin) = true by simp [hidle, hreset], if_pos rfl, hfind] at hgrant
    simp only [hh, if_false, State.rowGranted, Arbiter.AfterRow]
    rw [if_pos hgrant]

theorem Vector.set_set_none {n : Nat} {v : Vector (Option PortAccess) n} {i : Nat} (hi : i < n) (h : v[i] = none)
    (a : Option PortAccess) : (v.set i a).set i none = v := by
  ext j hj
  by_cases hij : i = j
  · subst hij; simp [h]
  · simp [Vector.getElem_set_ne, hij]

/-! ### ENGINE_RESET -/

theorem State.finishGranted_of_holder {s : State} (h : s.arb.holder ≠ some .engine) : s.finishGranted = s := by
  unfold State.finishGranted
  split <;> simp_all

/-- A CONTROL write of a level-0 port is taken as a command (R145, R155). -/
theorem State.decideAccess_control {s : State} {p : Port} (hlevel : s.ports.level[p] = 0) (v : Word) :
    s.decideAccess p (registerWriteAccess .control 0b1111 v) = s.takeCommand (bits v 0 3) := by
  have hclass : addressClass (registerWriteAccess .control 0b1111 v).word = .register .control :=
    show addressClass 0x10001 = .register .control by decide
  have hmay : s.mayWrite p .control 0b1111 = true := by simp [State.mayWrite, hlevel]
  rw [State.decideAccess, hclass]
  change (if s.mayWrite p .control 0b1111 then _ else _) = _
  rw [hmay]
  rfl

/-- At the end of the step a reset engine is as its reset left it: it asks for nothing and sends nothing. -/
theorem Engine.settle_engineReset (b e : Engine) : b.settle e.engineReset = e.engineReset := by
  have hreconsider : e.engineReset.reconsider = e.engineReset := rfl
  have hsend : e.engineReset.sendDispatch = e.engineReset := rfl
  have hchoose : e.engineReset.chooseUnit = e.engineReset := rfl
  rw [Engine.settle, hreconsider, ite_self, hsend, hchoose]

theorem exec_engineReset {s : State} {p : Port} (h : s.ServesRow p) (hlevel : s.ports.level[p] = 0) :
    exec (.engineReset p) s = .next { s with arb := s.arb.AfterRow p, eng := s.eng.engineReset } := by
  have haccess := Vector.set_set_none p.isLt h.1 (some (registerWriteAccess .control 0b1111 4))
  have hfinish : (s.rowGranted p (registerWriteAccess .control 0b1111 4)).finishGranted =
      s.rowGranted p (registerWriteAccess .control 0b1111 4) :=
    State.finishGranted_of_holder fun hh => by simp [State.rowGranted, h.holder] at hh
  have hserve : (s.rowGranted p (registerWriteAccess .control 0b1111 4)).serveAccess p
      (registerWriteAccess .control 0b1111 4) = { s with arb := s.arb.AfterRow p, eng := s.eng.engineReset } := by
    have hcommand (t : State) : t.takeCommand (bits 4 0 3) = t.engineReset := rfl
    rw [State.serveAccess, State.decideAccess_control (by exact hlevel), hcommand, State.engineReset, hfinish]
    simp only [State.rowGranted]
    rw [haccess]
  change Host.Outcome.next (s.registerRow p .control 0b1111 4) = _
  rw [State.registerRow_served h, State.settled]
  simp only [hserve, Engine.settle_engineReset]

/-- While an engine unit is granted a row waits, as an access that is presented does. -/
theorem exec_engineReset_waits {s : State} {p : Port} (hfree : s.ports.access[p] = none)
    (hholder : s.arb.holder = some .engine) :
    exec (.engineReset p) s = exec (.portAccess p ⟨0x10001, true, 0b1111, 4, false⟩) s := by
  have hnone : s.ports.access[p].isSome = false := by rw [hfree]; rfl
  change Host.Outcome.next (s.registerRow p .control 0b1111 4) = execPortAccess p _ s
  rw [State.registerRow_eq, execPortAccess, State.settled, State.settled]
  simp only [hnone, hholder, Bool.false_eq_true, if_false]
  rw [State.present_unlocked _ _ _ rfl]
  simp only [State.nextGrant, hholder]
  rfl

/-- Settles O15: the row's service is the reset itself, and an engine unit that is granted is completed first. -/
theorem engineResetLeaves : Obligations.EngineResetLeaves := by
  refine fun s p => ⟨fun h hlevel => ⟨_, exec_engineReset h hlevel, ?_⟩, exec_engineReset_waits, fun u hh hu => ?_⟩
  · refine ⟨rfl, fun d => Vector.getElem_replicate _, rfl, rfl, rfl, rfl, rfl, fun n => ?_, rfl, fun c => ?_, rfl, rfl,
      rfl, fun k => ?_, rfl, rfl, rfl, rfl, rfl, rfl⟩
    · exact ⟨Vector.getElem_replicate _, Vector.getElem_replicate _, Vector.getElem_replicate _,
        Vector.getElem_replicate _⟩
    · exact Vector.getElem_replicate _
    · simp [Engine.nl, Engine.engineReset, Engine.resetWith, flagSet]
  · have hfinish : s.finishGranted =
        { s with mem := (u.request.access.perform s.mem).1, arb := { s.arb with holder := none } } := by
      simp only [State.finishGranted, hh, hu]
    rw [State.engineReset, hfinish]
    exact ⟨rfl, rfl, rfl⟩

end Sys2Proof.Machine
end

section
/-! SUPPORT. An access of a port to the SRAM that is allowed (R30, R130 to R133, R142, R143): what it does to memory,
attention, the returned data and the arbiter, granted or in a locked sequence, with the statements about both. -/

namespace Sys2Proof.Machine

/-! ### Bytes of a word -/

/-- The bytes of a word in memory are those at its addresses (little-endian, 00 Conventions). -/
theorem Memory.word_byte (m : Memory) (a : Nat) (i : Fin 4) :
    (m.word a).extractLsb' (8 * i.val) 8 = m.read (a + i.val) := by
  have hword : m.word a = m.read (a + 3) ++ m.read (a + 2) ++ m.read (a + 1) ++ m.read a := rfl
  have hget (w x y z : Byte) (j : Nat) : (w ++ x ++ y ++ z).getLsbD j =
      if j < 8 then z.getLsbD j else if j - 8 < 8 then y.getLsbD (j - 8)
      else if j - 8 - 8 < 8 then x.getLsbD (j - 8 - 8) else w.getLsbD (j - 8 - 8 - 8) := by
    rw [BitVec.getLsbD_append, BitVec.getLsbD_append, BitVec.getLsbD_append]
  refine BitVec.eq_of_getLsbD_eq fun j hj => ?_
  rw [hword, BitVec.getLsbD_extractLsb', decide_eq_true hj, Bool.true_and]
  refine (hget _ _ _ _ _).trans ?_
  match i with
  | 0 => rw [if_pos (by simp; omega)]; simp
  | 1 => rw [if_neg (by simp), if_pos (by simp; omega)]; simp
  | 2 => rw [if_neg (by simp; omega), if_neg (by simp; omega), if_pos (by simp; omega)]; congr 1; simp; omega
  | 3 => rw [if_neg (by simp; omega), if_neg (by simp; omega), if_neg (by simp; omega)]; congr 1; simp; omega

/-- The bytes of a word that a write of its enabled bytes leaves (R142). -/
def Memory.enabledBytes (m : Memory) (a : Nat) (en : BitVec 4) (w : Word) : List Byte :=
  [if en.getLsbD 0 then w.extractLsb' 0 8 else m.read a, if en.getLsbD 1 then w.extractLsb' 8 8 else m.read (a + 1),
   if en.getLsbD 2 then w.extractLsb' 16 8 else m.read (a + 2),
   if en.getLsbD 3 then w.extractLsb' 24 8 else m.read (a + 3)]

theorem Memory.writeEnabled_eq (m : Memory) (a : Nat) (en : BitVec 4) (w : Word) :
    m.writeEnabled a en w = m.writeBytes a (m.enabledBytes a en w) := rfl

/-- The enabled bytes are those written, and the others stay (R142). -/
theorem Memory.read_writeEnabled {m : Memory} (hm : m.wf = true) {a : Nat} (ha : a + 4 ≤ Config.sramSize) (en : BitVec 4)
    (w : Word) (i : Fin 4) : (m.writeEnabled a en w).read (a + i.val) =
      if en.getLsbD i.val then w.extractLsb' (8 * i.val) 8 else m.read (a + i.val) := by
  rw [Memory.writeEnabled_eq]
  refine (Memory.read_writeBytes_inside hm a (m.enabledBytes a en w) i.val i.isLt ha).trans ?_
  match i with
  | 0 | 1 | 2 | 3 => rfl

theorem Memory.read_writeEnabled_outside {m : Memory} (hm : m.wf = true) {a : Nat} (en : BitVec 4) (w : Word) {x : Nat}
    (hx : x < a ∨ a + 4 ≤ x) : (m.writeEnabled a en w).read x = m.read x := by
  rw [Memory.writeEnabled_eq]
  exact Memory.read_writeBytes_outside hm a (m.enabledBytes a en w) x hx

theorem lanes_get (en : BitVec 4) (w : Word) (i : Fin 4) :
    (lanes en w)[i] = if en.getLsbD i.val then some (w.extractLsb' (8 * i.val) 8) else none := by
  match i with
  | 0 | 1 | 2 | 3 => rfl

/-! ### The Post Monitor's watch (R30) -/

namespace Engine

/-- An engine whose attention alone has become another. -/
def withAttention (e : Engine) (att : Vector Attention 8) : Engine := { e with post := { e.post with attention := att } }

theorem withAttention_same (e : Engine) (att : Vector Attention 8) {p : Part} (hp : p ≠ .post) :
    e.same (e.withAttention att) p := by
  cases p with
  | post => exact absurd rfl hp
  | mem | ports | arb | pins | queue => trivial
  | timebase => exact ⟨rfl, rfl⟩
  | _ => rfl

/-- The watch of a domain raises its attention alone, where the domain is enabled and this is its post word. -/
theorem watchDomain_spec (e : Engine) (addr : Nat) (d : Domain) :
    ∃ att, e.watchDomain addr d = e.withAttention att ∧ ∀ c : Domain, att[c] =
      if d = c ∧ (e.domain c).enabled = true ∧ e.post.address[c] = some addr then .posted else e.post.attention[c] := by
  unfold Engine.watchDomain
  by_cases hw : (e.domain d).enabled = true ∧ e.post.address[d] = some addr
  · rw [if_pos (by simpa using hw)]
    refine ⟨_, rfl, fun c => ?_⟩
    by_cases hd : d = c
    · subst hd
      rw [if_pos ⟨rfl, hw⟩]
      exact Vector.getElem_set_self d.isLt
    · rw [if_neg fun h => hd h.1]
      exact Vector.getElem_set_ne d.isLt c.isLt fun h => hd (Fin.ext h)
  · rw [if_neg (by simpa using hw)]
    refine ⟨_, rfl, fun c => (if_neg ?_).symm⟩
    rintro ⟨rfl, h⟩
    exact hw h

theorem watchDomains_spec (addr : Nat) (ds : List Domain) (e : Engine) :
    ∃ att, ds.foldl (fun e d => e.watchDomain addr d) e = e.withAttention att ∧ ∀ c : Domain, att[c] =
      if c ∈ ds ∧ (e.domain c).enabled = true ∧ e.post.address[c] = some addr then .posted
      else e.post.attention[c] := by
  induction ds generalizing e with
  | nil => exact ⟨_, rfl, fun c => by simp⟩
  | cons d ds ih =>
    obtain ⟨att, hfirst, hatt⟩ := e.watchDomain_spec addr d
    obtain ⟨att', hrest, hatt'⟩ := ih (e.withAttention att)
    refine ⟨att', by rw [List.foldl_cons, hfirst, hrest]; rfl, fun c => ?_⟩
    refine (hatt' c).trans ?_
    change (if c ∈ ds ∧ (e.domain c).enabled = true ∧ e.post.address[c] = some addr then Attention.posted
      else att[c]) = _
    rw [hatt c]
    by_cases hd : d = c
    · by_cases hw : (e.domain c).enabled = true ∧ e.post.address[c] = some addr
      · simp only [hd, hw, List.mem_cons, true_or, and_true, if_true, ite_self]
      · simp only [hw, and_false, if_false]
    · simp [hd, Ne.symm hd]

theorem mem_domainList (d : Domain) : d ∈ domainList := by revert d; decide

/-- The watch changes attention alone, and raises that of the enabled domains with this post word in RUNNING and DRAINING,
if a byte is enabled. -/
theorem watch_spec (e : Engine) (addr : Nat) (en : BitVec 4) :
    ∃ att, e.watch addr en = e.withAttention att ∧
    (∀ d : Domain, e.working = true → en ≠ 0 → (e.domain d).enabled = true → e.post.address[d] = some addr →
      att[d] = .posted) ∧
    (∀ d : Domain, e.post.address[d] ≠ some addr ∨ (e.domain d).enabled = false → att[d] = e.post.attention[d]) ∧
    (e.working = false ∨ en = 0 → att = e.post.attention) := by
  obtain ⟨att, hfold, hatt⟩ := watchDomains_spec addr domainList e
  unfold Engine.watch
  by_cases hw : e.working = true ∧ en ≠ 0
  · rw [if_pos (by simpa using hw)]
    refine ⟨att, hfold, fun d _ _ hd ha => ?_, fun d hd => ?_, fun h => ?_⟩
    · rw [hatt, if_pos ⟨mem_domainList d, hd, ha⟩]
    · rw [hatt, if_neg]
      rintro ⟨_, henabled, ha⟩
      exact hd.elim (fun h => h ha) fun h => by simp [h] at henabled
    · exact absurd hw fun k => h.elim (fun h => by simp [h] at k) k.2
  · rw [if_neg (by simpa using hw)]
    exact ⟨_, rfl, fun d hwork hen => absurd ⟨hwork, hen⟩ hw, fun _ _ => rfl, fun _ => rfl⟩

end Engine

/-! ### An allowed access to the SRAM -/

theorem Ports.allows_iff (ps : Ports) (p : Port) (a : PortAccess) :
    ps.allows p a.isWrite (pageOf a.word) = true ↔ ps.Allows p a := by
  have hpage : pageOf a.word = a.word.toNat / 1024 := by unfold pageOf byteAddr; omega
  unfold Ports.allows Ports.Allows
  rw [hpage]
  cases ps.map[p] <;> simp

/-- The state in which a port's access has been granted and served, the arbiter being left as said. -/
def State.afterAccess (s : State) (p : Port) (a : PortAccess) (ar : Arbiter) : State :=
  s.settled fun s => State.serveAccess { s with arb := ar } p a

section Served

variable {s : State} {p : Port} {a : PortAccess} (ar : Arbiter) (hsram : a.word < 0x10000) (hallows : s.ports.Allows p a)

include hsram hallows

theorem State.serveAccess_sram : State.serveAccess { s with arb := ar } p a =
    { State.sramServed { s with arb := ar } p a with
      ports := { (State.sramServed { s with arb := ar } p a).ports with
        access := (State.sramServed { s with arb := ar } p a).ports.access.set p none } } := by
  have hclass : addressClass a.word = .sram := if_pos hsram
  have hdecide : State.decideAccess { s with arb := ar } p a = State.sramServed { s with arb := ar } p a := by
    rw [State.decideAccess, hclass]
    exact if_pos ((s.ports.allows_iff p a).mpr hallows)
  rw [State.serveAccess, hdecide]

theorem State.serveAccess_write (hwrite : a.isWrite = true) : State.serveAccess { s with arb := ar } p a =
    { s with
      mem := s.mem.writeEnabled (4 * a.word.toNat) a.enables a.data, arb := ar
      eng := s.eng.watch (4 * a.word.toNat) a.enables
      ports := { s.ports with access := s.ports.access.set p none } } := by
  rw [State.serveAccess_sram ar hsram hallows, State.sramServed, if_pos hwrite]
  rfl

theorem State.serveAccess_read (hread : a.isWrite = false) : State.serveAccess { s with arb := ar } p a =
    { s with
      arb := ar
      ports := { s.ports with
        access := s.ports.access.set p none
        readData := s.ports.readData.set p (lanes a.enables (s.mem.word (4 * a.word.toNat))) } } := by
  rw [State.serveAccess_sram ar hsram hallows, State.sramServed, if_neg (by simp [hread])]
  rfl

/-- Read or written, the access completes, and of the ports it changes the data returned alone. -/
theorem State.afterAccess_completes : (s.afterAccess p a ar).waitLine p = false ∧ (s.afterAccess p a ar).arb = ar ∧
    (∀ q : Port, q ≠ p → (s.afterAccess p a ar).ports.access[q] = s.ports.access[q]) ∧
    { (s.afterAccess p a ar).ports with access := s.ports.access, readData := s.ports.readData } = s.ports := by
  have key : (State.serveAccess { s with arb := ar } p a).arb = ar ∧
      (State.serveAccess { s with arb := ar } p a).ports.access = s.ports.access.set p none ∧
      { (State.serveAccess { s with arb := ar } p a).ports with
        access := s.ports.access, readData := s.ports.readData } = s.ports := by
    cases hw : a.isWrite with
    | true => rw [State.serveAccess_write ar hsram hallows hw]; exact ⟨rfl, rfl, rfl⟩
    | false => rw [State.serveAccess_read ar hsram hallows hw]; exact ⟨rfl, rfl, rfl⟩
  obtain ⟨harb, haccess, hports⟩ := key
  have hset (q : Port) : (s.afterAccess p a ar).ports.access[q] = (s.ports.access.set p none)[q] :=
    congrArg (fun v : Vector (Option PortAccess) 4 => v[q]) haccess
  refine ⟨?_, harb, fun q hq => ?_, hports⟩
  · rw [State.waitLine, hset p]
    exact congrArg Option.isSome (Vector.getElem_set_self p.isLt)
  · rw [hset q]
    exact Vector.getElem_set_ne p.isLt q.isLt fun h => hq (Fin.ext h.symm)

/-- A write puts its enabled bytes into the word, and the Post Monitor takes note of it (R30, R142). -/
theorem State.afterAccess_write (hm : s.mem.wf = true) (hwrite : a.isWrite = true) :
    (∀ i : Fin 4, (s.afterAccess p a ar).mem.read (4 * a.word.toNat + i.val) =
      if a.enables.getLsbD i.val then a.data.extractLsb' (8 * i.val) 8
      else s.mem.read (4 * a.word.toNat + i.val)) ∧
    (∀ x : Nat, x < 4 * a.word.toNat ∨ 4 * a.word.toNat + 4 ≤ x →
      (s.afterAccess p a ar).mem.read x = s.mem.read x) ∧
    (∀ d : Domain, s.eng.working = true → a.enables ≠ 0 → (s.eng.domain d).enabled = true →
      s.eng.post.address[d] = some (4 * a.word.toNat) → (s.afterAccess p a ar).eng.post.attention[d] = .posted) ∧
    (∀ d : Domain, s.eng.post.address[d] ≠ some (4 * a.word.toNat) ∨ (s.eng.domain d).enabled = false →
      (s.afterAccess p a ar).eng.post.attention[d] = s.eng.post.attention[d]) ∧
    (s.afterAccess p a ar).eng.post.address = s.eng.post.address ∧
    (s.eng.working = false ∨ a.enables = 0 → (s.afterAccess p a ar).eng.post = s.eng.post) ∧
    (s.afterAccess p a ar).ports.readData = s.ports.readData ∧
    s.SameBut [.mem, .ports, .arb, .post] (s.afterAccess p a ar) := by
  have hinside : 4 * a.word.toNat + 4 ≤ Config.sramSize := by
    have : a.word.toNat < 0x10000 := hsram
    unfold Config.sramSize
    omega
  obtain ⟨att, hwatch, hposted, hkept, hidle⟩ := s.eng.watch_spec (4 * a.word.toNat) a.enables
  have hserve := State.serveAccess_write ar hsram hallows hwrite
  rw [hwatch] at hserve
  have hmem : (s.afterAccess p a ar).mem = s.mem.writeEnabled (4 * a.word.toNat) a.enables a.data :=
    congrArg State.mem hserve
  have hpost : (s.afterAccess p a ar).eng.post = { s.eng.post with attention := att } :=
    (Engine.settle_post _ _).trans (congrArg (fun t : State => t.eng.post) hserve)
  have hports := congrArg (fun t : State => t.ports.readData) hserve
  have hdata : (s.afterAccess p a ar).ports.readData = s.ports.readData := hports
  have hsame (r : Part) (hr : r ≠ .post) : s.eng.same (s.eng.withAttention att) r := s.eng.withAttention_same att hr
  rw [hmem, hpost]
  refine ⟨Memory.read_writeEnabled hm hinside _ _, fun x hx => Memory.read_writeEnabled_outside hm _ _ hx, hposted,
    hkept, rfl, fun h => by rw [hidle h], hdata,
    fun q hq => State.settled_same s _ q ?_⟩
  rw [hserve]
  cases q with
  | mem | ports | arb | post => exact absurd (by simp) hq
  | pins => exact ⟨rfl, rfl⟩
  | queue => rfl
  | control => exact hsame .control (by simp)
  | table => exact hsame .table (by simp)
  | starts => exact hsame .starts (by simp)
  | channel c => exact hsame (.channel c) (by simp)
  | timebase => exact hsame .timebase (by simp)
  | notify => exact hsame .notify (by simp)

/-- A read returns the enabled bytes (R142, log 28). -/
theorem State.afterAccess_read (hread : a.isWrite = false) :
    (∀ i : Fin 4, ((s.afterAccess p a ar).ports.readData[p])[i] =
      if a.enables.getLsbD i.val then some (s.mem.read (4 * a.word.toNat + i.val)) else none) ∧
    (∀ q : Port, q ≠ p → (s.afterAccess p a ar).ports.readData[q] = s.ports.readData[q]) ∧
    s.SameBut [.ports, .arb] (s.afterAccess p a ar) := by
  have hserve := State.serveAccess_read ar hsram hallows hread
  have hdata (q : Port) : (s.afterAccess p a ar).ports.readData[q] =
      (s.ports.readData.set p (lanes a.enables (s.mem.word (4 * a.word.toNat))))[q] :=
    congrArg (fun t : State => t.ports.readData[q]) hserve
  refine ⟨fun i => ?_, fun q hq => ?_, fun q hq => State.settled_same s _ q ?_⟩
  · have hself : (s.afterAccess p a ar).ports.readData[p] = lanes a.enables (s.mem.word (4 * a.word.toNat)) :=
      (hdata p).trans (Vector.getElem_set_self p.isLt)
    rw [hself, lanes_get, Memory.word_byte]
  · rw [hdata q]
    exact Vector.getElem_set_ne p.isLt q.isLt fun h => hq (Fin.ext h.symm)
  · rw [hserve]
    cases q with
    | ports | arb => exact absurd (by simp) hq
    | pins | timebase => exact ⟨rfl, rfl⟩
    | _ => rfl

end Served

/-! ### ARBITER_GRANT -/

theorem exec_arbiterGrant {s : State} {p : Port} {a : PortAccess} (h : s.Serves p a) :
    exec .arbiterGrant s = .next (s.afterAccess p a (s.arb.AfterGrant p a.lock)) := by
  obtain ⟨hholder, hreset, haccess, hfind⟩ := h
  have hgrant : s.nextGrant = some (.port p) := by
    unfold State.nextGrant
    rw [hholder, hreset]
    exact hfind
  change execArbiterGrant s = _
  simp only [execArbiterGrant, State.afterAccess, State.settled, hgrant, State.grant, haccess, Arbiter.grantPort_eq]

theorem Arbiter.AfterGrant_lastGranted (ar : Arbiter) (p : Port) (lock : Bool) :
    (ar.AfterGrant p lock).lastGranted = .port p := by
  unfold Arbiter.AfterGrant
  split
  · rfl
  · split <;> rfl

theorem Arbiter.AfterGrant_others (ar : Arbiter) {p q : Port} (lock : Bool) (hq : q ≠ p) :
    (ar.AfterGrant p lock).lock[q] = ar.lock[q] := by
  have hset (l : LockCondition) : (ar.lock.set p l)[q] = ar.lock[q] :=
    Vector.getElem_set_ne p.isLt q.isLt fun h => hq (Fin.ext h.symm)
  unfold Arbiter.AfterGrant
  split
  · exact hset _
  · split
    · rfl
    · exact hset _

/-- Settles O27: the grant is the rotation's, and the access is served with the arbiter moved on. -/
theorem grantServesSram : Obligations.GrantServesSram := by
  intro s p a hm hs hsram hallows
  obtain ⟨hwait, harb, hothers, hports⟩ :=
    State.afterAccess_completes (s.arb.AfterGrant p a.lock) hsram hallows
  have hholder := hs.1
  refine ⟨_, exec_arbiterGrant hs, hwait, ?_, fun q hq => ⟨?_, hothers q hq⟩, hports, ?_, ?_, ?_, fun hw => ?_,
    State.afterAccess_read _ hsram hallows⟩
  · rw [harb, Arbiter.AfterGrant_lastGranted]
  · rw [harb, Arbiter.AfterGrant_others _ _ hq]
  · rintro ⟨hfree, hlock⟩
    rw [harb, Arbiter.AfterGrant, hlock, if_neg (by simp), hfree]
    exact ⟨rfl, rfl, Vector.getElem_set_self p.isLt⟩
  · intro hlock
    rw [harb, Arbiter.AfterGrant, hlock, if_pos rfl]
    exact ⟨hholder, rfl, Vector.getElem_set_self p.isLt⟩
  · intro fifth hbroken hlock
    rw [harb, Arbiter.AfterGrant, hlock, if_neg (by simp), hbroken]
    exact ⟨hholder, rfl, hbroken⟩
  · exact State.afterAccess_write _ hsram hallows hm hw

/-! ### LOCKED_SEQUENCE_ACCESS and LOCK_RELEASE -/

theorem exec_lockedSequenceAccess {s : State} {p : Port} {a : PortAccess} (hholder : s.arb.holder = some (.port p))
    (haccess : s.ports.access[p] = some a) :
    exec .lockedSequenceAccess s = .next (s.afterAccess p a (s.arb.AfterSequence p a.lock)) := by
  have hheld : s.heldAccess = some (p, a) := by simp [State.heldAccess, hholder, haccess]
  change execLockedSequenceAccess s = _
  simp only [execLockedSequenceAccess, State.afterAccess, State.settled, hheld, Arbiter.sequenceAccess_eq]

theorem Arbiter.AfterSequence_others (ar : Arbiter) {p q : Port} (lock : Bool) (hq : q ≠ p) :
    (ar.AfterSequence p lock).lock[q] = ar.lock[q] := by
  have hset (l : LockCondition) : (ar.lock.set p l)[q] = ar.lock[q] :=
    Vector.getElem_set_ne p.isLt q.isLt fun h => hq (Fin.ext h.symm)
  unfold Arbiter.AfterSequence
  split
  · exact hset _
  · split
    · exact hset _
    · rfl

theorem Arbiter.AfterSequence_lastGranted (ar : Arbiter) (p : Port) (lock : Bool) :
    (ar.AfterSequence p lock).lastGranted = ar.lastGranted := by
  unfold Arbiter.AfterSequence
  split
  · rfl
  · split <;> rfl

/-- The state in which a port has released LOCK between accesses. -/
def State.afterUnlock (s : State) (p : Port) : State := s.settled fun s => { s with arb := s.arb.unlock p }

theorem exec_lockRelease {s : State} {p : Port} (h : s.ports.access[p] = none) :
    exec (.lockRelease p) s = .next (s.afterUnlock p) := by
  have hnone : s.ports.access[p].isSome = false := by rw [h]; rfl
  change execLockRelease p s = _
  simp only [execLockRelease, State.afterUnlock, State.settled, hnone, Bool.false_eq_true, if_false]

theorem State.afterUnlock_sameBut (s : State) (p : Port) : s.SameBut [.arb] (s.afterUnlock p) := fun q hq =>
  State.settled_same s _ q (by
    cases q with
    | arb => exact absurd (by simp) hq
    | pins | timebase => exact ⟨rfl, rfl⟩
    | _ => rfl)

/-- The end of a step in which nothing happens. -/
theorem State.settled_id_sameBut (s : State) : s.SameBut [] (s.settled fun s => s) := fun q _ =>
  State.settled_same s _ q (by
    cases q with
    | pins | timebase => exact ⟨rfl, rfl⟩
    | _ => rfl)

theorem exec_lockRelease_idle {s : State} {p : Port} (h : s.ports.access[p] ≠ none ∨ s.arb.lock[p] = .free) :
    exec (.lockRelease p) s = .next (s.settled fun s => s) := by
  change execLockRelease p s = _
  unfold execLockRelease State.settled
  cases ha : s.ports.access[p] with
  | some a =>
    have hsome : s.ports.access[p].isSome = true := by rw [ha]; rfl
    simp only [hsome, if_true]
  | none =>
    have hnone : s.ports.access[p].isSome = false := by rw [ha]; rfl
    have hfree : s.arb.lock[p] = .free := h.resolve_left fun hn => hn ha
    have hunlock : s.arb.unlock p = s.arb := by rw [Arbiter.unlock, hfree]
    simp only [hnone, Bool.false_eq_true, if_false, hunlock]

/-- Settles O30: the holding port's access is served in the same grant, and a release acts by the lock condition. -/
theorem lockedSequence : Obligations.LockedSequence := by
  refine ⟨fun s p a hm hholder haccess hsram hallows => ?_, fun s p => ⟨fun hnone hheld => ?_, fun b hnone hbroken => ?_,
    fun h => ⟨_, exec_lockRelease_idle h, s.settled_id_sameBut⟩⟩⟩
  · obtain ⟨hwait, harb, hothers, hports⟩ :=
      State.afterAccess_completes (s.arb.AfterSequence p a.lock) hsram hallows
    refine ⟨_, exec_lockedSequenceAccess hholder haccess, hwait, ?_, fun hlock => ?_, fun hlock hcount => ?_,
      fun hlock hcount => ?_, fun hw => ?_, fun hr => ?_, fun q hq => ⟨hothers q hq, ?_⟩, hports, ?_⟩
    · rw [harb, Arbiter.AfterSequence_lastGranted]
    · rw [harb, Arbiter.AfterSequence, hlock, if_pos rfl]
      exact ⟨rfl, rfl, Vector.getElem_set_self p.isLt⟩
    · rw [harb, Arbiter.AfterSequence, hlock, if_neg (by simp), if_pos hcount]
      exact ⟨rfl, rfl, Vector.getElem_set_self p.isLt⟩
    · rw [harb, Arbiter.AfterSequence, hlock, if_neg (by simp), if_neg (by omega)]
    · obtain ⟨hin, hout, hposted, hkept, haddress, hidle, hdata, _⟩ :=
        State.afterAccess_write (s.arb.AfterSequence p a.lock) hsram hallows hm hw
      exact ⟨hin, hout, hposted, hkept, hidle, haddress, hdata⟩
    · obtain ⟨hdata, hkept, hsame⟩ := State.afterAccess_read (s.arb.AfterSequence p a.lock) hsram hallows hr
      exact ⟨hdata, hkept, hsame .mem (by simp), hsame .post (by simp)⟩
    · rw [harb, Arbiter.AfterSequence_others _ _ hq]
    · cases hw : a.isWrite with
      | true =>
        obtain ⟨_, _, _, _, _, _, _, hsame⟩ :=
          State.afterAccess_write (s.arb.AfterSequence p a.lock) hsram hallows hm hw
        exact hsame
      | false =>
        obtain ⟨_, _, hsame⟩ := State.afterAccess_read (s.arb.AfterSequence p a.lock) hsram hallows hw
        exact fun q hq => hsame q fun h => hq (by
          rcases List.mem_cons.mp h with rfl | h
          · simp
          · simp [List.mem_singleton.mp h])
  · have harb : (s.afterUnlock p).arb = s.arb.unlock p := rfl
    rw [Arbiter.unlock, hheld] at harb
    refine ⟨_, exec_lockRelease hnone, ?_⟩
    rw [harb]
    exact ⟨rfl, rfl, Vector.getElem_set_self p.isLt, rfl, s.afterUnlock_sameBut p⟩
  · have harb : (s.afterUnlock p).arb = s.arb.unlock p := rfl
    rw [Arbiter.unlock, hbroken] at harb
    refine ⟨_, exec_lockRelease hnone, ?_⟩
    rw [harb]
    exact ⟨Vector.getElem_set_self p.isLt, rfl, rfl, s.afterUnlock_sameBut p⟩

end Sys2Proof.Machine
end

section
/-! SUPPORT. The tests of the anchor block (R148, R149, R156): what it is to find the first failure of some tests in their
order, and what each test of START finds. -/

namespace Sys2Proof.Machine

/-! ### The first failure -/

/-- A result names the first failure among the tests of some codes, taken in the order of the codes. -/
structure FindsFirst (fails : FaultCode → Nat → Prop) (cs : List FaultCode) (r : Option Failure) : Prop where
  passes : r = none → ∀ c ∈ cs, ∀ i, ¬ fails c i
  code : ∀ f, r = some f → f.code ∈ cs
  failure : ∀ f, r = some f → fails f.code f.index.toNat
  lowest : ∀ f, r = some f → ∀ i, i < f.index.toNat → ¬ fails f.code i
  earlier : ∀ f, r = some f → ∀ c ∈ cs, cs.idxOf c < cs.idxOf f.code → ∀ i, ¬ fails c i

namespace FindsFirst

variable {fails : FaultCode → Nat → Prop}

theorem nil : FindsFirst fails [] none where
  passes := fun _ _ hc => absurd hc List.not_mem_nil
  code := nofun
  failure := nofun
  lowest := nofun
  earlier := nofun

/-- One test after which others follow. -/
theorem cons {c : FaultCode} {cs : List FaultCode} {r : Option Failure} {rs : List (Option Failure)} (hc : c ∉ cs)
    (h : FindsFirst fails [c] r) (hs : FindsFirst fails cs (rs.findSome? id)) :
    FindsFirst fails (c :: cs) ((r :: rs).findSome? id) := by
  cases r with
  | some f =>
    have hcode : f.code = c := List.mem_singleton.mp (h.code f rfl)
    have hfind : (some f :: rs).findSome? id = some f := rfl
    rw [hfind]
    refine ⟨nofun, ?_, ?_, ?_, ?_⟩ <;> rintro _ ⟨⟩
    · exact hcode ▸ List.mem_cons_self
    · exact h.failure f rfl
    · exact h.lowest f rfl
    · intro c' _ hlt
      simp [hcode] at hlt
  | none =>
    have hfind : (none :: rs).findSome? id = rs.findSome? id := rfl
    have hpass := h.passes rfl c (List.mem_singleton_self c)
    rw [hfind]
    refine ⟨fun hr c' hc' => ?_, fun f hf => List.mem_cons_of_mem _ (hs.code f hf), hs.failure, hs.lowest,
      fun f hf c' hc' hlt => ?_⟩
    · rcases List.mem_cons.mp hc' with rfl | hmem
      · exact hpass
      · exact hs.passes hr c' hmem
    · rcases List.mem_cons.mp hc' with rfl | hmem
      · exact hpass
      · have hne (x : FaultCode) (hx : x ∈ cs) : (c == x) = false := beq_false_of_ne fun h => hc (h ▸ hx)
        rw [List.idxOf_cons, List.idxOf_cons, hne c' hmem, hne f.code (hs.code f hf)] at hlt
        exact hs.earlier f hf c' hmem (by simpa using hlt)

/-- A test over the numbers below `n`, by what it says of each. -/
theorem firstFailure {n : Nat} (hn : n ≤ 8) {c : FaultCode} {test : Fin n → Bool} {xs : List (Fin n)}
    (hall : ∀ x, x ∈ xs) (hsorted : xs.Pairwise (· < ·))
    (htest : ∀ i, fails c i ↔ ∃ x : Fin n, x.val = i ∧ test x = true) :
    FindsFirst fails [c] (firstFailure c test xs) := by
  unfold Machine.firstFailure
  cases hfind : xs.find? test with
  | none =>
    refine ⟨fun _ c' hc' i hi => ?_, nofun, nofun, nofun, nofun⟩
    rw [List.mem_singleton.mp hc', htest] at hi
    obtain ⟨x, _, hx⟩ := hi
    exact List.find?_eq_none.mp hfind x (hall x) hx
  | some x =>
    obtain ⟨hx, before, after, hxs, hbefore⟩ := List.find?_eq_some_iff_append.mp hfind
    have hindex : (BitVec.ofNat 3 x.val).toNat = x.val := by
      rw [BitVec.toNat_ofNat, Nat.mod_eq_of_lt (by omega)]
    refine ⟨nofun, ?_, ?_, ?_, ?_⟩ <;> rintro _ ⟨⟩
    · exact List.mem_singleton_self c
    · exact (htest _).mpr ⟨x, hindex.symm, hx⟩
    · intro i hi hfails
      obtain ⟨y, rfl, hy⟩ := (htest i).mp hfails
      have hmem : y ∈ before ++ x :: after := hxs ▸ hall y
      rw [hxs] at hsorted
      rw [hindex] at hi
      rcases List.mem_append.mp hmem with hb | hb
      · simpa [hy] using hbefore y hb
      · rcases List.mem_cons.mp hb with rfl | ha
        · exact lt_irrefl _ hi
        · have hlt := (List.pairwise_cons.mp (List.pairwise_append.mp hsorted).2.1).1 y ha
          exact lt_asymm hi hlt
    · intro c' hc' hlt
      simp [List.mem_singleton.mp hc'] at hlt

/-- A test that names no number: FAULT_INDEX is 0. -/
theorem whole {c : FaultCode} {p : Prop} [Decidable p] (htest : ∀ i, fails c i ↔ i = 0 ∧ ¬ p) :
    FindsFirst fails [c] (if p then none else some ⟨c, 0⟩) := by
  split
  · rename_i hp
    refine ⟨fun _ c' hc' i hi => ?_, nofun, nofun, nofun, nofun⟩
    rw [List.mem_singleton.mp hc', htest] at hi
    exact hi.2 hp
  · rename_i hp
    refine ⟨nofun, ?_, ?_, ?_, ?_⟩ <;> rintro _ ⟨⟩
    · exact List.mem_singleton_self c
    · exact (htest _).mpr ⟨rfl, hp⟩
    · exact fun i hi => absurd hi (Nat.not_lt_zero i)
    · intro c' hc' hlt
      simp [List.mem_singleton.mp hc'] at hlt

/-- Over all the tests, the failure found is the one of `FirstFault`. -/
theorem first {r : Option Failure} (h : FindsFirst fails testOrder r) {f : Failure} (hf : r = some f) :
    FirstFault fails f := by
  refine ⟨h.failure f hf, h.lowest f hf, fun c i hlt => ?_⟩
  have hmem : c ∈ testOrder := List.idxOf_lt_length_iff.mp
    (lt_trans hlt (List.idxOf_lt_length_iff.mpr (h.code f hf)))
  exact h.earlier f hf c hmem hlt i

end FindsFirst

/-- There is at most one first failure. -/
theorem FirstFault.unique {fails : FaultCode → Nat → Prop} (hcodes : ∀ c i, fails c i → c ∈ testOrder) {f g : Failure}
    (hf : FirstFault fails f) (hg : FirstFault fails g) : f = g := by
  obtain ⟨ffails, flowest, fearlier⟩ := hf
  obtain ⟨gfails, glowest, gearlier⟩ := hg
  have hcode : f.code = g.code := by
    rcases lt_trichotomy (testOrder.idxOf f.code) (testOrder.idxOf g.code) with h | h | h
    · exact absurd ffails (gearlier _ _ h)
    · exact (List.idxOf_inj (hcodes _ _ ffails)).mp h
    · exact absurd gfails (fearlier _ _ h)
  have hindex : f.index = g.index := by
    rcases lt_trichotomy f.index.toNat g.index.toNat with h | h | h
    · exact absurd (hcode ▸ ffails) (glowest _ h)
    · exact BitVec.eq_of_toNat_eq h
    · exact absurd (hcode ▸ gfails) (flowest _ h)
  cases f
  cases g
  exact congr (congrArg Failure.mk hcode) hindex

/-! ### Page maps (12.6) -/

/-- Right `i` of a word of a map, as the pair of its bits (12.6). -/
theorem PageMap.right_eq (m : PageMap) {i : Nat} (hi : i < 16) :
    m.right i = m.w0.extractLsb' (2 * i) 2 ∧ m.right (16 + i) = m.w1.extractLsb' (2 * i) 2 ∧
    m.right (32 + i) = m.w2.extractLsb' (2 * i) 2 ∧ m.right (48 + i) = m.w3.extractLsb' (2 * i) 2 := by
  have hword (k : Nat) : (16 * k + i) / 16 = k ∧ (16 * k + i) % 16 = i := by omega
  have h0 := hword 0
  have h1 := hword 1
  have h2 := hword 2
  have h3 := hword 3
  simp only [Nat.mul_zero, Nat.zero_add, Nat.mul_one, Nat.reduceMul] at h0 h1 h2 h3
  simp [PageMap.right, bits, h0, h1, h2, h3]

theorem mapWordHasTwo_iff (w : Word) : mapWordHasTwo w = true ↔ ∃ i < 16, w.extractLsb' (2 * i) 2 = 2 := by
  have htwo : ∀ x : BitVec 2, x = 2 ↔ x.getLsbD 1 = true ∧ x.getLsbD 0 = false := by decide
  have hbit (i : Nat) (hi : i < 16) : (w >>> 1 &&& ~~~w).getLsbD (2 * i) = true ↔ w.extractLsb' (2 * i) 2 = 2 := by
    rw [htwo, BitVec.getLsbD_and, BitVec.getLsbD_ushiftRight, BitVec.getLsbD_not, BitVec.getLsbD_extractLsb',
      BitVec.getLsbD_extractLsb', Nat.add_comm 1]
    simp [show 2 * i < 32 by omega]
  rw [mapWordHasTwo, and_mask_ne_zero (ks := (List.range 16).map (2 * ·)) _ (by decide) (by decide)]
  simp only [List.mem_map, List.mem_range]
  constructor
  · rintro ⟨_, ⟨i, hi, rfl⟩, h⟩
    exact ⟨i, hi, (hbit i hi).mp h⟩
  · rintro ⟨i, hi, h⟩
    exact ⟨_, ⟨i, hi, rfl⟩, (hbit i hi).mpr h⟩

/-- A map has the unlisted right where one of its 64 pages has. -/
theorem PageMap.hasUnlisted_iff (m : PageMap) : m.hasUnlisted = true ↔ ∃ page : Fin 64, m.right page.val = 2 := by
  simp only [PageMap.hasUnlisted, Bool.or_eq_true, mapWordHasTwo_iff, or_assoc]
  constructor
  · rintro (⟨i, hi, h⟩ | ⟨i, hi, h⟩ | ⟨i, hi, h⟩ | ⟨i, hi, h⟩) <;> obtain ⟨h0, h1, h2, h3⟩ := m.right_eq hi
    · exact ⟨⟨i, by omega⟩, h0.trans h⟩
    · exact ⟨⟨16 + i, by omega⟩, h1.trans h⟩
    · exact ⟨⟨32 + i, by omega⟩, h2.trans h⟩
    · exact ⟨⟨48 + i, by omega⟩, h3.trans h⟩
  · rintro ⟨page, h⟩
    have hmod : page.val % 16 < 16 := Nat.mod_lt _ (by omega)
    obtain ⟨h0, h1, h2, h3⟩ := m.right_eq hmod
    have hpage : page.val = page.val % 16 ∨ page.val = 16 + page.val % 16 ∨ page.val = 32 + page.val % 16 ∨
        page.val = 48 + page.val % 16 := by omega
    rcases hpage with hp | hp | hp | hp <;> rw [hp] at h
    · exact .inl ⟨_, hmod, h0.symm.trans h⟩
    · exact .inr (.inl ⟨_, hmod, h1.symm.trans h⟩)
    · exact .inr (.inr (.inl ⟨_, hmod, h2.symm.trans h⟩))
    · exact .inr (.inr (.inr ⟨_, hmod, h3.symm.trans h⟩))

/-- A map exposes a range where a byte of the range lies on a READ_WRITE page (R148). -/
theorem PageMap.exposes_iff (m : PageMap) (base len : Nat) : m.exposes base len = true ↔
    ∃ x, base ≤ x ∧ x < base + len ∧ x ≤ 0x3FFFF ∧ m.right (x / 4096) = 3 := by
  simp only [PageMap.exposes, Bool.and_eq_true, decide_eq_true_eq, List.any_eq_true, List.mem_range, beq_iff_eq]
  constructor
  · rintro ⟨⟨hlen, hbase⟩, page, _, ⟨hlow, hhigh⟩, hright⟩
    have hpage : max base (page * 4096) / 4096 = page := by omega
    exact ⟨max base (page * 4096), by omega, by omega, by omega, by rw [hpage]; exact hright⟩
  · rintro ⟨x, hlow, hhigh, hx, hright⟩
    exact ⟨⟨by omega, by omega⟩, x / 4096, by omega, ⟨by omega, by omega⟩, hright⟩

end Sys2Proof.Machine
end

section
/-! SUPPORT. The last burst of START (R148, R149, R156, R157): what its tests find in the block, the load of the copies and
the maps, and the statement about both. -/

namespace Sys2Proof.Machine

/-! ### The fields of the block (12.6) -/

theorem blockCopies_domain (b : List Word) (d : Domain) : (blockCopies b).domains[d] = blockDomain b d := by
  match d with
  | 0 | 1 | 2 | 3 | 4 | 5 | 6 | 7 => rfl

theorem blockCopies_line (b : List Word) (n : Line) : (blockCopies b).lines[n] = blockLine b n := by
  match n with
  | 0 | 1 | 2 | 3 | 4 | 5 | 6 | 7 => rfl

theorem blockDomain_homePort (b : List Word) (d : Domain) :
    (blockDomain b d).homePort.val = ((b.getD (16 + 8 * d.val) 0).extractLsb' 8 2).toNat :=
  fieldFin_val _ (by decide)

theorem blockDomain_notifyLine (b : List Word) (d : Domain) :
    (blockDomain b d).notifyLine.val = ((b.getD (16 + 8 * d.val) 0).extractLsb' 16 2).toNat :=
  fieldFin_val _ (by decide)

theorem blockLine_owner (b : List Word) (n : Line) :
    (blockLine b n).owner.val = ((b.getD (80 + n.val) 0).extractLsb' 4 3).toNat := fieldFin_val _ (by decide)

theorem blockLine_tap (b : List Word) (n : Line) :
    (blockLine b n).tap.val = ((b.getD (80 + n.val) 0).extractLsb' 12 4).toNat := fieldFin_val _ (by decide)

theorem blockLine_count (b : List Word) (n : Line) :
    (blockLine b n).count.val = ((b.getD (80 + n.val) 0).extractLsb' 16 3).toNat := fieldFin_val _ (by decide)

theorem blockDomain_word (b : List Word) (d : Domain) (k : Nat) :
    domainWord b d k = b.getD (16 + k + 8 * d.val) 0 := by
  rw [domainWord, blockWord, Nat.add_right_comm]

theorem blockMap_words (b : List Word) (p : Port) : blockMap b p =
    ⟨b.getD (88 + 4 * p.val) 0, b.getD (89 + 4 * p.val) 0, b.getD (90 + 4 * p.val) 0, b.getD (91 + 4 * p.val) 0⟩ := by
  have hword (k : Nat) : blockWord b (88 + 4 * p.val + k) = b.getD (88 + k + 4 * p.val) 0 := by
    rw [blockWord, Nat.add_right_comm]
  rw [blockMap, hword 1, hword 2, hword 3]
  rfl

/-! ### What each test says of a domain, line or port -/

theorem DomainRecord.inRange_iff (r : DomainRecord) : r.inRange = true ↔ r.Fits := by
  have hcount : (r.localCount = 0 ∨ r.localBase + 16 * r.localCount - 1 ≤ 0x3FFFF) ↔
      (0 < r.localCount → r.localBase + 16 * r.localCount - 1 ≤ 0x3FFFF) := by omega
  simp only [DomainRecord.inRange, DomainRecord.Fits, Bool.and_eq_true, Bool.or_eq_true, beq_iff_eq, decide_eq_true_eq,
    hcount, and_assoc]

theorem domainReserved_iff (b : List Word) (d : Domain) : domainReserved b d = true ↔
    (∃ k ∈ [1, 2, 3, 6, 7, 10, 11, 15, 18, 19, 27, 28, 29, 30, 31], (domainWord b d 0).getLsbD k = true) ∨
      domainWord b d 5 ≠ 0 ∨ domainWord b d 6 ≠ 0 ∨ domainWord b d 7 ≠ 0 := by
  simp only [domainReserved, Bool.or_eq_true, bne_iff_ne, or_assoc]
  rw [← bne_iff_ne, and_mask_ne_zero (ks := [1, 2, 3, 6, 7, 10, 11, 15, 18, 19, 27, 28, 29, 30, 31]) _ (by decide)
    (by decide)]

theorem lineReserved_iff (b : List Word) (n : Line) : lineReserved b n = true ↔
    ∃ k ∈ [1, 2, 3, 7, 10, 11, 19, 20, 21, 22, 23, 24, 25, 26, 27, 28, 29, 30, 31], (lineWord b n).getLsbD k = true :=
  and_mask_ne_zero _ (by decide) (by decide)

/-- Two slot areas share a byte, or the post words are one. -/
theorem DomainRecord.overlaps_iff (r q : DomainRecord) : r.overlaps q = true ↔
    (∃ x, r.slotBase ≤ x ∧ x < r.slotBase + 1024 ∧ q.slotBase ≤ x ∧ x < q.slotBase + 1024) ∨
      r.postAddr = q.postAddr := by
  have hshare : (r.slotBase < q.slotBase + 1024 ∧ q.slotBase < r.slotBase + 1024) ↔
      ∃ x, r.slotBase ≤ x ∧ x < r.slotBase + 1024 ∧ q.slotBase ≤ x ∧ x < q.slotBase + 1024 :=
    ⟨fun _ => ⟨max r.slotBase q.slotBase, by omega⟩, fun ⟨_, _⟩ => by omega⟩
  simp only [DomainRecord.overlaps, Bool.or_eq_true, Bool.and_eq_true, decide_eq_true_eq, beq_iff_eq, hshare]

namespace Ports

variable (ps : Ports) (b : List Word)

theorem incoming_level_zero {p : Port} (h : ps.level[p] = 0) : ps.incoming b p = none := if_pos h

theorem incoming_above {p : Port} (h : ps.level[p] ≠ 0) : ps.incoming b p = some (blockMap b p) := if_neg h

/-- A port's map about to be installed has the unlisted right (R150). -/
def newMapUnlisted (p : Port) : Bool :=
  match ps.incoming b p with | none => false | some m => m.hasUnlisted

theorem newMapUnlisted_iff (p : Port) :
    ps.newMapUnlisted b p = true ↔ ps.level[p] ≠ 0 ∧ ∃ page : Fin 64, (blockMap b p).right page.val = 2 := by
  rw [← PageMap.hasUnlisted_iff]
  unfold newMapUnlisted
  by_cases h : ps.level[p] = 0
  · simp [ps.incoming_level_zero b h, h]
  · simp only [ps.incoming_above b h, ne_eq, h, not_false_eq_true, true_and]

theorem exposed_iff (p : Port) (base len : Nat) : ps.exposed b p base len = true ↔ ps.Exposes b p base len := by
  unfold Exposes
  rw [← PageMap.exposes_iff]
  unfold exposed
  by_cases h : ps.level[p] = 0
  · simp [ps.incoming_level_zero b h, h]
  · simp only [ps.incoming_above b h, ne_eq, h, not_false_eq_true, true_and]

theorem exposesTable_iff (k : LoadedCopies) (p : Port) : ps.exposesTable b k p = true ↔
    ps.Exposes b p k.globalBase (16 * k.globalCount) ∨ ∃ d : Domain, (k.domains[d]).enabled = true ∧
      ps.Exposes b p (k.domains[d]).localBase (16 * (k.domains[d]).localCount) := by
  unfold exposesTable LoadedCopies.enabledDomain
  rw [Bool.or_eq_true, exposed_iff, List.any_eq_true]
  refine or_congr Iff.rfl (exists_congr fun d => ?_)
  rw [and_iff_right (Engine.mem_domainList d)]
  cases h : (k.domains[d]).enabled <;> simp [exposed_iff]

theorem exposesDomain_iff (k : LoadedCopies) (d : Domain) : ps.exposesDomain b k d = true ↔
    (k.domains[d]).enabled = true ∧ ∃ p : Port, p ≠ (k.domains[d]).homePort ∧
      (ps.Exposes b p (k.domains[d]).slotBase 1024 ∨ ps.Exposes b p (k.domains[d]).postAddr 4 ∨
        ps.Exposes b p (k.domains[d]).reportAddr 4) := by
  have hport (p : Port) : p ∈ portList := by revert p; decide
  unfold exposesDomain LoadedCopies.enabledDomain
  cases h : (k.domains[d]).enabled <;> simp [exposed_iff, hport, or_assoc]

/-! ### START's tests (R149, R156) -/

theorem magicTest_finds {fails : FaultCode → Nat → Prop} (k : LoadedCopies) (anchor : Nat)
    (h : fails .magic = ps.MapFault b k anchor .magic) : FindsFirst fails [.magic] (magicTest b) :=
  .whole fun i => by rw [h]; rfl

theorem mapField_finds {fails : FaultCode → Nat → Prop} (k : LoadedCopies) (anchor : Nat)
    (h : fails .mapField = ps.MapFault b k anchor .mapField) : FindsFirst fails [.mapField] (ps.mapField b) :=
  .firstFailure (by decide) (by decide) (by decide) fun i => by
    rw [h]
    exact exists_congr fun p => and_congr_right fun _ => (ps.newMapUnlisted_iff b p).symm

/-- The exposure check makes its conditions in their order (R149). -/
theorem exposureCheck_finds {fails : FaultCode → Nat → Prop} (k : LoadedCopies) (anchor : Nat)
    (h : ∀ c ∈ [FaultCode.anchorExposed, .tableExposed, .domainExposed], fails c = ps.ExposureFault b k anchor c) :
    FindsFirst fails [.anchorExposed, .tableExposed, .domainExposed] (ps.exposureCheck b k anchor) := by
  refine .cons (by decide) ?_ (.cons (by decide) ?_ (.cons (by decide) ?_ .nil)) <;>
    refine .firstFailure (by decide) (by decide) (by decide) fun i => ?_ <;> rw [h _ (by decide)] <;>
    refine exists_congr fun x => and_congr_right fun _ => Iff.symm ?_
  · exact ps.exposed_iff b x anchor 512
  · exact ps.exposesTable_iff b k x
  · exact ps.exposesDomain_iff b k x

variable (anchor : Nat)

theorem globalTest_finds : FindsFirst (ps.StartFault b anchor) [.globalTable] (globalTest b) := .whole fun _ => Iff.rfl

theorem domainField_finds : FindsFirst (ps.StartFault b anchor) [.domainField]
    (firstFailure .domainField (domainFieldFails b) domainList) :=
  .firstFailure (by decide) (by decide) (by decide) fun _ => exists_congr fun d => and_congr_right fun _ => by
    rw [domainFieldFails, Bool.and_eq_true, Bool.or_eq_true, domainReserved_iff, ← DomainRecord.inRange_iff,
      Bool.not_eq_true', Bool.not_eq_true]

theorem domainLevel_finds : FindsFirst (ps.StartFault b anchor) [.domainLevel]
    (firstFailure .domainLevel (ps.domainLevelFails b) domainList) :=
  .firstFailure (by decide) (by decide) (by decide) fun _ => exists_congr fun d => and_congr_right fun _ => by
    rw [domainLevelFails, Bool.and_eq_true, decide_eq_true_eq]

theorem domainOverlap_finds : FindsFirst (ps.StartFault b anchor) [.domainOverlap]
    (firstFailure .domainOverlap (domainOverlapFails b) domainList) :=
  .firstFailure (by decide) (by decide) (by decide) fun _ => exists_congr fun d => by
    simp only [domainOverlapFails, Bool.and_eq_true, List.any_eq_true, decide_eq_true_eq, DomainRecord.overlaps_iff,
      Engine.mem_domainList, true_and]
    exact ⟨fun ⟨q, hi, hq, hd, henabled, hshare⟩ => ⟨hi, hd, q, ⟨hq, henabled⟩, hshare⟩,
      fun ⟨hi, hd, q, ⟨hq, henabled⟩, hshare⟩ => ⟨q, hi, hq, hd, henabled, hshare⟩⟩

theorem lineField_finds : FindsFirst (ps.StartFault b anchor) [.lineField]
    (firstFailure .lineField (lineFieldFails b) lineList) :=
  .firstFailure (by decide) (by decide) (by decide) fun _ => exists_congr fun n => and_congr_right fun _ => by
    rw [lineFieldFails, Bool.and_eq_true, Bool.or_eq_true, Bool.or_eq_true, lineReserved_iff, beq_iff_eq,
      Bool.not_eq_true', or_assoc]

/-- START's tests 2 to 9 find the first failure (R156). -/
theorem startTests_finds : FindsFirst (ps.StartFault b anchor) testOrder (ps.startTests b anchor) := by
  have hexposed := ps.exposureCheck_finds b (fails := ps.StartFault b anchor) (blockCopies b) anchor
    (by simp only [List.forall_mem_cons]; exact ⟨rfl, rfl, rfl, nofun⟩)
  refine .cons (by decide) (ps.magicTest_finds b (blockCopies b) anchor rfl) <|
    .cons (by decide) (ps.globalTest_finds b anchor) <|
    .cons (by decide) (ps.domainField_finds b anchor) <|
    .cons (by decide) (ps.domainLevel_finds b anchor) <|
    .cons (by decide) (ps.domainOverlap_finds b anchor) <|
    .cons (by decide) (ps.lineField_finds b anchor) <|
    .cons (by decide) (ps.mapField_finds b (blockCopies b) anchor rfl) ?_
  rw [List.findSome?_singleton]
  exact hexposed

theorem StartFault.mem_testOrder {ps : Ports} {b : List Word} {anchor : Nat} {c : FaultCode} {i : Nat}
    (h : ps.StartFault b anchor c i) : c ∈ testOrder := by
  cases c with
  | none | anchorAlign => exact absurd h id
  | _ => decide

/-- START's tests pass exactly where none of them fails. -/
theorem startTests_eq_none : ps.startTests b anchor = none ↔ ∀ c i, ¬ ps.StartFault b anchor c i := by
  refine ⟨fun h c i hf => (ps.startTests_finds b anchor).passes h c (StartFault.mem_testOrder hf) i hf, fun h => ?_⟩
  cases hr : ps.startTests b anchor with
  | none => rfl
  | some f => exact absurd ((ps.startTests_finds b anchor).failure f hr) (h _ _)

/-- START's tests name a failure exactly where it is the first. -/
theorem startTests_eq_some (f : Failure) :
    ps.startTests b anchor = some f ↔ FirstFault (ps.StartFault b anchor) f := by
  refine ⟨(ps.startTests_finds b anchor).first, fun h => ?_⟩
  cases hr : ps.startTests b anchor with
  | none => exact absurd h.1 ((ps.startTests_eq_none b anchor).mp hr _ _)
  | some g =>
    have hg := (ps.startTests_finds b anchor).first hr
    rw [FirstFault.unique (fun c i => StartFault.mem_testOrder) h hg]

end Ports

/-! ### What START loads -/

theorem LoadedCopies.enabledDomain_block (b : List Word) (d : Domain) : (blockCopies b).enabledDomain d =
    if (blockDomain b d).enabled = true then some (blockDomain b d) else none := by
  rw [LoadedCopies.enabledDomain, blockCopies_domain]

theorem Engine.load_attention (e : Engine) (k : LoadedCopies) (d : Domain) : (e.load k).post.attention[d] =
    if (k.enabledDomain d).isSome then .posted else e.post.attention[d] := by
  match d with
  | 0 | 1 | 2 | 3 | 4 | 5 | 6 | 7 => rfl

theorem Engine.load_address (e : Engine) (k : LoadedCopies) (d : Domain) :
    (e.load k).post.address[d] = (k.enabledDomain d).map (·.postAddr) := by
  match d with
  | 0 | 1 | 2 | 3 | 4 | 5 | 6 | 7 => rfl

theorem Engine.domain_of_copies {e : Engine} {k : LoadedCopies} (h : e.ctl.copies = some k) (d : Domain) :
    e.domain d = k.domains[d] := by
  unfold Engine.domain
  rw [h]

theorem Engine.line_of_copies {e : Engine} {k : LoadedCopies} (h : e.ctl.copies = some k) (n : Line) :
    e.line n = k.lines[n] := by
  unfold Engine.line
  rw [h]

theorem Ports.swap_map (ps : Ports) (b : List Word) (p : Port) :
    (ps.swap b).map[p] = if ps.level[p] = 0 then ps.map[p] else some (blockMap b p) := by
  match p with
  | 0 | 1 | 2 | 3 => rfl

/-- The enabled domains are POSTED with their post words watched, and of the others no word is (R30, R31). -/
theorem Engine.load_block_post (e : Engine) (b : List Word) (d : Domain) :
    ((blockDomain b d).enabled = true → (e.load (blockCopies b)).post.attention[d] = .posted ∧
      (e.load (blockCopies b)).post.address[d] = some (blockDomain b d).postAddr) ∧
    ((blockDomain b d).enabled = false → (e.load (blockCopies b)).post.attention[d] = e.post.attention[d] ∧
      (e.load (blockCopies b)).post.address[d] = none) := by
  rw [Engine.load_attention, Engine.load_address, LoadedCopies.enabledDomain_block]
  cases (blockDomain b d).enabled
  · exact ⟨nofun, fun _ => ⟨rfl, rfl⟩⟩
  · exact ⟨fun _ => ⟨rfl, rfl⟩, nofun⟩

theorem Engine.load_same (e : Engine) (k : LoadedCopies) {p : Part} (hp : p ∉ [Part.control, .post, .table]) :
    e.same (e.load k) p := by
  cases p with
  | control | post | table => exact absurd (by simp) hp
  | mem | ports | arb | pins | queue => trivial
  | timebase => exact ⟨rfl, rfl⟩
  | _ => rfl

theorem State.SameBut.withPorts {s t : State} {ps qs : List Part} (h : s.SameBut ps t) (hports : .ports ∈ qs)
    (hsub : ps ⊆ qs) (x : Ports) : s.SameBut qs { t with ports := x } := by
  intro p hp
  have hsame := h p fun hm => hp (hsub hm)
  cases p with
  | ports => exact absurd hports hp
  | _ => exact hsame

/-! ### START_ANCHOR_READ -/

/-- The state in which a burst of START has been read. -/
def State.burstDone (s : State) (a : Nat) : State := s.unitDone ⟨.control, ⟨.startAnchorRead, .read a 32⟩⟩

/-- The last burst of START has been read, and with it the block `b`, which is judged. -/
def State.startLast (s : State) (anchor : Nat) (block b : List Word) (a : Nat) : State :=
  s.settled fun s => (s.burstDone a).startJudged ⟨.start, anchor, block⟩ b

section Last

variable {s : State} {anchor a : Nat} {block b : List Word}

theorem exec_startAnchorRead (hflight : s.eng.ctl.flight = some ⟨.start, anchor, block⟩) (hlen : block.length = 120)
    (h : s.completes .control .startAnchorRead (.read a 32)) (hb : b = block ++ bytesWords (s.mem.readBytes a 32)) :
    exec .startAnchorRead s = .next (s.startLast anchor block b a) := by
  subst hb
  have hwhole : ¬ (block ++ bytesWords (s.mem.readBytes a 32)).length < 8 * Config.anchorBursts := by
    have hwords : (bytesWords (s.mem.readBytes a 32)).length = 8 := rfl
    rw [List.length_append, hlen, hwords]
    decide
  have hread : (s.burstDone a).anchorRead ⟨.start, anchor, block⟩ (bytesWords (s.mem.readBytes a 32)) =
      (s.burstDone a).startJudged ⟨.start, anchor, block⟩ (block ++ bytesWords (s.mem.readBytes a 32)) :=
    if_neg hwhole
  have hdone : (s.unitDone ⟨.control, ⟨.startAnchorRead, .read a 32⟩⟩).eng.ctl.flight =
      some ⟨.start, anchor, block⟩ := hflight
  change execStartAnchorRead s = _
  rw [execStartAnchorRead, completeUnit_next h, State.startLast, State.settled, State.settled, ← hread]
  simp only [hdone]
  rfl

theorem State.startLast_failed {f : Failure} (hf : s.ports.startTests b anchor = some f) :
    s.startLast anchor block b a = s.afterUnit (.read a 32) (s.eng.dropUnit.setCtl (s.eng.ctl.fail f)) := by
  have hdone : (s.burstDone a).ports.startTests b anchor = some f := hf
  have hjudged : (s.burstDone a).startJudged ⟨.start, anchor, block⟩ b =
      { s.burstDone a with eng := s.eng.dropUnit.setCtl (s.eng.ctl.fail f) } := by
    rw [State.startJudged, hdone]
    rfl
  rw [State.startLast, State.settled, hjudged]
  rfl

theorem State.startLast_done (hpass : s.ports.startTests b anchor = none) : s.startLast anchor block b a =
    { s.afterUnit (.read a 32) (s.eng.dropUnit.load (blockCopies b)) with ports := s.ports.swap b } := by
  have hdone : (s.burstDone a).ports.startTests b anchor = none := hpass
  have hjudged : (s.burstDone a).startJudged ⟨.start, anchor, block⟩ b =
      { s.burstDone a with eng := s.eng.dropUnit.load (blockCopies b), ports := s.ports.swap b } := by
    rw [State.startJudged, hdone]
    rfl
  rw [State.startLast, State.settled, hjudged]
  rfl

end Last

theorem Control.fail_start {c : Control} {anchor : Nat} {block : List Word}
    (h : c.flight = some ⟨.start, anchor, block⟩) (f : Failure) : c.fail f =
      { c with state := .failed, result := .failed, faultCode := f.code, faultIndex := f.index, flight := none } := by
  rw [Control.fail, h]

/-- Settles O20: the tests made are those of `StartFault` in their order, and the load is that of the block. -/
theorem startEnds : Obligations.StartEnds := by
  intro s anchor block b a hflight hlen h hb
  have hexec := exec_startAnchorRead hflight hlen h hb
  refine ⟨fun f hf => ⟨_, hexec, ?_⟩, fun hpass => ⟨_, hexec, ?_⟩, ?_, fun d => ?_, fun n => ?_, ⟨rfl, rfl, rfl⟩,
    blockMap_words b, fun m i hi => m.right_eq hi⟩
  · rw [State.startLast_failed ((s.ports.startTests_eq_some b anchor f).mpr hf)]
    refine ⟨(Engine.settle_ctl _ _).trans (Control.fail_start hflight f),
      State.afterUnit_sameBut (by simp) (.inr rfl) fun p hp => ?_⟩
    cases p with
    | control => exact absurd (by simp) hp
    | mem | ports | arb | pins | queue => trivial
    | timebase => exact ⟨rfl, rfl⟩
    | _ => rfl
  · rw [State.startLast_done ((s.ports.startTests_eq_none b anchor).mpr hpass)]
    have hctl := Engine.settle_ctl s.eng (s.eng.dropUnit.load (blockCopies b))
    have hcopies : (s.eng.settle (s.eng.dropUnit.load (blockCopies b))).ctl.copies = some (blockCopies b) :=
      congrArg Control.copies hctl
    have hpost (d : Domain) := s.eng.dropUnit.load_block_post b d
    have hjtc : (s.afterUnit (.read a 32) (s.eng.dropUnit.load (blockCopies b))).eng.jtc =
      (s.eng.dropUnit.load (blockCopies b)).jtc := Engine.settle_jtc _ _
    rw [← Engine.settle_post s.eng] at hpost
    refine ⟨hctl, fun d => (Engine.domain_of_copies hcopies d).trans (blockCopies_domain b d),
      fun n => (Engine.line_of_copies hcopies n).trans (blockCopies_line b n), fun d => (hpost d).1,
      fun d => (hpost d).2, fun n => ?_, ?_, s.ports.swap_map b, rfl, ?_, ?_⟩
    · simp only [hjtc]
      exact ⟨Vector.getElem_replicate _, Vector.getElem_replicate _⟩
    · simp only [hjtc]; rfl
    · simp only [hjtc]; rfl
    · have hsame : s.SameBut [.arb, .control, .post, .table]
          (s.afterUnit (.read a 32) (s.eng.dropUnit.load (blockCopies b))) :=
        State.afterUnit_sameBut (by simp) (.inr rfl) fun p hp => Engine.load_same _ _ fun h => hp (by simp_all)
      exact hsame.withPorts (by simp) (by simp) _
  · cases hr : s.ports.startTests b anchor with
    | none => exact .inl ((s.ports.startTests_eq_none b anchor).mp hr)
    | some f => exact .inr ⟨f, (s.ports.startTests_eq_some b anchor f).mp hr⟩
  · exact ⟨rfl, rfl, blockDomain_homePort b d, rfl, blockDomain_notifyLine b d, rfl,
      congrArg BitVec.toNat (blockDomain_word b d 1), congrArg BitVec.toNat (blockDomain_word b d 2),
      congrArg BitVec.toNat (blockDomain_word b d 3), congrArg BitVec.toNat (blockDomain_word b d 4)⟩
  · exact ⟨rfl, blockLine_owner b n, rfl, blockLine_tap b n, blockLine_count b n⟩

end Sys2Proof.Machine
end

section
/-! SUPPORT. The order of the table and the two conditions of R123 (R44, R123 to R125): which changes of the job table
keep them. -/

namespace Sys2Proof.Machine

/-- A change of the job table that keeps intake order, and with it the two conditions of R123. -/
def JobTable.Keeps (j k : JobTable) : Prop := j.Ordered → k.Ordered ∧ (j.LineLaw → k.LineLaw)

/-- The places of the entries, in the order of the table. -/
def JobTable.places (j : JobTable) : List Nat := j.entries.map fun en => en.place

theorem JobTable.ordered_iff (j : JobTable) :
    j.Ordered ↔ j.places.Pairwise (· < ·) ∧ ∀ p ∈ j.places, p < j.nextPlace := by
  simp [JobTable.Ordered, JobTable.places, List.pairwise_map]

theorem JobTable.armedList_eq_nil (j : JobTable) (n : Line) :
    j.armedList n = [] ↔ ∀ x ∈ j.entries, x.custody = .armed → x.record.line ≠ some n := by
  simp [JobTable.armedList]

/-- A change of an entry that leaves its place and its record, and does not arm it. -/
def Entry.Tame (f : Entry → Entry) : Prop :=
  ∀ en, (f en).place = en.place ∧ (f en).record = en.record ∧ ((f en).custody = .armed → en.custody = .armed)

namespace JobTable.Keeps

variable {j k l : JobTable}

theorem refl (j : JobTable) : j.Keeps j := fun ho => ⟨ho, id⟩

theorem trans (h : j.Keeps k) (h' : k.Keeps l) : j.Keeps l := fun ho =>
  have ⟨hk, hkl⟩ := h ho
  have ⟨hl, hll⟩ := h' hk
  ⟨hl, hll ∘ hkl⟩

/-- Entries may go, and none is armed that was not: the line records being as they were, the laws are kept. -/
theorem of_armed (hp : k.places.Sublist j.places) (hn : k.nextPlace = j.nextPlace)
    (ha : ∀ x ∈ k.entries, x.custody = .armed → ∃ y ∈ j.entries, y.custody = .armed ∧ y.record.line = x.record.line)
    (hl : k.latch = j.latch) (hv : k.overrun = j.overrun) : j.Keeps k := by
  intro ho
  rw [JobTable.ordered_iff] at ho ⊢
  refine ⟨⟨ho.1.sublist hp, fun p hm => hn ▸ ho.2 p (hp.subset hm)⟩, fun hlaw n => ?_⟩
  obtain ⟨hlatched, hoverrun⟩ := hlaw n
  rw [hl, hv]
  refine ⟨fun h => (k.armedList_eq_nil n).mpr fun x hx hc => ?_, hoverrun⟩
  obtain ⟨y, hy, hyc, hline⟩ := ha x hx hc
  exact hline ▸ (j.armedList_eq_nil n).mp (hlatched h) y hy hyc

/-- Whatever the table's queues and counts become. -/
theorem of_entries (he : k.entries = j.entries) (hn : k.nextPlace = j.nextPlace) (hl : k.latch = j.latch)
    (hv : k.overrun = j.overrun) : j.Keeps k :=
  of_armed (by rw [JobTable.places, JobTable.places, he]) hn (fun x hx hc => ⟨x, he ▸ hx, hc, rfl⟩) hl hv

theorem of_eq (h : k = j) : j.Keeps k := h ▸ refl j

theorem map {f : Entry → Entry} (hf : Entry.Tame f) (he : k.entries = j.entries.map f) (hn : k.nextPlace = j.nextPlace)
    (hl : k.latch = j.latch) (hv : k.overrun = j.overrun) : j.Keeps k := by
  refine of_armed ?_ hn (fun x hx hc => ?_) hl hv
  · have hplaces : k.places = j.places := by
      rw [JobTable.places, he, List.map_map]
      exact List.map_congr_left fun en _ => (hf en).1
    rw [hplaces]
  · rw [he] at hx
    obtain ⟨y, hy, rfl⟩ := List.mem_map.mp hx
    exact ⟨y, hy, (hf y).2.2 hc, congrArg _ (hf y).2.1.symm⟩

theorem update (j : JobTable) (place : Nat) {f : Entry → Entry} (hf : Entry.Tame f) : j.Keeps (j.update place f) := by
  refine map (f := fun en => if en.place = place then f en else en) (fun en => ?_) rfl rfl rfl rfl
  dsimp only
  split
  · exact hf en
  · exact ⟨rfl, rfl, id⟩

theorem close (j : JobTable) (place : Nat) (r : JobResult) (n : Option ServiceNotify) : j.Keeps (j.close place r n) :=
  (update j place
    (f := fun en => { en with custody := .closing, result := some r, serviceNotify := n, expiryDue := false })
    fun _ => ⟨rfl, rfl, nofun⟩).trans (of_entries rfl rfl rfl rfl)

theorem closeWaiting (j : JobTable) (en : Entry) (o : JobOutcome) : j.Keeps (j.closeWaiting en o) := close j _ _ _

theorem free (j : JobTable) (place : Nat) : j.Keeps (j.free place) :=
  of_armed (List.filter_sublist.map _) rfl (fun x hx hc => ⟨x, (List.mem_filter.mp hx).1, hc, rfl⟩) rfl rfl

/-- The line records alone changed: each line is to meet the two conditions as it did. -/
theorem of_lines (he : k.entries = j.entries) (hn : k.nextPlace = j.nextPlace)
    (hlines : ∀ m : Line, ((j.latch[m] = true → j.armedList m = []) ∧ (j.overrun[m] = true → j.latch[m] = true)) →
      (k.latch[m] = true → j.armedList m = []) ∧ (k.overrun[m] = true → k.latch[m] = true)) : j.Keeps k := by
  refine fun ho => ⟨by rwa [JobTable.Ordered, he, hn], fun hlaw m => ?_⟩
  rw [JobTable.armedList, he]
  exact hlines m (hlaw m)

/-- A table without entries, its line records clear, as a reset leaves it (R43, R123). -/
theorem empty (j : JobTable) (d : Domain) : j.Keeps (JobTable.empty d) := by
  refine fun _ => ⟨⟨List.Pairwise.nil, by simp [JobTable.empty]⟩, fun _ n => ⟨fun _ => rfl, fun h => ?_⟩⟩
  simp [JobTable.empty] at h

/-- Latches and overruns cleared, as a successful START does (R123). -/
theorem clearLines (he : k.entries = j.entries) (hn : k.nextPlace = j.nextPlace)
    (hl : k.latch = Vector.replicate 8 false) (hv : k.overrun = Vector.replicate 8 false) : j.Keeps k := by
  refine of_lines he hn fun m _ => ?_
  rw [hl, hv]
  simp

/-- The new entry stands last, and is not armed (R42, R44). -/
theorem create (j : JobTable) (r : JobRecord) (d : Domain) (s : Slot) (taken : Bool) :
    j.Keeps (j.create r d s taken) := by
  intro ho
  rw [JobTable.ordered_iff] at ho ⊢
  obtain ⟨hsorted, hbelow⟩ := ho
  have hplaces : (j.create r d s taken).places = j.places ++ [j.nextPlace] := by simp [JobTable.places, Entry.fresh]
  rw [hplaces]
  refine ⟨⟨?_, fun p hp => ?_⟩, fun hlaw n => ⟨fun h => ?_, (hlaw n).2⟩⟩
  · exact List.pairwise_append.mpr ⟨hsorted, List.pairwise_singleton _ _, fun a ha b hb =>
      List.mem_singleton.mp hb ▸ hbelow a ha⟩
  · rcases List.mem_append.mp hp with hp | hp
    · exact Nat.lt_succ_of_lt (hbelow p hp)
    · exact List.mem_singleton.mp hp ▸ Nat.lt_succ_self _
  · rw [JobTable.armedList, JobTable.create_entries, List.filter_append]
    exact List.append_eq_nil_iff.mpr ⟨(hlaw n).1 h, rfl⟩

theorem foldl {α : Type} {f : Engine → α → Engine} (hf : ∀ (e : Engine) (x : α), e.jtc.Keeps (f e x).jtc)
    (xs : List α) (e : Engine) : e.jtc.Keeps (xs.foldl f e).jtc := by
  induction xs generalizing e with
  | nil => exact refl _
  | cons x xs ih => exact (hf e x).trans (ih _)

/-! ### Line records -/

/-- An entry whose job a line triggers is armed on it, or takes its latch away (R125). -/
theorem arm (place : Nat) {n : Line} (hline : ∀ x ∈ j.entries, x.place = place → x.record.line = some n) :
    j.Keeps (j.arm place n) := by
  unfold JobTable.arm
  split
  · refine (update j place (f := fun en => { en with custody := .pending, lineOverrun := j.overrun[n] })
      fun _ => ⟨rfl, rfl, nofun⟩).trans (of_lines rfl rfl fun m hlaw => ?_)
    by_cases hm : n = m
    · subst hm; simp
    · have hne : n.val ≠ m.val := fun h => hm (Fin.ext h)
      simpa [Vector.getElem_set_ne, hne] using hlaw
  · rename_i hlatch
    intro ho
    refine ⟨?_, fun hlaw m => ⟨fun h => ?_, (hlaw m).2⟩⟩
    · rw [JobTable.ordered_iff] at ho ⊢
      have hplaces : (j.update place fun en => { en with custody := .armed }).places = j.places := by
        simp only [JobTable.places, JobTable.update_entries, List.map_map]
        refine List.map_congr_left fun en _ => ?_
        simp only [Function.comp]
        split <;> rfl
      rw [hplaces]
      exact ho
    · rw [JobTable.armedList_eq_nil]
      intro x hx hc
      obtain ⟨y, hy, rfl⟩ := List.mem_map.mp hx
      by_cases hp : y.place = place
      · have hnm : n ≠ m := fun hnm => hlatch (hnm ▸ h)
        simpa [hp, hline y hy hp] using hnm
      · simp only [hp, if_false] at hc ⊢
        exact (j.armedList_eq_nil m).mp ((hlaw m).1 h) y hy hc

theorem taken (j : JobTable) (draining : Bool) (place : Nat) : j.Keeps (j.taken draining place) := by
  intro ho
  unfold JobTable.taken
  split
  · exact refl j ho
  · rename_i en hfind
    refine (update j place (f := fun x => { x with takenOutstanding := false }) fun _ => ⟨rfl, rfl, id⟩).trans ?_ ho
    dsimp only
    split
    · exact refl _
    · split
      · exact closeWaiting _ _ _
      · split
        · exact update _ place fun _ => ⟨rfl, rfl, nofun⟩
        · rename_i n hn
          refine arm place fun x hx hp => ?_
          obtain ⟨y, hy, rfl⟩ := List.mem_map.mp hx
          have hyp : y.place = place := by by_cases h : y.place = place <;> simp_all
          have hye : y = en := ho.unique hy (List.mem_of_find?_eq_some hfind)
            (hyp.trans (JobTable.find_place hfind).symm)
          simp [hye, JobTable.find_place hfind, hn]

/-- LATCH is set where the armed list is empty alone, and OVERRUN where LATCH is set (R124). -/
theorem lineEvent (j : JobTable) (draining : Bool) (n : Line) : j.Keeps (j.lineEvent draining n) := by
  unfold JobTable.lineEvent
  split
  · split
    · exact closeWaiting _ _ _
    · exact update j _ fun _ => ⟨rfl, rfl, nofun⟩
  · rename_i hnil
    split
    · rename_i hlatch
      refine of_lines rfl rfl fun m hlaw => ⟨hlaw.1, fun h => ?_⟩
      by_cases hm : n = m
      · exact hm ▸ hlatch
      · have hne : n.val ≠ m.val := fun h => hm (Fin.ext h)
        exact hlaw.2 (by simpa [Vector.getElem_set_ne, hne] using h)
    · refine of_lines rfl rfl fun m hlaw => ?_
      by_cases hm : n = m
      · subst hm
        exact ⟨fun _ => hnil, fun _ => by simp⟩
      · have hne : n.val ≠ m.val := fun h => hm (Fin.ext h)
        simpa [Vector.getElem_set_ne, hne] using hlaw

theorem contextParked (j : JobTable) (draining : Bool) (place n : Nat) :
    j.Keeps (j.contextParked draining place n) := by
  unfold JobTable.contextParked
  split
  · exact refl j
  · refine (update j place (f := fun x => x.contextParkedAt n) fun _ => ⟨rfl, rfl, id⟩).trans ?_
    dsimp only
    split
    · exact closeWaiting _ _ _
    · split
      · exact closeWaiting _ _ _
      · exact update _ place fun _ => ⟨rfl, rfl, nofun⟩

theorem handedOff (j : JobTable) (place : Nat) (r : JobResult) (n : Option ServiceNotify) :
    j.Keeps (j.handedOff place r n) := by
  unfold JobTable.handedOff
  split
  · exact refl j
  · split
    · exact close j place r n
    · exact refl j

end JobTable.Keeps

/-- The work of one channel changes start orders alone. -/
theorem Engine.Works.keeps {c : ChannelId} {e f : Engine} (h : Engine.Works c e f) : e.jtc.Keeps f.jtc := by
  have hplaces : f.jtc.places = e.jtc.places := by
    have hmap := congrArg (List.map Entry.place) h.entries
    simpa [JobTable.places, Entry.unstarted, Function.comp_def] using hmap
  refine .of_armed (by rw [hplaces]) h.nextPlace (fun x hx hc => ?_) h.latch h.overrun
  obtain ⟨y, hy, hxy⟩ := List.mem_map.mp (h.entries ▸ List.mem_map_of_mem (f := Entry.unstarted) hx)
  have hrecord : y.unstarted.record = x.unstarted.record := by rw [hxy]
  have hcustody : y.unstarted.custody = x.unstarted.custody := by rw [hxy]
  change y.record = x.record at hrecord
  exact ⟨y, hy, hcustody.trans hc, by rw [hrecord]⟩

end Sys2Proof.Machine
end

section
/-! SUPPORT. Every step keeps the order of the table and the two conditions of R123: each shared operation first, then
each command. -/

namespace Sys2Proof.Machine

/-! ### Operations of the engine -/

namespace Engine

theorem requestStop_keeps (e : Engine) (en : Entry) (r : StopReason) : e.jtc.Keeps (e.requestStop en r).jtc := by
  unfold Engine.requestStop
  split
  · exact .refl _
  · refine (JobTable.Keeps.update e.jtc en.place (f := fun x => { x with stopReason := some r })
      fun _ => ⟨rfl, rfl, id⟩).trans (.of_eq ?_)
    dsimp only
    split
    · exact sendDrop_jtc _ _ _
    · exact sendStop_jtc _ _ _

theorem drainEntry_keeps (e : Engine) (en : Entry) : e.jtc.Keeps (e.drainEntry en).jtc := by
  unfold Engine.drainEntry
  cases en.custody with
  | pending | armed => exact .closeWaiting _ _ _
  | active | shadowed => exact e.requestStop_keeps en _
  | created | closing => exact .refl _

theorem expire_keeps (e : Engine) (en : Entry) : e.jtc.Keeps (e.expire en).jtc := by
  have hdue := JobTable.Keeps.update e.jtc en.place (f := fun x => { x with expiryDue := false })
    fun _ => ⟨rfl, rfl, id⟩
  unfold Engine.expire
  cases en.custody with
  | closing => exact hdue
  | active | shadowed => exact hdue.trans (Engine.requestStop_keeps (e.setJtc _) en _)
  | created | pending | armed => exact hdue.trans (.closeWaiting _ _ _)

theorem deliverCancel_keeps (e : Engine) (d : Domain) (k : Slot) : e.jtc.Keeps (e.deliverCancel d k).1.jtc := by
  unfold Engine.deliverCancel
  split
  · exact .refl _
  · rename_i en _
    cases en.custody with
    | closing => exact .refl _
    | active | shadowed => exact e.requestStop_keeps en _
    | created | pending | armed => exact .closeWaiting _ _ _

theorem dispatchTo_keeps (e : Engine) (c : ChannelId) (en : Entry) : e.jtc.Keeps (e.dispatchTo c en).jtc := by
  unfold Engine.dispatchTo
  rw [beginJob_jtc]
  exact (JobTable.Keeps.update e.jtc en.place
    (f := fun x => { x with custody := .active, channel := some c, resumeFromContext := false })
    fun _ => ⟨rfl, rfl, nofun⟩).trans
    (.update _ en.place (f := fun x => { x with startOrder := e.disp.nextStart }) fun _ => ⟨rfl, rfl, id⟩)

theorem takeDispatch_keeps (e : Engine) (c : ChannelId) : e.jtc.Keeps (e.takeDispatch c).jtc := by
  unfold Engine.takeDispatch
  split
  · split
    · exact dispatchTo_keeps _ _ _
    · exact .refl _
  · exact .refl _

theorem answerConditional_keeps (e : Engine) (c : ChannelId) (prio : BitVec 3) :
    e.jtc.Keeps (e.answerConditional c prio).jtc := by
  unfold Engine.answerConditional
  split
  · split
    · split
      · exact dispatchTo_keeps _ _ _
      · exact (Engine.Works.resumeShadow c e).keeps
    · exact (Engine.Works.resumeShadow c e).keeps
  · exact .refl _

theorem shadowParked_keeps (e : Engine) (c : ChannelId) (place : Nat) : e.jtc.Keeps (e.shadowParked c place).jtc := by
  unfold Engine.shadowParked
  split
  · exact .refl _
  · refine (JobTable.Keeps.update e.jtc place (f := fun x => x.shadowedOn c) fun _ => ⟨rfl, rfl, nofun⟩).trans ?_
    dsimp only
    split
    · exact .of_eq (sendDrop_jtc _ _ _)
    · split
      · exact requestStop_keeps (e.setJtc _) _ _
      · exact .refl _

/-- Taking a report does to the table what the report's own meaning does. -/
theorem takeReport_keeps {f : Report → Option (Engine → Engine)}
    (hf : ∀ r (e : Engine), e.jtc.Keeps ((f r).getD id e).jtc) (e : Engine) (c : ChannelId) :
    e.jtc.Keeps (e.takeReport c f).jtc := by
  unfold Engine.takeReport
  split
  · exact .refl _
  · rename_i r rest _
    have hr := hf r (e.setChan c { e.chan c with reports := rest })
    split
    · exact .refl _
    · rename_i g hg
      rwa [hg] at hr

theorem sampleLine_keeps (e : Engine) (rq : BitVec 8) (n : Line) : e.jtc.Keeps (e.sampleLine rq n).jtc := by
  unfold Engine.sampleLine
  dsimp only
  split
  · dsimp only
    split <;> exact .of_entries rfl rfl rfl rfl
  · exact .refl _

theorem deadlineTicks_keeps (e : Engine) : e.jtc.Keeps e.deadlineTicks.jtc := by
  refine .map (f := Entry.deadlineTick e.count) (fun en => ?_) rfl rfl rfl rfl
  unfold Entry.deadlineTick
  split
  · exact ⟨rfl, rfl, id⟩
  · exact ⟨rfl, rfl, id⟩

theorem advanceTimebase_keeps (e : Engine) (rq : BitVec 8) : e.jtc.Keeps (e.advanceTimebase rq).jtc := by
  unfold Engine.advanceTimebase
  have hdue : e.jtc.Keeps e.takeDue.jtc := .foldl expire_keeps _ e
  have hsample := JobTable.Keeps.foldl (fun e n => sampleLine_keeps e rq n) lineList
    { e.takeDue with count := e.count + 1 }
  exact ((hdue.trans hsample).trans (deadlineTicks_keeps _)).trans
    (.foldl (fun e c => (Engine.Works.paceTick c e).keeps) channelList _)

theorem closeOut_keeps (e : Engine) (en : Entry) : e.jtc.Keeps (e.closeOut en).jtc := by
  unfold Engine.closeOut
  rw [Engine.setJtc_jtc, serviceNotify_jtc]
  exact .free _ _

theorem commandStop_keeps (e : Engine) : e.jtc.Keeps e.commandStop.jtc := by
  unfold Engine.commandStop
  split
  · exact JobTable.Keeps.foldl drainEntry_keeps e.jtc.entries
      (e.setCtl { e.ctl with state := .draining, result := .done, command := 2 })
  · exact .refl _

end Engine

/-! ### Operations of the whole part -/

namespace State

theorem takeCommand_keeps (s : State) (code : BitVec 3) : s.eng.jtc.Keeps (s.takeCommand code).eng.jtc := by
  unfold State.takeCommand
  split
  · exact .of_eq s.eng.commandStart_jtc
  · split
    · exact s.eng.commandStop_keeps
    · split
      · exact .of_eq s.eng.commandMapReload_jtc
      · split
        · exact .empty _ _
        · split
          · unfold State.clearViolation
            dsimp only
            split <;> exact .refl _
          · exact .refl _

theorem registerWrite_keeps (s : State) (p : Port) (r : RegName) (en : BitVec 4) (v : Word) :
    s.eng.jtc.Keeps (s.registerWrite p r en v).eng.jtc := by
  unfold State.registerWrite
  split
  · cases r with
    | control => exact s.takeCommand_keeps _
    | note | anchor | status | violation => exact .refl _
  · exact .refl _

theorem serveAccess_keeps (s : State) (p : Port) (a : PortAccess) : s.eng.jtc.Keeps (s.serveAccess p a).eng.jtc := by
  change s.eng.jtc.Keeps (s.decideAccess p a).eng.jtc
  unfold State.decideAccess
  split
  · split
    · unfold State.sramServed
      split
      · exact .of_eq (s.eng.watch_jtc _ _)
      · exact .refl _
    · rw [refuseAccess_eng]; exact .refl _
  · unfold State.registerAccess
    split
    · exact s.registerWrite_keeps _ _ _ _
    · exact .refl _
  · rw [refuseAccess_eng]; exact .refl _

theorem grant_keeps (s : State) (r : Requester) : s.eng.jtc.Keeps (s.grant r).eng.jtc := by
  unfold State.grant
  split
  · exact .refl _
  · split
    · exact .refl _
    · exact State.serveAccess_keeps { s with arb := s.arb.grantPort _ _ } _ _

theorem serveNow_keeps (s : State) (p : Port) (a : PortAccess) : s.eng.jtc.Keeps (s.serveNow p a).eng.jtc := by
  unfold State.serveNow
  split
  · exact State.serveAccess_keeps { s with arb := s.arb.sequenceAccess p a } p a
  · split
    · exact s.grant_keeps _
    · exact .refl _

theorem registerRow_keeps (s : State) (p : Port) (r : RegName) (en : BitVec 4) (v : Word) :
    s.eng.jtc.Keeps (s.registerRow p r en v).eng.jtc := by
  rw [State.registerRow, State.settled_eng, Engine.settle_jtc]
  split
  · exact .refl _
  · have h := (s.present p (registerWriteAccess r en v)).serveNow_keeps p (registerWriteAccess r en v)
    rwa [present_eng] at h

/-- A START that is accepted clears the line records (R123). -/
theorem anchorRead_keeps (s : State) (fl : Flight) (ws : List Word) :
    s.eng.jtc.Keeps (s.anchorRead fl ws).eng.jtc := by
  unfold State.anchorRead
  dsimp only
  split
  · exact .of_eq (Engine.askAnchor_jtc _ _)
  · split
    · unfold State.startJudged
      split
      · exact .refl _
      · exact .clearLines rfl rfl rfl rfl
    · unfold State.reloadJudged
      split <;> exact .refl _

theorem partReset_keeps (s : State) (cause : ResetCause) : s.eng.jtc.Keeps (s.partReset cause).eng.jtc :=
  .empty _ _

end State

/-! ### The intake pass -/

theorem JobTable.Keeps.inPass {j k : JobTable} (h : j.Keeps k) (p : Pass) (t : PassStep) : j.Keeps (k.inPass p t) :=
  h.trans (.of_entries rfl rfl rfl rfl)

namespace Engine

theorem readSlots_keeps (e : Engine) (p : Pass) (n : Nat) (ds : List Decision) (ks : List Slot) :
    e.jtc.Keeps (e.readSlots p n ds ks).jtc := by
  rw [readSlots_jtc]
  exact (JobTable.Keeps.refl _).inPass _ _

theorem endPass_keeps (e : Engine) (p : Pass) : e.jtc.Keeps (e.endPass p).jtc := by
  unfold Engine.endPass
  dsimp only
  split <;> exact .of_entries rfl rfl rfl rfl

/-- A decision creates an entry, closes one, or asks its channel to stop (R37, R40). -/
theorem carryOn_keeps (p : Pass) (ds : List Decision) (e : Engine) : e.jtc.Keeps (e.carryOn p ds).jtc := by
  induction ds generalizing e with
  | nil => exact e.endPass_keeps p
  | cons x rest ih =>
    obtain ⟨k, v⟩ := x
    have hreport (x : ReportKind) : e.jtc.Keeps (e.writeReport p x k rest).jtc := by
      rw [writeReport_jtc]
      exact (JobTable.Keeps.refl _).inPass _ _
    cases v with
    | busyPost => rw [carryOn_busyPost]; exact hreport _
    | badPost => rw [carryOn_badPost]; exact hreport _
    | cancel =>
      rw [carryOn_cancel]
      split
      · exact hreport _
      · exact (e.deliverCancel_keeps p.domain k).trans (ih _)
    | take r =>
      cases hout : e.intakeOutcome p.domain r with
      | some out =>
        rw [carryOn_take_closed hout]
        have hclosed := (JobTable.Keeps.create e.jtc r p.domain k false).trans (.close _ e.jtc.nextPlace out none)
        exact hclosed.trans (ih (e.setJtc _))
      | none =>
        rw [carryOn_take hout, writeTaken_jtc]
        exact (JobTable.Keeps.create e.jtc r p.domain k true).inPass _ _

end Engine

/-! ### Commands -/

theorem onEngine_keeps {s t : State} {f : Engine → Engine}
    (h : Host.Outcome.next (s.onEngine f) = (.next t : Host.Outcome State Fault Refusal))
    (hf : ∀ e : Engine, e.jtc.Keeps (f e).jtc) : s.eng.jtc.Keeps t.eng.jtc := by
  obtain rfl := Host.Outcome.next.inj h
  rw [State.onEngine_eng, Engine.settle_jtc]
  exact hf s.eng

theorem settled_keeps {s t : State} {f : State → State}
    (h : Host.Outcome.next (s.settled f) = (.next t : Host.Outcome State Fault Refusal))
    (hf : s.eng.jtc.Keeps (f s).eng.jtc) : s.eng.jtc.Keeps t.eng.jtc := by
  obtain rfl := Host.Outcome.next.inj h
  rwa [State.settled_eng, Engine.settle_jtc]

theorem registerRow_keeps {s t : State} {p : Port} {r : RegName} {en : BitVec 4} {v : Word}
    (h : Host.Outcome.next (s.registerRow p r en v) = (.next t : Host.Outcome State Fault Refusal)) :
    s.eng.jtc.Keeps t.eng.jtc := by
  obtain rfl := Host.Outcome.next.inj h
  exact s.registerRow_keeps p r en v

theorem completeUnit_keeps {s t : State} {x : EngineStep} {k : Owner → List Byte → State → State}
    (h : completeUnit x k s = .next t) (hk : ∀ o data (s : State), s.eng.jtc.Keeps (k o data s).eng.jtc) :
    s.eng.jtc.Keeps t.eng.jtc := by
  unfold completeUnit at h
  split at h
  · obtain rfl := Host.Outcome.next.inj h
    exact .refl _
  · split at h
    · obtain rfl := Host.Outcome.next.inj h
      rw [State.settled_eng, Engine.settle_jtc]
      exact hk _ _ (s.unitDone _)
    · simp at h

theorem completeEngine_keeps {s t : State} {x : EngineStep} {k : Owner → List Byte → Engine → Engine}
    (h : completeEngine x k s = .next t) (hk : ∀ o data (e : Engine), e.jtc.Keeps (k o data e).jtc) :
    s.eng.jtc.Keeps t.eng.jtc :=
  completeUnit_keeps h fun o data s => hk o data s.eng

/-- A command that takes a report. -/
theorem report_keeps {s t : State} {c : ChannelId} {f : Report → Option (Engine → Engine)}
    (h : Host.Outcome.next (s.onEngine fun e => e.takeReport c f) = (.next t : Host.Outcome State Fault Refusal))
    (hf : ∀ r (e : Engine), e.jtc.Keeps ((f r).getD id e).jtc) : s.eng.jtc.Keeps t.eng.jtc :=
  onEngine_keeps h fun e => (Engine.takeReport_keeps hf e c)

end Sys2Proof.Machine
end

section
/-! SUPPORT. Every command keeps the order of the table and the two conditions of R123. -/

namespace Sys2Proof.Machine

/-! ### The intake pass -/

theorem execIntakePass_keeps {s t : State} (h : execIntakePass s = .next t) : s.eng.jtc.Keeps t.eng.jtc := by
  refine onEngine_keeps h (fun e => ?_)
  split
  · split
    · exact .refl _
    · exact .of_entries rfl rfl rfl rfl
  · exact .refl _

theorem execPostWordRead_keeps {s t : State} (h : execPostWordRead s = .next t) : s.eng.jtc.Keeps t.eng.jtc := by
  refine completeEngine_keeps h (fun _ data e => ?_)
  split
  · split
    · exact e.readSlots_keeps _ _ _ _
    · exact .refl _
  · exact .refl _

theorem Engine.slotClassified_keeps (e : Engine) (p : Pass) (k : Slot) (r : JobRecord) (rest : List Slot) (n : Nat)
    (ds : List Decision) : e.jtc.Keeps (e.slotClassified p k r rest n ds).jtc := by
  unfold Engine.slotClassified
  split <;> exact e.readSlots_keeps _ _ _ _

theorem execSlotRead_keeps {s t : State} (h : execSlotRead s = .next t) : s.eng.jtc.Keeps t.eng.jtc := by
  refine completeEngine_keeps h (fun _ data e => ?_)
  split
  · exact .refl _
  · split
    · exact .of_entries rfl rfl rfl rfl
    · exact e.slotClassified_keeps _ _ _ _ _ _
    · exact .refl _

theorem execClearingPair_keeps {s t : State} (h : execClearingPair s = .next t) : s.eng.jtc.Keeps t.eng.jtc := by
  refine completeEngine_keeps h (fun _ data e => ?_)
  split
  · exact .refl _
  · split
    · exact e.carryOn_keeps _ _
    · exact .refl _

theorem execReportWrite_keeps {s t : State} (h : execReportWrite s = .next t) : s.eng.jtc.Keeps t.eng.jtc := by
  refine completeEngine_keeps h (fun _ data e => ?_)
  split
  · exact .refl _
  · split
    · exact e.carryOn_keeps _ _
    · exact .refl _

theorem execTakenWrite_keeps {s t : State} (h : execTakenWrite s = .next t) : s.eng.jtc.Keeps t.eng.jtc := by
  refine completeEngine_keeps h (fun _ data e => ?_)
  split
  · exact .refl _
  · split
    · exact (JobTable.Keeps.taken e.jtc e.isDraining _).trans (Engine.carryOn_keeps _ _ (e.setJtc _))
    · exact .refl _

/-! ### Dispatch and reports -/

theorem execDispatch_keeps {s t : State} (h : execDispatch s = .next t) : s.eng.jtc.Keeps t.eng.jtc := by
  refine onEngine_keeps h (fun e => ?_)
  split
  · exact .refl _
  · exact Engine.takeDispatch_keeps { e with disp := { e.disp with sent := none } } _

theorem execConditionalDispatch_keeps {s t : State} {c : ChannelId} (h : execConditionalDispatch c s = .next t) :
    s.eng.jtc.Keeps t.eng.jtc := by
  refine report_keeps h (fun r e => ?_)
  cases r with
  | conditional => exact e.answerConditional_keeps c _
  | _ => exact .refl _

theorem execContextClaimReport_keeps {s t : State} {c : ChannelId} (h : execContextClaimReport c s = .next t) :
    s.eng.jtc.Keeps t.eng.jtc := by
  refine report_keeps h (fun r e => ?_)
  cases r with
  | contextClaim => exact JobTable.Keeps.update e.jtc _ fun _ => ⟨rfl, rfl, id⟩
  | _ => exact .refl _

theorem execParkShadowReport_keeps {s t : State} {c : ChannelId} (h : execParkShadowReport c s = .next t) :
    s.eng.jtc.Keeps t.eng.jtc := by
  refine report_keeps h (fun r e => ?_)
  cases r with
  | parkShadow => exact e.shadowParked_keeps c _
  | _ => exact .refl _

theorem execParkContextReport_keeps {s t : State} {c : ChannelId} (h : execParkContextReport c s = .next t) :
    s.eng.jtc.Keeps t.eng.jtc := by
  refine report_keeps h (fun r e => ?_)
  cases r with
  | parkContext => exact JobTable.Keeps.contextParked e.jtc _ _ _
  | _ => exact .refl _

theorem execResumeShadowReport_keeps {s t : State} {c : ChannelId} (h : execResumeShadowReport c s = .next t) :
    s.eng.jtc.Keeps t.eng.jtc := by
  refine report_keeps h (fun r e => ?_)
  cases r with
  | resumeShadow => exact JobTable.Keeps.update e.jtc _ fun _ => ⟨rfl, rfl, nofun⟩
  | _ => exact .refl _

theorem execHandoff_keeps {s t : State} {c : ChannelId} (h : execHandoff c s = .next t) :
    s.eng.jtc.Keeps t.eng.jtc := by
  refine report_keeps h (fun r e => ?_)
  cases r with
  | handoff => exact JobTable.Keeps.handedOff e.jtc _ _ _
  | _ => exact .refl _

/-! ### Lines, Timebase and deadlines -/

theorem execLineEvent_keeps {s t : State} {n : Line} (h : execLineEvent n s = .next t) :
    s.eng.jtc.Keeps t.eng.jtc := by
  refine onEngine_keeps h (fun e => ?_)
  split
  · refine JobTable.Keeps.trans ?_ (.lineEvent _ _ n)
    exact .of_entries rfl rfl rfl rfl
  · exact .refl _

theorem execTapTick_keeps {s t : State} {rq : BitVec 8} (h : execTapTick rq s = .next t) :
    s.eng.jtc.Keeps t.eng.jtc := by
  refine onEngine_keeps (s := { s with rq := rq }) h (fun e => ?_)
  split
  · exact e.advanceTimebase_keeps rq
  · exact .refl _

theorem execDeadlineExpiry_keeps {s t : State} (h : execDeadlineExpiry s = .next t) :
    s.eng.jtc.Keeps t.eng.jtc := by
  refine onEngine_keeps h (fun e => ?_)
  split
  · exact .refl _
  · exact e.expire_keeps _

/-! ### Closing -/

/-- A closing's command goes on with the entry of the closing in flight. -/
theorem closing_keeps {s t : State} {x : EngineStep} {k : List Byte → Engine → Entry → Engine}
    (h : completeEngine x (fun _ data e => match e.closingEntry with | none => e | some en => k data e en) s = .next t)
    (hk : ∀ data (e : Engine) en, e.jtc.Keeps (k data e en).jtc) : s.eng.jtc.Keeps t.eng.jtc := by
  refine completeEngine_keeps h (fun o data e => ?_)
  split
  · exact .refl _
  · exact hk data e _

theorem execClosingBegin_keeps {s t : State} (h : execClosingBegin s = .next t) : s.eng.jtc.Keeps t.eng.jtc := by
  refine onEngine_keeps h (fun e => ?_)
  split
  · exact .refl _
  · exact .of_entries rfl rfl rfl rfl

theorem Engine.writeDone_keeps (e : Engine) (en : Entry) : e.jtc.Keeps (e.writeDone en).jtc :=
  .of_entries rfl rfl rfl rfl

theorem execResultWrite_keeps {s t : State} (h : execResultWrite s = .next t) : s.eng.jtc.Keeps t.eng.jtc := by
  refine closing_keeps h (fun data e en => ?_)
  split
  · exact .of_entries rfl rfl rfl rfl
  · exact e.writeDone_keeps _

theorem Engine.contextReleased_keeps (e : Engine) (en : Entry) (w : Word) :
    e.jtc.Keeps (e.contextReleased en w).jtc := by
  unfold Engine.contextReleased
  split
  · exact .refl _
  · split <;> exact .of_entries rfl rfl rfl rfl

theorem execDoneWrite_keeps {s t : State} (h : execDoneWrite s = .next t) : s.eng.jtc.Keeps t.eng.jtc := by
  refine closing_keeps h (fun data e en => ?_)
  split
  · exact .of_entries rfl rfl rfl rfl
  · exact e.closeOut_keeps _

theorem execContextRelease_keeps {s t : State} (h : execContextRelease s = .next t) : s.eng.jtc.Keeps t.eng.jtc :=
  closing_keeps h fun _ e en => e.contextReleased_keeps en _

theorem execReleaseMarkWrite_keeps {s t : State} (h : execReleaseMarkWrite s = .next t) : s.eng.jtc.Keeps t.eng.jtc :=
  closing_keeps h fun _ e en => e.writeDone_keeps en

theorem execContextLostRewrite_keeps {s t : State} (h : execContextLostRewrite s = .next t) :
    s.eng.jtc.Keeps t.eng.jtc :=
  closing_keeps h fun _ e en => e.writeDone_keeps en

theorem execChainPosting_keeps {s t : State} (h : execChainPosting s = .next t) : s.eng.jtc.Keeps t.eng.jtc :=
  closing_keeps h fun _ e en => Engine.closeOut_keeps (e.setAttention _ _) en

/-! ### Engine Control, pins, ports and arbiter -/

theorem execUnnamedCommandCode_keeps {s t : State} {p : Port} {code : BitVec 3}
    (h : execUnnamedCommandCode p code s = .next t) : s.eng.jtc.Keeps t.eng.jtc := by
  unfold execUnnamedCommandCode at h
  split at h
  · exact registerRow_keeps h
  · obtain rfl := Host.Outcome.next.inj h
    exact .refl _

theorem execRegisterDenied_keeps {s t : State} {p : Port} {r : RegName} {en : BitVec 4}
    (h : execRegisterDenied p r en s = .next t) : s.eng.jtc.Keeps t.eng.jtc := by
  unfold execRegisterDenied at h
  split at h
  · exact registerRow_keeps h
  · obtain rfl := Host.Outcome.next.inj h
    exact .refl _

theorem anchorRead_keeps {s t : State} {x : EngineStep}
    (h : completeUnit x (fun _ data s =>
      match s.eng.ctl.flight with
      | none => s
      | some fl => s.anchorRead fl (bytesWords data)) s = .next t) : s.eng.jtc.Keeps t.eng.jtc := by
  refine completeUnit_keeps h (fun o data s => ?_)
  split
  · exact .refl _
  · exact s.anchorRead_keeps _ _

theorem execDrainComplete_keeps {s t : State} (h : execDrainComplete s = .next t) : s.eng.jtc.Keeps t.eng.jtc := by
  refine onEngine_keeps h (fun e => ?_)
  split <;> exact .refl _

theorem execResetRelease_keeps {s t : State} {l0 l1 l2 l3 : Level} (h : execResetRelease l0 l1 l2 l3 s = .next t) :
    s.eng.jtc.Keeps t.eng.jtc := by
  refine settled_keeps h ?_
  split <;> exact .refl _

theorem execPowerOnReset_keeps {s t : State} {cells : List Host.Cell} (h : execPowerOnReset cells s = .next t) :
    s.eng.jtc.Keeps t.eng.jtc :=
  settled_keeps h (s.partReset_keeps .powerOn)

theorem execFrzDeassert_keeps {s t : State} (h : execFrzDeassert s = .next t) : s.eng.jtc.Keeps t.eng.jtc :=
  onEngine_keeps h fun e =>
    JobTable.Keeps.foldl (fun e c => (Engine.Works.thaw c e).keeps) channelList (e.setCtl { e.ctl with frz := false })

theorem execPortAccess_keeps {s t : State} {p : Port} {a : PortAccess} (h : execPortAccess p a s = .next t) :
    s.eng.jtc.Keeps t.eng.jtc := by
  refine settled_keeps h ?_
  split
  · exact .refl _
  · rw [State.present_eng]
    exact .refl _

theorem execArbiterGrant_keeps {s t : State} (h : execArbiterGrant s = .next t) : s.eng.jtc.Keeps t.eng.jtc := by
  refine settled_keeps h ?_
  split
  · exact .refl _
  · exact s.grant_keeps _

theorem execLockedSequenceAccess_keeps {s t : State} (h : execLockedSequenceAccess s = .next t) :
    s.eng.jtc.Keeps t.eng.jtc := by
  refine settled_keeps h ?_
  split
  · exact .refl _
  · exact State.serveAccess_keeps { s with arb := s.arb.sequenceAccess _ _ } _ _

theorem execLockRelease_keeps {s t : State} {p : Port} (h : execLockRelease p s = .next t) :
    s.eng.jtc.Keeps t.eng.jtc := by
  refine settled_keeps h ?_
  split <;> exact .refl _

/-! ### Commands of the channels -/

/-- A command that is the work of one channel on a completed unit. -/
theorem completeChannel_keeps {s t : State} {x : EngineStep} {k : ChannelId → List Byte → Engine → Engine}
    (h : completeChannel x k s = .next t) (hk : ∀ c data e, Engine.Works c e (k c data e)) :
    s.eng.jtc.Keeps t.eng.jtc := by
  refine completeEngine_keeps h (fun o data e => ?_)
  split
  · exact (hk _ data e).keeps
  · exact .refl _

/-- A command that is the work of one channel. -/
theorem channelWork_keeps {s t : State} {f : Engine → Engine} {c : ChannelId}
    (h : Host.Outcome.next (s.onEngine f) = (.next t : Host.Outcome State Fault Refusal))
    (hf : ∀ e : Engine, Engine.Works c e (f e)) : s.eng.jtc.Keeps t.eng.jtc :=
  onEngine_keeps h fun e => (hf e).keeps

theorem execRunningWrite_keeps {s t : State} (h : execRunningWrite s = .next t) :
    s.eng.jtc.Keeps t.eng.jtc := by
  refine completeChannel_keeps h (fun c data e => ?_)
  split
  · exact .refl c e
  · exact .checkNext c e _

theorem execDescriptorReading_keeps {s t : State} (h : execDescriptorReading s = .next t) :
    s.eng.jtc.Keeps t.eng.jtc := by
  refine completeChannel_keeps h (fun c data e => ?_)
  split
  · exact .checkReading c e _ _ _
  · exact .refl c e

theorem execParameterCopy_keeps {s t : State} (h : execParameterCopy s = .next t) :
    s.eng.jtc.Keeps t.eng.jtc := by
  refine completeChannel_keeps h (fun c data e => ?_)
  split
  · exact .paramMarked c e
  · exact .paramWritten c e _
  · exact .refl c e

theorem execUsedMark_keeps {s t : State} (h : execUsedMark s = .next t) : s.eng.jtc.Keeps t.eng.jtc := by
  refine completeChannel_keeps h (fun c data e => ?_)
  split
  · exact .markUsed c e _
  · exact .refl c e

theorem execBurstRead_keeps {s t : State} (h : execBurstRead s = .next t) : s.eng.jtc.Keeps t.eng.jtc := by
  refine completeChannel_keeps h (fun c data e => ?_)
  split
  · exact .burstHasRead c e _ _
  · exact .refl c e

theorem execWrittenMark_keeps {s t : State} (h : execWrittenMark s = .next t) : s.eng.jtc.Keeps t.eng.jtc := by
  refine completeChannel_keeps h (fun c data e => ?_)
  split
  · exact (Engine.Works.setChan c e _).trans (.askFrom c _ _ _)
  · exact .refl c e

theorem execBurstWrite_keeps {s t : State} (h : execBurstWrite s = .next t) : s.eng.jtc.Keeps t.eng.jtc := by
  refine completeChannel_keeps h (fun c data e => ?_)
  split
  · exact .burstDone c e _ _
  · exact .refl c e

theorem execServiceRecordReading_keeps {s t : State} (h : execServiceRecordReading s = .next t) :
    s.eng.jtc.Keeps t.eng.jtc :=
  completeChannel_keeps h fun c _ e => .checkService c e _

theorem execContextClaim_keeps {s t : State} (h : execContextClaim s = .next t) :
    s.eng.jtc.Keeps t.eng.jtc :=
  completeChannel_keeps h fun c _ e => .claimRead c e _

theorem execClaimMarkWrite_keeps {s t : State} (h : execClaimMarkWrite s = .next t) :
    s.eng.jtc.Keeps t.eng.jtc :=
  completeChannel_keeps h fun c _ e => .claimMarked c e

theorem execSaveAreaWrite_keeps {s t : State} (h : execSaveAreaWrite s = .next t) :
    s.eng.jtc.Keeps t.eng.jtc :=
  completeChannel_keeps h fun c _ e => .contextParked c e

theorem execSaveAreaRead_keeps {s t : State} (h : execSaveAreaRead s = .next t) :
    s.eng.jtc.Keeps t.eng.jtc :=
  completeChannel_keeps h fun c _ e => .checkSaveArea c e _

theorem execContextDescriptorRead_keeps {s t : State} (h : execContextDescriptorRead s = .next t) :
    s.eng.jtc.Keeps t.eng.jtc :=
  completeChannel_keeps h fun c _ e => .checkContext c e _

theorem execStopRequest_keeps {s t : State} {c : ChannelId} (h : execStopRequest c s = .next t) :
    s.eng.jtc.Keeps t.eng.jtc := by
  refine channelWork_keeps (c := c) h (fun e => ?_)
  dsimp only
  split
  · exact .refl c e
  · split
    · exact (Engine.Works.setChan c e _).trans (.stopArrives c _ _)
    · exact .setChan c e _

theorem execYieldRequest_keeps {s t : State} {c : ChannelId} (h : execYieldRequest c s = .next t) :
    s.eng.jtc.Keeps t.eng.jtc := by
  refine channelWork_keeps (c := c) h (fun e => ?_)
  dsimp only
  split
  · split
    · exact (Engine.Works.setChan c e _).trans (.yieldArrives c _)
    · exact (Engine.Works.setChan c e _).trans (.clearYield c _ _ _)
  · exact .refl c e

theorem execYieldWithdrawal_keeps {s t : State} {c : ChannelId} (h : execYieldWithdrawal c s = .next t) :
    s.eng.jtc.Keeps t.eng.jtc := by
  refine channelWork_keeps (c := c) h (fun e => ?_)
  dsimp only
  split
  · exact .setChan c e _
  · exact .refl c e

theorem execDropRequest_keeps {s t : State} {c : ChannelId} (h : execDropRequest c s = .next t) :
    s.eng.jtc.Keeps t.eng.jtc := by
  refine channelWork_keeps (c := c) h (fun e => ?_)
  dsimp only
  split
  · exact .refl c e
  · split
    · exact (Engine.Works.setChan c e _).trans (.dropShadow c _ _ _)
    · split
      · exact (Engine.Works.setChan c e _).trans (.stopArrives c _ _)
      · exact .setChan c e _

/-! ### Every step -/

/-- Every command moves the job table so that its order and the two conditions of R123 are kept. -/
theorem exec_keeps {i : Instr} {s t : State} (h : exec i s = .next t) : s.eng.jtc.Keeps t.eng.jtc := by
  cases i with
  | start | stop | mapReload | engineReset | clearViolation | anchorWrite | noteWrite => exact registerRow_keeps h
  | unnamedCommandCode => exact execUnnamedCommandCode_keeps h
  | registerDenied => exact execRegisterDenied_keeps h
  | startAnchorRead | mapReloadRead => exact anchorRead_keeps h
  | drainComplete => exact execDrainComplete_keeps h
  | pinReset => exact settled_keeps h (s.partReset_keeps .pin)
  | powerOnReset => exact execPowerOnReset_keeps h
  | resetRelease => exact execResetRelease_keeps h
  | frzAssert => exact onEngine_keeps h fun _ => .refl _
  | frzDeassert => exact execFrzDeassert_keeps h
  | portAccess => exact execPortAccess_keeps h
  | arbiterGrant => exact execArbiterGrant_keeps h
  | lockedSequenceAccess => exact execLockedSequenceAccess_keeps h
  | lockRelease => exact execLockRelease_keeps h
  | intakePass => exact execIntakePass_keeps h
  | postWordRead => exact execPostWordRead_keeps h
  | slotRead => exact execSlotRead_keeps h
  | clearingPair => exact execClearingPair_keeps h
  | reportWrite => exact execReportWrite_keeps h
  | takenWrite => exact execTakenWrite_keeps h
  | dispatch => exact execDispatch_keeps h
  | conditionalDispatch => exact execConditionalDispatch_keeps h
  | contextClaimReport => exact execContextClaimReport_keeps h
  | parkShadowReport => exact execParkShadowReport_keeps h
  | parkContextReport => exact execParkContextReport_keeps h
  | resumeShadowReport => exact execResumeShadowReport_keeps h
  | handoff => exact execHandoff_keeps h
  | lineEvent => exact execLineEvent_keeps h
  | tapTick => exact execTapTick_keeps h
  | deadlineExpiry => exact execDeadlineExpiry_keeps h
  | stopRequest => exact execStopRequest_keeps h
  | yieldRequest => exact execYieldRequest_keeps h
  | yieldWithdrawal => exact execYieldWithdrawal_keeps h
  | dropRequest => exact execDropRequest_keeps h
  | runningWrite => exact execRunningWrite_keeps h
  | descriptorReading => exact execDescriptorReading_keeps h
  | serviceRecordReading => exact execServiceRecordReading_keeps h
  | contextClaim => exact execContextClaim_keeps h
  | claimMarkWrite => exact execClaimMarkWrite_keeps h
  | parameterCopy => exact execParameterCopy_keeps h
  | usedMark => exact execUsedMark_keeps h
  | burstRead => exact execBurstRead_keeps h
  | writtenMark => exact execWrittenMark_keeps h
  | burstWrite => exact execBurstWrite_keeps h
  | saveAreaWrite => exact execSaveAreaWrite_keeps h
  | saveAreaRead => exact execSaveAreaRead_keeps h
  | contextDescriptorRead => exact execContextDescriptorRead_keeps h
  | closingBegin => exact execClosingBegin_keeps h
  | resultWrite => exact execResultWrite_keeps h
  | contextRelease => exact execContextRelease_keeps h
  | releaseMarkWrite => exact execReleaseMarkWrite_keeps h
  | contextLostRewrite => exact execContextLostRewrite_keeps h
  | doneWrite => exact execDoneWrite_keeps h
  | chainPosting => exact execChainPosting_keeps h

/-- Settles O6: each command is made of changes of the table that keep intake order and, given that, the two conditions
of R123. -/
theorem stepKeepsOrderAndLines : Obligations.StepKeepsOrderAndLines := by
  intro s t ho h
  unfold step at h
  split at h
  · obtain rfl := Host.Outcome.next.inj h
    exact ⟨ho, id⟩
  · rename_i rest _
    exact exec_keeps (s := { s with pending := rest }) h ho

end Sys2Proof.Machine
end

section
/-! SUPPORT. Commands whose effect is on the engine alone: what their end leaves, and DISPATCH (R69). -/

namespace Sys2Proof.Machine

/-- A command on the engine leaves what its effect leaves. -/
theorem State.onEngine_sameBut {s : State} {f : Engine → Engine} {ps : List Part}
    (h : ∀ p, p ∉ ps → s.eng.same (f s.eng) p) : s.SameBut ps (s.onEngine f) :=
  fun p hp => s.onEngine_same f p (h p hp)

/-- A command that leaves the engine as it is changes nothing that a frame names. -/
theorem State.onEngine_sameBut_of_eq {s : State} {f : Engine → Engine} (ps : List Part) (h : f s.eng = s.eng) :
    s.SameBut ps (s.onEngine f) :=
  State.onEngine_sameBut fun p _ => h.symm ▸ s.eng.same_refl p

/-- A request that the effect presents is presented after the command. -/
theorem State.onEngine_presents {s : State} {f : Engine → Engine} {o : Owner} {x : EngineStep} {a : EngineAccess}
    (h : (f s.eng).presents o x a) : (s.onEngine f).eng.presents o x a :=
  s.eng.settle_presents (f s.eng) o x a h

/-! ### Dispatch (R69, R71, R85) -/

/-- The engine while a dispatch is taken: none is on its way. -/
def Engine.unsent (e : Engine) : Engine := { e with disp := { e.disp with sent := none } }

theorem execDispatch_sent {s : State} {c : ChannelId} (h : s.eng.disp.sent = some c) :
    exec .dispatch s = .next (s.onEngine fun _ => s.eng.unsent.takeDispatch c) := by
  change execDispatch s = _
  simp only [execDispatch, State.onEngine, h]
  rfl

theorem execDispatch_unsent {s : State} (h : s.eng.disp.sent = none) :
    exec .dispatch s = .next (s.onEngine fun e => e) := by
  change execDispatch s = _
  simp only [execDispatch, State.onEngine, h]

theorem Engine.unsent_same (e : Engine) (p : Part) : e.same e.unsent p := by
  cases p <;> simp [Engine.same, Engine.unsent, Engine.chan]

theorem JobTable.head_eq_none {j : JobTable} (h : ∀ x ∈ j.entries, x.custody ≠ .pending) : j.head = none := by
  cases hh : j.head with
  | none => rfl
  | some x => exact absurd (JobTable.head_mem hh).2 (h x (JobTable.head_mem hh).1)

/-- The access that begins a dispatched job: the save area of a resume, or the RUNNING write of a first start. -/
theorem Engine.dispatchTo_presents (e : Engine) (c : ChannelId) (en : Entry) :
    (en.resumeFromContext = false → (e.dispatchTo c en).presents (.channel c) .runningWrite
      (.write ((e.domain en.domain).slotBase + 64 * en.slot.val) [3, 0, 0, 0])) ∧
    ∀ cl, en.resumeFromContext = true → en.claim = some cl →
      (e.dispatchTo c en).presents (.channel c) .saveAreaRead (.read cl.saveArea 32) := by
  unfold Engine.dispatchTo Engine.beginJob
  refine ⟨fun h => ?_, fun cl h hcl => ?_⟩
  · rw [if_neg (by simp [Entry.job, h])]
    exact Engine.ask_presents _ _ _ _
  · rw [if_pos (by simp [Entry.job, h])]
    simp only [Entry.job, hcl]
    exact Engine.ask_presents _ _ _ _

/-- With nothing pending the dispatch is not made, and none is sent after it (R69, log 15). -/
theorem Engine.settle_unsent_sent {e : Engine} (h : e.jtc.head = none) : (e.settle e.unsent).disp.sent = none := by
  have hview : e.view = e.unsent.view := rfl
  have hhead : e.unsent.jtc.head = none := h
  have hsend : e.unsent.sendDispatch = e.unsent := by
    unfold Engine.sendDispatch
    simp [hhead]
  rw [Engine.settle, if_pos hview, hsend]
  unfold Engine.chooseUnit
  split
  · rfl
  · split <;> rfl

/-- Settles O37: a dispatch that is sent gives the head to the channel by `dispatchTo`; with nothing pending it is
dropped, and with none sent there is none to take. -/
theorem dispatchTakesHead : Obligations.DispatchTakesHead := by
  refine ⟨fun s c en hsent hidle ho hhead => ?_, fun s c hsent hnone => ?_, fun s hsent => ?_⟩
  · have htake : s.eng.unsent.takeDispatch c = s.eng.unsent.dispatchTo c en := by
      have hj : s.eng.unsent.jtc.head = some en := ho.head hhead
      have hi : (s.eng.unsent.chan c).state = .idle := hidle
      simp only [Engine.takeDispatch, hj, hi, if_true]
    obtain ⟨htable, hstart, htakes, hreports, hrest⟩ := s.eng.unsent.dispatchTo_takes c en ho hhead.1
    obtain ⟨hfirst, hresume⟩ := s.eng.unsent.dispatchTo_presents c en
    have hown := s.eng.settle_chan_own (s.eng.unsent.dispatchTo c en) c
    refine ⟨_, execDispatch_sent hsent, ?_, ?_, ?_, ?_, ?_, ?_, ?_⟩
    · rw [State.onEngine_eng, Engine.settle_jtc, htake]
      exact htable
    · rw [State.onEngine_eng, Engine.settle_nextStart, htake]
      exact hstart
    · rw [State.onEngine_eng, htake]
      exact hown.trans htakes
    · rw [State.onEngine_eng, htake]
      exact (congrArg Channel.reports hown).trans hreports
    · exact fun h => State.onEngine_presents (htake.symm ▸ hfirst h)
    · exact fun cl h hcl => State.onEngine_presents (htake.symm ▸ hresume cl h hcl)
    · refine State.onEngine_sameBut fun p hp => Engine.same_trans (s.eng.unsent_same p) ?_
      simp only [List.mem_cons, List.not_mem_nil, not_or, or_false] at hp
      rw [htake]
      exact hrest p hp.1 hp.2.1 hp.2.2
  · have hhead : s.eng.jtc.head = none := JobTable.head_eq_none hnone
    have htake : s.eng.unsent.takeDispatch c = s.eng.unsent := by
      have hj : s.eng.unsent.jtc.head = none := hhead
      simp only [Engine.takeDispatch, hj]
    refine ⟨_, execDispatch_sent hsent, ?_, State.onEngine_sameBut fun p _ => ?_⟩
    · rw [State.onEngine_eng, htake]
      exact Engine.settle_unsent_sent hhead
    · rw [htake]
      exact s.eng.unsent_same p
  · exact ⟨_, execDispatch_unsent hsent, State.onEngine_sameBut_of_eq [] rfl⟩

end Sys2Proof.Machine
end

section
/-! SUPPORT. What the JTC records when it takes a channel's oldest report (R46, R47, R58, R59, R70). -/

namespace Sys2Proof.Machine

theorem Engine.setChan_self (e : Engine) (c : ChannelId) : e.setChan c (e.chan c) = e := by
  simp [Engine.setChan, Engine.chan]

theorem Engine.setChan_setChan (e : Engine) (c : ChannelId) (a b : Channel) :
    (e.setChan c a).setChan c b = e.setChan c b := by
  simp [Engine.setChan]

theorem Engine.same_setChan_setJtc (e : Engine) (c : ChannelId) (ch : Channel) (j : JobTable) {p : Part}
    (hp : p ∉ [.table, .channel c]) : e.same ((e.setChan c ch).setJtc j) p := by
  simp only [List.mem_cons, List.not_mem_nil, not_or, or_false] at hp
  cases p with
  | table => exact absurd rfl hp.1
  | channel d =>
    have hcd : c ≠ d := fun h => hp.2 (h ▸ rfl)
    exact congrArg Channel.own (e.setChan_chan_ne _ hcd)
  | timebase => exact ⟨rfl, rfl⟩
  | mem | ports | arb | pins | queue => trivial
  | _ => rfl

/-- A report whose meaning is given is taken off, and its meaning done. -/
theorem Engine.takeReport_cons {e : Engine} {c : ChannelId} {r : Report} {rest : List Report}
    {f : Report → Option (Engine → Engine)} {g : Engine → Engine} (hr : (e.chan c).reports = r :: rest)
    (hf : f r = some g) : e.takeReport c f = g (e.setChan c { e.chan c with reports := rest }) := by
  simp only [Engine.takeReport, hr, hf]

/-- A command that takes a report which changes the table, and of the engine beside it the channel alone. -/
theorem report_records {s : State} {c : ChannelId} {r : Report} {rest : List Report}
    {f : Report → Option (Engine → Engine)} {g : Engine → Engine} {ch : Channel} {j : JobTable}
    (hr : (s.eng.chan c).reports = r :: rest) (hf : f r = some g)
    (hg : g (s.eng.setChan c { s.eng.chan c with reports := rest }) = (s.eng.setChan c ch).setJtc j) :
    ((s.onEngine fun e => e.takeReport c f).eng.chan c).own = ch.own ∧
    (s.onEngine fun e => e.takeReport c f).eng.jtc = j ∧
    s.SameBut [.table, .channel c] (s.onEngine fun e => e.takeReport c f) := by
  have htake := (Engine.takeReport_cons hr hf).trans hg
  refine ⟨?_, ?_, State.onEngine_sameBut fun p hp => ?_⟩
  · rw [State.onEngine_eng, Engine.settle_chan_own, htake]
    exact congrArg Channel.own (s.eng.setChan_chan c _)
  · rw [State.onEngine_eng, Engine.settle_jtc, htake]
    rfl
  · rw [htake]
    exact s.eng.same_setChan_setJtc c _ j hp

/-! ### Entries changed in a table in intake order (R44) -/

section Ordered

variable {j : JobTable} {en : Entry} (ho : j.Ordered) (hen : en ∈ j.entries)
include ho hen

theorem JobTable.Ordered.update_again (f g : Entry → Entry) (hf : ∀ x, (f x).place = x.place) :
    (j.update en.place f).update en.place g =
      { j with entries := j.entries.map fun x => if x = en then g (f en) else x } := by
  rw [j.update_update en.place f g hf, ho.update hen]

theorem JobTable.Ordered.close (r : JobResult) (n : Option ServiceNotify) :
    j.close en.place r n = { j with
      entries := j.entries.map fun x =>
        if x = en then { en with custody := .closing, result := some r, serviceNotify := n, expiryDue := false } else x
      queue := j.queue ++ [en.place] } := by
  rw [JobTable.close, ho.update hen]

end Ordered

/-! ### A park in the shadow bank (R46, R47, R58) -/

/-- The STOP_REASON of an entry whose park in the shadow bank is taken: the one it has, or DRAIN in DRAINING. -/
def Entry.parkedReason (en : Entry) (e : Engine) : Option StopReason :=
  if en.stopReason = none ∧ e.ctl.state = .draining then some .drain else en.stopReason

/-- The drop request that follows such a park. -/
def Entry.parkedDrops (en : Entry) (e : Engine) : List StopMessage :=
  ((en.parkedReason e).map fun r => ⟨en.place, r⟩).toList

theorem Engine.isDraining_iff (e : Engine) : e.isDraining = true ↔ e.ctl.state = .draining := by
  simp [Engine.isDraining]

/-- A park in the shadow bank changes its entry, and its channel's drop requests. -/
theorem Engine.shadowParked_eq {e : Engine} (c : ChannelId) {en : Entry} (ho : e.jtc.Ordered)
    (hen : en ∈ e.jtc.entries) : e.shadowParked c en.place =
      (e.setChan c { e.chan c with drops := (e.chan c).drops ++ en.parkedDrops e }).setJtc
        { e.jtc with entries := e.jtc.entries.map fun x =>
          if x = en then { en.shadowedOn c with stopReason := en.parkedReason e } else x } := by
  unfold Engine.shadowParked
  simp only [ho.find hen]
  cases hs : en.stopReason with
  | some r =>
    have hreason : en.parkedReason e = some r := by simp [Entry.parkedReason, hs]
    have hentry : { en.shadowedOn c with stopReason := some r } = en.shadowedOn c := by
      rw [← hs]
      rfl
    rw [ho.update hen, Entry.parkedDrops, hreason, hentry]
    rfl
  | none =>
    dsimp only
    split
    · rename_i hd
      have hreason : en.parkedReason e = some .drain := by
        simp [Entry.parkedReason, hs, (e.isDraining_iff).mp hd]
      have htwice := ho.update_again hen (fun x => x.shadowedOn c)
        (fun x => { x with stopReason := some StopReason.drain }) fun _ => rfl
      rw [Entry.parkedDrops, hreason]
      simp only [Engine.requestStop, Entry.shadowedOn, hs, Option.isSome_none, Bool.false_eq_true, if_false, if_true,
        Engine.setJtc_jtc] at htwice ⊢
      rw [htwice]
      rfl
    · rename_i hd
      have hreason : en.parkedReason e = none := by
        simp [Entry.parkedReason, hs, ← e.isDraining_iff, hd]
      have hentry : { en.shadowedOn c with stopReason := none } = en.shadowedOn c := by
        rw [← hs]
        rfl
      rw [Entry.parkedDrops, hreason, hentry, Option.map_none, Option.toList_none, List.append_nil, ho.update hen]
      exact congrArg (Engine.setJtc · _) (e.setChan_self c).symm

/-! ### A park in the context (R46, R47, R58) -/

section ContextParked

variable {j : JobTable} {en : Entry}

/-- With no STOP_REASON, but in DRAINING, the entry waits in PENDING again. -/
theorem JobTable.contextParked_pending (ho : j.Ordered) (hen : en ∈ j.entries) (hs : en.stopReason = none) (n : Nat) :
    j.contextParked false en.place n = { j with entries := j.entries.map fun x =>
      if x = en then { en with custody := .pending, channel := none, shadowChannel := none,
                               recordedProgress := n, resumeFromContext := true, preempted := true } else x } := by
  simp only [JobTable.contextParked, ho.find hen, hs, Bool.false_eq_true, if_false]
  rw [ho.update_again hen (fun x => x.contextParkedAt n) _ fun _ => rfl]
  simp only [Entry.contextParkedAt, hs]

/-- An entry parked and then closed stands once in the closing queue, with the progress it was parked with. -/
theorem JobTable.parked_closeWaiting (ho : j.Ordered) (hen : en ∈ j.entries) (n : Nat) (o : JobOutcome) :
    (j.update en.place fun x => x.contextParkedAt n).closeWaiting (en.contextParkedAt n) o =
      { j with
        entries := j.entries.map fun x =>
          if x = en then { en with
            custody := .closing, channel := none, shadowChannel := none, recordedProgress := n,
            resumeFromContext := true, preempted := true, result := some (plainResult o n),
            serviceNotify := none, expiryDue := false } else x
        queue := j.queue ++ [en.place] } := by
  have htwice := ho.update_again hen (fun x => x.contextParkedAt n) (fun x => { x with
    custody := .closing, result := some (plainResult o n), serviceNotify := none, expiryDue := false }) fun _ => rfl
  exact congrArg (fun k : JobTable => { k with queue := j.queue ++ [en.place] }) htwice

/-- With a STOP_REASON, or in DRAINING, it is closed with the outcome of the reason. -/
theorem JobTable.contextParked_closes (ho : j.Ordered) (hen : en ∈ j.entries) (draining : Bool) (n : Nat)
    {o : JobOutcome} (h : (∃ r, en.stopReason = some r ∧ o = r.outcome) ∨
      (en.stopReason = none ∧ draining = true ∧ o = .drained)) :
    j.contextParked draining en.place n =
      (j.update en.place fun x => x.contextParkedAt n).closeWaiting (en.contextParkedAt n) o := by
  obtain ⟨r, hs, rfl⟩ | ⟨hs, rfl, rfl⟩ := h <;> simp only [JobTable.contextParked, ho.find hen, hs, if_true]

end ContextParked

theorem JobTable.handedOff_eq {j : JobTable} {en : Entry} (ho : j.Ordered) (hen : en ∈ j.entries)
    (h : en.custody = .active ∨ en.custody = .shadowed) (r : JobResult) (n : Option ServiceNotify) :
    j.handedOff en.place r n = { j with
      entries := j.entries.map fun x =>
        if x = en then { en with custody := .closing, result := some r, serviceNotify := n, expiryDue := false } else x
      queue := j.queue ++ [en.place] } := by
  simp only [JobTable.handedOff, ho.find hen, h, if_true, ho.close hen]

/-! ### The reports -/

theorem execParkShadowReport_records {s : State} {c : ChannelId} {en : Entry} {rest : List Report}
    (ho : s.eng.jtc.Ordered) (hen : en ∈ s.eng.jtc.entries)
    (hr : (s.eng.chan c).reports = .parkShadow en.place :: rest) :
    ∃ t, exec (.parkShadowReport c) s = .next t ∧
      (t.eng.chan c).own = { (s.eng.chan c).own with
        reports := rest, drops := (s.eng.chan c).drops ++ en.parkedDrops s.eng } ∧
      t.eng.jtc = { s.eng.jtc with entries := s.eng.jtc.entries.map fun x =>
        if x = en then { en.shadowedOn c with stopReason := en.parkedReason s.eng } else x } ∧
      s.SameBut [.table, .channel c] t := by
  have hpark := Engine.shadowParked_eq (e := s.eng.setChan c { s.eng.chan c with reports := rest }) c ho hen
  rw [Engine.setChan_setChan, Engine.setChan_chan] at hpark
  exact ⟨_, rfl, report_records (ch := { s.eng.chan c with
    reports := rest, drops := (s.eng.chan c).drops ++ en.parkedDrops s.eng }) hr rfl hpark⟩

theorem execParkContextReport_records {s : State} {c : ChannelId} {n place : Nat} {rest : List Report}
    (hr : (s.eng.chan c).reports = .parkContext place n :: rest) :
    ∃ t, exec (.parkContextReport c) s = .next t ∧ (t.eng.chan c).own = { (s.eng.chan c).own with reports := rest } ∧
      t.eng.jtc = s.eng.jtc.contextParked s.eng.isDraining place n ∧ s.SameBut [.table, .channel c] t :=
  ⟨_, rfl, report_records (ch := { s.eng.chan c with reports := rest }) hr rfl rfl⟩

/-- Settles O39: each report is taken off, and the table is as its own lemma says. -/
theorem reportsRecorded : Obligations.ReportsRecorded := by
  intro s c en rest ho hen
  have hdraining := s.eng.isDraining_iff
  refine ⟨fun cl hr => ⟨_, rfl, report_records (ch := { s.eng.chan c with reports := rest }) hr rfl ?_⟩, fun hr => ?_,
    fun n hr => ?_, fun hr => ⟨_, rfl, report_records (ch := { s.eng.chan c with reports := rest }) hr rfl ?_⟩,
    fun r n hr hc => ⟨_, rfl, report_records (ch := { s.eng.chan c with reports := rest }) hr rfl ?_⟩⟩
  · exact congrArg (Engine.setJtc _) (ho.update hen _)
  · obtain ⟨t, ht, hown, hjtc, hframe⟩ := execParkShadowReport_records ho hen hr
    have hdrops : (t.eng.chan c).drops = (s.eng.chan c).drops ++ en.parkedDrops s.eng := congrArg Channel.drops hown
    refine ⟨t, ht, ?_, hjtc, fun r hs => ?_, fun hs hd => ?_, fun hs hd => ?_, hframe⟩
    · rw [hown, hdrops]
    · rw [hdrops]
      simp [Entry.parkedDrops, Entry.parkedReason, hs]
    · rw [hdrops]
      simp [Entry.parkedDrops, Entry.parkedReason, hs, hd]
    · rw [hdrops]
      simp [Entry.parkedDrops, Entry.parkedReason, hs, hd]
  · obtain ⟨t, ht, hown, hjtc, hframe⟩ := execParkContextReport_records hr
    refine ⟨t, ht, hown, fun hs hd => hjtc.trans ?_, fun o h => hjtc.trans ?_, hframe⟩
    · rw [Ne, ← hdraining, Bool.not_eq_true] at hd
      rw [hd]
      exact JobTable.contextParked_pending ho hen hs n
    · rw [← hdraining] at h
      rw [JobTable.contextParked_closes ho hen _ n h]
      exact JobTable.parked_closeWaiting ho hen n o
  · exact congrArg (Engine.setJtc _) (ho.update hen _)
  · exact congrArg (Engine.setJtc _) (JobTable.handedOff_eq ho hen hc r n)

end Sys2Proof.Machine
end

section
/-! SUPPORT. Line events (R122, R124), and the expiry of a deadline (R42, R54 to R56): what each does to its entry, and
what acting on several entries in intake order does to the table. -/

namespace Sys2Proof.Machine

/-! ### Line events -/

theorem JobTable.armedList_eq (j : JobTable) (n : Line) :
    j.armedList n = j.entries.filter fun x => x.custody = .armed ∧ x.record.line = some n := by
  unfold JobTable.armedList
  exact List.filter_congr fun x _ => by rw [Bool.eq_iff_iff]; simp

theorem JobTable.lineEvent_lineEvents (j : JobTable) (draining : Bool) (n : Line) :
    (j.lineEvent draining n).lineEvents = j.lineEvents := by
  unfold JobTable.lineEvent
  split <;> split <;> rfl

/-- The table with one line event of a line taken from those that wait. -/
def JobTable.eventTaken (j : JobTable) (n : Line) (k : Nat) : JobTable :=
  { j with lineEvents := j.lineEvents.set n k }

theorem execLineEvent_taken {s : State} {n : Line} {k : Nat} (h : s.eng.jtc.lineEvents[n] = k + 1) :
    exec (.lineEvent n) s = .next (s.onEngine fun e =>
      e.setJtc ((e.jtc.eventTaken n k).lineEvent e.isDraining n)) := by
  change execLineEvent n s = _
  simp only [execLineEvent, State.onEngine, h, Nat.zero_lt_succ, if_true]
  rfl

section LineEvent

variable {j : JobTable} {n : Line} {en : Entry} {more : List Entry}

/-- The earliest armed entry of the line is released. -/
theorem JobTable.lineEvent_releases (ho : j.Ordered) (ha : j.armedList n = en :: more) :
    j.lineEvent false n = { j with entries := j.entries.map fun x =>
      if x = en then { en with custody := .pending } else x } := by
  have hen : en ∈ j.entries := (List.mem_filter.mp (ha ▸ List.mem_cons_self : en ∈ j.armedList n)).1
  simp only [JobTable.lineEvent, ha, Bool.false_eq_true, if_false, ho.update hen]

/-- In DRAINING it is closed instead. -/
theorem JobTable.lineEvent_closes (ho : j.Ordered) (ha : j.armedList n = en :: more) :
    j.lineEvent true n = { j with
      entries := j.entries.map fun x =>
        if x = en then { en with custody := .closing, result := some (plainResult .drained en.heldBytes),
                                 serviceNotify := none, expiryDue := false } else x
      queue := j.queue ++ [en.place] } := by
  have hen : en ∈ j.entries := (List.mem_filter.mp (ha ▸ List.mem_cons_self : en ∈ j.armedList n)).1
  simp only [JobTable.lineEvent, ha, if_true, JobTable.closeWaiting, ho.close hen]
  rfl

theorem JobTable.lineEvent_latches (ha : j.armedList n = []) (hl : j.latch[n] = false) (draining : Bool) :
    j.lineEvent draining n = { j with latch := j.latch.set n true } := by
  simp only [JobTable.lineEvent, ha, hl, Bool.false_eq_true, if_false]

theorem JobTable.lineEvent_overruns (ha : j.armedList n = []) (hl : j.latch[n] = true) (draining : Bool) :
    j.lineEvent draining n = { j with overrun := j.overrun.set n true } := by
  simp only [JobTable.lineEvent, ha, hl, if_true]

end LineEvent

/-- Settles O40: by whether an entry is armed on the line, and then by DRAINING or by LATCH. -/
theorem lineEventTaken : Obligations.LineEventTaken := by
  intro s n k hk ho
  refine ⟨_, execLineEvent_taken hk, ?_, ?_, ?_, ?_⟩
  · rw [State.onEngine_eng, Engine.settle_jtc, Engine.setJtc_jtc, JobTable.lineEvent_lineEvents]
    exact Vector.getElem_set_self _
  · refine State.onEngine_sameBut fun p hp => s.eng.same_of_jtc_ei _ s.eng.ei ?_
    rintro rfl
    simp at hp
  · intro en more ha
    rw [State.onEngine_eng, Engine.settle_jtc, Engine.setJtc_jtc]
    rw [← JobTable.armedList_eq] at ha
    have harmed : (s.eng.jtc.eventTaken n k).armedList n = en :: more := ha
    have hord : (s.eng.jtc.eventTaken n k).Ordered := ho
    cases hd : s.eng.isDraining with
    | false =>
      rw [JobTable.lineEvent_releases hord harmed]
      refine ⟨rfl, rfl, fun _ => ⟨rfl, rfl⟩, fun h => ?_⟩
      simp [(s.eng.isDraining_iff).mpr h] at hd
    | true =>
      rw [JobTable.lineEvent_closes hord harmed]
      exact ⟨rfl, rfl, fun h => absurd ((s.eng.isDraining_iff).mp hd) h, fun _ => ⟨rfl, rfl⟩⟩
  · intro ha
    rw [State.onEngine_eng, Engine.settle_jtc, Engine.setJtc_jtc]
    rw [← JobTable.armedList_eq] at ha
    have harmed : (s.eng.jtc.eventTaken n k).armedList n = [] := ha
    cases hl : s.eng.jtc.latch[n] with
    | false =>
      rw [JobTable.lineEvent_latches harmed hl]
      exact ⟨rfl, rfl, fun _ => ⟨rfl, rfl⟩, nofun⟩
    | true =>
      rw [JobTable.lineEvent_overruns harmed hl]
      exact ⟨rfl, rfl, nofun, fun _ => ⟨rfl, rfl⟩⟩

/-! ### Acting on entries in intake order (R44) -/

/-- Changes of entries that leave their places keep the order of the table. -/
theorem JobTable.Ordered.of_places {j k : JobTable} (h : j.Ordered) (hp : k.places = j.places)
    (hn : k.nextPlace = j.nextPlace) : k.Ordered := by
  rw [JobTable.ordered_iff] at h ⊢
  rwa [hp, hn]

/-- What acting on one entry does to the table: the entry becomes what `g` says, and `q` joins the closing queue. -/
def JobTable.actedOn (j : JobTable) (es : List Entry) (g : Entry → Entry) (q : Entry → List Nat) : JobTable :=
  { j with entries := j.entries.map fun x => if x ∈ es then g x else x, queue := j.queue ++ es.flatMap q }

theorem JobTable.Ordered.actedOn {j : JobTable} (h : j.Ordered) (es : List Entry) {g : Entry → Entry}
    (hg : ∀ x, (g x).place = x.place) (q : Entry → List Nat) : (j.actedOn es g q).Ordered := by
  refine h.of_places ?_ rfl
  simp only [JobTable.places, JobTable.actedOn, List.map_map]
  refine List.map_congr_left fun x _ => ?_
  simp only [Function.comp]
  split
  · exact hg x
  · rfl

/-- Acting on entries one after another does to each what acting on it alone does. -/
theorem JobTable.foldl_acts {act : Engine → Entry → Engine} {g : Entry → Entry} {q : Entry → List Nat}
    {P : Entry → Prop} (hg : ∀ x, (g x).place = x.place)
    (hact : ∀ (e : Engine) (en : Entry), e.jtc.Ordered → en ∈ e.jtc.entries → P en →
      (act e en).jtc = e.jtc.actedOn [en] g q)
    (es : List Entry) (e : Engine) (ho : e.jtc.Ordered) (hes : ∀ en ∈ es, en ∈ e.jtc.entries ∧ P en)
    (hnd : es.Nodup) : (es.foldl act e).jtc = e.jtc.actedOn es g q := by
  induction es generalizing e with
  | nil => simp [JobTable.actedOn]
  | cons en es ih =>
    obtain ⟨hnew, hnd⟩ := List.nodup_cons.mp hnd
    obtain ⟨hen, hpen⟩ := hes en List.mem_cons_self
    have hone := hact e en ho hen hpen
    have hstays : ∀ x ∈ es, x ∈ (act e en).jtc.entries ∧ P x := by
      intro x hx
      obtain ⟨hxe, hpx⟩ := hes x (List.mem_cons_of_mem _ hx)
      have hne : x ≠ en := fun h => hnew (h ▸ hx)
      rw [hone]
      exact ⟨List.mem_map.mpr ⟨x, hxe, by simp [hne]⟩, hpx⟩
    rw [List.foldl_cons, ih _ (hone ▸ ho.actedOn _ hg _) hstays hnd, hone]
    simp only [JobTable.actedOn, List.map_map, List.flatMap_cons, List.flatMap_nil, List.append_nil, List.append_assoc]
    congr 1
    refine List.map_congr_left fun x hx => ?_
    simp only [Function.comp, List.mem_cons, List.not_mem_nil, or_false]
    by_cases hxen : x = en
    · subst hxen
      have hgone : g x ∉ es := fun h => by
        have hgx := (hes (g x) (List.mem_cons_of_mem _ h)).1
        have heq : g x = x := ho.unique hgx hx (hg x)
        exact hnew (heq ▸ h)
      simp [hgone]
    · simp [hxen]

/-! ### The expiry of a deadline (R42, R54 to R56) -/

/-- An entry that waits: an expiry closes it. -/
def Entry.Waits (en : Entry) : Prop := en.custody = .pending ∨ en.custody = .armed ∨ en.custody = .created

/-- What the closing queue gains when an entry's expiry is taken. -/
def Entry.expiryQueue (en : Entry) : List Nat :=
  if en.custody = .pending ∨ en.custody = .armed ∨ en.custody = .created then [en.place] else []

theorem Entry.afterExpiry_place (en : Entry) : en.afterExpiry.place = en.place := by
  unfold Entry.afterExpiry
  split
  · rfl
  · split
    · rfl
    · split <;> rfl

namespace Engine

theorem expire_waiting {e : Engine} {en : Entry} (ho : e.jtc.Ordered) (hen : en ∈ e.jtc.entries) (h : en.Waits) :
    e.expire en = e.setJtc { e.jtc with
      entries := e.jtc.entries.map fun x =>
        if x = en then { en with custody := .closing, result := some (plainResult .timedOut en.heldBytes),
                                 serviceNotify := none, expiryDue := false } else x
      queue := e.jtc.queue ++ [en.place] } := by
  have htwice := ho.update_again hen (fun x => { x with expiryDue := false }) (fun x => { x with
    custody := .closing, result := some (plainResult .timedOut en.heldBytes), serviceNotify := none,
    expiryDue := false }) fun _ => rfl
  have hclose := congrArg (fun k : JobTable => e.setJtc { k with queue := e.jtc.queue ++ [en.place] }) htwice
  unfold Engine.expire
  obtain h | h | h := h <;> rw [h] <;> exact hclose

theorem expire_closing {e : Engine} {en : Entry} (ho : e.jtc.Ordered) (hen : en ∈ e.jtc.entries)
    (h : en.custody = .closing) : e.expire en = e.setJtc { e.jtc with entries := e.jtc.entries.map fun x =>
      if x = en then { en with expiryDue := false } else x } := by
  have hcleared : e.expire en = e.setJtc (e.jtc.update en.place fun x => { x with expiryDue := false }) := by
    unfold Engine.expire
    rw [h]
  rw [hcleared, ho.update hen]

/-- An entry in a channel's hands is asked to stop, its expiry taken away. -/
theorem expire_running (e : Engine) {en : Entry} (h : en.custody = .active ∨ en.custody = .shadowed) :
    e.expire en =
      (e.setJtc (e.jtc.update en.place fun x => { x with expiryDue := false })).requestStop en .deadline := by
  unfold Engine.expire
  obtain h | h := h <;> rw [h]

theorem expire_running_jtc {e : Engine} {en : Entry} (ho : e.jtc.Ordered) (hen : en ∈ e.jtc.entries)
    (h : en.custody = .active ∨ en.custody = .shadowed) :
    (e.expire en).jtc = { e.jtc with entries := e.jtc.entries.map fun x =>
      if x = en then { en with
        expiryDue := false, stopReason := if en.stopReason = none then some .deadline else en.stopReason }
      else x } := by
  rw [e.expire_running h]
  by_cases hs : en.stopReason = none
  · rw [requestStop_jtc hs, Engine.setJtc_jtc,
      ho.update_again hen (fun x => { x with expiryDue := false }) _ fun _ => rfl]
    simp only [hs, if_true]
  · rw [requestStop_again _ _ hs, Engine.setJtc_jtc, ho.update hen]
    simp only [hs, if_false]

/-- The one message that an expiry sends. -/
theorem expire_chan (e : Engine) (en : Entry) (c : ChannelId) :
    (e.expire en).chan c = { e.chan c with
      stops := (e.chan c).stops ++
        (if en.custody = .active ∧ en.stopReason = none ∧ en.channel = some c then [⟨en.place, .deadline⟩] else [])
      drops := (e.chan c).drops ++
        (if en.custody = .shadowed ∧ en.stopReason = none ∧ en.shadowChannel = some c then [⟨en.place, .deadline⟩]
         else []) } := by
  by_cases h : en.custody = .active ∨ en.custody = .shadowed
  · rw [e.expire_running h]
    by_cases hs : en.stopReason = none
    · rw [requestStop_chan _ _ hs h]
      simp only [hs, true_and]
      rfl
    · rw [requestStop_again _ _ hs]
      simp [hs, Engine.chan, Engine.setJtc]
  · have hquiet : (e.expire en).chan c = e.chan c := by
      unfold Engine.expire
      cases hc : en.custody with
      | active => exact absurd (.inl hc) h
      | shadowed => exact absurd (.inr hc) h
      | closing | created | pending | armed => rfl
    rw [not_or] at h
    simp [hquiet, h.1, h.2]

/-- An expiry changes the table and the channels alone. -/
theorem expire_rest (e : Engine) (en : Entry) :
    { e.expire en with jtc := e.jtc, channels := e.channels } = e := by
  by_cases h : en.custody = .active ∨ en.custody = .shadowed
  · rw [e.expire_running h]
    exact congrArg (fun f : Engine => { f with jtc := e.jtc })
      (requestStop_rest (e.setJtc (e.jtc.update en.place fun x => { x with expiryDue := false })) en .deadline)
  · unfold Engine.expire
    cases hc : en.custody with
    | active => exact absurd (.inl hc) h
    | shadowed => exact absurd (.inr hc) h
    | closing | created | pending | armed => rfl

theorem expire_jtc (e : Engine) (en : Entry) (ho : e.jtc.Ordered) (hen : en ∈ e.jtc.entries)
    (hdue : en.expiryDue = true) : (e.expire en).jtc = e.jtc.actedOn [en] Entry.afterExpiry Entry.expiryQueue := by
  have hone (f : Entry) (hf : f = en.afterExpiry) : (e.jtc.entries.map fun x => if x = en then f else x) =
      e.jtc.entries.map fun x => if x ∈ [en] then x.afterExpiry else x := by
    refine List.map_congr_left fun x _ => ?_
    by_cases hx : x = en <;> simp [hx, hf]
  unfold JobTable.actedOn
  cases hc : en.custody with
  | pending | armed | created =>
    rw [expire_waiting ho hen (by simp [Entry.Waits, hc]), Engine.setJtc_jtc, hone]
    · simp [Entry.expiryQueue, hc]
    · simp [Entry.afterExpiry, hdue, hc]
  | closing =>
    rw [expire_closing ho hen hc, Engine.setJtc_jtc, hone]
    · simp [Entry.expiryQueue, hc]
    · simp [Entry.afterExpiry, hdue, hc]
  | active | shadowed =>
    rw [expire_running_jtc ho hen (by simp [hc]), hone]
    · simp [Entry.expiryQueue, hc]
    · by_cases hs : en.stopReason = none <;> simp [Entry.afterExpiry, hdue, hc, hs]

end Engine

theorem execDeadlineExpiry_due {s : State} {en : Entry} (h : s.eng.jtc.expired = some en) :
    exec .deadlineExpiry s = .next (s.onEngine fun e => e.expire en) := by
  change execDeadlineExpiry s = _
  simp only [execDeadlineExpiry, State.onEngine, h]

theorem execDeadlineExpiry_idle {s : State} (h : s.eng.jtc.expired = none) :
    exec .deadlineExpiry s = .next (s.onEngine fun e => e) := by
  change execDeadlineExpiry s = _
  simp only [execDeadlineExpiry, State.onEngine, h]

/-- An engine that differs in the table and the channels alone. -/
theorem Engine.same_of_jtc_channels {e f : Engine} (h : { f with jtc := e.jtc, channels := e.channels } = e) {p : Part}
    (hp : p ∉ .table :: everyChannel) : e.same f p := by
  rw [← h]
  cases p with
  | table => simp at hp
  | channel c => exact absurd (by fin_cases c <;> simp [everyChannel]) hp
  | mem | ports | arb | pins | queue => trivial
  | timebase => exact ⟨rfl, rfl⟩
  | _ => rfl

/-- Settles O43: by the custody state of the entry whose expiry is due first. -/
theorem deadlineExpiryTaken : Obligations.DeadlineExpiryTaken := by
  refine ⟨fun s hnone => ?_, fun s en hfind ho => ?_⟩
  · have hidle : s.eng.jtc.expired = none := List.find?_eq_none.mpr fun x hx => by simp [hnone x hx]
    exact ⟨_, execDeadlineExpiry_idle hidle, State.onEngine_sameBut_of_eq [] rfl⟩
  · have hen : en ∈ s.eng.jtc.entries := List.mem_of_find?_eq_some hfind
    have hframe (j : JobTable) (h : s.eng.expire en = s.eng.setJtc j) :
        s.SameBut [.table] (s.onEngine fun e => e.expire en) := by
      refine State.onEngine_sameBut fun p hp => ?_
      rw [h]
      exact s.eng.same_of_jtc_ei j s.eng.ei fun hpt => hp (hpt ▸ List.mem_cons_self)
    have hown (c : ChannelId) := congrArg Channel.own (s.eng.expire_chan en c)
    refine ⟨_, execDeadlineExpiry_due hfind, fun h => ?_, fun h => ?_, fun h => ?_⟩
    · have heq := Engine.expire_waiting ho hen h
      rw [State.onEngine_eng, Engine.settle_jtc, heq]
      exact ⟨rfl, hframe _ heq⟩
    · have heq := Engine.expire_closing ho hen h
      rw [State.onEngine_eng, Engine.settle_jtc, heq]
      exact ⟨rfl, hframe _ heq⟩
    · refine ⟨?_, fun c => ?_, State.onEngine_sameBut fun p hp => ?_⟩
      · rw [State.onEngine_eng, Engine.settle_jtc]
        exact Engine.expire_running_jtc ho hen h
      · rw [State.onEngine_eng, Engine.settle_chan_own]
        exact hown c
      · exact Engine.same_of_jtc_channels (s.eng.expire_rest en) hp

end Sys2Proof.Machine
end

section
/-! SUPPORT. One RCLK period (R54, R99, R100, R117 to R121): the Timebase's condition, the work of every channel in
turn, the filters' samples, and the expiries that an earlier tick left due. -/

namespace Sys2Proof.Machine

/-! ### The Timebase's condition (R118, R154) -/

namespace Engine

theorem working_iff (e : Engine) : e.working = true ↔ e.ctl.state = .running ∨ e.ctl.state = .draining := by
  simp [Engine.working]

theorem frozen_iff (e : Engine) :
    e.frozen = true ↔ (e.ctl.state = .running ∨ e.ctl.state = .draining) ∧ e.ctl.frz = true := by
  simp [Engine.frozen, working_iff]

theorem timebase_eq_cleared_iff (e : Engine) : e.timebase = .cleared ↔ e.working = false := by
  unfold Engine.timebase
  cases e.working with
  | false => simp
  | true =>
    simp only [Bool.not_true, Bool.false_eq_true, if_false]
    generalize (e.frozen && _) = paused
    cases paused <;> simp

theorem timebase_eq_running_iff (e : Engine) : e.timebase = .running ↔
    e.working = true ∧ (e.frozen = false ∨ ∃ k, e.ctl.copies = some k ∧ k.freezeRun = true) := by
  unfold Engine.timebase
  cases e.working with
  | false => simp
  | true => cases e.frozen <;> cases e.ctl.copies <;> simp

theorem timebase_eq_paused_iff (e : Engine) : e.timebase = .paused ↔
    e.frozen = true ∧ ∀ k, e.ctl.copies = some k → k.freezeRun = false := by
  have hworks : e.frozen = true → e.working = true := fun h => (Bool.and_eq_true_iff.mp h).1
  unfold Engine.timebase
  cases hf : e.frozen with
  | false => cases e.working <;> simp
  | true =>
    rw [hworks hf]
    cases e.ctl.copies <;> simp

end Engine

/-! ### The work of several channels, one after another -/

/-- What the work of some channels that starts no job may change. -/
structure Engine.WorksOn (cs : List ChannelId) (e f : Engine) : Prop where
  same : ∀ p, (∀ c ∈ cs, p ≠ .channel c) → e.same f p
  others : ∀ d, d ∉ cs → f.chan d = e.chan d
  requests : ∀ d : ChannelId, d ∉ cs → f.ei.channels[d] = e.ei.channels[d]
  unit : f.ei.unit = e.ei.unit

namespace Engine.WorksOn

variable {c : ChannelId} {cs : List ChannelId} {e f g : Engine}

theorem refl (cs : List ChannelId) (e : Engine) : Engine.WorksOn cs e e :=
  ⟨fun p _ => e.same_refl p, fun _ _ => rfl, fun _ _ => rfl, rfl⟩

theorem cons (h : Engine.WorksAlone c e f) (k : Engine.WorksOn cs f g) : Engine.WorksOn (c :: cs) e g := by
  refine ⟨fun p hp => Engine.same_trans ?_ (k.same p fun d hd => hp d (List.mem_cons_of_mem _ hd)), fun d hd => ?_,
    fun d hd => ?_, k.unit.trans h.unit⟩
  · cases p with
    | table => exact h.jtc
    | starts => exact h.nextStart
    | channel d => exact h.toWorks.same (.channel d) ⟨hp c List.mem_cons_self, nofun, nofun⟩
    | mem | ports | arb | pins | queue => trivial
    | control => exact h.ctl
    | post => exact h.post
    | timebase => exact ⟨h.count, h.filters⟩
    | notify => exact h.notify
  · rw [List.mem_cons, not_or] at hd
    exact (k.others d hd.2).trans (h.others d hd.1)
  · rw [List.mem_cons, not_or] at hd
    exact (k.requests d hd.2).trans (h.requests d hd.1)

theorem foldl {w : Engine → ChannelId → Engine} (hw : ∀ e c, Engine.WorksAlone c e (w e c)) (cs : List ChannelId)
    (e : Engine) : Engine.WorksOn cs e (cs.foldl w e) := by
  induction cs generalizing e with
  | nil => exact refl [] e
  | cons c cs ih => exact cons (hw e c) (ih _)

/-- What one of several channels comes to is what its own work makes of it, those before it having done theirs. -/
theorem foldl_at {w : Engine → ChannelId → Engine} (hw : ∀ e c, Engine.WorksAlone c e (w e c)) (hnd : cs.Nodup)
    (hc : c ∈ cs) (e : Engine) : ∃ before after : List ChannelId, c ∉ before ∧ c ∉ after ∧
      ∃ f, Engine.WorksOn before e f ∧ Engine.WorksOn after (w f c) (cs.foldl w e) := by
  obtain ⟨before, after, rfl⟩ := List.append_of_mem hc
  have hcons := (List.nodup_append.mp hnd).2.1
  refine ⟨before, after, fun h => ?_, (List.nodup_cons.mp hcons).1, before.foldl w e, foldl hw before e, ?_⟩
  · exact (List.nodup_append.mp hnd).2.2 c h c List.mem_cons_self rfl
  · rw [List.foldl_append, List.foldl_cons]
    exact foldl hw after _

theorem presents (h : Engine.WorksOn cs e f) (hc : c ∉ cs) {t : EngineStep} {a : EngineAccess}
    (hp : e.presents (.channel c) t a) : f.presents (.channel c) t a := by
  unfold Engine.presents at hp ⊢
  rw [h.unit, show f.ei.waits (.channel c) = e.ei.waits (.channel c) from h.requests c hc]
  exact hp

theorem frozen (h : Engine.WorksOn cs e f) : f.frozen = e.frozen := by
  have hctl : f.ctl = e.ctl := h.same .control fun _ _ => nofun
  simp [Engine.frozen, Engine.working, hctl]

theorem count (h : Engine.WorksOn cs e f) : f.count = e.count := (h.same .timebase fun _ _ => nofun).1

end Engine.WorksOn

theorem channelList_nodup : channelList.Nodup := by decide

/-! ### Pacing ticks (R99, R100) -/

theorem Channel.moving_job {ch : Channel} {j : Job} {rs : Readings} {body : Body}
    (h : ch.moving = some (j, rs, body)) : ch.job = some j := by
  unfold Channel.moving at h
  split at h
  · rename_i hj _
    simp only [Option.some.injEq, Prod.mk.injEq] at h
    rw [hj, h.1]
  · simp at h

namespace Engine

theorem paceTick_worksAlone (e : Engine) (c : ChannelId) : Engine.WorksAlone c e (e.paceTick c) := by
  unfold Engine.paceTick
  dsimp only
  split
  · exact .refl c e
  · split
    · exact ((Engine.WorksAlone.refl c e).setChan _).issueBurst
    · exact .refl c e

theorem ticks_iff (count : BitVec 16) (k : Nat) : ticks count k = true ↔ count.toNat % 2 ^ k = 0 := by
  simp [ticks]

/-- A channel whose transfer waits for this tick. -/
def Paced (e : Engine) (ch : Channel) (j : Job) : Prop :=
  ch.state = .moving ∧ ch.work = .boundary ∧ e.frozen = false ∧ j.record.paceUnit ≠ 0 ∧ ch.progress.unitLeft = 0 ∧
  e.count.toNat % 2 ^ j.record.paceTap = 0

theorem paced_iff (e : Engine) {ch : Channel} {j : Job} {rs : Readings} {body : Body}
    (h : ch.moving = some (j, rs, body)) :
    (ch.atBoundary && !e.frozen && ch.waitsForTick && ticks e.count j.record.paceTap) = true ↔ e.Paced ch j := by
  simp [Channel.atBoundary, Channel.waitsForTick, Channel.moving_job h, ticks_iff, Paced, and_assoc]

theorem paceTick_still {e : Engine} {c : ChannelId}
    (h : ∀ j rs body, (e.chan c).moving = some (j, rs, body) → ¬ e.Paced (e.chan c) j) : e.paceTick c = e := by
  unfold Engine.paceTick
  dsimp only
  split
  · rfl
  · rename_i hm
    rw [if_neg fun hp => h _ _ _ hm ((e.paced_iff hm).mp hp)]

/-- The next unit starts, and its first burst is issued. -/
theorem paceTick_issues {e : Engine} {c : ChannelId} {j : Job} {rs : Readings} {body : Body} {p : Progress}
    (hm : (e.chan c).moving = some (j, rs, body)) (hp : e.Paced (e.chan c) j)
    (hprogress : p = { (e.chan c).progress with unitLeft := unitOf j body (e.chan c).progress }) :
    (e.paceTick c).Issues c { e.chan c with progress := p } body rs (formBurst body true rs p) := by
  have hunit : decide (j.record.paceUnit ≠ 0) = true := by
    obtain ⟨_, _, _, hpaced, _⟩ := hp
    exact decide_eq_true hpaced
  have hset : (e.setChan c { e.chan c with progress := p }).chan c = { e.chan c with progress := p } :=
    e.setChan_chan c _
  have hissue := issueBurst_issues (e := e.setChan c { e.chan c with progress := p }) (c := c) (j := j) (rs := rs)
    (body := body) (by rw [hset]; exact hm)
  rw [hset, hunit] at hissue
  unfold Engine.paceTick
  simp only [hm]
  rw [if_pos ((e.paced_iff hm).mpr hp), ← hprogress]
  exact hissue

end Engine

end Sys2Proof.Machine
end

section
/-! SUPPORT. One RCLK period: what the filters' samples do, and the expiries that an earlier tick left due; then the
statement about TAP_TICK. -/

namespace Sys2Proof.Machine

/-! ### Samples (R117, R121, R122) -/

/-- A line's filter samples in an advance: the line is enabled and its tap ticks. -/
def Engine.Samples (e : Engine) (n : Line) : Prop :=
  (e.line n).enabled = true ∧ e.count.toNat % 2 ^ (e.line n).tap.val = 0

/-- A line's filter after an advance, and whether it sends an event. -/
def Engine.sampled (e : Engine) (rq : BitVec 8) (n : Line) : Filter × Bool :=
  if (e.line n).enabled = true ∧ e.count.toNat % 2 ^ (e.line n).tap.val = 0
  then e.filters[n].sample (e.line n) (rq.getLsbD n.val) else (e.filters[n], false)

namespace Engine

variable (e : Engine) (rq : BitVec 8)

theorem samples_iff (n : Line) :
    ((e.line n).enabled && ticks e.count (e.line n).tap.val) = true ↔ e.Samples n := by
  simp [ticks_iff, Engine.Samples]

theorem sampled_of_samples {n : Line} (h : e.Samples n) :
    e.sampled rq n = e.filters[n].sample (e.line n) (rq.getLsbD n.val) := if_pos h

theorem sampled_of_not {n : Line} (h : ¬ e.Samples n) : e.sampled rq n = (e.filters[n], false) := if_neg h

theorem sampleLine_of_samples {n : Line} (h : e.Samples n) : e.sampleLine rq n = { e with
    filters := e.filters.set n (e.sampled rq n).1
    jtc := if (e.sampled rq n).2 then { e.jtc with lineEvents := e.jtc.lineEvents.set n (e.jtc.lineEvents[n] + 1) }
           else e.jtc } := by
  rw [e.sampled_of_samples rq h]
  exact if_pos ((e.samples_iff n).mpr h)

theorem sampleLine_of_not {n : Line} (h : ¬ e.Samples n) : e.sampleLine rq n = e :=
  if_neg fun hs => h ((e.samples_iff n).mp hs)

theorem sampleLine_filters (n m : Line) :
    (e.sampleLine rq n).filters[m] = if m = n then (e.sampled rq n).1 else e.filters[m] := by
  by_cases hs : e.Samples n
  · rw [sampleLine_of_samples e rq hs]
    by_cases hm : m = n
    · subst hm
      simp
    · have hne : n.val ≠ m.val := fun h => hm (Fin.ext h.symm)
      simp [hm, Vector.getElem_set_ne, hne]
  · rw [sampleLine_of_not e rq hs, sampled_of_not e rq hs]
    by_cases hm : m = n <;> simp [hm]

theorem sampleLine_lineEvents (n m : Line) : (e.sampleLine rq n).jtc.lineEvents[m] =
    e.jtc.lineEvents[m] + if m = n ∧ (e.sampled rq n).2 = true then 1 else 0 := by
  by_cases hs : e.Samples n
  · rw [sampleLine_of_samples e rq hs]
    by_cases hev : (e.sampled rq n).2 = true
    · by_cases hm : m = n
      · subst hm
        simp [hev]
      · have hne : n.val ≠ m.val := fun h => hm (Fin.ext h.symm)
        simp [hev, hm, Vector.getElem_set_ne, hne]
    · simp [hev]
  · rw [sampleLine_of_not e rq hs, sampled_of_not e rq hs]
    simp

/-- A sample changes the filters and the line events alone. -/
theorem sampleLine_rest (n : Line) : { e.sampleLine rq n with
    filters := e.filters, jtc := { (e.sampleLine rq n).jtc with lineEvents := e.jtc.lineEvents } } = e := by
  by_cases hs : e.Samples n
  · rw [sampleLine_of_samples e rq hs]
    split <;> rfl
  · rw [sampleLine_of_not e rq hs]

/-- The samples of several lines. -/
def sampleLines (ns : List Line) : Engine := ns.foldl (fun e n => e.sampleLine rq n) e

theorem sampleLines_rest (ns : List Line) : { e.sampleLines rq ns with
    filters := e.filters, jtc := { (e.sampleLines rq ns).jtc with lineEvents := e.jtc.lineEvents } } = e := by
  induction ns generalizing e with
  | nil => rfl
  | cons n ns ih =>
    have hone := e.sampleLine_rest rq n
    have hmore := congrArg (fun f : Engine => { f with
      filters := e.filters, jtc := { f.jtc with lineEvents := e.jtc.lineEvents } }) (ih (e.sampleLine rq n))
    exact hmore.trans hone

/-- A line's sample is its own: those of other lines do not change it. -/
theorem sampled_sampleLine {n m : Line} (h : m ≠ n) : (e.sampleLine rq n).sampled rq m = e.sampled rq m := by
  have hctl : (e.sampleLine rq n).ctl = e.ctl := by
    have := congrArg Engine.ctl (e.sampleLine_rest rq n)
    exact this
  have hcount : (e.sampleLine rq n).count = e.count := by
    have := congrArg Engine.count (e.sampleLine_rest rq n)
    exact this
  have hline : (e.sampleLine rq n).line m = e.line m := by simp only [Engine.line, hctl]
  unfold Engine.sampled
  rw [hline, hcount, sampleLine_filters, if_neg h]

theorem sampleLines_filters {ns : List Line} (hnd : ns.Nodup) (m : Line) :
    (e.sampleLines rq ns).filters[m] = if m ∈ ns then (e.sampled rq m).1 else e.filters[m] := by
  induction ns generalizing e with
  | nil => simp [sampleLines]
  | cons n ns ih =>
    obtain ⟨hn, hnd⟩ := List.nodup_cons.mp hnd
    refine (ih (e.sampleLine rq n) hnd).trans ?_
    by_cases hm : m = n
    · subst hm
      rw [if_neg hn, sampleLine_filters, if_pos rfl, if_pos List.mem_cons_self]
    · rw [sampleLine_filters, if_neg hm, sampled_sampleLine e rq hm]
      simp [hm]

theorem sampleLines_lineEvents {ns : List Line} (hnd : ns.Nodup) (m : Line) :
    (e.sampleLines rq ns).jtc.lineEvents[m] =
      e.jtc.lineEvents[m] + if m ∈ ns ∧ (e.sampled rq m).2 = true then 1 else 0 := by
  induction ns generalizing e with
  | nil => simp [sampleLines]
  | cons n ns ih =>
    obtain ⟨hn, hnd⟩ := List.nodup_cons.mp hnd
    refine (ih (e.sampleLine rq n) hnd).trans ?_
    by_cases hm : m = n
    · subst hm
      rw [sampleLine_lineEvents]
      simp [hn]
    · rw [sampleLine_lineEvents, sampled_sampleLine e rq hm]
      simp [hm]

end Engine

/-! ### Expiries left due (R54, log 12) -/

theorem flatMap_ite_singleton {α β : Type} (p : α → Prop) [DecidablePred p] (f : α → β) (l : List α) :
    (l.flatMap fun x => if p x then [f x] else []) = (l.filter fun x => p x).map f := by
  induction l with
  | nil => rfl
  | cons x l ih => by_cases h : p x <;> simp [h, ih]

namespace Engine

theorem expiries_chan (es : List Entry) (e : Engine) (c : ChannelId) :
    (es.foldl Engine.expire e).chan c = { e.chan c with
      stops := (e.chan c).stops ++ ((es.filter fun en =>
        en.custody = .active ∧ en.stopReason = none ∧ en.channel = some c).map fun en => ⟨en.place, .deadline⟩)
      drops := (e.chan c).drops ++ ((es.filter fun en =>
        en.custody = .shadowed ∧ en.stopReason = none ∧ en.shadowChannel = some c).map
          fun en => ⟨en.place, .deadline⟩) } := by
  induction es generalizing e with
  | nil => simp
  | cons en es ih =>
    rw [List.foldl_cons, ih, expire_chan]
    by_cases ha : en.custody = .active ∧ en.stopReason = none ∧ en.channel = some c <;>
      by_cases hd : en.custody = .shadowed ∧ en.stopReason = none ∧ en.shadowChannel = some c <;> simp [ha, hd]

theorem expiries_rest (es : List Entry) (e : Engine) :
    { es.foldl Engine.expire e with jtc := e.jtc, channels := e.channels } = e := by
  induction es generalizing e with
  | nil => rfl
  | cons en es ih =>
    have hmore := congrArg (fun f : Engine => { f with jtc := e.jtc, channels := e.channels }) (ih (e.expire en))
    exact hmore.trans (e.expire_rest en)

/-- Of the table, expiries change entries and the closing queue alone. -/
theorem expire_table_rest (e : Engine) (en : Entry) :
    { (e.expire en).jtc with entries := e.jtc.entries, queue := e.jtc.queue } = e.jtc := by
  by_cases h : en.custody = .active ∨ en.custody = .shadowed
  · rw [e.expire_running h]
    by_cases hs : en.stopReason = none
    · rw [requestStop_jtc hs]; rfl
    · rw [requestStop_again _ _ hs]; rfl
  · unfold Engine.expire
    cases hc : en.custody with
    | active => exact absurd (.inl hc) h
    | shadowed => exact absurd (.inr hc) h
    | closing | created | pending | armed => rfl

theorem expiries_table_rest (es : List Entry) (e : Engine) :
    { (es.foldl Engine.expire e).jtc with entries := e.jtc.entries, queue := e.jtc.queue } = e.jtc := by
  induction es generalizing e with
  | nil => rfl
  | cons en es ih =>
    have hmore := congrArg (fun j : JobTable => { j with entries := e.jtc.entries, queue := e.jtc.queue })
      (ih (e.expire en))
    exact hmore.trans (e.expire_table_rest en)

/-- Each expiry that is due acts on its entry. -/
theorem takeDue_jtc {e : Engine} (ho : e.jtc.Ordered) : e.takeDue.jtc = { e.jtc with
    entries := e.jtc.entries.map Entry.afterExpiry
    queue := e.jtc.queue ++ ((e.jtc.entries.filter fun en =>
      en.expiryDue = true ∧ (en.custody = .pending ∨ en.custody = .armed ∨ en.custody = .created)).map
        fun en => en.place) } := by
  have hdue : ∀ en ∈ e.jtc.entries.filter fun en => en.expiryDue, en ∈ e.jtc.entries ∧ en.expiryDue = true :=
    fun en hen => List.mem_filter.mp hen
  have hfold : e.takeDue.jtc = _ :=
    JobTable.foldl_acts Entry.afterExpiry_place expire_jtc _ e ho hdue (ho.nodup.filter _)
  rw [hfold, JobTable.actedOn]
  congr 1
  · refine List.map_congr_left fun x hx => ?_
    by_cases h : x.expiryDue = true
    · rw [if_pos (by simp [hx, h])]
    · rw [if_neg (by simp [h])]
      simp [Entry.afterExpiry, h]
  · congr 1
    unfold Entry.expiryQueue
    rw [flatMap_ite_singleton, List.filter_filter]
    exact congrArg _ (List.filter_congr fun x _ => by simp [Bool.and_comm])

end Engine

theorem Entry.deadlineTick_eq (count : BitVec 16) (en : Entry) : en.deadlineTick count = en.afterTick count := by
  unfold Entry.deadlineTick Entry.afterTick
  have hdue : (en.deadline == 1) = decide (en.deadline = 1) := by
    rw [Bool.eq_iff_iff]
    simp
  simp only [Engine.ticks_iff, hdue]

/-! ### The whole period -/

/-- The engine in which the channels take their pacing ticks: expiries taken, the count advanced, the filters sampled
and the deadline counts stepped. -/
def Engine.ticked (e : Engine) (rq : BitVec 8) : Engine :=
  (({ e.takeDue with count := e.count + 1 } : Engine).sampleLines rq lineList).deadlineTicks

theorem Engine.advanceTimebase_eq (e : Engine) (rq : BitVec 8) :
    e.advanceTimebase rq = channelList.foldl Engine.paceTick (e.ticked rq) := rfl

theorem lineList_nodup : lineList.Nodup := by decide

theorem mem_lineList (n : Line) : n ∈ lineList := by revert n; decide

namespace Engine

variable (e : Engine) (rq : BitVec 8)

/-- What the period changes before the channels take their ticks. -/
theorem ticked_rest : { e.ticked rq with
    jtc := e.jtc, channels := e.channels, count := e.count, filters := e.filters } = e := by
  have hdue := e.expiries_rest (e.jtc.entries.filter fun en => en.expiryDue)
  have hsample := Engine.sampleLines_rest { e.takeDue with count := e.count + 1 } rq lineList
  have hboth := congrArg (fun f : Engine => { f with
    jtc := e.jtc, channels := e.channels, count := e.count, filters := e.filters }) hsample
  exact hboth.trans (congrArg (fun f : Engine => { f with count := e.count, filters := e.filters }) hdue)

theorem ticked_count : (e.ticked rq).count = e.count + 1 :=
  congrArg Engine.count (Engine.sampleLines_rest { e.takeDue with count := e.count + 1 } rq lineList)

/-- The messages of the expiries taken are all that a channel has gained so far. -/
theorem ticked_chan (c : ChannelId) : (e.ticked rq).chan c = { e.chan c with
    stops := (e.chan c).stops ++ ((e.jtc.entries.filter fun en =>
      en.expiryDue = true ∧ en.custody = .active ∧ en.stopReason = none ∧ en.channel = some c).map
        fun en => ⟨en.place, .deadline⟩)
    drops := (e.chan c).drops ++ ((e.jtc.entries.filter fun en =>
      en.expiryDue = true ∧ en.custody = .shadowed ∧ en.stopReason = none ∧ en.shadowChannel = some c).map
        fun en => ⟨en.place, .deadline⟩) } := by
  have hsample := congrArg (fun f : Engine => f.chan c)
    (Engine.sampleLines_rest { e.takeDue with count := e.count + 1 } rq lineList)
  have hdue := e.expiries_chan (e.jtc.entries.filter fun en => en.expiryDue) c
  simp only [List.filter_filter] at hdue
  refine (hsample.trans hdue).trans ?_
  have hfilter (p : Entry → Prop) [DecidablePred p] : (e.jtc.entries.filter fun en => decide (p en) && en.expiryDue) =
      e.jtc.entries.filter fun en => en.expiryDue = true ∧ p en :=
    List.filter_congr fun x _ => by simp [and_comm]
  rw [hfilter, hfilter]

theorem sampled_ticked (n : Line) : Engine.sampled { e.takeDue with count := e.count + 1 } rq n =
    Engine.sampled { e with count := e.count + 1 } rq n := by
  have hdue := congrArg (fun f : Engine => Engine.sampled { f with count := e.count + 1 } rq n)
    (e.expiries_rest (e.jtc.entries.filter fun en => en.expiryDue))
  exact hdue

theorem ticked_filters (n : Line) :
    (e.ticked rq).filters[n] = (Engine.sampled { e with count := e.count + 1 } rq n).1 := by
  rw [← sampled_ticked]
  exact (Engine.sampleLines_filters _ rq lineList_nodup n).trans (if_pos (mem_lineList n))

theorem ticked_lineEvents (n : Line) : (e.ticked rq).jtc.lineEvents[n] = e.jtc.lineEvents[n] +
    if (Engine.sampled { e with count := e.count + 1 } rq n).2 = true then 1 else 0 := by
  have hevents : e.takeDue.jtc.lineEvents = e.jtc.lineEvents := by
    have hrest := congrArg JobTable.lineEvents (e.expiries_table_rest (e.jtc.entries.filter fun en => en.expiryDue))
    exact hrest
  have hsample := Engine.sampleLines_lineEvents { e.takeDue with count := e.count + 1 } rq lineList_nodup n
  rw [sampled_ticked] at hsample
  refine hsample.trans ?_
  simp [mem_lineList, hevents]

/-- Of the table, the period changes entries, the closing queue and the line events alone. -/
theorem ticked_table_rest : { (e.ticked rq).jtc with
    entries := e.jtc.entries, queue := e.jtc.queue, lineEvents := e.jtc.lineEvents } = e.jtc := by
  have hsample := congrArg Engine.jtc
    (Engine.sampleLines_rest { e.takeDue with count := e.count + 1 } rq lineList)
  have hboth := congrArg (fun j : JobTable => { j with
    entries := e.jtc.entries, queue := e.jtc.queue, lineEvents := e.jtc.lineEvents }) hsample
  have htable := congrArg (fun j : JobTable => { j with lineEvents := e.jtc.lineEvents })
    (e.expiries_table_rest (e.jtc.entries.filter fun en => en.expiryDue))
  exact hboth.trans htable

theorem ticked_entries (ho : e.jtc.Ordered) :
    (e.ticked rq).jtc.entries = e.jtc.entries.map (fun en => en.afterExpiry.afterTick (e.count + 1)) ∧
    (e.ticked rq).jtc.queue = e.jtc.queue ++ ((e.jtc.entries.filter fun en =>
      en.expiryDue = true ∧ (en.custody = .pending ∨ en.custody = .armed ∨ en.custody = .created)).map
        fun en => en.place) := by
  have hdue := takeDue_jtc ho
  have hsample := congrArg Engine.jtc
    (Engine.sampleLines_rest { e.takeDue with count := e.count + 1 } rq lineList)
  have hentries : (Engine.sampleLines { e.takeDue with count := e.count + 1 } rq lineList).jtc.entries =
      e.jtc.entries.map Entry.afterExpiry := (congrArg JobTable.entries hsample).trans (congrArg JobTable.entries hdue)
  refine ⟨?_, (congrArg JobTable.queue hsample).trans (congrArg JobTable.queue hdue)⟩
  have hticks : (e.ticked rq).jtc.entries = (Engine.sampleLines { e.takeDue with count := e.count + 1 } rq
    lineList).jtc.entries.map (Entry.deadlineTick (e.ticked rq).count) := rfl
  rw [hticks, hentries, ticked_count, List.map_map]
  exact List.map_congr_left fun x _ => Entry.deadlineTick_eq _ _

end Engine

end Sys2Proof.Machine
end

section
/-! SUPPORT. One RCLK period as a whole, and the statement about TAP_TICK. -/

namespace Sys2Proof.Machine

theorem Engine.WorksOn.issues {c : ChannelId} {cs : List ChannelId} {e f : Engine} {a : Channel} {body : Body}
    {rs : Readings} {b : Burst} (h : Engine.WorksOn cs e f) (hc : c ∉ cs) (hi : e.Issues c a body rs b) :
    f.Issues c a body rs b := by
  obtain ⟨hown, hread, hwrite, hmark⟩ := hi
  refine ⟨?_, fun k => h.presents hc (hread k), fun k l => h.presents hc (hwrite k l),
    fun r k l m => h.presents hc (hmark r k l m)⟩
  rw [h.others c hc]
  exact hown

theorem Channel.messages_of_own {a b : Channel} (h : a.own = b.own) : a.stops = b.stops ∧ a.drops = b.drops := by
  have hstops := congrArg Channel.stops h
  have hdrops := congrArg Channel.drops h
  exact ⟨hstops, hdrops⟩

theorem Engine.Issues.messages {c : ChannelId} {e : Engine} {a : Channel} {body : Body} {rs : Readings} {b : Burst}
    (h : e.Issues c a body rs b) : (e.chan c).stops = a.stops ∧ (e.chan c).drops = a.drops := by
  have hstops := congrArg Channel.stops h.1
  have hdrops := congrArg Channel.drops h.1
  exact ⟨hstops, hdrops⟩

/-- An engine that differs in the table, the channels and the Timebase's own state alone. -/
theorem Engine.same_of_timebase {e f : Engine}
    (h : { f with jtc := e.jtc, channels := e.channels, count := e.count, filters := e.filters } = e) {p : Part}
    (hp : p ∉ [.timebase, .table] ++ everyChannel) : e.same f p := by
  rw [← h]
  cases p with
  | timebase | table => simp at hp
  | channel c => exact absurd (by fin_cases c <;> simp [everyChannel]) hp
  | mem | ports | arb | pins | queue => trivial
  | _ => rfl

theorem Engine.Issues.settle {c : ChannelId} {e : Engine} {a : Channel} {body : Body} {rs : Readings} {b : Burst}
    (h : e.Issues c a body rs b) (before : Engine) : (before.settle e).Issues c a body rs b := by
  obtain ⟨hown, hread, hwrite, hmark⟩ := h
  exact ⟨(before.settle_chan_own e c).trans hown, fun k => before.settle_presents e _ _ _ (hread k),
    fun k l => before.settle_presents e _ _ _ (hwrite k l),
    fun r k l m => before.settle_presents e _ _ _ (hmark r k l m)⟩

namespace Engine

variable (e : Engine) (rq : BitVec 8)

theorem advance_worksOn : Engine.WorksOn channelList (e.ticked rq) (e.advanceTimebase rq) :=
  .foldl paceTick_worksAlone channelList (e.ticked rq)

theorem ticked_frozen : (e.ticked rq).frozen = e.frozen := by
  have hctl : (e.ticked rq).ctl = e.ctl := by
    have hrest := congrArg Engine.ctl (e.ticked_rest rq)
    exact hrest
  simp [Engine.frozen, Engine.working, hctl]

/-- What a channel comes to in the period is what a tick makes of it as the expiries have left it. -/
theorem advance_at (c : ChannelId) : ∃ f : Engine, f.chan c = (e.ticked rq).chan c ∧ f.frozen = e.frozen ∧
    f.count = e.count + 1 ∧ (e.advanceTimebase rq).chan c = (f.paceTick c).chan c ∧
    ∀ a body rs b, (f.paceTick c).Issues c a body rs b → (e.advanceTimebase rq).Issues c a body rs b := by
  obtain ⟨_, _, hb, ha, f, hbefore, hafter⟩ :=
    WorksOn.foldl_at paceTick_worksAlone channelList_nodup (mem_channelList c) (e.ticked rq)
  exact ⟨f, hbefore.others c hb, hbefore.frozen.trans (e.ticked_frozen rq), hbefore.count.trans (e.ticked_count rq),
    hafter.others c ha, fun _ _ _ _ => hafter.issues ha⟩

theorem advance_issues {c : ChannelId} {j : Job} {rs : Readings} {body : Body} {p : Progress}
    (hm : (e.chan c).moving = some (j, rs, body))
    (hp : Engine.Paced { e with count := e.count + 1 } (e.chan c) j)
    (hprogress : p = { (e.chan c).progress with unitLeft := unitOf j body (e.chan c).progress }) :
    (e.advanceTimebase rq).Issues c { (e.ticked rq).chan c with progress := p } body rs (formBurst body true rs p) := by
  obtain ⟨f, hchan, hfrozen, hcount, _, hissues⟩ := e.advance_at rq c
  rw [← hchan]
  have hmessages := hchan.trans (e.ticked_chan rq c)
  have hmoving : (f.chan c).moving = some (j, rs, body) := by
    rw [hmessages]
    exact hm
  refine hissues _ _ _ _ (paceTick_issues hmoving ?_ ?_)
  · rw [hmessages]
    obtain ⟨hstate, hwork, hfree, hrest⟩ := hp
    refine ⟨hstate, hwork, hfrozen.trans hfree, ?_⟩
    rw [hcount]
    exact hrest
  · rw [hmessages]
    exact hprogress

theorem advance_still {c : ChannelId}
    (h : ∀ j rs body, (e.chan c).moving = some (j, rs, body) →
      ¬ Engine.Paced { e with count := e.count + 1 } (e.chan c) j) :
    (e.advanceTimebase rq).chan c = (e.ticked rq).chan c := by
  obtain ⟨f, hchan, hfrozen, hcount, hafter, _⟩ := e.advance_at rq c
  have hmessages := hchan.trans (e.ticked_chan rq c)
  rw [hafter, paceTick_still, hchan]
  intro j rs body hm hp
  rw [hmessages] at hm hp
  obtain ⟨hstate, hwork, hfree, hrest⟩ := hp
  rw [hcount] at hrest
  exact h j rs body hm ⟨hstate, hwork, hfrozen.symm.trans hfree, hrest⟩

/-- A tick sends no stop and no drop request. -/
theorem advance_messages (c : ChannelId) :
    ((e.advanceTimebase rq).chan c).stops = ((e.ticked rq).chan c).stops ∧
    ((e.advanceTimebase rq).chan c).drops = ((e.ticked rq).chan c).drops := by
  by_cases h : ∀ j rs body, (e.chan c).moving = some (j, rs, body) →
      ¬ Engine.Paced { e with count := e.count + 1 } (e.chan c) j
  · rw [e.advance_still rq h]
    exact ⟨rfl, rfl⟩
  · simp only [not_forall, not_not] at h
    obtain ⟨j, rs, body, hm, hp⟩ := h
    exact (e.advance_issues rq hm hp rfl).messages

/-- What a whole period leaves as it is. -/
theorem advance_same {p : Part} (hp : p ∉ [.timebase, .table] ++ everyChannel) :
    e.same (e.advanceTimebase rq) p := by
  refine Engine.same_trans (Engine.same_of_timebase (e.ticked_rest rq) hp) ((e.advance_worksOn rq).same p ?_)
  rintro c _ rfl
  exact hp (by fin_cases c <;> simp [everyChannel])

end Engine

/-! ### The engine after the period -/

/-- The engine after a period in which the Timebase runs. -/
def Engine.period (e : Engine) (rq : BitVec 8) : Engine := e.settle (e.advanceTimebase rq)

namespace Engine

variable (e : Engine) (rq : BitVec 8)

theorem period_same {p : Part} (hp : ∀ c, p ≠ .channel c) : (e.ticked rq).same (e.period rq) p :=
  Engine.same_trans ((e.advance_worksOn rq).same p fun c _ => hp c) (e.settle_same _ p)

theorem period_jtc : (e.period rq).jtc = (e.ticked rq).jtc := e.period_same rq (p := .table) fun _ => nofun

theorem period_own (c : ChannelId) : ((e.period rq).chan c).own = ((e.advanceTimebase rq).chan c).own :=
  e.settle_chan_own _ c

theorem period_count : (e.period rq).count = e.count + 1 :=
  (e.period_same rq (p := .timebase) fun _ => nofun).1.trans (e.ticked_count rq)

theorem period_filters (n : Line) : (e.period rq).filters[n] =
    if (e.line n).enabled = true ∧ (e.count + 1).toNat % 2 ^ (e.line n).tap.val = 0
    then (e.filters[n].sample (e.line n) (rq.getLsbD n.val)).1 else e.filters[n] := by
  rw [(e.period_same rq (p := .timebase) fun _ => nofun).2, ticked_filters]
  exact apply_ite Prod.fst _ _ _

theorem period_lineEvents (n : Line) : (e.period rq).jtc.lineEvents[n] = e.jtc.lineEvents[n] +
    if (e.line n).enabled = true ∧ (e.count + 1).toNat % 2 ^ (e.line n).tap.val = 0 ∧
      (e.filters[n].sample (e.line n) (rq.getLsbD n.val)).2 = true then 1 else 0 := by
  rw [period_jtc, ticked_lineEvents]
  congr 1
  refine if_congr ?_ rfl rfl
  rw [← and_assoc]
  by_cases h : Engine.Samples { e with count := e.count + 1 } n
  · rw [Engine.sampled_of_samples _ rq h]
    exact (and_iff_right h).symm
  · rw [Engine.sampled_of_not _ rq h]
    exact iff_of_false Bool.false_ne_true fun hs => h hs.1

theorem period_messages (c : ChannelId) : ((e.period rq).chan c).stops = ((e.ticked rq).chan c).stops ∧
    ((e.period rq).chan c).drops = ((e.ticked rq).chan c).drops := by
  obtain ⟨hstops, hdrops⟩ := e.advance_messages rq c
  obtain ⟨hs, hd⟩ := Channel.messages_of_own (e.period_own rq c)
  exact ⟨hs.trans hstops, hd.trans hdrops⟩

/-- A channel's own part but for the requests that expiries send it. -/
theorem ticked_own (c : ChannelId) : ((e.ticked rq).chan c).own = { (e.chan c).own with
    stops := ((e.period rq).chan c).stops, drops := ((e.period rq).chan c).drops } := by
  obtain ⟨hstops, hdrops⟩ := e.period_messages rq c
  rw [hstops, hdrops, ticked_chan]
  rfl

theorem period_still {c : ChannelId}
    (h : ∀ j rs body, (e.chan c).moving = some (j, rs, body) →
      ¬ Engine.Paced { e with count := e.count + 1 } (e.chan c) j) :
    ((e.period rq).chan c).own = { (e.chan c).own with
      stops := ((e.period rq).chan c).stops, drops := ((e.period rq).chan c).drops } := by
  rw [period_own, e.advance_still rq h]
  exact e.ticked_own rq c

/-- The paced job starts its next unit. -/
theorem period_issues {c : ChannelId} {j : Job} {rs : Readings} {body : Body} {p : Progress} {b : Burst}
    (hm : (e.chan c).moving = some (j, rs, body))
    (hp : Engine.Paced { e with count := e.count + 1 } (e.chan c) j)
    (hprogress : p = { (e.chan c).progress with
      unitLeft := min (4 * 2 ^ (j.record.paceUnit - 1)) (body.length - (e.chan c).progress.bytesDone) })
    (hb : b = formBurst body true rs p) :
    (e.period rq).Issues c { e.chan c with
      stops := ((e.period rq).chan c).stops, drops := ((e.period rq).chan c).drops, progress := p } body rs b := by
  have hunit : unitBytes j.record.paceUnit = 4 * 2 ^ (j.record.paceUnit - 1) := by
    obtain ⟨_, _, _, hpaced, _⟩ := hp
    exact if_neg hpaced
  have hissue := (e.advance_issues rq (p := p) hm hp (by rw [hprogress, unitOf, hunit])).settle e
  rw [← hb] at hissue
  obtain ⟨hstops, hdrops⟩ := e.period_messages rq c
  rw [hstops, hdrops]
  rwa [ticked_chan] at hissue ⊢

/-- The expiries that an earlier tick left due are taken, and the deadline counts stepped. -/
theorem period_expiries (ho : e.jtc.Ordered) :
    (e.period rq).jtc.entries = e.jtc.entries.map (fun en => en.afterExpiry.afterTick (e.count + 1)) ∧
    (e.period rq).jtc.queue = e.jtc.queue ++ ((e.jtc.entries.filter fun en =>
      en.expiryDue = true ∧ (en.custody = .pending ∨ en.custody = .armed ∨ en.custody = .created)).map
        fun en => en.place) := by
  rw [period_jtc]
  exact e.ticked_entries rq ho

theorem period_sent (c : ChannelId) :
    ((e.period rq).chan c).stops = (e.chan c).stops ++ ((e.jtc.entries.filter fun en =>
      en.expiryDue = true ∧ en.custody = .active ∧ en.stopReason = none ∧ en.channel = some c).map
        fun en => ⟨en.place, .deadline⟩) ∧
    ((e.period rq).chan c).drops = (e.chan c).drops ++ ((e.jtc.entries.filter fun en =>
      en.expiryDue = true ∧ en.custody = .shadowed ∧ en.stopReason = none ∧ en.shadowChannel = some c).map
        fun en => ⟨en.place, .deadline⟩) := by
  obtain ⟨hstops, hdrops⟩ := e.period_messages rq c
  rw [hstops, hdrops, ticked_chan]
  exact ⟨rfl, rfl⟩

theorem period_table_rest : { (e.period rq).jtc with
    entries := e.jtc.entries, queue := e.jtc.queue, lineEvents := e.jtc.lineEvents } = e.jtc := by
  rw [period_jtc]
  exact e.ticked_table_rest rq

end Engine

/-! ### TAP_TICK -/

/-- A state that differs in the levels of RQ0 to RQ7 alone. -/
theorem State.SameBut.of_rq {s t : State} {rq : BitVec 8} {ps : List Part}
    (h : State.SameBut ps { s with rq := rq } t) :
    s.SameBut (.pins :: ps) t := by
  intro p hp
  rw [List.mem_cons, not_or] at hp
  have hsame := h p hp.2
  cases p with
  | pins => exact absurd rfl hp.1
  | _ => exact hsame

theorem execTapTick_runs {s : State} (h : s.eng.timebase = .running) (rq : BitVec 8) :
    exec (.tapTick rq) s = .next (State.onEngine { s with rq := rq } fun e => e.advanceTimebase rq) := by
  change execTapTick rq s = _
  simp only [execTapTick, State.onEngine, h, if_true]

theorem execTapTick_stands {s : State} (h : s.eng.timebase ≠ .running) (rq : BitVec 8) :
    exec (.tapTick rq) s = .next (State.onEngine { s with rq := rq } fun e => e) := by
  change execTapTick rq s = _
  simp only [execTapTick, State.onEngine, h, if_false]

/-- Settles O42: the Timebase's conditions by the engine state, and the parts of the period by their own lemmas. -/
theorem tapTickCounts : Obligations.TapTickCounts := by
  refine ⟨fun e => ⟨e.frozen_iff, ?_, ?_, e.timebase_eq_paused_iff⟩, fun s rq => ?_⟩
  · rw [e.timebase_eq_cleared_iff, ← Bool.not_eq_true, e.working_iff, not_or]
  · rw [e.timebase_eq_running_iff, e.working_iff]
  by_cases hrun : s.eng.timebase = .running
  · refine ⟨_, execTapTick_runs hrun rq, rfl, rfl, fun h => absurd hrun h, fun _ => ⟨s.eng.period_count rq,
      s.eng.period_filters rq, s.eng.period_lineEvents rq, ?_, fun c h => s.eng.period_still rq ?_, fun ho => ?_,
      ?_, ?_⟩⟩
    · intro c j rs body p b hm hstate hwork hfree hunit hleft htick hp hb
      exact s.eng.period_issues rq hm ⟨hstate, hwork, hfree, hunit, hleft, htick⟩ hp hb
    · rintro j rs body hm ⟨hstate, hwork, hfree, hunit, hleft, htick⟩
      obtain h | h | h | h | h | h := h j rs body hm
      · exact h hstate
      · exact h hwork
      · exact Bool.false_ne_true (hfree.symm.trans h)
      · exact hunit h
      · exact h hleft
      · exact h htick
    · obtain ⟨hentries, hqueue⟩ := s.eng.period_expiries rq ho
      exact ⟨hentries, hqueue, fun c => (s.eng.period_sent rq c).1, fun c => (s.eng.period_sent rq c).2⟩
    · exact s.eng.period_table_rest rq
    · have hframe : State.SameBut ([.timebase, .table] ++ everyChannel) { s with rq := rq } _ :=
        State.onEngine_sameBut (f := fun e => e.advanceTimebase rq) fun p hp => s.eng.advance_same rq hp
      exact hframe.of_rq
  · have hframe : State.SameBut [] { s with rq := rq } _ := State.onEngine_sameBut_of_eq (f := fun e => e) [] rfl
    exact ⟨_, execTapTick_stands hrun rq, rfl, rfl, fun _ => hframe.of_rq, fun h => absurd h hrun⟩

end Sys2Proof.Machine
end

section
/-! SUPPORT. STOP and the drain (R57, R155, R158): what acting on every entry does to the table, and the statement. -/

namespace Sys2Proof.Machine

theorem Entry.afterDrain_place (en : Entry) : en.afterDrain.place = en.place := by
  unfold Entry.afterDrain
  split
  · rfl
  · split <;> rfl

/-- What the closing queue gains when an entry is drained. -/
def Entry.drainQueue (en : Entry) : List Nat :=
  if en.custody = .pending ∨ en.custody = .armed then [en.place] else []

namespace Engine

theorem drainEntry_jtc (e : Engine) (en : Entry) (ho : e.jtc.Ordered) (hen : en ∈ e.jtc.entries) :
    (e.drainEntry en).jtc = e.jtc.actedOn [en] Entry.afterDrain Entry.drainQueue := by
  have hone (f : Entry) (hf : f = en.afterDrain) : (e.jtc.entries.map fun x => if x = en then f else x) =
      e.jtc.entries.map fun x => if x ∈ [en] then x.afterDrain else x := by
    refine List.map_congr_left fun x _ => ?_
    by_cases hx : x = en <;> simp [hx, hf]
  have hself (h : en.afterDrain = en) :
      e.jtc.entries = e.jtc.entries.map fun x => if x ∈ [en] then x.afterDrain else x := by
    rw [← hone en h.symm]
    refine (List.map_id _).symm.trans (List.map_congr_left fun x _ => ?_)
    by_cases hx : x = en <;> simp [hx]
  unfold JobTable.actedOn Engine.drainEntry
  cases hc : en.custody with
  | pending | armed =>
    rw [Engine.setJtc_jtc, JobTable.closeWaiting, ho.close hen, hone]
    · simp [Entry.drainQueue, hc]
    · simp [Entry.afterDrain, hc, Entry.waitingBytes, Entry.heldBytes]
  | created | closing =>
    dsimp only
    rw [← hself (by simp [Entry.afterDrain, hc])]
    simp [Entry.drainQueue, hc]
  | active | shadowed =>
    by_cases hs : en.stopReason = none
    · rw [requestStop_jtc hs, ho.update hen, hone]
      · simp [Entry.drainQueue, hc]
      · simp [Entry.afterDrain, hc, hs]
    · rw [requestStop_again _ _ hs, ← hself (by simp [Entry.afterDrain, hc, hs])]
      simp [Entry.drainQueue, hc]

/-- The drain of an entry changes the table and the channels alone. -/
theorem drainEntry_rest (e : Engine) (en : Entry) :
    { e.drainEntry en with jtc := e.jtc, channels := e.channels } = e := by
  unfold Engine.drainEntry
  cases en.custody with
  | active | shadowed => exact e.requestStop_rest en .drain
  | created | pending | armed | closing => rfl

theorem drain_rest (es : List Entry) (e : Engine) :
    { es.foldl Engine.drainEntry e with jtc := e.jtc, channels := e.channels } = e := by
  induction es generalizing e with
  | nil => rfl
  | cons en es ih =>
    have hmore := congrArg (fun f : Engine => { f with jtc := e.jtc, channels := e.channels }) (ih (e.drainEntry en))
    exact hmore.trans (e.drainEntry_rest en)

/-- The drain acts on every entry, and those that wait join the closing queue in intake order. -/
theorem drain_jtc {e : Engine} (ho : e.jtc.Ordered) : (e.jtc.entries.foldl Engine.drainEntry e).jtc = { e.jtc with
    entries := e.jtc.entries.map Entry.afterDrain
    queue := e.jtc.queue ++
      (e.jtc.entries.filter fun en => en.custody = .pending ∨ en.custody = .armed).map fun en => en.place } := by
  rw [JobTable.foldl_acts (P := fun _ => True) Entry.afterDrain_place
    (fun e en ho hen _ => e.drainEntry_jtc en ho hen) _
    e ho (fun en hen => ⟨hen, trivial⟩) ho.nodup, JobTable.actedOn]
  congr 1
  · exact List.map_congr_left fun x hx => if_pos hx
  · exact congrArg _ (flatMap_ite_singleton _ _ _)

end Engine

/-! ### STOP -/

/-- The engine while a STOP is accepted: DRAINING, the command done. -/
def Engine.draining (e : Engine) : Engine := e.setCtl { e.ctl with state := .draining, command := 2, result := .done }

theorem Engine.draining_same (e : Engine) {p : Part} (hp : p ≠ .control) : e.same e.draining p := by
  cases p with
  | control => exact absurd rfl hp
  | mem | ports | arb | pins | queue => trivial
  | timebase => exact ⟨rfl, rfl⟩
  | _ => rfl

/-- A step's effect on the arbiter and the engine leaves the rest of the state. -/
theorem State.sameBut_arb_eng {s : State} {ar : Arbiter} {e : Engine} {ps : List Part} (ha : .arb ∈ ps)
    (h : ∀ p, p ∉ ps → s.eng.same e p) : s.SameBut ps { s with arb := ar, eng := s.eng.settle e } := by
  intro p hp
  have hsame := Engine.same_trans (h p hp) (s.eng.settle_same e p)
  cases p with
  | arb => exact absurd ha hp
  | mem | ports | queue => rfl
  | pins => exact ⟨rfl, rfl⟩
  | _ => exact hsame

theorem Engine.commandStop_accepted {e : Engine} (hflight : e.ctl.flight = none) (hrun : e.ctl.state = .running) :
    e.commandStop = e.jtc.entries.foldl Engine.drainEntry e.draining :=
  if_pos (by simp [hflight, hrun, Engine.isRunning])

theorem exec_stop {s : State} {p : Port} (h : s.ServesRow p) (hlevel : s.ports.level[p] = 0) :
    exec (.stop p) s = .next { s with arb := s.arb.AfterRow p, eng := s.eng.settle s.eng.commandStop } := by
  have haccess := Vector.set_set_none p.isLt h.1 (some (registerWriteAccess .control 0b1111 2))
  have hserve : (s.rowGranted p (registerWriteAccess .control 0b1111 2)).serveAccess p
      (registerWriteAccess .control 0b1111 2) = { s with arb := s.arb.AfterRow p, eng := s.eng.commandStop } := by
    have hcommand (t : State) : t.takeCommand (bits 2 0 3) = { t with eng := t.eng.commandStop } := rfl
    rw [State.serveAccess, State.decideAccess_control (by exact hlevel), hcommand]
    simp only [State.rowGranted]
    rw [haccess]
  change Host.Outcome.next (s.registerRow p .control 0b1111 2) = _
  rw [State.registerRow_served h, State.settled]
  simp only [hserve]

/-- Settles O13: the row's service is the command itself, and the drain acts on each entry as `afterDrain` says. -/
theorem stopDrains : Obligations.StopDrains := by
  intro s p h hlevel hflight hrun ho
  have hstop := Engine.commandStop_accepted hflight hrun
  have hrest := s.eng.draining.drain_rest s.eng.jtc.entries
  rw [← hstop] at hrest
  refine ⟨_, exec_stop h hlevel, ?_, ?_, fun c => ?_, rfl,
    State.sameBut_arb_eng (by simp) fun q hq => ?_⟩
  · rw [Engine.settle_ctl]
    have hctl := congrArg Engine.ctl hrest
    exact hctl
  · rw [Engine.settle_jtc, hstop]
    exact Engine.drain_jtc (e := s.eng.draining) ho
  · rw [Engine.settle_chan_own, hstop, Engine.drainEntries_chan]
    rfl
  · simp only [List.cons_append, List.nil_append, List.mem_cons, not_or] at hq
    obtain ⟨hcontrol, htable, _, hchannels⟩ := hq
    refine Engine.same_trans (s.eng.draining_same hcontrol) (Engine.same_of_jtc_channels hrest ?_)
    simpa using ⟨htable, hchannels⟩

end Sys2Proof.Machine
end

section
/-! SUPPORT. The state right after a power-on reset, and that the laws of the model hold there. -/

namespace Sys2Proof.Machine

/-- Settles O2: every field is read off the state. -/
theorem resetState : Obligations.ResetState := by
  have hflags {α : Type} {n : Nat} (x : α) (i : Fin n) : (Vector.replicate n x)[i] = x := Vector.getElem_replicate _
  refine ⟨by decide, rfl, fun d => ⟨hflags _ d, hflags _ d⟩, rfl, rfl, rfl, rfl,
    fun n => ⟨hflags _ n, hflags _ n, hflags _ n, hflags _ n⟩, rfl, fun c => hflags _ c,
    ⟨rfl, rfl, rfl, rfl, rfl, rfl⟩, rfl, fun o => ?_, rfl, rfl, rfl, rfl, rfl, by decide, rfl, rfl, rfl,
    fun p => ⟨hflags _ p, hflags _ p, hflags _ p, hflags _ p, ?_⟩, rfl, rfl, rfl, rfl, rfl, rfl, rfl⟩
  · cases o with
    | channel c => exact hflags _ c
    | intake | closing | control => rfl
  · rw [State.waitLine]
    exact congrArg Option.isSome (hflags none p)

section Empty

variable (d : Domain)

theorem JobTable.empty_room : (JobTable.empty d).Room :=
  ⟨Nat.zero_le 48, fun _ => Nat.zero_le 8⟩

theorem JobTable.empty_ordered : (JobTable.empty d).Ordered := by
  simp [JobTable.Ordered, JobTable.empty]

theorem JobTable.empty_unique : (JobTable.empty d).Unique := by
  simp [JobTable.Unique, JobTable.empty]

theorem JobTable.empty_lineLaw : (JobTable.empty d).LineLaw := by
  simp [JobTable.LineLaw, JobTable.empty]

end Empty

/-- Settles O3: the table is empty, no map is loaded, and nothing is in flight. -/
theorem resetKeepsLaws : Obligations.ResetKeepsLaws := by
  refine ⟨⟨rfl, fun p m hm => ?_⟩, JobTable.empty_room 7, JobTable.empty_ordered 7, JobTable.empty_lineLaw 7,
    JobTable.empty_unique 7, ?_⟩
  · have hmap : State.reset.ports.map[p] = none := Vector.getElem_replicate _
    rw [hmap] at hm
    exact absurd hm nofun
  · simp [Control.FlightLaw, State.reset, Engine.powerOn]

end Sys2Proof.Machine
end

section
/-! SUPPORT. A pin or power-on reset (R128, R134, R161): what the service of a port's access leaves, so that the access
in a locked sequence may complete before it, and the statement. -/

namespace Sys2Proof.Machine

/-! ### FRZ through the commands (R154) -/

namespace Engine

theorem beginReading_frz (e : Engine) (t : EngineStep) : (e.beginReading t).ctl.frz = e.ctl.frz := by
  unfold Engine.beginReading Engine.askAnchor
  split
  · split <;> rfl
  · rfl

theorem refuse_frz (e : Engine) (code : BitVec 3) : (e.ctl.refuse code).frz = e.ctl.frz := by
  unfold Control.refuse
  split <;> rfl

theorem commandStart_frz (e : Engine) : e.commandStart.ctl.frz = e.ctl.frz := by
  unfold Engine.commandStart
  split
  · exact beginReading_frz _ _
  · exact e.refuse_frz 1

theorem commandStop_frz (e : Engine) : e.commandStop.ctl.frz = e.ctl.frz := by
  unfold Engine.commandStop
  split
  · have hfrz := congrArg (fun f : Engine => f.ctl.frz) (drain_rest e.jtc.entries
      (e.setCtl { e.ctl with state := .draining, command := 2, result := .done }))
    exact hfrz
  · exact e.refuse_frz 2

theorem commandMapReload_frz (e : Engine) : e.commandMapReload.ctl.frz = e.ctl.frz := by
  unfold Engine.commandMapReload
  split
  · exact beginReading_frz _ _
  · exact e.refuse_frz 3

theorem watch_ctl (e : Engine) (addr : Nat) (enables : BitVec 4) : (e.watch addr enables).ctl = e.ctl := by
  have hfold (ds : List Domain) (e : Engine) : (ds.foldl (fun e d => e.watchDomain addr d) e).ctl = e.ctl := by
    induction ds generalizing e with
    | nil => rfl
    | cons d ds ih =>
      rw [List.foldl_cons, ih]
      unfold Engine.watchDomain
      split <;> rfl
  unfold Engine.watch
  split
  · exact hfold _ _
  · rfl

end Engine

/-! ### What the service of an access leaves -/

/-- The service of a port's access leaves the arbiter, the RQ levels and the queue; of the ports it leaves the levels
and the accesses that wait, and FRZ stays as it is driven. -/
structure State.Served (s t : State) : Prop where
  arb : t.arb = s.arb
  rq : t.rq = s.rq
  pending : t.pending = s.pending
  level : t.ports.level = s.ports.level
  access : t.ports.access = s.ports.access
  frz : t.eng.ctl.frz = s.eng.ctl.frz

namespace State

theorem refuseAccess_served (s : State) (p : Port) (k : ViolationKind) (a : PortAccess) :
    s.Served (s.refuseAccess p k a) := by
  unfold State.refuseAccess
  dsimp only
  split <;> exact ⟨rfl, rfl, rfl, rfl, rfl, rfl⟩

section Holder

variable {s : State} (h : s.arb.holder ≠ some .engine)
include h

theorem takeCommand_served (code : BitVec 3) : s.Served (s.takeCommand code) := by
  unfold State.takeCommand
  split
  · exact ⟨rfl, rfl, rfl, rfl, rfl, s.eng.commandStart_frz⟩
  · split
    · exact ⟨rfl, rfl, rfl, rfl, rfl, s.eng.commandStop_frz⟩
    · split
      · exact ⟨rfl, rfl, rfl, rfl, rfl, s.eng.commandMapReload_frz⟩
      · split
        · rw [State.engineReset, State.finishGranted_of_holder h]
          exact ⟨rfl, rfl, rfl, rfl, rfl, rfl⟩
        · split
          · refine ⟨rfl, rfl, rfl, rfl, rfl, ?_⟩
            unfold State.clearViolation
            dsimp only
            split <;> rfl
          · exact ⟨rfl, rfl, rfl, rfl, rfl, s.eng.refuse_frz code⟩

theorem registerWrite_served (p : Port) (r : RegName) (en : BitVec 4) (v : Word) :
    s.Served (s.registerWrite p r en v) := by
  unfold State.registerWrite
  split
  · cases r with
    | control => exact takeCommand_served h _
    | note | anchor | status | violation => exact ⟨rfl, rfl, rfl, rfl, rfl, rfl⟩
  · exact ⟨rfl, rfl, rfl, rfl, rfl, rfl⟩

theorem decideAccess_served (p : Port) (a : PortAccess) : s.Served (s.decideAccess p a) := by
  unfold State.decideAccess
  split
  · split
    · unfold State.sramServed
      split
      · exact ⟨rfl, rfl, rfl, rfl, rfl, congrArg Control.frz (s.eng.watch_ctl _ _)⟩
      · exact ⟨rfl, rfl, rfl, rfl, rfl, rfl⟩
    · exact s.refuseAccess_served _ _ _
  · unfold State.registerAccess
    split
    · exact registerWrite_served h _ _ _ _
    · exact ⟨rfl, rfl, rfl, rfl, rfl, rfl⟩
  · exact s.refuseAccess_served _ _ _

/-! ### The service does not depend on the arbiter -/

variable {ar : Arbiter} (har : ar.holder ≠ some .engine)
include har

theorem takeCommand_arb (code : BitVec 3) :
    State.takeCommand { s with arb := ar } code = { s.takeCommand code with arb := ar } := by
  have hreset : State.engineReset { s with arb := ar } = { s.engineReset with arb := ar } := by
    rw [State.engineReset, State.engineReset, State.finishGranted_of_holder h,
      State.finishGranted_of_holder (by exact har)]
  unfold State.takeCommand
  rw [hreset]
  simp only [apply_ite (fun t : State => { t with arb := ar })]
  rfl

theorem registerWrite_arb (p : Port) (r : RegName) (en : BitVec 4) (v : Word) :
    State.registerWrite { s with arb := ar } p r en v = { s.registerWrite p r en v with arb := ar } := by
  unfold State.registerWrite
  rw [show State.mayWrite { s with arb := ar } p r en = s.mayWrite p r en from rfl]
  split
  · cases r with
    | control => exact takeCommand_arb h har _
    | note | anchor | status | violation => rfl
  · rfl

theorem decideAccess_arb (p : Port) (a : PortAccess) :
    State.decideAccess { s with arb := ar } p a = { s.decideAccess p a with arb := ar } := by
  have hrefuse (k : ViolationKind) :
      State.refuseAccess { s with arb := ar } p k a = { s.refuseAccess p k a with arb := ar } := by
    unfold State.refuseAccess
    dsimp only
    split <;> rfl
  unfold State.decideAccess
  split
  · rw [show ({ s with arb := ar } : State).ports.allows p a.isWrite (pageOf a.word) =
      s.ports.allows p a.isWrite (pageOf a.word) from rfl]
    split
    · unfold State.sramServed
      split <;> rfl
    · exact hrefuse _
  · unfold State.registerAccess
    split
    · exact registerWrite_arb h har _ _ _ _
    · rfl
  · exact hrefuse _

end Holder

end State

/-! ### The grant unit in progress (R128, R139) -/

/-- A port's access has completed: WAIT is deasserted (R131). -/
def State.accessDone (s : State) (p : Port) : State :=
  { s with ports := { s.ports with access := s.ports.access.set p none } }

theorem State.finishGranted_rest (s : State) : { s.finishGranted with mem := s.mem, arb := s.arb } = s := by
  unfold State.finishGranted
  split <;> rfl

theorem State.finishHeld_of_holder {s : State} (h : ∀ p : Port, s.arb.holder ≠ some (.port p)) : s.finishHeld = s := by
  have hheld : s.heldAccess = none := by
    unfold State.heldAccess
    split
    · rename_i p hp
      exact absurd hp (h p)
    · rfl
  rw [State.finishHeld, hheld]

theorem Arbiter.sequenceAccess_holder {ar : Arbiter} {p : Port} (h : ar.holder = some (.port p)) (a : PortAccess) :
    (ar.sequenceAccess p a).holder ≠ some .engine := by
  unfold Arbiter.sequenceAccess
  split
  · exact nofun
  · split
    · exact nofun
    · simp [h]

section Held

variable {s : State} {p : Port} (h : s.arb.holder = some (.port p))
include h

theorem State.heldAccess_port : s.heldAccess = (s.ports.access[p]).map fun a => (p, a) := by
  simp only [State.heldAccess, h]

/-- The access of a locked sequence completes before the reset. -/
theorem State.finishHeld_port : ∃ t, s.Served t ∧ s.finishHeld = t.accessDone p := by
  unfold State.finishHeld
  rw [State.heldAccess_port h]
  cases ha : s.ports.access[p] with
  | none =>
    have hset : s.ports.access.set p none = s.ports.access := by
      rw [← ha]
      exact Vector.set_getElem_self _
    refine ⟨s, ⟨rfl, rfl, rfl, rfl, rfl, rfl⟩, ?_⟩
    rw [State.accessDone, hset]
    rfl
  | some a => exact ⟨s.decideAccess p a, State.decideAccess_served (by simp [h]) p a, rfl⟩

/-- It completes as LOCKED_SEQUENCE_ACCESS completes it. -/
theorem State.finishHeld_sequence : ∃ u, exec .lockedSequenceAccess s = .next u ∧ u.ports = s.finishHeld.ports ∧
    u.mem = s.finishHeld.mem := by
  cases ha : s.ports.access[p] with
  | none =>
    have hheld : s.heldAccess = none := by rw [State.heldAccess_port h, ha]; rfl
    refine ⟨s.settled fun s => s, ?_, ?_, ?_⟩
    · change execLockedSequenceAccess s = _
      simp only [execLockedSequenceAccess, State.settled, hheld]
    · rw [State.finishHeld, hheld]; rfl
    · rw [State.finishHeld, hheld]; rfl
  | some a =>
    have hheld : s.heldAccess = some (p, a) := by rw [State.heldAccess_port h, ha]; rfl
    have har : (s.arb.sequenceAccess p a).holder ≠ some .engine := Arbiter.sequenceAccess_holder h a
    have harb := State.decideAccess_arb (s := s) (by simp [h]) har p a
    refine ⟨s.settled fun s => State.serveAccess { s with arb := s.arb.sequenceAccess p a } p a, ?_, ?_, ?_⟩
    · change execLockedSequenceAccess s = _
      simp only [execLockedSequenceAccess, State.settled, hheld]
    · simp only [State.finishHeld, hheld, State.settled_ports, State.serveAccess, harb]
    · simp only [State.finishHeld, hheld, State.settled_mem, State.serveAccess, harb]

end Held

/-! ### The reset (R161) -/

theorem Engine.settle_partReset (b e : Engine) (cause : ResetCause) :
    b.settle (e.partReset cause) = e.partReset cause := by
  have hreconsider : (e.partReset cause).reconsider = e.partReset cause := rfl
  have hsend : (e.partReset cause).sendDispatch = e.partReset cause := rfl
  have hchoose : (e.partReset cause).chooseUnit = e.partReset cause := rfl
  rw [Engine.settle, hreconsider, ite_self, hsend, hchoose]

/-- The state in which the reset is taken: the grant unit in progress is completed. -/
def State.unitFinished (s : State) : State := s.finishHeld.finishGranted

/-- A reset of the part, by its pin or at power-on, is the reset's own state, with what it leaves in the SRAM. -/
theorem exec_partReset {s : State} {i : Instr} {cells : List Host.Cell} {cause : ResetCause}
    (h : (i = .pinReset ∧ cause = .pin) ∨ (i = .powerOnReset cells ∧ cause = .powerOn)) :
    ∃ m, exec i s = .next { s.partReset cause with mem := m } ∧ (i = .pinReset → m = s.unitFinished.mem) ∧
      (i = .powerOnReset cells → m = Memory.ofCells cells) := by
  have hsettle (c : ResetCause) : s.eng.settle (s.partReset c).eng = (s.partReset c).eng :=
    Engine.settle_partReset _ _ _
  obtain ⟨rfl, rfl⟩ | ⟨rfl, rfl⟩ := h
  · refine ⟨s.unitFinished.mem, ?_, fun _ => rfl, nofun⟩
    change Host.Outcome.next (s.settled fun s => s.partReset .pin) = _
    rw [State.settled]
    exact congrArg (fun e => Host.Outcome.next { s.partReset .pin with eng := e }) (hsettle .pin)
  · refine ⟨Memory.ofCells cells, ?_, nofun, fun _ => rfl⟩
    change Host.Outcome.next (s.settled fun s => { s.partReset .powerOn with mem := Memory.ofCells cells }) = _
    rw [State.settled]
    exact congrArg (fun e => Host.Outcome.next { s.partReset .powerOn with mem := Memory.ofCells cells, eng := e })
      (hsettle .powerOn)

/-- Completing the unit in progress leaves the levels, the pins, the queue and FRZ. -/
theorem State.unitFinished_rest (s : State) : s.unitFinished.ports.level = s.ports.level ∧
    s.unitFinished.rq = s.rq ∧ s.unitFinished.pending = s.pending ∧
    s.unitFinished.eng.ctl.frz = s.eng.ctl.frz := by
  have hgranted := s.finishHeld.finishGranted_rest
  have hheld : s.finishHeld.ports.level = s.ports.level ∧ s.finishHeld.rq = s.rq ∧
      s.finishHeld.pending = s.pending ∧ s.finishHeld.eng.ctl.frz = s.eng.ctl.frz := by
    by_cases hp : ∃ p : Port, s.arb.holder = some (.port p)
    · obtain ⟨p, hp⟩ := hp
      obtain ⟨t, ht, heq⟩ := State.finishHeld_port hp
      rw [heq]
      exact ⟨ht.level, ht.rq, ht.pending, ht.frz⟩
    · rw [State.finishHeld_of_holder fun p h => hp ⟨p, h⟩]
      exact ⟨rfl, rfl, rfl, rfl⟩
  have hports := congrArg (fun t : State => t.ports.level) hgranted
  have hrq := congrArg State.rq hgranted
  have hpending := congrArg State.pending hgranted
  have hfrz := congrArg (fun t : State => t.eng.ctl.frz) hgranted
  obtain ⟨hl, hq, hp, hf⟩ := hheld
  exact ⟨hports.trans hl, hrq.trans hq, hpending.trans hp, hfrz.trans hf⟩

/-- With a locked sequence held, the unit in progress is the sequence's access alone. -/
theorem State.unitFinished_port {s : State} {p : Port} (h : s.arb.holder = some (.port p)) :
    s.unitFinished = s.finishHeld := by
  obtain ⟨t, ht, heq⟩ := State.finishHeld_port h
  refine State.finishGranted_of_holder ?_
  rw [heq]
  change t.arb.holder ≠ _
  simp [ht.arb, h]

/-- Settles O23: what the reset leaves is read off its state, and the unit in progress by who holds the arbiter. -/
theorem partResets : Obligations.PartResets := by
  intro s i cells cause hi
  obtain ⟨m, hexec, hpin, hpower⟩ := exec_partReset (s := s) hi
  obtain ⟨hlevel, hrq, hpending, hfrz⟩ := s.unitFinished_rest
  have hflags {α : Type} {n : Nat} (x : α) (i : Fin n) : (Vector.replicate n x)[i] = x := Vector.getElem_replicate _
  refine ⟨_, hexec, rfl, ?_, fun d => ⟨hflags _ d, hflags _ d, rfl⟩, rfl, rfl, rfl, rfl,
    fun n => ⟨hflags _ n, hflags _ n, hflags _ n, rfl⟩, rfl, fun c => hflags _ c, rfl, rfl, rfl, rfl, rfl, rfl,
    fun p => ⟨hflags _ p, hflags _ p⟩, rfl, rfl, rfl, hlevel, hrq, hpending, fun hport => ?_, fun p hport => ?_,
    fun u hip heng hunit => ?_, hpower⟩
  · rw [← hfrz]
    rfl
  · have hheld := State.finishHeld_of_holder hport
    have hports : s.unitFinished.ports = s.ports := by
      have h := congrArg State.ports s.finishGranted_rest
      rw [State.unitFinished, hheld]
      exact h
    have haccess := congrArg Ports.access hports
    have hdata := congrArg Ports.readData hports
    refine ⟨haccess, hdata, fun hip heng => ?_⟩
    rw [hpin hip, State.unitFinished, hheld, State.finishGranted_of_holder heng]
  · obtain ⟨t, ht, heq⟩ := State.finishHeld_port hport
    obtain ⟨u, hu, huports, humem⟩ := State.finishHeld_sequence hport
    have hfinish := State.unitFinished_port hport
    have haccess : (s.partReset cause).ports.access = s.ports.access.set p none := by
      change s.unitFinished.ports.access = _
      rw [hfinish, heq, ← ht.access]
      rfl
    refine ⟨?_, fun q hq => ?_, u, hu, ?_, ?_, fun hip => ?_⟩
    · change (s.partReset cause).ports.access[p] = none
      rw [haccess]
      exact Vector.getElem_set_self _
    · change (s.partReset cause).ports.access[q] = _
      have hpq : p.val ≠ q.val := fun h => hq (Fin.ext h.symm)
      rw [haccess]
      exact Vector.getElem_set_ne _ _ hpq
    · rw [huports, ← hfinish]; rfl
    · rw [huports, ← hfinish]; rfl
    · rw [hpin hip, humem, hfinish]
  · rw [hpin hip, State.unitFinished, State.finishHeld_of_holder (by simp [heng])]
    simp only [State.finishGranted, heng, hunit]

end Sys2Proof.Machine
end

section
/-! SUPPORT. Closing (R59 to R64): the fields of the result words, the steps of a closing, and the statements. -/

namespace Sys2Proof.Machine

/-! ### The flags word (R60, 12.3) -/

theorem JobOutcome.code_lt (o : JobOutcome) : o.code.toNat < 8 := by cases o <;> decide

theorem FaultKind.code_lt (k : FaultKind) : k.code.toNat < 32 := by cases k <;> decide

theorem FaultOperand.code_lt (o : FaultOperand) : o.code.toNat < 16 := by cases o <;> decide

theorem FaultPhase.code_lt (p : FaultPhase) : p.code.toNat < 4 := by cases p <;> decide

theorem flag_toNat (b : Bool) : (BitVec.ofNat 32 b.toNat).toNat = b.toNat := by cases b <;> rfl

section ResultWord

variable (r : JobResult) (lineOverrun contextLost preempted : Bool)

/-- The flags word as a number: its fields side by side. -/
theorem resultWord_toNat : (resultWord r lineOverrun contextLost preempted).toNat =
    r.outcome.code.toNat + 2 ^ 8 * r.faultKind.code.toNat + 2 ^ 16 * r.operand.code.toNat +
      2 ^ 20 * r.phase.code.toNat + 2 ^ 24 * lineOverrun.toNat + 2 ^ 25 * contextLost.toNat +
      2 ^ 26 * preempted.toNat := by
  have hoc := r.outcome.code_lt
  have hkc := r.faultKind.code_lt
  have hpc := r.operand.code_lt
  have hhc := r.phase.code_lt
  have hl := flag_toNat lineOverrun
  have hc := flag_toNat contextLost
  have hp := flag_toNat preempted
  have hlb := lineOverrun.toNat_lt
  have hcb := contextLost.toNat_lt
  have hpb := preempted.toNat_lt
  have h1 := toNat_or_place (a := r.outcome.code) (b := r.faultKind.code) (k := 8) (by omega) (by omega)
  have h2 := toNat_or_place (a := _ ||| place r.faultKind.code 8) (b := r.operand.code) (k := 16)
    (by rw [h1]; omega) (by omega)
  have h3 := toNat_or_place (a := _ ||| place r.operand.code 16) (b := r.phase.code) (k := 20)
    (by rw [h2]; omega) (by omega)
  have h4 := toNat_or_place (a := _ ||| place r.phase.code 20) (b := BitVec.ofNat 32 lineOverrun.toNat) (k := 24)
    (by rw [h3]; omega) (by rw [hl]; omega)
  have h5 := toNat_or_place (a := _ ||| place (BitVec.ofNat 32 lineOverrun.toNat) 24)
    (b := BitVec.ofNat 32 contextLost.toNat) (k := 25) (by rw [h4]; omega) (by rw [hc]; omega)
  have h6 := toNat_or_place (a := _ ||| place (BitVec.ofNat 32 contextLost.toNat) 25)
    (b := BitVec.ofNat 32 preempted.toNat) (k := 26) (by rw [h5]; omega) (by rw [hp]; omega)
  rw [resultWord, h6, h5, h4, h3, h2, h1, hl, hc, hp]

/-- A field of the flags word, read off its number. -/
theorem resultWord_fields :
    (resultWord r lineOverrun contextLost preempted).extractLsb' 0 8 = r.outcome.code.extractLsb' 0 8 ∧
    (resultWord r lineOverrun contextLost preempted).extractLsb' 8 8 = r.faultKind.code.extractLsb' 0 8 ∧
    (resultWord r lineOverrun contextLost preempted).extractLsb' 16 4 = r.operand.code.extractLsb' 0 4 ∧
    (resultWord r lineOverrun contextLost preempted).extractLsb' 20 4 = r.phase.code.extractLsb' 0 4 ∧
    (resultWord r lineOverrun contextLost preempted).extractLsb' 27 5 = 0 := by
  have hword := resultWord_toNat r lineOverrun contextLost preempted
  have hoc := r.outcome.code_lt
  have hkc := r.faultKind.code_lt
  have hpc := r.operand.code_lt
  have hhc := r.phase.code_lt
  have hlb := lineOverrun.toNat_lt
  have hcb := contextLost.toNat_lt
  have hpb := preempted.toNat_lt
  refine ⟨?_, ?_, ?_, ?_, ?_⟩ <;> refine BitVec.eq_of_toNat_eq ?_ <;> simp only [toNat_field, hword]
  · omega
  · omega
  · omega
  · omega
  · change _ = 0
    omega

theorem toNat_mod_two_eq_one (b : Bool) : b.toNat % 2 = 1 ↔ b = true := by cases b <;> decide

theorem resultWord_flags :
    (resultWord r lineOverrun contextLost preempted).getLsbD 24 = lineOverrun ∧
    (resultWord r lineOverrun contextLost preempted).getLsbD 25 = contextLost ∧
    (resultWord r lineOverrun contextLost preempted).getLsbD 26 = preempted := by
  have hword := resultWord_toNat r lineOverrun contextLost preempted
  have hoc := r.outcome.code_lt
  have hkc := r.faultKind.code_lt
  have hpc := r.operand.code_lt
  have hhc := r.phase.code_lt
  have hlb := lineOverrun.toNat_lt
  have hcb := contextLost.toNat_lt
  have hpb := preempted.toNat_lt
  refine ⟨?_, ?_, ?_⟩ <;> rw [Bool.eq_iff_iff, getLsbD_iff_div, hword]
  · rw [← toNat_mod_two_eq_one lineOverrun]
    omega
  · rw [← toNat_mod_two_eq_one contextLost]
    omega
  · rw [← toNat_mod_two_eq_one preempted]
    omega

end ResultWord

/-- An outcome other than FAULT writes no fault fields (R60). -/
theorem resultWord_unfaulted {r : JobResult} (h : r.outcome ≠ .fault) (lineOverrun contextLost preempted : Bool) :
    (resultWord r.written lineOverrun contextLost preempted).extractLsb' 8 16 = 0 := by
  have hword := resultWord_toNat r.written lineOverrun contextLost preempted
  have hwritten : r.written = { r with faultKind := .none, operand := .none, phase := .none, selector := 0 } := if_neg h
  have hkind : r.written.faultKind.code.toNat = 0 := by rw [hwritten]; rfl
  have hoperand : r.written.operand.code.toNat = 0 := by rw [hwritten]; rfl
  have hphase : r.written.phase.code.toNat = 0 := by rw [hwritten]; rfl
  have hoc := r.written.outcome.code_lt
  refine BitVec.eq_of_toNat_eq ?_
  rw [toNat_field, hword, hkind, hoperand, hphase]
  change _ = 0
  omega

/-! ### CLOSING_BEGIN -/

/-- The closing of an entry begins: the result burst is issued. -/
def Engine.closingBegun (e : Engine) (en : Entry) : Engine :=
  (e.setClosing en.place .result).askClosing .resultWrite
    (writeWords ((e.domain en.domain).slotWord en.slot 8) en.resultWords)

theorem execClosingBegin_next {s : State} {en : Entry} (h : s.eng.nextToClose = some en) :
    exec .closingBegin s = .next (s.onEngine fun e => e.closingBegun en) := by
  change execClosingBegin s = _
  simp only [execClosingBegin, State.onEngine, h]
  rfl

/-- Settles O58: the head of the queue is the next to close, and the burst's words are those of its result. -/
theorem closingBegins : Obligations.ClosingBegins := by
  refine ⟨⟨rfl, rfl, rfl, rfl⟩, fun s en r more hwork hclosing hqueue hfind htaken hr => ?_⟩
  have hnext : s.eng.nextToClose = some en := by
    simp [Engine.nextToClose, hwork, hclosing, hqueue, hfind, htaken]
  have hout : en.outcome = r := by simp only [Entry.outcome, hr]
  have hword : en.flagsWord false = resultWord r.written en.lineOverrun false en.preempted := by
    rw [Entry.flagsWord, hout]
  obtain ⟨hoc, hkc, hpc, hhc, hzero⟩ := resultWord_fields r.written en.lineOverrun false en.preempted
  obtain ⟨hline, hlost, hpre⟩ := resultWord_flags r.written en.lineOverrun false en.preempted
  have hdata : r.written.outcome = r.outcome ∧ r.written.bytesDone = r.bytesDone ∧ r.written.crc = r.crc := by
    unfold JobResult.written
    split <;> exact ⟨rfl, rfl, rfl⟩
  obtain ⟨houtcome, hbytes, hcrc⟩ := hdata
  refine ⟨_, execClosingBegin_next hnext, s.eng.settle_jtc _, ⟨en.flagsWord false, r.written.selector.setWidth 32,
    State.onEngine_presents ?_, ?_, fun hf => ?_, fun hf => ?_, rfl, ?_, ?_, ?_, ?_⟩,
    State.onEngine_sameBut fun p hp => ?_⟩
  · have hwords : en.resultWords =
        [en.flagsWord false, r.written.selector.setWidth 32, BitVec.ofNat 32 r.bytesDone, r.crc] := by
      rw [Entry.resultWords, hout, ← hbytes, ← hcrc]
    rw [← hwords]
    exact Engine.ask_presents _ _ _ _
  · rw [hword, hoc, houtcome]
  · have hwritten : r.written = r := if_pos hf
    rw [hword, hkc, hpc, hhc, hwritten]
    exact ⟨rfl, rfl, rfl, rfl⟩
  · have hsel : r.written.selector = 0 := by simp [JobResult.written, hf]
    rw [hword, resultWord_unfaulted hf, hsel]
    exact ⟨rfl, rfl⟩
  · rw [hword, hline]
  · rw [hword, hlost]
  · rw [hword, hpre]
  · rw [hword, hzero]
  · exact s.eng.same_of_jtc_ei _ _ fun h => hp (by simp [h])

end Sys2Proof.Machine
end

section
/-! SUPPORT. The steps of a closing after its result burst (R60 to R64, R114, R164). -/

namespace Sys2Proof.Machine

/-! ### A closing that goes on -/

/-- A closing goes on to a step and asks for its access. -/
def Engine.closingGoes (e : Engine) (en : Entry) (st : ClosingStep) (t : EngineStep) (a : EngineAccess) : Engine :=
  (e.setClosing en.place st).askClosing t a

theorem Engine.closingEntry_eq {e : Engine} {en : Entry} {st : ClosingStep}
    (hclosing : e.jtc.closing = some ⟨en.place, st⟩) (hfind : e.jtc.find en.place = some en) :
    e.closingEntry = some en := by
  simp only [Engine.closingEntry, hclosing, hfind]

theorem State.closing_afterUnit (s : State) (x : EngineAccess) (en : Entry) (st : ClosingStep) (t : EngineStep)
    (a : EngineAccess) :
    (s.afterUnit x (s.eng.dropUnit.closingGoes en st t a)).eng.jtc = { s.eng.jtc with closing := some ⟨en.place, st⟩ } ∧
    (s.afterUnit x (s.eng.dropUnit.closingGoes en st t a)).eng.presents .closing t a ∧
    s.SameBut [.mem, .arb, .table] (s.afterUnit x (s.eng.dropUnit.closingGoes en st t a)) := by
  refine ⟨s.eng.settle_jtc _, s.afterUnit_presents x (Engine.ask_presents _ _ _ _),
    State.afterUnit_sameBut (by simp) (.inl (by simp)) fun p hp => s.eng.same_of_jtc_ei _ _ fun h => hp (by simp [h])⟩

section Steps

variable {s : State} {en : Entry} {x : EngineAccess}

theorem exec_resultWrite_claimed {cl : Claim} (h : s.completes .closing .resultWrite x)
    (hentry : s.eng.closingEntry = some en) (hcl : en.claim = some cl) : exec .resultWrite s = .next (s.afterUnit x
      (s.eng.dropUnit.closingGoes en .release .contextRelease (.pair (cl.descriptor + 12) .release))) := by
  have hdropped : s.eng.dropUnit.closingEntry = some en := hentry
  change execResultWrite s = _
  rw [execResultWrite, completeEngine_afterUnit h]
  simp only [hdropped, hcl]
  rfl

/-- The DONE write is issued. -/
def Engine.closingDone (e : Engine) (en : Entry) : Engine :=
  e.closingGoes en .done .doneWrite (.write ((e.domain en.domain).slotBase + 64 * en.slot.val) [4, 0, 0, 0])

theorem exec_resultWrite_unclaimed (h : s.completes .closing .resultWrite x)
    (hentry : s.eng.closingEntry = some en) (hcl : en.claim = none) :
    exec .resultWrite s = .next (s.afterUnit x (s.eng.dropUnit.closingDone en)) := by
  have hdropped : s.eng.dropUnit.closingEntry = some en := hentry
  change execResultWrite s = _
  rw [execResultWrite, completeEngine_afterUnit h]
  simp only [hdropped, hcl]
  rfl

theorem exec_releaseMarkWrite (h : s.completes .closing .releaseMarkWrite x) (hentry : s.eng.closingEntry = some en) :
    exec .releaseMarkWrite s = .next (s.afterUnit x (s.eng.dropUnit.closingDone en)) := by
  have hdropped : s.eng.dropUnit.closingEntry = some en := hentry
  change execReleaseMarkWrite s = _
  rw [execReleaseMarkWrite, completeEngine_afterUnit h]
  simp only [hdropped]
  rfl

theorem exec_contextLostRewrite (h : s.completes .closing .contextLostRewrite x)
    (hentry : s.eng.closingEntry = some en) :
    exec .contextLostRewrite s = .next (s.afterUnit x (s.eng.dropUnit.closingDone en)) := by
  have hdropped : s.eng.dropUnit.closingEntry = some en := hentry
  change execContextLostRewrite s = _
  rw [execContextLostRewrite, completeEngine_afterUnit h]
  simp only [hdropped]
  rfl

theorem exec_contextRelease {a : Nat} (h : s.completes .closing .contextRelease (.pair a .release))
    (hentry : s.eng.closingEntry = some en) : exec .contextRelease s =
      .next (s.afterUnit (.pair a .release) (s.eng.dropUnit.contextReleased en (s.mem.word a))) := by
  have hdropped : s.eng.dropUnit.closingEntry = some en := hentry
  change execContextRelease s = _
  rw [execContextRelease, completeEngine_afterUnit h]
  simp only [hdropped]
  rfl

end Steps

/-! ### The release of the context (R61) -/

theorem Entry.flagsWord_lost (en : Entry) : en.flagsWord true = en.flagsWord false ||| 0x2000000 := by
  have hset : Machine.place (BitVec.ofNat 32 true.toNat) 25 = 0x2000000 := by decide
  have hclear : Machine.place (BitVec.ofNat 32 false.toNat) 25 = 0#32 := by decide
  have hmove (a l p : Word) : a ||| l ||| p = a ||| 0#32 ||| p ||| l := by
    rw [BitVec.or_zero, BitVec.or_assoc, BitVec.or_comm l p, ← BitVec.or_assoc]
  rw [Entry.flagsWord, Entry.flagsWord, resultWord, resultWord, hset, hclear, hmove]

theorem Engine.contextReleased_held {e : Engine} {en : Entry} {cl : Claim} {w : Word} (hcl : en.claim = some cl)
    (h : w.extractLsb' 0 4 = 4) : e.contextReleased en w =
      e.closingGoes en .mark .releaseMarkWrite (.write cl.saveArea [0, 0, 0, 0]) := by
  have hkind : kindOf w = 4 := h
  simp only [Engine.contextReleased, hcl, hkind, if_true]
  rfl

theorem Engine.contextReleased_lost {e : Engine} {en : Entry} {cl : Claim} {w : Word} (hcl : en.claim = some cl)
    (h : w.extractLsb' 0 4 ≠ 4) : e.contextReleased en w = e.closingGoes en .lost .contextLostRewrite
      (.write ((e.domain en.domain).slotBase + 64 * en.slot.val + 32)
        (wordBytes (en.flagsWord false ||| 0x2000000))) := by
  have hkind : ¬ kindOf w = 4 := h
  simp only [Engine.contextReleased, hcl, hkind, if_false, writeWords, wordsBytes_singleton, Entry.flagsWord_lost]
  rfl

theorem PairOp.release_held {w : Word} (h : w.extractLsb' 0 4 = 4) :
    PairOp.release.apply w = (w &&& 0xFFFFFFF0) ||| 3 := by
  have hkind : kindOf w = 4 := h
  simp only [PairOp.apply, hkind]
  rfl

theorem PairOp.release_other {w : Word} (h : w.extractLsb' 0 4 ≠ 4) : PairOp.release.apply w = w := by
  have hkind : ¬ kindOf w = 4 := h
  simp only [PairOp.apply, beq_iff_eq, hkind, if_false]

/-- Settles O59: each step completes its unit and goes on as its own lemma says. -/
theorem closingReleases : Obligations.ClosingReleases := by
  intro s en st x bs hclosing hfind
  have hentry := Engine.closingEntry_eq hclosing hfind
  refine ⟨fun h => ?_, fun cl hcl h => ?_, fun i step hi h => ?_⟩
  · cases hcl : en.claim with
    | some cl =>
      obtain ⟨hjtc, hpresents, hframe⟩ := s.closing_afterUnit (.write x bs) en .release .contextRelease
        (.pair (cl.descriptor + 12) .release)
      refine ⟨_, exec_resultWrite_claimed h hentry hcl, s.afterUnit_completed _ _, hframe, fun cl' hcl' => ?_, nofun⟩
      obtain rfl := Option.some.inj hcl'
      exact ⟨hjtc, hpresents⟩
    | none =>
      obtain ⟨hjtc, hpresents, hframe⟩ := s.closing_afterUnit (.write x bs) en .done .doneWrite
        (.write ((s.eng.domain en.domain).slotBase + 64 * en.slot.val) [4, 0, 0, 0])
      exact ⟨_, exec_resultWrite_unclaimed h hentry hcl, s.afterUnit_completed _ _, hframe, nofun,
        fun _ => ⟨hjtc, hpresents⟩⟩
  · have hword (hwf : s.mem.wf = true) := EngineAccess.pair_word hwf x .release h.2.2
    by_cases hk : (s.mem.word x).extractLsb' 0 4 = 4
    · obtain ⟨hjtc, hpresents, hframe⟩ := s.closing_afterUnit (.pair x .release) en .mark .releaseMarkWrite
        (.write cl.saveArea [0, 0, 0, 0])
      rw [← Engine.contextReleased_held hcl hk] at hjtc hpresents hframe
      exact ⟨_, exec_contextRelease h hentry, s.afterUnit_completed _ _, hframe,
        fun _ => ⟨fun hwf => (hword hwf).trans (PairOp.release_held hk), hjtc, hpresents⟩, fun hne => absurd hk hne⟩
    · obtain ⟨hjtc, hpresents, hframe⟩ := s.closing_afterUnit (.pair x .release) en .lost .contextLostRewrite
        (.write ((s.eng.dropUnit.domain en.domain).slotBase + 64 * en.slot.val + 32)
          (wordBytes (en.flagsWord false ||| 0x2000000)))
      rw [← Engine.contextReleased_lost (e := s.eng.dropUnit) hcl hk] at hjtc hpresents hframe
      exact ⟨_, exec_contextRelease h hentry, s.afterUnit_completed _ _, hframe, fun he => absurd he hk,
        fun _ => ⟨fun hwf => (hword hwf).trans (PairOp.release_other hk), hjtc, hpresents⟩⟩
  · obtain ⟨hjtc, hpresents, hframe⟩ := s.closing_afterUnit (.write x bs) en .done .doneWrite
      (.write ((s.eng.domain en.domain).slotBase + 64 * en.slot.val) [4, 0, 0, 0])
    obtain ⟨rfl, rfl⟩ | ⟨rfl, rfl⟩ := hi
    · exact ⟨_, exec_releaseMarkWrite h hentry, s.afterUnit_completed _ _, hjtc, hpresents, hframe⟩
    · exact ⟨_, exec_contextLostRewrite h hentry, s.afterUnit_completed _ _, hjtc, hpresents, hframe⟩

/-! ### The notify requests and the freeing (R64, R114, R164) -/

theorem setFlag_getLsbD {n : Nat} (flags : BitVec n) (i : Nat) {j : Nat} (hj : j < n) :
    (setFlag flags i).getLsbD j = (flags.getLsbD j || decide (i = j)) := by
  have hone : (1#n <<< i).getLsbD j = decide (i = j) := by
    rw [Bool.eq_iff_iff]
    simp only [BitVec.getLsbD_shiftLeft, BitVec.getLsbD_one, Bool.and_eq_true, Bool.not_eq_true', decide_eq_true_eq,
      decide_eq_false_iff_not]
    omega
  rw [setFlag, BitVec.getLsbD_or, hone]

namespace Engine

variable (e : Engine) (en : Entry)

theorem notifyDomain_flag (c d : Domain) :
    (e.notifyDomain c).notify.getLsbD d.val = (e.notify.getLsbD d.val || decide (c = d)) := by
  rw [notifyDomain_notify, setFlag_getLsbD _ _ d.isLt, decide_eq_decide.mpr (Fin.ext_iff (a := c) (b := d)).symm]

/-- A notify request made on a condition. -/
theorem notifyIf_flag (P : Prop) [Decidable P] (c d : Domain) :
    (if P then e.notifyDomain c else e).notify.getLsbD d.val =
    (e.notify.getLsbD d.val || (decide (c = d) && decide P)) := by
  split
  · rename_i h
    rw [notifyDomain_flag, decide_eq_true h, Bool.and_true]
  · rename_i h
    rw [decide_eq_false h, Bool.and_false, Bool.or_false]

/-- What is asked of the domain named may be asked of the domain whose flag is meant. -/
theorem decide_domain (c d : Domain) (P : Domain → Bool) : (decide (c = d) && P c) = (decide (c = d) && P d) := by
  by_cases h : c = d
  · rw [h]
  · rw [decide_eq_false h, Bool.false_and, Bool.false_and]

theorem ownNotify_flag (d : Domain) : (e.ownNotify en).notify.getLsbD d.val =
    (e.notify.getLsbD d.val ||
      (decide (en.domain = d) && decide ((e.domain d).threshold < en.record.notifyLevel))) := by
  rw [Engine.ownNotify, notifyIf_flag,
    decide_domain en.domain d fun x => decide ((e.domain x).threshold < en.record.notifyLevel)]

/-- A service notify request is made only for a job that closes OK, to an enabled domain whose threshold it passes. -/
theorem serviceNotify_none (h : en.serviceNotify = none) : e.serviceNotify en = e := by
  simp only [Engine.serviceNotify, h]

theorem serviceNotify_flag {n : ServiceNotify} (h : en.serviceNotify = some n) (d : Domain) :
    (e.serviceNotify en).notify.getLsbD d.val = (e.notify.getLsbD d.val ||
      (decide (n.domain = d) && decide (en.outcome.outcome = .ok) && (e.domain d).enabled &&
        decide ((e.domain d).threshold < n.level))) := by
  have hdomain := decide_domain n.domain d fun x => decide (en.outcome.outcome = .ok) && (e.domain x).enabled &&
    decide ((e.domain x).threshold < n.level)
  simp only [Engine.serviceNotify, h]
  rw [notifyIf_flag]
  simp only [Bool.decide_and, Bool.decide_eq_true, Bool.and_assoc] at hdomain ⊢
  rw [hdomain]

/-- The notify requests change the notify flags alone. -/
theorem ownNotify_rest : { e.ownNotify en with notify := e.notify } = e := by
  unfold Engine.ownNotify
  split <;> rfl

theorem serviceNotify_rest : { e.serviceNotify en with notify := e.notify } = e := by
  unfold Engine.serviceNotify
  split
  · rfl
  · split <;> rfl

theorem closeOut_jtc : (e.closeOut en).jtc = e.jtc.free en.place := by
  rw [Engine.closeOut, Engine.setJtc_jtc, serviceNotify_jtc]

/-- The flags after the requests of a closing. -/
theorem closeOut_flag (d : Domain) : (e.closeOut en).notify.getLsbD d.val = e.notifiedFlag en d := by
  have hdomain : (e.ownNotify en).domain d = e.domain d := by
    have h := congrArg (fun f : Engine => f.domain d) (e.ownNotify_rest en)
    exact h
  change ((e.ownNotify en).serviceNotify en).notify.getLsbD d.val = _
  unfold Engine.notifiedFlag
  cases hn : en.serviceNotify with
  | none => rw [serviceNotify_none _ _ hn, ownNotify_flag, Bool.or_false]
  | some n => rw [serviceNotify_flag _ _ hn, ownNotify_flag, hdomain]

/-- Closing an entry out changes the table and the notify flags alone. -/
theorem closeOut_rest : { e.closeOut en with jtc := e.jtc, notify := e.notify } = e := by
  have hservice := congrArg (fun f : Engine => { f with jtc := e.jtc, notify := e.notify })
    ((e.ownNotify en).serviceNotify_rest en)
  have hown := congrArg (fun f : Engine => { f with jtc := e.jtc }) (e.ownNotify_rest en)
  exact hservice.trans hown

/-- An engine that differs in the table and the notify flags alone. -/
theorem same_of_jtc_notify {e f : Engine} (h : { f with jtc := e.jtc, notify := e.notify } = e) {p : Part}
    (hp : p ≠ .table ∧ p ≠ .notify) : e.same f p := by
  rw [← h]
  cases p with
  | table => exact absurd rfl hp.1
  | notify => exact absurd rfl hp.2
  | mem | ports | arb | pins | queue => trivial
  | timebase => exact ⟨rfl, rfl⟩
  | _ => rfl

end Engine

/-! ### DONE_WRITE and CHAIN_POSTING -/

section Done

variable {s : State} {en : Entry} {x : EngineAccess}

theorem exec_doneWrite_chained {k : Slot} (h : s.completes .closing .doneWrite x)
    (hentry : s.eng.closingEntry = some en)
    (hk : en.chainPost = some k) : exec .doneWrite s = .next (s.afterUnit x (s.eng.dropUnit.closingGoes en .chain
      .chainPosting (.pair (s.eng.domain en.domain).postAddr (.setBits (slotBits [k]))))) := by
  have hdropped : s.eng.dropUnit.closingEntry = some en := hentry
  change execDoneWrite s = _
  rw [execDoneWrite, completeEngine_afterUnit h]
  simp only [hdropped, hk]
  rfl

theorem exec_doneWrite_unchained (h : s.completes .closing .doneWrite x) (hentry : s.eng.closingEntry = some en)
    (hk : en.chainPost = none) : exec .doneWrite s = .next (s.afterUnit x (s.eng.dropUnit.closeOut en)) := by
  have hdropped : s.eng.dropUnit.closingEntry = some en := hentry
  change execDoneWrite s = _
  rw [execDoneWrite, completeEngine_afterUnit h]
  simp only [hdropped, hk]

theorem exec_chainPosting (h : s.completes .closing .chainPosting x) (hentry : s.eng.closingEntry = some en) :
    exec .chainPosting s =
      .next (s.afterUnit x ((s.eng.dropUnit.setAttention en.domain .posted).closeOut en)) := by
  have hdropped : s.eng.dropUnit.closingEntry = some en := hentry
  change execChainPosting s = _
  rw [execChainPosting, completeEngine_afterUnit h]
  simp only [hdropped]

end Done

theorem State.closeOut_afterUnit_flag (s : State) (x : EngineAccess) (e : Engine) (en : Entry) (d : Domain) :
    (s.afterUnit x (e.closeOut en)).eng.notify.getLsbD d.val = e.notifiedFlag en d := by
  rw [State.afterUnit, Engine.settle_notify, Engine.closeOut_flag]

theorem Engine.same_setAttention (e : Engine) (d : Domain) (a : Attention) {p : Part} (hp : p ≠ .post) :
    e.same (e.setAttention d a) p := by
  cases p with
  | post => exact absurd rfl hp
  | mem | ports | arb | pins | queue => trivial
  | timebase => exact ⟨rfl, rfl⟩
  | _ => rfl

theorem Entry.chainPost_eq_some {en : Entry} {k : Slot} (hok : en.outcome.outcome = .ok)
    (hk : en.record.chainSlot = some k) : en.chainPost = some k := (if_pos hok).trans hk

theorem Entry.chainPost_eq_none {en : Entry} (h : en.outcome.outcome ≠ .ok ∨ en.record.chainSlot = none) :
    en.chainPost = none := by
  unfold Entry.chainPost
  split
  · rename_i hok
    exact h.resolve_left fun hne => hne hok
  · rfl

/-- Settles O60: a chained job's DONE write goes on to the posting, and every other closing ends by `closeOut`. -/
theorem closingEnds : Obligations.ClosingEnds := by
  intro s en st x hclosing hfind
  have hentry := Engine.closingEntry_eq hclosing hfind
  refine ⟨fun bs h => ?_, fun m h => ?_⟩
  · cases hk : en.chainPost with
    | some k =>
      obtain ⟨hjtc, hpresents, hframe⟩ := s.closing_afterUnit (.write x bs) en .chain .chainPosting
        (.pair (s.eng.domain en.domain).postAddr (.setBits (slotBits [k])))
      refine ⟨_, exec_doneWrite_chained h hentry hk, s.afterUnit_completed _ _, fun k' hok hk' => ?_, fun hno => ?_⟩
      · have hsame : k = k' := Option.some.inj (hk.symm.trans (Entry.chainPost_eq_some hok hk'))
        subst hsame
        refine ⟨hjtc, ⟨_, hpresents, fun i hi => ?_⟩, hframe⟩
        rw [slotBits_getLsbD _ hi]
        simp [eq_comm]
      · simp [Entry.chainPost_eq_none hno] at hk
    | none =>
      refine ⟨_, exec_doneWrite_unchained h hentry hk, s.afterUnit_completed _ _, fun k hok hk' => ?_, fun _ => ?_⟩
      · simp [Entry.chainPost_eq_some hok hk'] at hk
      · refine ⟨?_, fun d => s.closeOut_afterUnit_flag _ s.eng.dropUnit en d, ?_⟩
        · rw [State.afterUnit_jtc, Engine.closeOut_jtc]
          rfl
        · refine State.afterUnit_sameBut (by simp) (.inl (by simp)) fun p hp => ?_
          exact Engine.same_of_jtc_notify (s.eng.dropUnit.closeOut_rest en)
            ⟨fun h => hp (by simp [h]), fun h => hp (by simp [h])⟩
  · have hrest := (s.eng.dropUnit.setAttention en.domain .posted).closeOut_rest en
    refine ⟨_, exec_chainPosting h hentry, s.afterUnit_completed _ _,
      fun hwf => EngineAccess.pair_word hwf x _ h.2.2, ?_, ?_,
      fun d => s.closeOut_afterUnit_flag _ (s.eng.dropUnit.setAttention en.domain .posted) en d, ?_⟩
    · have hpost := congrArg Engine.post hrest
      exact (s.eng.settle_post _).trans hpost
    · rw [State.afterUnit_jtc, Engine.closeOut_jtc]
      rfl
    · refine State.afterUnit_sameBut (by simp) (.inl (by simp)) fun p hp => ?_
      refine Engine.same_trans (f := s.eng.dropUnit.setAttention en.domain .posted) ?_
        (Engine.same_of_jtc_notify hrest ⟨fun h => hp (by simp [h]), fun h => hp (by simp [h])⟩)
      exact s.eng.dropUnit.same_setAttention _ _ fun h => hp (by simp [h])

end Sys2Proof.Machine
end

section
/-! SUPPORT. Stop and drop requests that reach a channel (R70, R75, R84), and a job that leaves its channel in a step
that completes no unit (R82, R83, R87). -/

namespace Sys2Proof.Machine

/-! ### The work of one channel in a step that completes no unit -/

theorem Engine.WorksAlone.onEngine {s : State} {c : ChannelId} {f : Engine} (h : Engine.WorksAlone c s.eng f) :
    s.SameBut [.channel c] (s.onEngine fun _ => f) :=
  State.onEngine_sameBut fun p hp =>
    (Engine.WorksOn.cons h (.refl [] f)).same p fun d hd hpd => hp (by simp_all)

theorem State.onEngine_own (s : State) (f : Engine) (c : ChannelId) :
    ((s.onEngine fun _ => f).eng.chan c).own = (f.chan c).own :=
  s.eng.settle_chan_own f c

/-- A channel that has become `ch`. -/
theorem State.onEngine_setChan (s : State) (c : ChannelId) (ch : Channel) :
    ((s.onEngine fun _ => s.eng.setChan c ch).eng.chan c).own = ch.own ∧
    s.SameBut [.channel c] (s.onEngine fun _ => s.eng.setChan c ch) := by
  refine ⟨?_, ((Engine.WorksAlone.refl c s.eng).setChan ch).onEngine⟩
  rw [State.onEngine_own, Engine.setChan_chan]

/-- A channel that its job has left with the bank full, having made the reports `rs`, chooses as R83 says. -/
theorem State.freesFull_onEngine {s : State} {c : ChannelId} {g : Engine} {a : Channel} {sh : Shadow}
    {rs : List Report} (hw : Engine.WorksAlone c s.eng g)
    (hk : (g.chan c).kept = { a.kept with reports := a.reports ++ rs }) (hsh : a.shadow = some sh) :
    s.FreesFull [] (s.onEngine fun _ => g.freeChannel c) c a sh rs := by
  have hctl : g.ctl = s.eng.ctl := hw.ctl
  have hshadow : (g.chan c).shadow = some sh := (congrArg Channel.shadow hk).trans hsh
  have hreports : (g.chan c).reports = a.reports ++ rs := congrArg Channel.reports hk
  refine ⟨fun hd => ?_, fun hd hf => ?_, fun hd hf => ?_⟩
  · rw [Engine.freeChannel_draining hshadow (hctl ▸ hd)]
    refine ⟨?_, (hw.setChan _).onEngine⟩
    rw [State.onEngine_own, Engine.setChan_chan, Channel.handShadow_own, hk, hreports]
    rfl
  · rw [Engine.freeChannel_frozen hshadow (hctl ▸ hd) (hw.frozen.trans hf)]
    have hjtc : g.jtc = s.eng.jtc := hw.jtc
    have hnext : g.disp.nextStart = s.eng.disp.nextStart := hw.nextStart
    have hworks := ((hw.setChan ((g.chan c).resumesHeld sh)).toWorks.trans
      (Engine.Works.noteStart c _ sh.job.place)).trans (Engine.Works.setWork c _ .boundary)
    refine ⟨?_, ?_, ?_, State.onEngine_sameBut fun p hp => hworks.same p ?_⟩
    · have hch : ((g.setChan c ((g.chan c).resumesHeld sh)).noteStart sh.job.place).chan c
          = (g.chan c).resumesHeld sh := g.setChan_chan c _
      rw [State.onEngine_own, Engine.setWork, Engine.setChan_chan, hch]
      refine (Channel.resumesHeld_own _ _).trans ?_
      rw [hk, hreports]
      rfl
    · rw [State.onEngine_eng, Engine.settle_nextStart, ← hnext]
      rfl
    · rw [State.onEngine_eng, Engine.settle_jtc, ← hjtc, ← hnext]
      rfl
    · simp only [List.mem_cons, List.not_mem_nil, or_false, not_or] at hp
      obtain ⟨hchannel, htable, hstarts⟩ := hp
      exact ⟨hchannel, hstarts, htable⟩
  · rw [Engine.freeChannel_conditional hshadow (hctl ▸ hd) (hw.frozen.trans hf)]
    refine ⟨?_, (hw.setChan _).onEngine⟩
    rw [State.onEngine_own, Engine.setChan_chan, Channel.release_report_own, hk, hreports]
    rfl

/-- A channel whose job leaves it reports the handoff, and is IDLE or chooses as R83 says. -/
theorem State.finishes_onEngine {s : State} {c : ChannelId} {e : Engine} {j : Job}
    (hw : Engine.WorksAlone c s.eng e) (hj : (e.chan c).job = some j) (r : JobResult) (v : Option ServiceRecord) :
    s.Finishes [] (s.onEngine fun _ => e.finish c r v) c (e.chan c) j.place r (noticeOf v) := by
  obtain ⟨g, hfin, hg, hkept⟩ := Engine.finish_frees hj r v
  rw [hfin]
  refine ⟨fun hs => ?_, fun sh hs => State.freesFull_onEngine (hw.trans hg) hkept hs⟩
  rw [Engine.freeChannel_idle ((congrArg Channel.shadow hkept).trans hs)]
  refine ⟨?_, ((hw.trans hg).setChan _).onEngine⟩
  rw [Channel.HandsOff, State.onEngine_own, Engine.setChan_chan]
  exact hkept

/-! ### Requests that arrive (R70, R75, R84) -/

theorem Channel.runs_iff (a : Channel) (place : Nat) : a.runs place = true ↔ ∃ j, a.job = some j ∧ j.place = place := by
  unfold Channel.runs
  cases a.job <;> simp

theorem Channel.atBoundary_iff (a : Channel) : a.atBoundary = true ↔ a.state = .moving ∧ a.work = .boundary := by
  simp [Channel.atBoundary]

section Arrives

variable {s : State} {c : ChannelId} {place : Nat} {r : StopReason} {rest : List StopMessage}

/-- What a request that names no job of the bank comes to, the channel being `a` without it. -/
def Engine.stopReaches (e : Engine) (c : ChannelId) (a : Channel) (place : Nat) (r : StopReason) : Engine :=
  if a.runs place then (e.setChan c a).stopArrives c r else e.setChan c a

theorem exec_stopRequest (h : (s.eng.chan c).stops = ⟨place, r⟩ :: rest) : exec (.stopRequest c) s =
    .next (s.onEngine fun _ => s.eng.stopReaches c { s.eng.chan c with stops := rest } place r) := by
  change execStopRequest c s = _
  simp only [execStopRequest, State.onEngine, h]
  rfl

theorem exec_dropRequest_active (h : (s.eng.chan c).drops = ⟨place, r⟩ :: rest)
    (hno : ∀ sh, (s.eng.chan c).shadow = some sh → sh.job.place ≠ place) : exec (.dropRequest c) s =
    .next (s.onEngine fun _ => s.eng.stopReaches c { s.eng.chan c with drops := rest } place r) := by
  have hholds : (s.eng.chan c).shadowHolds place = none := by
    simpa [Channel.shadowHolds, Option.filter_eq_none_iff] using hno
  change execDropRequest c s = _
  simp only [execDropRequest, State.onEngine, h, hholds]
  rfl

theorem exec_dropRequest_shadow {sh : Shadow} (h : (s.eng.chan c).drops = ⟨place, r⟩ :: rest)
    (hsh : (s.eng.chan c).shadow = some sh) (hplace : sh.job.place = place) : exec (.dropRequest c) s =
    .next (s.onEngine fun _ => (s.eng.setChan c { s.eng.chan c with drops := rest }).dropShadow c sh r) := by
  have hholds : (s.eng.chan c).shadowHolds place = some sh := by
    simp [Channel.shadowHolds, hsh, hplace]
  change execDropRequest c s = _
  simp only [execDropRequest, State.onEngine, h, hholds]

end Arrives

namespace Engine

variable {e : Engine} {c : ChannelId} {a : Channel} {place : Nat} {r : StopReason}

theorem stopReaches_other (h : a.runs place = false) : e.stopReaches c a place r = e.setChan c a := by
  simp [stopReaches, h]

/-- Away from a boundary the request is held, but in FINISHING or where one is held. -/
theorem stopReaches_held (h : a.runs place = true) (hb : a.atBoundary = false) :
    e.stopReaches c a place r =
      e.setChan c { a with stop := if a.state = .finishing ∨ a.stop.isSome then a.stop else some r } := by
  rw [stopReaches, if_pos h, stopArrives]
  simp only [setChan_chan, hb, Bool.false_eq_true, if_false, setChan_setChan]
  by_cases hf : a.state = .finishing
  · rw [if_pos hf, if_pos (.inl hf)]
  · rw [if_neg hf]
    by_cases hs : a.stop.isSome = true
    · rw [if_pos hs, if_pos (.inr hs)]
    · rw [if_neg hs, if_neg fun h => h.elim hf hs]

/-- At a boundary it is taken at once. -/
theorem stopReaches_taken {rs : Readings} (h : a.runs place = true) (hb : a.atBoundary = true) (hs : a.stop = none)
    (hc : a.copies = some rs) : e.stopReaches c a place r =
      (e.setChan c a).finish c (plainResult r.outcome a.progress.bytesDone) rs.service := by
  have hmoving : a.state ≠ .finishing := by simp [(a.atBoundary_iff.mp hb).1]
  rw [stopReaches, if_pos h, stopArrives]
  simp only [setChan_chan, hmoving, if_false, hb, if_true, hs, Option.getD_none, takeStop, hc]

/-! ### A drop of the shadow job (R84) -/

theorem dropShadow_kept {sh : Shadow} (hstate : a.state ≠ .free) :
    (e.setChan c a).dropShadow c sh r = e.setChan c (a.handShadow sh r) := by
  simp only [dropShadow, setChan_chan, hstate, if_false, setChan_setChan]

theorem dropShadow_free {sh : Shadow} (hstate : a.state = .free) :
    (e.setChan c a).dropShadow c sh r = e.setChan c ((a.withoutConditional.handShadow sh r).release .idle) := by
  simp only [dropShadow, setChan_chan, hstate, if_true, setChan_setChan]

end Engine

/-- The conditional dispatch given up is the last report. -/
theorem Channel.withoutConditional_reports {a : Channel} {more : List Report} {prio : BitVec 3}
    (h : a.reports = more ++ [.conditional prio]) (hno : ∀ p, .conditional p ∉ more) :
    a.withoutConditional.reports = more := by
  simp only [Channel.withoutConditional, h, List.filter_append, List.filter_singleton, cond_false, List.append_nil,
    List.filter_eq_self]
  intro r hr
  cases r with
  | conditional p => exact absurd hr (hno p)
  | _ => rfl

/-- Settles O44: where the request finds its job says which of the lemmas on arrivals applies. -/
theorem stopAndDropRequestsArrive : Obligations.StopAndDropRequestsArrive := by
  refine ⟨⟨rfl, rfl, rfl, fun _ _ => rfl⟩, fun a place => ⟨a.runs_iff place, a.atBoundary_iff⟩,
    fun s c place r rest => ⟨fun i a hi => ?_, fun sh hdrops hsh hplace => ⟨fun hstate => ?_, ?_⟩⟩⟩
  · have hexec : exec i s = .next (s.onEngine fun _ => s.eng.stopReaches c a place r) := by
      obtain ⟨rfl, h, rfl⟩ | ⟨rfl, h, rfl, hno⟩ := hi
      · exact exec_stopRequest h
      · exact exec_dropRequest_active h hno
    refine ⟨fun hruns => ?_, fun hruns hb => ?_, fun rs hruns hb hs hcopies => ?_⟩
    · rw [Engine.stopReaches_other hruns] at hexec
      exact ⟨_, hexec, s.onEngine_setChan c a⟩
    · rw [Engine.stopReaches_held hruns hb] at hexec
      exact ⟨_, hexec, s.onEngine_setChan c _⟩
    · rw [Engine.stopReaches_taken hruns hb hs hcopies] at hexec
      obtain ⟨j, hj, rfl⟩ := (a.runs_iff place).mp hruns
      have hchan := s.eng.setChan_chan c a
      have hfin := State.finishes_onEngine ((Engine.WorksAlone.refl c s.eng).setChan a) (hchan.symm ▸ hj)
        (plainResult r.outcome a.progress.bytesDone) rs.service
      rw [hchan] at hfin
      exact ⟨_, hexec, hfin⟩
  · have hexec := exec_dropRequest_shadow hdrops hsh hplace
    rw [Engine.dropShadow_kept (by exact hstate)] at hexec
    obtain ⟨hown, hframe⟩ := s.onEngine_setChan c (({ s.eng.chan c with drops := rest } : Channel).handShadow sh r)
    subst hplace
    exact ⟨_, hexec, hown, hframe⟩
  · intro prio more hstate hreports hno
    have hexec := exec_dropRequest_shadow hdrops hsh hplace
    rw [Engine.dropShadow_free (by exact hstate)] at hexec
    obtain ⟨hown, hframe⟩ := s.onEngine_setChan c
      ((({ s.eng.chan c with drops := rest } : Channel).withoutConditional.handShadow sh r).release .idle)
    have hkept : ({ s.eng.chan c with drops := rest } : Channel).withoutConditional.reports = more :=
      Channel.withoutConditional_reports hreports hno
    subst hplace
    refine ⟨_, hexec, hown.trans ?_, hframe⟩
    rw [Channel.handShadow_own, hkept]
    rfl

end Sys2Proof.Machine
end

section
/-! SUPPORT. The claim of a context (R46, R72, R87, R112), with the statement about CONTEXT_CLAIM and
CLAIM_MARK_WRITE. -/

namespace Sys2Proof.Machine

theorem PairOp.claim_free {w : Word} (h : w.extractLsb' 0 4 = 3) : PairOp.claim.apply w = (w &&& 0xFFFFFFF0) ||| 4 := by
  have hkind : kindOf w = 3 := h
  simp only [PairOp.apply, hkind]
  rfl

theorem PairOp.claim_other {w : Word} (h : w.extractLsb' 0 4 ≠ 3) : PairOp.claim.apply w = w := by
  have hkind : ¬ kindOf w = 3 := h
  simp only [PairOp.apply, beq_iff_eq, hkind, if_false]

section Claim

variable {e : Engine} {c : ChannelId} {ch : Channel} {j : Job} {r : Reading} {w : Word}

/-! ### The claim pair has read the kind word (R72) -/

theorem Engine.claimRead_free (hch : e.chan c = ch) (hj : ch.job = some j) (hr : ch.readings.context = some r)
    (h : w.extractLsb' 0 4 = 3) :
    e.claimRead c w = (e.setChan c { ch with work := .claimMark }).askFrom c .claimMarkWrite
      (.write r.desc.base.toNat [0, 0, 0, 0]) := by
  have hkind : kindOf w = 3 := h
  subst hch
  change _ = (e.setWork c .claimMark).askFrom c .claimMarkWrite (writeWords (baseOf (some r)) [0])
  simp only [Engine.claimRead, hj, hkind, if_true, hr]

/-- The kind of a context that is not free says why the claim fails. -/
theorem Engine.claimRead_fails (hj : (e.chan c).job = some j) (h : w.extractLsb' 0 4 ≠ 3) :
    e.claimRead c w = e.failCheck c (if w.extractLsb' 0 4 = 4 then .contextHeld else .wrongKind) .context
      j.record.context := by
  have hkind : ¬ kindOf w = 3 := h
  simp only [Engine.claimRead, hj, hkind, if_false]
  exact (apply_ite (fun k => e.failCheck c k .context j.record.context) (kindOf w = 4) _ _).symm

/-! ### The claim's MARK write is done (R72, R112) -/

/-- A channel whose job has claimed the context that was read as `r`. -/
def Channel.claims (ch : Channel) (j : Job) (r : Reading) : Channel :=
  { ch with
    job := some { j with claim := some ⟨r.address, r.desc.base.toNat⟩ }
    reports := ch.reports ++ [.contextClaim j.place ⟨r.address, r.desc.base.toNat⟩] }

theorem Engine.claimMarked_claims (hch : e.chan c = ch) (hj : ch.job = some j) (hr : ch.readings.context = some r) :
    e.claimMarked c = (e.setChan c (ch.claims j r)).afterClaim c := by
  subst hch
  simp only [Engine.claimMarked, hj, hr]
  rfl

theorem Engine.afterClaim_copies {q : Reading} (hch : e.chan c = ch) (hq : ch.readings.param = some q) :
    e.afterClaim c = (e.setChan c { ch with work := .paramMark }).askFrom c .parameterCopy
      (.pair (q.address + 12) (.setBits 0x1000)) := by
  subst hch
  simp only [Engine.afterClaim, hq]
  rfl

theorem Engine.afterClaim_marks {v : Nat} {more : List Nat} (hch : e.chan c = ch) (hp : ch.readings.param = none)
    (hk : ch.readings.kindWords = v :: more) :
    e.afterClaim c =
      (e.setChan c { ch with work := .usedMark more }).askFrom c .usedMark (.pair v (.setBits 0x800)) := by
  rw [← Engine.beginMarks_cons hch hk]
  subst hch
  simp only [Engine.afterClaim, hp]

end Claim

theorem exec_contextClaim {s : State} {c : ChannelId} {x : Nat}
    (h : s.completes (.channel c) .contextClaim (.pair x .claim)) : exec .contextClaim s =
      .next (s.afterUnit (.pair x .claim) (s.eng.dropUnit.claimRead c (s.mem.word x))) := by
  change execContextClaim s = _
  rw [execContextClaim, completeChannel_afterUnit h]
  rfl

theorem exec_claimMarkWrite {s : State} {c : ChannelId} {a : EngineAccess} {j : Job} {r : Reading}
    (h : s.completes (.channel c) .claimMarkWrite a) (hj : (s.eng.chan c).job = some j)
    (hr : (s.eng.chan c).readings.context = some r) : exec .claimMarkWrite s =
      .next (s.afterUnit a ((s.eng.dropUnit.setChan c ((s.eng.chan c).claims j r)).afterClaim c)) := by
  change execClaimMarkWrite s = _
  rw [execClaimMarkWrite, completeChannel_afterUnit h, Engine.claimMarked_claims (s.eng.dropUnit_chan c) hj hr]

/-- Settles O51: the kind that the claim pair has read, and then the parameter window, say how the job goes on. -/
theorem contextClaimed : Obligations.ContextClaimed := by
  intro s c j x hj
  have hdrop := s.eng.dropUnit_chan c
  have hclaims (r : Reading) := s.eng.dropUnit.setChan_chan c ((s.eng.chan c).claims j r)
  have hworks (r : Reading) := (Engine.WorksAlone.refl c s.eng.dropUnit).setChan ((s.eng.chan c).claims j r)
  refine ⟨fun hdone => ⟨fun hfree r hr => ?made, fun hother hstate => ?failed⟩, ?marks, ?copies⟩
  case made =>
    have hx := exec_contextClaim hdone
    rw [Engine.claimRead_free hdrop hj hr hfree] at hx
    obtain ⟨t, ht, hcompleted, hown, hpresents, hsame⟩ :=
      exec_asks (ps := [.mem, .arb, .channel c]) hx (.refl c _) (by simp) (by simp) (.inl (by simp))
    refine ⟨t, ht, hcompleted, fun hwf => ?_, hown, hpresents, hsame⟩
    rw [hcompleted.1, EngineAccess.pair_word hwf x _ hdone.2.2, PairOp.claim_free hfree]
  case failed =>
    have hx := exec_contextClaim hdone
    rw [Engine.claimRead_fails (e := s.eng.dropUnit) hj hother] at hx
    obtain ⟨t, ht, hcompleted, hfinishes⟩ := exec_fails (ps := [.mem, .arb]) hx hdrop (.refl c _) hj
      (.inl ⟨hstate, rfl, rfl⟩) rfl rfl (by simp) (.inl (by simp))
    refine ⟨t, ht, hcompleted, fun hwf => ?_, hfinishes⟩
    rw [hcompleted.1, EngineAccess.pair_word hwf x _ hdone.2.2, PairOp.claim_other hother]
  case marks =>
    intro r bs w more hdone hr hp hk
    have hx := exec_claimMarkWrite hdone hj hr
    rw [Engine.afterClaim_marks (hclaims r) hp hk] at hx
    exact exec_asks hx (hworks r) (by simp) (by simp) (.inl (by simp))
  case copies =>
    intro r q bs hdone hr hq
    have hx := exec_claimMarkWrite hdone hj hr
    rw [Engine.afterClaim_copies (hclaims r) hq] at hx
    exact exec_asks hx (hworks r) (by simp) (by simp) (.inl (by simp))

end Sys2Proof.Machine
end

section
/-! SUPPORT. Parks in the context and restores (R81 to R87, R93, R115; 12.4), with the statement about SAVE_AREA_WRITE,
SAVE_AREA_READ and CONTEXT_DESCRIPTOR_READ. -/

namespace Sys2Proof.Machine

/-! ### The save area (R85, R93, R115; 12.4) -/

theorem Direction.ofCode_eq_some (k : BitVec 2) (dir : Direction) :
    Direction.ofCode k = some dir ↔ (k = 1 ∧ dir = .ascending) ∨ (k = 2 ∧ dir = .descending) := by
  unfold Direction.ofCode
  split
  · next h1 =>
    subst h1
    simp [eq_comm]
  · next h1 =>
    split
    · next h2 =>
      subst h2
      simp [eq_comm]
    · next h2 => exact ⟨nofun, fun h => h.elim (fun hk => absurd hk.1 h1) fun hk => absurd hk.1 h2⟩

theorem SaveArea.ofWords_eq_some (w0 w1 w2 w3 w4 w5 w6 w7 : Word) (sa : SaveArea) :
    SaveArea.ofWords [w0, w1, w2, w3, w4, w5, w6, w7] = some sa ↔
      (w1.extractLsb' 16 2 = 1 ∧ sa = ⟨w4.toNat, w2.toNat, w3.toNat, .ascending, w5⟩) ∨
        (w1.extractLsb' 16 2 = 2 ∧ sa = ⟨w4.toNat, w2.toNat, w3.toNat, .descending, w5⟩) := by
  simp only [SaveArea.ofWords, Option.map_eq_some_iff, Direction.ofCode_eq_some, bits, List.getD_cons_succ,
    List.getD_cons_zero]
  constructor
  · rintro ⟨dir, ⟨hk, rfl⟩ | ⟨hk, rfl⟩, rfl⟩
    · exact .inl ⟨hk, rfl⟩
    · exact .inr ⟨hk, rfl⟩
  · rintro (⟨hk, rfl⟩ | ⟨hk, rfl⟩)
    · exact ⟨_, .inl ⟨hk, rfl⟩, rfl⟩
    · exact ⟨_, .inr ⟨hk, rfl⟩, rfl⟩

theorem saveAreaOwn_iff (j : Job) (w0 w1 : Word) (ws : List Word) : saveAreaOwn j (w0 :: w1 :: ws) = true ↔
    w0 = 1 ∧ (w1.extractLsb' 0 3).toNat = j.domain.val ∧ (w1.extractLsb' 8 4).toNat = j.slot.val := by
  simp only [saveAreaOwn, bits, List.getD_cons_succ, List.getD_cons_zero, Bool.and_eq_true, beq_iff_eq, and_assoc]

theorem acceptSaveArea_iff (j : Job) (w0 w1 w2 w3 w4 w5 w6 w7 : Word) (sa : SaveArea) :
    acceptSaveArea j [w0, w1, w2, w3, w4, w5, w6, w7] = some sa ↔
      w0 = 1 ∧ (w1.extractLsb' 0 3).toNat = j.domain.val ∧ (w1.extractLsb' 8 4).toNat = j.slot.val ∧
      w4.toNat = j.recordedProgress ∧
      ((w1.extractLsb' 16 2 = 1 ∧ sa = ⟨w4.toNat, w2.toNat, w3.toNat, .ascending, w5⟩) ∨
        (w1.extractLsb' 16 2 = 2 ∧ sa = ⟨w4.toNat, w2.toNat, w3.toNat, .descending, w5⟩)) := by
  rw [acceptSaveArea, Option.filter_eq_some_iff, SaveArea.ofWords_eq_some, Bool.and_eq_true, saveAreaOwn_iff,
    beq_iff_eq]
  have hdone (h : (w1.extractLsb' 16 2 = 1 ∧ sa = ⟨w4.toNat, w2.toNat, w3.toNat, .ascending, w5⟩) ∨
      (w1.extractLsb' 16 2 = 2 ∧ sa = ⟨w4.toNat, w2.toNat, w3.toNat, .descending, w5⟩)) :
      sa.bytesDone = w4.toNat := by
    rcases h with ⟨_, rfl⟩ | ⟨_, rfl⟩ <;> rfl
  constructor
  · rintro ⟨h, ⟨hmark, hdomain, hslot⟩, hbytes⟩
    exact ⟨hmark, hdomain, hslot, (hdone h).symm.trans hbytes, h⟩
  · rintro ⟨hmark, hdomain, hslot, hbytes, h⟩
    exact ⟨h, ⟨hmark, hdomain, hslot⟩, (hdone h).trans hbytes⟩

theorem offsetsAgree_iff (b : Body) (sa : SaveArea) : offsetsAgree b sa = true ↔ sa.Agrees b := by
  simp only [offsetsAgree, SaveArea.Agrees, Body.nextSource_eq, Body.nextDest_eq, Body.OffsetAfter, Bool.and_eq_true,
    beq_iff_eq, decide_eq_false_iff_not, not_not]

/-! ### A park in the context (R81) -/

/-- The park is reported, and the channel is left to its choice as a free one. -/
theorem Engine.contextParked_frees {e : Engine} {c : ChannelId} {j : Job} (hj : (e.chan c).job = some j) :
    ∃ g, e.contextParked c = g.freeChannel c ∧ Engine.WorksAlone c e g ∧
      (g.chan c).kept = { (e.chan c).kept with
        reports := (e.chan c).reports ++ [.parkContext j.place (e.chan c).progress.bytesDone] } := by
  refine ⟨(e.clearHeldYield c j.place).setChan c
      (((e.chan c).release .saving).report (.parkContext j.place (e.chan c).progress.bytesDone)), ?_,
    ((Engine.WorksAlone.refl c e).clearHeldYield _).setChan _, ?_⟩
  · simp only [Engine.contextParked, hj]
  · rw [Engine.setChan_chan]
    rfl

theorem exec_saveAreaWrite {s : State} {c : ChannelId} {a : EngineAccess}
    (h : s.completes (.channel c) .saveAreaWrite a) :
    exec .saveAreaWrite s = .next (s.afterUnit a (s.eng.dropUnit.contextParked c)) := by
  change execSaveAreaWrite s = _
  rw [execSaveAreaWrite, completeChannel_afterUnit h]

/-! ### A restore's readings (R85, R86, R115) -/

section Restore

variable {e : Engine} {c : ChannelId} {ch : Channel} {j : Job} {ws : List Word}

theorem Engine.checkSaveArea_accepts {sa : SaveArea} {cl : Claim} (hch : e.chan c = ch) (hj : ch.job = some j)
    (h : acceptSaveArea j ws = some sa) (ho : j.record.isGate = true ∨ sa.Agrees (bodyOf j.record none))
    (hcl : j.claim = some cl) :
    e.checkSaveArea c ws = (e.setChan c { ch with saved := some sa, work := .contextRead }).askFrom c
      .contextDescriptorRead (.read cl.descriptor 16) := by
  have hok : (j.record.isGate || offsetsAgree (bodyOf j.record none) sa) = true := by
    rw [Bool.or_eq_true, offsetsAgree_iff]
    exact ho
  subst hch
  unfold Engine.checkSaveArea
  simp only [hj, h, Option.filter_some, hok, if_true, hcl]
  rfl

theorem Engine.checkSaveArea_fails (hj : (e.chan c).job = some j)
    (h : ∀ sa, acceptSaveArea j ws = some sa → j.record.isGate = false ∧ ¬ sa.Agrees (bodyOf j.record none)) :
    e.checkSaveArea c ws = e.failCheck c .contextCorrupt .context j.record.context := by
  have hnone : (acceptSaveArea j ws).filter
      (fun sa => j.record.isGate || offsetsAgree (bodyOf j.record none) sa) = none := by
    rw [Option.filter_eq_none_iff]
    intro sa hsa
    obtain ⟨hgate, hoff⟩ := h sa hsa
    rw [Bool.or_eq_true, offsetsAgree_iff, hgate]
    exact fun hor => hor.elim Bool.false_ne_true hoff
  simp only [Engine.checkSaveArea, hj, hnone]

theorem Engine.checkContext_held {d : Descriptor} (hj : (e.chan c).job = some j) (h : d.kind.extractLsb' 0 4 = 4) :
    e.checkContext c d = e.checkNext c (firstOperands j.record) := by
  have hkind : kindOf d.kind = 4 := h
  simp only [Engine.checkContext, hj, hkind, if_true]

theorem Engine.checkContext_fails {d : Descriptor} (hj : (e.chan c).job = some j) (h : d.kind.extractLsb' 0 4 ≠ 4) :
    e.checkContext c d = e.failCheck c .contextCorrupt .context j.record.context := by
  have hkind : ¬ kindOf d.kind = 4 := h
  simp only [Engine.checkContext, hj, hkind, if_false]

end Restore

theorem exec_saveAreaRead {s : State} {c : ChannelId} {x : Nat}
    (h : s.completes (.channel c) .saveAreaRead (.read x 32)) : exec .saveAreaRead s =
      .next (s.afterUnit (.read x 32) (s.eng.dropUnit.checkSaveArea c (bytesWords (s.mem.readBytes x 32)))) := by
  change execSaveAreaRead s = _
  rw [execSaveAreaRead, completeChannel_afterUnit h]
  rfl

theorem exec_contextDescriptorRead {s : State} {c : ChannelId} {x : Nat}
    (h : s.completes (.channel c) .contextDescriptorRead (.read x 16)) : exec .contextDescriptorRead s =
      .next (s.afterUnit (.read x 16)
        (s.eng.dropUnit.checkContext c (Descriptor.ofWords (bytesWords (s.mem.readBytes x 16))))) := by
  change execContextDescriptorRead s = _
  rw [execContextDescriptorRead, completeChannel_afterUnit h]
  rfl

/-- Settles O56: a park leaves the channel to its choice as a free one, and what a restore reads is accepted, or the
restore fails with what was read. -/
theorem parksAndRestores : Obligations.ParksAndRestores := by
  refine ⟨acceptSaveArea_iff, fun s c j x hj => ⟨fun bs hdone => ?parked, fun ws hdone hws => ⟨?accepted, ?refused⟩,
    fun d hdone hd hstate hread => ⟨fun op rest hkind hops => ⟨fun addr hok => ?rechecks, fun k herr => ?fails⟩,
      fun hkind => ?corrupt⟩⟩⟩
  case parked =>
    obtain ⟨g, hparked, hworks, hkept⟩ := Engine.contextParked_frees (e := s.eng.dropUnit) hj
    have hx := exec_saveAreaWrite hdone
    rw [hparked] at hx
    refine ⟨_, hx, s.afterUnit_completed _ _, fun sh hsh => ?_, fun hnone => ?_⟩
    · exact State.freesFull_afterUnit hworks hkept hsh (by simp) (.inl (by simp))
    · rw [Engine.freeChannel_idle ((congrArg Channel.shadow hkept).trans hnone)]
      refine ⟨?_, (hworks.setChan _).sameBut (by simp) (by simp) (.inl (by simp))⟩
      rw [State.afterUnit_own, Engine.setChan_chan]
      exact hkept
  case accepted =>
    intro sa cl h ho hcl
    have hx := exec_saveAreaRead hdone
    rw [← hws, Engine.checkSaveArea_accepts (s.eng.dropUnit_chan c) hj h ho hcl] at hx
    exact exec_asks hx (.refl c _) (by simp) (by simp) (.inr rfl)
  case refused =>
    intro h hstate hservice
    have hx := exec_saveAreaRead hdone
    rw [← hws, Engine.checkSaveArea_fails (e := s.eng.dropUnit) hj h] at hx
    have hf := exec_fails (ps := [.arb]) hx (s.eng.dropUnit_chan c) (.refl c _) hj (.inr ⟨hstate, rfl, rfl⟩) rfl rfl
      (by simp) (.inr rfl)
    rwa [hservice] at hf
  case rechecks =>
    have hx := exec_contextDescriptorRead hdone
    rw [← hd, Engine.checkContext_held (e := s.eng.dropUnit) hj hkind, hops,
      Engine.checkNext_reads (s.eng.dropUnit_chan c) hj rest (by rw [hread]; exact hok)] at hx
    exact exec_asks hx (.refl c _) (by simp) (by simp) (.inr rfl)
  case fails =>
    have hx := exec_contextDescriptorRead hdone
    rw [← hd, Engine.checkContext_held (e := s.eng.dropUnit) hj hkind, hops,
      Engine.checkNext_fails (s.eng.dropUnit_chan c) hj rest (by rw [hread]; exact herr), hread] at hx
    have hf := exec_fails (ps := [.arb]) hx (s.eng.dropUnit_chan c) (.refl c _) hj (.inr ⟨hstate, rfl, rfl⟩) rfl rfl
      (by simp) (.inr rfl)
    rwa [hread] at hf
  case corrupt =>
    have hx := exec_contextDescriptorRead hdone
    rw [← hd, Engine.checkContext_fails (e := s.eng.dropUnit) hj hkind] at hx
    have hf := exec_fails (ps := [.arb]) hx (s.eng.dropUnit_chan c) (.refl c _) hj (.inr ⟨hstate, rfl, rfl⟩) rfl rfl
      (by simp) (.inr rfl)
    rwa [hread] at hf

end Sys2Proof.Machine
end

section
/-! SUPPORT. The bursts of a transfer (R74 to R76, R90 to R99, R102): how one forms and what it makes of the progress
record, its read, its WRITTEN pair and its write, and the boundary or the end of the job that follows; with the
statements about them and about the channel that is IDLE after them (R82). -/

namespace Sys2Proof.Machine

/-! ### How a burst forms (R90, R94) -/

theorem Body.usesSource_iff (b : Body) : b.usesSource = true ↔ b.op ≠ .fill := by simp [Body.usesSource]

theorem Body.usesDest_iff (b : Body) : b.usesDest = true ↔ b.op ≠ .sum := by simp [Body.usesDest]

theorem Body.hasCrc_iff (b : Body) : b.hasCrc = true ↔ b.crc ≠ 0 ∧ b.op ≠ .fill := by simp [Body.hasCrc]

/-- The bytes of a burst are the most that its four bounds allow. -/
theorem le_burstCount_iff (b : Body) (paced : Bool) (rs : Readings) (p : Progress) (n : Nat) :
    n ≤ burstCount b paced rs p ↔ n ≤ b.length - p.bytesDone ∧ (paced = true → n ≤ p.unitLeft) ∧
      (b.op ≠ .fill → n ≤ bytesToEdge p.direction (sourceAddr rs p)) ∧
      (b.op ≠ .sum → n ≤ bytesToEdge p.direction (destAddr rs p)) := by
  have hmin (q : Prop) [Decidable q] (x y : Nat) : n ≤ (if q then min x y else x) ↔ n ≤ x ∧ (q → n ≤ y) := by
    by_cases h : q <;> simp [h]
  simp only [burstCount, hmin, Body.usesSource_iff, Body.usesDest_iff, and_assoc]

/-- The bytes next to an address lie in one block exactly when they reach its edge at most. -/
theorem Direction.oneBlock_iff {dir : Direction} {x n : Nat} (h : dir = .descending → n ≤ x) :
    dir.OneBlock x n ↔ n ≤ bytesToEdge dir x := by
  cases dir with
  | ascending => exact Direction.oneBlock_ascending x n
  | descending => exact Direction.oneBlock_descending (h rfl)

/-- What R90 allows of a burst, as the least of its bounds. -/
theorem Body.mayBurst_iff {b : Body} {paced : Bool} {rs : Readings} {p : Progress} {src dst n : Nat}
    (hsrc : b.op ≠ .fill → sourceAddr rs p = src + p.nextSource)
    (hdst : b.op ≠ .sum → destAddr rs p = dst + p.nextDest)
    (hdown : p.direction = .descending → (b.op ≠ .fill → b.length - p.bytesDone ≤ p.nextSource) ∧
      (b.op ≠ .sum → b.length - p.bytesDone ≤ p.nextDest)) :
    b.MayBurst paced src dst p n ↔ n ≤ burstCount b paced rs p := by
  rw [le_burstCount_iff]
  refine and_congr_right fun hleft => and_congr_right fun _ =>
    and_congr (forall_congr' fun hop => ?_) (forall_congr' fun hop => ?_)
  · rw [hsrc hop]
    refine Direction.oneBlock_iff fun hd => ?_
    have := (hdown hd).1 hop
    omega
  · rw [hdst hop]
    refine Direction.oneBlock_iff fun hd => ?_
    have := (hdown hd).2 hop
    omega

theorem baseOf_some (r : Reading) : baseOf (some r) = r.desc.base.toNat := rfl

theorem formBurst_fill {b : Body} (h : b.op = .fill) (paced : Bool) (rs : Readings) {p : Progress}
    (hup : p.direction = .ascending) :
    (formBurst b paced rs p).data = patternBytes b.operand p.nextDest b.destFirst (formBurst b paced rs p).count := by
  simp only [formBurst, h, if_true, hup, burstStart]

theorem patternBytes_length (operand : Word) (o first n : Nat) : (patternBytes operand o first n).length = n := by
  simp [patternBytes]

theorem patternBytes_get (operand : Word) {o first : Nat} (n : Nat) (ho : first ≤ o) (i : Nat)
    (hi : i < (patternBytes operand o first n).length) :
    (patternBytes operand o first n)[i] = operand.extractLsb' (8 * ((o + i - first) % 4)) 8 := by
  rw [Nat.sub_add_comm ho]
  simp [patternBytes, patternByte]

/-! ### What a completed burst does to the progress record, and the result of a job (R87, R93 to R97, R113) -/

theorem advance_eq (b : Body) (p : Progress) (n : Nat) (data : List Byte) :
    advance b p n data = { p with
      bytesDone := p.bytesDone + n
      nextSource := b.OffsetAfter (b.op ≠ .fill) p.direction b.sourceFirst (p.bytesDone + n)
      nextDest := b.OffsetAfter (b.op ≠ .sum) p.direction b.destFirst (p.bytesDone + n)
      crc := if b.crc ≠ 0 ∧ b.op ≠ .fill then crcBytes (if b.crc = 1 then 0xEDB88320 else 0x82F63B78) p.crc data
             else p.crc
      unitLeft := p.unitLeft - n } := by
  have hk : crcConstant b.crc = if b.crc = 1 then 0xEDB88320 else 0x82F63B78 := by simp only [crcConstant, beq_iff_eq]
  simp only [advance, Body.nextSource_eq, Body.nextDest_eq, Body.hasCrc_iff, hk]

/-- A byte is taken into the running check sum by eight shifts (R95). -/
theorem crcBytes_cons {k : Word} {f : Word → Word}
    (hf : ∀ x, f x = if x.getLsbD 0 then (x >>> 1) ^^^ k else x >>> 1) (r : Word) (x : Byte) (xs : List Byte) :
    crcBytes k r (x :: xs) = crcBytes k (f (f (f (f (f (f (f (f (r ^^^ x.setWidth 32))))))))) xs := by
  obtain rfl : f = crcShift k := funext hf
  rfl

theorem bodyOf_operand (r : JobRecord) (v : Option ServiceRecord) : (bodyOf r v).operand = r.operand := by
  cases v <;> rfl

theorem finalResult_eq (r : JobRecord) (v : Option ServiceRecord) (p : Progress) {body : Body} {sum : Word}
    (hbody : body = bodyOf r v) (hsum : sum = if body.crc ≠ 0 ∧ body.op ≠ .fill then p.crc ^^^ 0xFFFFFFFF else 0) :
    finalResult r v p =
      if (body.crc ≠ 0 ∧ body.op ≠ .fill) ∧ body.compare = true ∧ sum ≠ body.operand then
        { outcome := .fault, faultKind := .checkMismatch
          operand := if v.isSome then .serviceSource else .source
          phase := if p.restored then .resume else .start
          selector := selectorOf r v .source, bytesDone := body.length, crc := sum }
      else { outcome := .ok, faultKind := .none, operand := .none, phase := .none, selector := 0,
             bytesDone := body.length, crc := sum } := by
  subst hbody hsum
  simp only [finalResult, crcResult, Body.hasCrc_iff]
  rfl

/-! ### A channel in MOVING (R91, R98, R102) -/

theorem Channel.moving_eq_some {ch : Channel} {j : Job} {rs : Readings} {body : Body} :
    ch.moving = some (j, rs, body) ↔ ch.job = some j ∧ ch.copies = some rs ∧ body = bodyOf j.record rs.service := by
  refine ⟨fun h => ?_, fun ⟨hj, hc, hb⟩ => hb ▸ Channel.moving_eq hj hc⟩
  unfold Channel.moving at h
  split at h
  · rename_i hj hc
    obtain ⟨rfl, rfl, rfl⟩ := h
    exact ⟨hj, hc, rfl⟩
  · exact absurd h (by simp)

section Bursts

variable {e : Engine} {c : ChannelId} {j : Job} {rs : Readings} {body : Body} {b : Burst} {data : List Byte}

theorem Engine.burstHasRead_move (h : (e.chan c).moving = some (j, rs, body)) (hop : body.op = .move) :
    e.burstHasRead c b data = e.issueWrite c rs { b with data := data } := by
  simp [Engine.burstHasRead, h, hop]

theorem Engine.burstHasRead_sum (h : (e.chan c).moving = some (j, rs, body)) (hop : body.op = .sum) :
    e.burstHasRead c b data = e.burstDone c b.count data := by
  simp [Engine.burstHasRead, h, hop]

theorem Engine.issueWrite_writes (h : (e.chan c).progress.writtenDest = true) :
    e.issueWrite c rs b =
      (e.setChan c { e.chan c with work := .burstWrite b }).askFrom c .burstWrite (.write b.dest b.data) := by
  simp [Engine.issueWrite, h, Engine.setWork]

theorem Engine.issueWrite_marks (h : (e.chan c).progress.writtenDest = false) :
    e.issueWrite c rs b =
      (e.setChan c { e.chan c with work := .writtenMark b }).askFrom c .writtenMark (writtenPair rs.dest) := by
  simp [Engine.issueWrite, h, Engine.setWork]

theorem Engine.burstDone_boundary {n : Nat} (h : (e.chan c).moving = some (j, rs, body))
    (hleft : (advance body (e.chan c).progress n data).bytesDone < body.length) :
    e.burstDone c n data = (e.setChan c { e.chan c with
      progress := advance body (e.chan c).progress n data, work := .boundary }).boundary c := by
  simp only [Engine.burstDone, h, if_neg (Nat.not_le_of_lt hleft)]

theorem Engine.burstDone_last {n : Nat} (h : (e.chan c).moving = some (j, rs, body))
    (hdone : body.length ≤ (advance body (e.chan c).progress n data).bytesDone) :
    e.burstDone c n data =
      e.finish c (finalResult j.record rs.service (advance body (e.chan c).progress n data)) rs.service := by
  simp only [Engine.burstDone, h, if_pos hdone]

end Bursts

section Commands

variable {s : State} {c : ChannelId} {j : Job} {rs : Readings} {body : Body} {b : Burst} {x : Nat} {data : List Byte}
  {i : Instr} {a : EngineAccess}

theorem exec_burstRead (h : s.completes (.channel c) .burstRead (.read x b.count))
    (hw : (s.eng.chan c).work = .burstRead b) : exec .burstRead s =
      .next (s.afterUnit (.read x b.count) (s.eng.dropUnit.burstHasRead c b (s.mem.readBytes x b.count))) := by
  change execBurstRead s = _
  rw [execBurstRead, completeChannel_afterUnit h]
  simp only [Engine.dropUnit_chan, hw]
  rfl

theorem exec_writtenMark (h : s.completes (.channel c) .writtenMark a) (hw : (s.eng.chan c).work = .writtenMark b) :
    exec .writtenMark s = .next (s.afterUnit a ((s.eng.dropUnit.setChan c { s.eng.chan c with
      work := .burstWrite b, progress := { (s.eng.chan c).progress with writtenDest := true } }).askFrom c .burstWrite
        (.write b.dest b.data))) := by
  change execWrittenMark s = _
  rw [execWrittenMark, completeChannel_afterUnit h]
  simp only [Engine.dropUnit_chan, hw]

theorem exec_burstWrite (h : s.completes (.channel c) .burstWrite a) (hw : (s.eng.chan c).work = .burstWrite b) :
    exec .burstWrite s = .next (s.afterUnit a (s.eng.dropUnit.burstDone c b.count b.data)) := by
  change execBurstWrite s = _
  rw [execBurstWrite, completeChannel_afterUnit h]
  simp only [Engine.dropUnit_chan, hw]

/-- The command that completes the last access of a burst completes the burst: the write of a MOVE or FILL, or the read
of a SUM (R91, R98). -/
theorem exec_completesBurst (hm : (s.eng.chan c).moving = some (j, rs, body))
    (h : (i = .burstWrite ∧ (∃ bs, a = .write x bs) ∧ (s.eng.chan c).work = .burstWrite b ∧ data = b.data ∧
        s.completes (.channel c) .burstWrite a) ∨
      (i = .burstRead ∧ body.op = .sum ∧ a = .read x b.count ∧ (s.eng.chan c).work = .burstRead b ∧
        data = s.mem.readBytes x b.count ∧ s.completes (.channel c) .burstRead a)) :
    exec i s = .next (s.afterUnit a (s.eng.dropUnit.burstDone c b.count data)) := by
  obtain ⟨rfl, _, hwork, rfl, hdone⟩ | ⟨rfl, hop, rfl, hwork, rfl, hdone⟩ := h
  · exact exec_burstWrite hdone hwork
  · rw [exec_burstRead hdone hwork, Engine.burstHasRead_sum (e := s.eng.dropUnit) hm hop]

end Commands

/-- Settles O54: each command completes its access and asks for the next or comes to a boundary, and each of the
functions of a burst is as its own lemma says. -/
theorem burstsMoveData : Obligations.BurstsMoveData := by
  refine ⟨fun s c j rs body b x data hm => ⟨fun hdone hwork hdata hop => ?read, fun m hdone hwork => ?marked,
    fun i a p hi hp hleft => ?boundary⟩, ?forms, advance_eq, fun k r f hf => ⟨rfl, crcBytes_cons hf r⟩, ?fill,
    bodyOf_operand, ?issues⟩
  case read =>
    have hx := exec_burstRead hdone hwork
    rw [← hdata, Engine.burstHasRead_move (e := s.eng.dropUnit) hm hop] at hx
    by_cases hw : (s.eng.chan c).progress.writtenDest = true
    · rw [Engine.issueWrite_writes (e := s.eng.dropUnit) hw] at hx
      obtain ⟨t, ht, hcompleted, hown, hpresents, hsame⟩ :=
        exec_asks (ps := [.arb, .channel c]) hx (.refl c _) (by simp) (by simp) (.inr rfl)
      exact ⟨t, ht, hcompleted, fun _ => ⟨hown, hpresents⟩, fun r hf => absurd (hw.symm.trans hf) (by simp), hsame⟩
    · have hf : (s.eng.chan c).progress.writtenDest = false := Bool.eq_false_iff.mpr hw
      rw [Engine.issueWrite_marks (e := s.eng.dropUnit) hf] at hx
      obtain ⟨t, ht, hcompleted, hown, hpresents, hsame⟩ :=
        exec_asks (ps := [.arb, .channel c]) hx (.refl c _) (by simp) (by simp) (.inr rfl)
      refine ⟨t, ht, hcompleted, fun h => absurd h hw, fun r _ hr => ⟨hown, ?_⟩, hsame⟩
      rw [hr] at hpresents
      exact hpresents
  case marked =>
    obtain ⟨t, ht, hcompleted, hown, hpresents, hsame⟩ := exec_asks (ps := [.mem, .arb, .channel c])
      (exec_writtenMark hdone hwork) (.refl c _) (by simp) (by simp) (.inl (by simp))
    refine ⟨t, ht, hcompleted, fun hwf => ?_, hown, hpresents, hsame⟩
    rw [hcompleted.1]
    exact EngineAccess.pair_word hwf x _ hdone.2.2
  case boundary =>
    obtain ⟨hj, hc, _⟩ := Channel.moving_eq_some.mp hm
    have hx := exec_completesBurst hm hi
    rw [Engine.burstDone_boundary (e := s.eng.dropUnit) hm (hp ▸ hleft), Engine.dropUnit_chan, ← hp] at hx
    have hw := (Engine.WorksAlone.refl c s.eng.dropUnit).setChan { s.eng.chan c with progress := p, work := .boundary }
    have hch := s.eng.dropUnit.setChan_chan c { s.eng.chan c with progress := p, work := .boundary }
    refine ⟨_, hx, s.afterUnit_completed _ _, fun r hr => ?stop, fun hs hy => ?yields, fun hs hy => ?proceeds⟩
    case stop =>
      rw [Engine.boundary_stops hch hc hr]
      exact State.finishes_afterUnit hw (by rw [hch]; exact hj) (congrArg _ hch) (by simp) (.inl (by simp)) _ _
    case yields =>
      rw [Engine.boundary_yields hch hs hy]
      have htakes := State.takesYield_afterUnit (x := a) (ps := [.mem, .arb]) hw hch hj hc (by simp) (.inl (by simp))
      exact htakes
    case proceeds =>
      generalize hg : s.eng.dropUnit.setChan c { s.eng.chan c with progress := p, work := .boundary } = g at *
      have htick : (g.chan c).waitsForTick = true ↔ j.record.paceUnit ≠ 0 ∧ p.unitLeft = 0 := by
        simp [hch, Channel.waitsForTick, hj]
      rw [Engine.boundary_proceeds hch hs hy]
      refine ⟨fun hwait => ?_, fun hf hpace => ?_, hw.proceed.sameBut (by simp) (by simp) (.inl (by simp))⟩
      · rw [Engine.proceed_waits (by rwa [htick, hw.frozen]), State.afterUnit_own, Engine.setWork,
          Engine.setChan_chan, hch]
        rfl
      · have hgo : (g.chan c).waitsForTick = false := by
          rw [← Bool.not_eq_true, htick, not_and_or, not_not]
          exact hpace
        rw [Engine.proceed_issues (hw.frozen.trans hf) hgo]
        have hissue := Engine.issueBurst_issues (e := g) (c := c) (by rw [hch]; exact hm)
        rw [hch] at hissue
        exact hissue.afterUnit
  case forms =>
    rintro b paced rs p src dst u rfl hsrc hdst hdown
    have hs : b.op ≠ .fill → sourceAddr rs p = src + p.nextSource := fun hop => by
      obtain ⟨r, hr, rfl⟩ := hsrc hop
      rw [sourceAddr, hr, baseOf_some]
    have hd : b.op ≠ .sum → destAddr rs p = dst + p.nextDest := fun hop => by
      obtain ⟨r, hr, rfl⟩ := hdst hop
      rw [destAddr, hr, baseOf_some]
    refine ⟨(Body.mayBurst_iff hs hd hdown).mpr (Nat.le_refl _), fun n => (Body.mayBurst_iff hs hd hdown).mp,
      fun hop => ?_, fun hop => ?_⟩
    · rw [← hs hop]
      cases hdir : p.direction <;> simp only [formBurst, burstStart, hdir]
    · rw [← hd hop]
      cases hdir : p.direction <;> simp only [formBurst, burstStart, hdir]
  case fill =>
    rintro b paced rs p o i hop hup rfl ho
    rw [formBurst_fill hop paced rs hup]
    exact ⟨patternBytes_length _ _ _ _, patternBytes_get _ _ ho i⟩
  case issues =>
    intro e c j rs body hm hop
    have hwork := congrArg Channel.work (Engine.issueBurst_issues hm).1
    rw [if_pos hop] at hwork
    exact hwork

/-- Settles O55: the last burst finishes the job with its result, a stop that is held being left. -/
theorem lastBurstFinishes : Obligations.LastBurstFinishes := by
  intro s c j rs body b x sum p data i a hm hi hp hdone hsum
  obtain ⟨hj, _, hbody⟩ := Channel.moving_eq_some.mp hm
  have hx := exec_completesBurst hm hi
  rw [Engine.burstDone_last (e := s.eng.dropUnit) hm (hp ▸ hdone), Engine.dropUnit_chan, ← hp,
    finalResult_eq _ _ _ hbody hsum] at hx
  exact ⟨_, hx, s.afterUnit_completed _ _,
    State.finishes_afterUnit (.refl c _) hj rfl (by simp) (.inl (by simp)) _ _⟩

/-- Settles O57: with its bank empty the channel's choice is to be IDLE, and no other channel is concerned. -/
theorem freeChannelIdles : Obligations.FreeChannelIdles := by
  intro e c hs
  rw [Engine.freeChannel_idle hs]
  exact ⟨e.setChan_chan c _, fun d hd => e.setChan_chan_ne _ (Ne.symm hd)⟩

end Sys2Proof.Machine
end

section
/-! SUPPORT. The reading of a service record (R86, R105 to R108, R114, R115; 12.5): the record's validation and its
notify pair by the fields of 12.5, how its reading is tested, and the statement about SERVICE_RECORD_READING. -/

namespace Sys2Proof.Machine

/-! ### The fields of a service record (R106, R114; 12.5) -/

/-- Some bit of a word from bit `lo` on is set. -/
theorem and_high_ne_zero (w : Word) {m : Word} {lo k : Nat} (hk : lo + k = 32)
    (hm : ∀ i < 32, m.getLsbD i = decide (lo ≤ i)) : ((w &&& m) != 0) = true ↔ w.extractLsb' lo k ≠ 0 := by
  rw [bne_iff_ne, not_iff_not]
  refine ⟨fun h => BitVec.eq_of_getLsbD_eq fun i hi => ?_, fun h => BitVec.eq_of_getLsbD_eq fun i hi => ?_⟩
  · have hbit := congrArg (fun x : Word => x.getLsbD (lo + i)) h
    simp only [BitVec.getLsbD_and, hm (lo + i) (by omega), Nat.le_add_right, decide_true, Bool.and_true] at hbit
    simpa [BitVec.getLsbD_extractLsb', hi] using hbit
  · rw [BitVec.getLsbD_and, hm i hi]
    by_cases hlo : lo ≤ i
    · have hbit := congrArg (fun x : BitVec k => x.getLsbD (i - lo)) h
      have hin : i - lo < k := by omega
      simpa [BitVec.getLsbD_extractLsb', hin, Nat.add_sub_cancel' hlo, hlo] using hbit
    · simp [hlo]

theorem ServiceRecord.reservedSet_iff (v : ServiceRecord) : v.reservedSet = true ↔
    (∃ k ∈ [3, 6, 7, 11, 19, 20, 21, 22, 23, 24, 25, 26, 27, 28, 29, 30, 31], v.w0.getLsbD k = true) ∨
      v.w2.extractLsb' 16 16 ≠ 0 ∨ v.w5.extractLsb' 17 15 ≠ 0 ∨ v.w6 ≠ 0 ∨ v.w7 ≠ 0 := by
  rw [ServiceRecord.reservedSet, Bool.or_eq_true, Bool.or_eq_true, Bool.or_eq_true, Bool.or_eq_true,
    and_mask_ne_zero (ks := [3, 6, 7, 11, 19, 20, 21, 22, 23, 24, 25, 26, 27, 28, 29, 30, 31]) v.w0 (by decide)
      (by decide),
    and_high_ne_zero v.w2 (lo := 16) (k := 16) rfl (by decide),
    and_high_ne_zero v.w5 (lo := 17) (k := 15) rfl (by decide), bne_iff_ne, bne_iff_ne, or_assoc, or_assoc, or_assoc]

/-- SVC_NOTIFY_DOMAIN names no domain by a code other than 0. -/
theorem ServiceRecord.notifyDomain_unlisted (v : ServiceRecord) : (v.notifyDomain == 0 || bit v.w0 15) = false ↔
    1 ≤ (v.w0.extractLsb' 12 4).toNat ∧ (v.w0.extractLsb' 12 4).toNat ≤ 7 := by
  have hzero : v.notifyDomain = 0 ↔ (v.w0.extractLsb' 12 4).toNat = 0 := BitVec.toNat_eq
  have hbit := getLsbD_iff_div v.w0 15
  rw [Bool.or_eq_false_iff, beq_eq_false_iff_ne, ne_eq, hzero, bit, ← Bool.not_eq_true, hbit, toNat_field]
  omega

/-- The validation of R106, test by test. -/
theorem ServiceRecord.valid_eq_false_iff (v : ServiceRecord) : v.valid = false ↔ v.Invalid := by
  have hkind (c : BitVec 3) : v.kind = c ↔ (v.w0.extractLsb' 0 3).toNat = c.toNat := BitVec.toNat_eq
  have hcrc (c : BitVec 2) : v.crc = c ↔ (v.w0.extractLsb' 4 2).toNat = c.toNat := BitVec.toNat_eq
  have hlisted (n : Nat) : ((¬ n = 1 ∧ ¬ n = 2) ∧ ¬ n = 3) ↔ n ∉ [1, 2, 3] := by simp [and_assoc]
  simp only [ServiceRecord.valid, Bool.and_eq_false_iff, v.notifyDomain_unlisted, Bool.not_eq_false',
    v.reservedSet_iff, Bool.or_eq_false_iff, Bool.and_eq_true, decide_eq_false_iff_not, Nat.not_le, beq_iff_eq,
    beq_eq_false_iff_ne, bne_iff_ne, bne_eq_false_iff_eq, ne_eq, hkind, hcrc, or_assoc]
  exact or_congr (hlisted _) (or_congr Iff.rfl (or_congr Iff.rfl (or_congr Iff.rfl
    (or_congr Nat.lt_one_iff Iff.rfl))))

/-- What a handoff carries of a record names the domain whose code the record holds (R114). -/
theorem ServiceRecord.notify_eq_some (v : ServiceRecord) (n : ServiceNotify) : v.notify = some n ↔
    (v.w0.extractLsb' 12 4).toNat = 8 + n.domain.val ∧ n.level = v.w0.extractLsb' 16 3 := by
  obtain ⟨d, l⟩ := n
  have hbit := getLsbD_iff_div v.w0 15
  have hval : (fieldFin 8 (bits v.w0 12 3)).val = v.w0.toNat / 2 ^ 12 % 2 ^ 3 := by
    rw [fieldFin_val _ (by decide)]
    exact toNat_field v.w0 12 3
  have hlevel : v.notifyLevel = v.w0.extractLsb' 16 3 := rfl
  have hd := d.isLt
  rw [toNat_field]
  dsimp only
  unfold ServiceRecord.notify bit
  split
  · rename_i h
    rw [Option.some.injEq, ServiceNotify.mk.injEq, Fin.ext_iff, hval, hlevel, eq_comm (a := l)]
    have := hbit.mp h
    exact and_congr_left' (by omega)
  · rename_i h
    refine ⟨nofun, fun ⟨hcode, _⟩ => absurd (hbit.mpr ?_) h⟩
    omega

/-! ### The reading tested (R105 to R108, R115) -/

section Service

variable {e : Engine} {c : ChannelId} {ch : Channel} {j : Job} {v : ServiceRecord}

/-- An invalid record, a LENGTH above its SVC_MAX_LENGTH, and a save area whose next offsets are not those of the record
fail the check, in this order. -/
theorem Engine.checkService_fails {k : FaultKind} {o : FaultOperand} {sel : BitVec 16} (hch : e.chan c = ch)
    (hj : ch.job = some j)
    (h : (v.Invalid ∧ k = .badWindow ∧ o = .service ∧ sel = j.record.source) ∨
      (¬ v.Invalid ∧ v.maxLength < j.record.length ∧ k = .gateRange ∧ o = .service ∧ sel = j.record.source) ∨
      (¬ v.Invalid ∧ j.record.length ≤ v.maxLength ∧ k = .contextCorrupt ∧ o = .context ∧ sel = j.record.context ∧
        ∃ sa, ch.saved = some sa ∧ ¬ sa.Agrees (bodyOf j.record (some v)))) :
    e.checkService c v = e.failCheck c k o sel := by
  subst hch
  simp only [← v.valid_eq_false_iff, Bool.not_eq_false, ← offsetsAgree_iff] at h
  unfold Engine.checkService
  obtain ⟨hv, rfl, rfl, rfl⟩ | ⟨hv, hlen, rfl, rfl, rfl⟩ | ⟨hv, hlen, rfl, rfl, rfl, sa, hsa, hoff⟩ := h
  · simp [hj, hv]
  · simp [hj, hv, hlen]
  · have hkept : (e.chan c).saved.filter (fun sa => !offsetsAgree (bodyOf j.record (some v)) sa) = some sa :=
      Option.filter_eq_some_iff.mpr ⟨hsa, by simpa using hoff⟩
    simp [hj, hv, Nat.not_lt.mpr hlen, hkept]

/-- A record that passes is kept, and the check goes on to the first service window. -/
theorem Engine.checkService_passes (hch : e.chan c = ch) (hj : ch.job = some j) (hv : ¬ v.Invalid)
    (hlen : j.record.length ≤ v.maxLength)
    (hoff : ∀ sa, ch.saved = some sa → sa.Agrees (bodyOf j.record (some v))) :
    e.checkService c v = (e.setChan c { ch with readings := { ch.readings with service := some v } }).checkNext c
      (serviceOperands j.record v) := by
  subst hch
  rw [← v.valid_eq_false_iff, Bool.not_eq_false] at hv
  have hnone : (e.chan c).saved.filter (fun sa => !offsetsAgree (bodyOf j.record (some v)) sa) = none :=
    Option.filter_eq_none_iff.mpr fun sa hsa => by simp [(offsetsAgree_iff _ sa).mpr (hoff sa hsa)]
  simp [Engine.checkService, hj, hv, Nat.not_lt.mpr hlen, hnone]

end Service

theorem exec_serviceRecordReading {s : State} {c : ChannelId} {x : Nat}
    (h : s.completes (.channel c) .serviceRecordReading (.read x 32)) : exec .serviceRecordReading s =
      .next (s.afterUnit (.read x 32)
        (s.eng.dropUnit.checkService c (ServiceRecord.ofWords (bytesWords (s.mem.readBytes x 32))))) := by
  change execServiceRecordReading s = _
  rw [execServiceRecordReading, completeChannel_afterUnit h]
  rfl

/-- Settles O50: the reading fails, or the record is kept and the first service window's selector passes or fails. -/
theorem serviceRecordTested : Obligations.ServiceRecordTested := by
  refine ⟨fun _ => rfl, fun v => ⟨v.valid_eq_false_iff, rfl, rfl, rfl, rfl, v.notify_eq_some⟩, ?_⟩
  intro s c j x v hdone hj hv
  have hdrop := s.eng.dropUnit_chan c
  have hx := exec_serviceRecordReading hdone
  rw [← hv] at hx
  refine ⟨fun k o sel ph n hk hf => ?_, fun hvalid hlen hoff op rest hops => ?_⟩
  · rw [Engine.checkService_fails hdrop hj hk] at hx
    exact exec_fails hx hdrop (.refl c _) hj hf rfl rfl (by simp) (.inr rfl)
  · rw [Engine.checkService_passes hdrop hj hvalid hlen hoff, hops] at hx
    have hch := s.eng.dropUnit.setChan_chan c { s.eng.chan c with
      readings := { (s.eng.chan c).readings with service := some v } }
    have hw := (Engine.WorksAlone.refl c s.eng.dropUnit).setChan { s.eng.chan c with
      readings := { (s.eng.chan c).readings with service := some v } }
    refine ⟨fun addr hok => ?_, fun k ph n herr hf => ?_⟩
    · rw [Engine.checkNext_reads hch hj rest hok] at hx
      exact exec_asks hx hw (by simp) (by simp) (.inr rfl)
    · rw [Engine.checkNext_fails hch hj rest herr] at hx
      exact exec_fails hx hch hw hj hf rfl rfl (by simp) (.inr rfl)

end Sys2Proof.Machine
end

section
/-! SUPPORT. What the dispatcher sends to a channel: yields and their withdrawals (R70, R76, R80, R81, R100), and the answer
to a conditional dispatch (R69, R80, R83), with the statements about them. -/

namespace Sys2Proof.Machine

/-! ### The dispatcher's messages at the end of a step (R70, R79) -/

/-- A walk puts its messages after those on their way. -/
theorem Engine.walkOnce_yields (e : Engine) (c : ChannelId) :
    (e.chan c).yields <+: (e.walkOnce.chan c).yields := by
  obtain ⟨_, _, hyields, _⟩ := e.walkOnce_walked
  rw [hyields c, List.append_assoc]
  exact List.prefix_append _ _

theorem Engine.walks_yields (n : Nat) (e : Engine) (c : ChannelId) :
    (e.chan c).yields <+: ((e.walks n).chan c).yields := by
  induction n generalizing e with
  | zero => exact List.prefix_refl _
  | succ n ih =>
    unfold Engine.walks
    split
    · exact e.walkOnce_yields c
    · exact (e.walkOnce_yields c).trans (ih e.walkOnce)

theorem Engine.reconsider_yields (e : Engine) (c : ChannelId) :
    (e.chan c).yields <+: (e.reconsider.chan c).yields := by
  unfold Engine.reconsider
  split
  · exact e.walks_yields _ c
  · exact (e.withdrawAll_yields _ c).symm ▸ List.prefix_append _ _

theorem Engine.sendDispatch_chan (e : Engine) (c : ChannelId) : e.sendDispatch.chan c = e.chan c := by
  rcases e.sendDispatch_eq with h | ⟨d, h⟩ <;> rw [h]
  rfl

theorem Engine.chooseUnit_chan (e : Engine) (c : ChannelId) : e.chooseUnit.chan c = e.chan c := by
  unfold Engine.chooseUnit
  split
  · rfl
  · split <;> rfl

/-- The messages on their way to a channel stay first as a step ends. -/
theorem Engine.settle_yields (b a : Engine) (c : ChannelId) :
    ∃ more, ((b.settle a).chan c).yields = (a.chan c).yields ++ more := by
  have hprefix : (a.chan c).yields <+: ((b.settle a).chan c).yields := by
    rw [Engine.settle, Engine.chooseUnit_chan, Engine.sendDispatch_chan]
    split
    · exact List.prefix_refl _
    · exact a.reconsider_yields c
  obtain ⟨more, hmore⟩ := hprefix
  exact ⟨more, hmore.symm⟩

theorem State.onEngine_yields (s : State) {c : ChannelId} {f : Engine} {ch : Channel} (h : f.chan c = ch) :
    ∃ more, ((s.onEngine fun _ => f).eng.chan c).yields = ch.yields ++ more :=
  h ▸ s.eng.settle_yields f c

/-! ### A yield taken in a step that completes no unit (R76, R80, R81) -/

/-- A channel that has become `ch` and asks for its next access. -/
theorem State.asks_onEngine {s : State} {c : ChannelId} {g : Engine} (hw : Engine.WorksAlone c s.eng g) (ch : Channel)
    (t : EngineStep) (a : EngineAccess) :
    ((s.onEngine fun _ => (g.setChan c ch).askFrom c t a).eng.chan c).own = ch.own ∧
    (s.onEngine fun _ => (g.setChan c ch).askFrom c t a).eng.presents (.channel c) t a ∧
    s.SameBut [.channel c] (s.onEngine fun _ => (g.setChan c ch).askFrom c t a) := by
  refine ⟨?_, State.onEngine_presents (Engine.ask_presents _ _ t a), ((hw.setChan ch).askFrom t a).onEngine⟩
  rw [State.onEngine_own]
  exact congrArg Channel.own (g.setChan_chan c ch)

theorem State.takesYield_onEngine {s : State} {c : ChannelId} {e : Engine} {a : Channel} {j : Job} {rs : Readings}
    (hw : Engine.WorksAlone c s.eng e) (hch : e.chan c = a) (hj : a.job = some j) (hc : a.copies = some rs) :
    s.TakesYield [] (s.onEngine fun _ => e.takeYield c) c a j rs := by
  subst hch
  have hmoving := Channel.moving_eq hj hc
  refine ⟨fun sh hn hsh => ?_, fun sh cl hs hcl => ?_⟩
  · rw [Engine.takeYield_parksShadow hmoving hn]
    refine State.freesFull_onEngine ((hw.clearYield _).setChan _) ?_ rfl
    rw [Engine.setChan_chan, hsh]
    rfl
  · rw [Engine.takeYield_parksContext hmoving hs hcl]
    obtain ⟨hown, hpresents, hsame⟩ := State.asks_onEngine (hw.clearYield j.place)
      { e.chan c with state := .saving, work := .saveWrite, yieldHeld := false } .saveAreaWrite
      (writeWords cl.saveArea (saveWords j (e.chan c).progress))
    exact ⟨hown, ⟨_, hpresents, saveWord_toNat j _⟩, hsame⟩

/-! ### YIELD_REQUEST and YIELD_WITHDRAWAL (R70, R76, R100) -/

section Arrives

variable {s : State} {e : Engine} {c : ChannelId} {a : Channel} {place : Nat} {rest : List YieldMessage}

/-- What a yield comes to, the channel being `a` without it. -/
def Engine.yieldReaches (e : Engine) (c : ChannelId) (a : Channel) (place : Nat) : Engine :=
  if a.runs place then (e.setChan c a).yieldArrives c else (e.setChan c a).clearYield c place

theorem exec_yieldRequest (h : (s.eng.chan c).yields = .ask place :: rest) : exec (.yieldRequest c) s =
    .next (s.onEngine fun _ => s.eng.yieldReaches c { s.eng.chan c with yields := rest } place) := by
  change execYieldRequest c s = _
  simp only [execYieldRequest, State.onEngine, h]
  rfl

theorem exec_yieldWithdrawal (h : (s.eng.chan c).yields = .withdraw place :: rest) : exec (.yieldWithdrawal c) s =
    .next (s.onEngine fun _ => s.eng.setChan c { s.eng.chan c with
      yields := rest, yieldHeld := if (s.eng.chan c).runs place then false else (s.eng.chan c).yieldHeld }) := by
  change execYieldWithdrawal c s = _
  simp only [execYieldWithdrawal, State.onEngine, h]

/-- A yield for another job is no longer outstanding. -/
theorem Engine.yieldReaches_other (h : a.runs place = false) :
    e.yieldReaches c a place = (e.setChan c a).clearYield c place := by
  simp [Engine.yieldReaches, h]

/-- Away from a boundary, and where the job is held frozen, the yield is held (log 32). -/
theorem Engine.yieldReaches_held (h : a.runs place = true) (hb : (a.atBoundary && !e.frozen) = false) :
    e.yieldReaches c a place = e.setChan c { a with yieldHeld := true } := by
  have hfrozen : (e.setChan c a).frozen = e.frozen := rfl
  rw [Engine.yieldReaches, if_pos h, Engine.yieldArrives]
  simp only [Engine.setChan_chan, Engine.setChan_setChan, hfrozen, hb, Bool.false_eq_true, if_false]

/-- Where the job waits at a boundary and is not frozen, it is taken at once. -/
theorem Engine.yieldReaches_taken (h : a.runs place = true) (hb : a.atBoundary = true) (hf : e.frozen = false)
    (hs : a.stop = none) :
    e.yieldReaches c a place = (e.setChan c { a with yieldHeld := true }).takeYield c := by
  have hfrozen : (e.setChan c a).frozen = false := hf
  rw [Engine.yieldReaches, if_pos h, Engine.yieldArrives]
  simp only [Engine.setChan_chan, Engine.setChan_setChan, hfrozen, hb, Bool.not_false, Bool.and_true, if_true]
  exact Engine.boundary_yields (e.setChan_chan c _) hs rfl

end Arrives

/-- Settles O45: where the yield finds its job says which of the lemmas on arrivals applies. -/
theorem yieldMessagesArrive : Obligations.YieldMessagesArrive := by
  refine fun s c place rest => ⟨fun hasks => ?_, fun hwithdraws => ?_⟩
  · have hexec := exec_yieldRequest hasks
    refine ⟨fun hruns hb => ?held, fun hruns => ?other, fun j rs hj hplace hb hf hc hs => ?taken⟩
    case held =>
      rw [Engine.yieldReaches_held (by exact hruns) (by exact hb)] at hexec
      obtain ⟨hown, hsame⟩ := s.onEngine_setChan c { s.eng.chan c with yields := rest, yieldHeld := true }
      exact ⟨_, hexec, hown, s.onEngine_yields (s.eng.setChan_chan c _), hsame⟩
    case other =>
      rw [Engine.yieldReaches_other (by exact hruns)] at hexec
      have hchan : ((s.eng.setChan c { s.eng.chan c with yields := rest }).clearYield c place).chan c =
          { s.eng.chan c with yields := rest } := s.eng.setChan_chan c _
      refine ⟨_, hexec, s.onEngine_yields hchan, fun p _ => ?_⟩
      by_cases hp : p = .channel c
      · subst hp
        have hown := congrArg Channel.own hchan
        exact (State.onEngine_own _ _ c).trans hown
      · exact (((Engine.WorksAlone.refl c s.eng).setChan _).clearYield place).onEngine p (by simpa using hp)
    case taken =>
      have hruns : (s.eng.chan c).runs place = true := (Channel.runs_iff _ place).mpr ⟨j, hj, hplace⟩
      subst hplace
      rw [Engine.yieldReaches_taken (by exact hruns) (by exact hb) hf (by exact hs)] at hexec
      obtain ⟨hparks, hsaves⟩ := State.takesYield_onEngine
        ((Engine.WorksAlone.refl c s.eng).setChan { s.eng.chan c with yields := rest, yieldHeld := true })
        (s.eng.setChan_chan c _) hj hc
      exact ⟨fun sh hn hsh => ⟨_, hexec, hparks sh hn hsh⟩, fun sh cl hsh hcl => ⟨_, hexec, hsaves sh cl hsh hcl⟩⟩
  · obtain ⟨hown, hsame⟩ := s.onEngine_setChan c { s.eng.chan c with
      yields := rest, yieldHeld := if (s.eng.chan c).runs place then false else (s.eng.chan c).yieldHeld }
    exact ⟨_, exec_yieldWithdrawal hwithdraws, s.onEngine_yields (s.eng.setChan_chan c _), hown, hsame⟩

/-! ### CONDITIONAL_DISPATCH (R69, R80, R83) -/

theorem exec_conditionalDispatch {s : State} {c : ChannelId} {prio : BitVec 3} {rest : List Report}
    (h : (s.eng.chan c).reports = .conditional prio :: rest) : exec (.conditionalDispatch c) s =
      .next (s.onEngine fun _ =>
        (s.eng.setChan c { s.eng.chan c with reports := rest }).answerConditional c prio) := by
  change execConditionalDispatch c s = _
  simp only [execConditionalDispatch, State.onEngine, Engine.takeReport, h]

section Answer

variable {e : Engine} {c : ChannelId} {prio : BitVec 3} {sh : Shadow}

theorem Engine.answerConditional_dispatches {en : Entry} (hfree : (e.chan c).state = .free)
    (hhead : e.jtc.head = some en) (hrun : e.ctl.state = .running) (hp : prio < en.record.priority) :
    e.answerConditional c prio = e.dispatchTo c en := by
  simp [Engine.answerConditional, hfree, hhead, Engine.isRunning, hrun, hp]

theorem Engine.answerConditional_resumes (hfree : (e.chan c).state = .free)
    (h : e.ctl.state ≠ .running ∨ ∀ x ∈ e.jtc.entries, x.custody = .pending → ¬ prio < x.record.priority) :
    e.answerConditional c prio = e.resumeShadow c := by
  unfold Engine.answerConditional
  rw [if_pos hfree]
  cases hhead : e.jtc.head with
  | none => rfl
  | some en =>
    obtain ⟨hmem, hpending⟩ := JobTable.head_mem hhead
    refine if_neg fun hout => ?_
    rw [Bool.and_eq_true, decide_eq_true_eq, Engine.isRunning, beq_iff_eq] at hout
    exact h.elim (fun hrun => hrun hout.1) fun hall => hall en hmem hpending hout.2

/-- The engine in which a channel's shadow job has resumed, at its first boundary (R80, R83). -/
def Engine.resumed (e : Engine) (c : ChannelId) (sh : Shadow) : Engine :=
  (e.setChan c ((e.chan c).resumesHeld sh)).noteStart sh.job.place

theorem Engine.resumeShadow_proceeds (h : (e.chan c).shadow = some sh) :
    e.resumeShadow c = (e.resumed c sh).proceed c := by
  simp only [Engine.resumeShadow, h]
  rfl

theorem Engine.resumed_chan : (e.resumed c sh).chan c = (e.chan c).resumesHeld sh := e.setChan_chan c _

/-- The resumed job goes on from its first boundary in the channel alone; that it has resumed is noted as a start. -/
theorem Engine.resumeShadow_rest (h : (e.chan c).shadow = some sh) :
    Engine.WorksAlone c (e.resumed c sh) (e.resumeShadow c) ∧ Engine.Works c e (e.resumeShadow c) := by
  rw [Engine.resumeShadow_proceeds h]
  exact ⟨(Engine.WorksAlone.refl c _).proceed,
    ((Engine.Works.setChan c e _).trans (Engine.Works.noteStart c _ _)).trans (Engine.Works.proceed c _)⟩

theorem Channel.resumesHeld_waits (ch : Channel) :
    (ch.resumesHeld sh).waitsForTick = decide (sh.job.record.paceUnit ≠ 0) := by
  simp [Channel.resumesHeld, Channel.waitsForTick, resumedProgress]

/-- Frozen, or paced, the resumed job waits at its first boundary. -/
theorem Engine.resumeShadow_waits (h : (e.chan c).shadow = some sh)
    (hwait : e.frozen = true ∨ sh.job.record.paceUnit ≠ 0) :
    (e.resumeShadow c).chan c = (e.chan c).resumesHeld sh := by
  have hfrozen : (e.resumed c sh).frozen = e.frozen := rfl
  rw [Engine.resumeShadow_proceeds h, Engine.proceed_waits
    (by rwa [Engine.resumed_chan, Channel.resumesHeld_waits, hfrozen, decide_eq_true_eq]), Engine.setWork,
    Engine.setChan_chan, Engine.resumed_chan]
  rfl

/-- Otherwise its next burst is issued. -/
theorem Engine.resumeShadow_issues (h : (e.chan c).shadow = some sh) (hf : e.frozen = false)
    (hp : sh.job.record.paceUnit = 0) :
    (e.resumeShadow c).Issues c ((e.chan c).resumesHeld sh) (bodyOf sh.job.record sh.copies.service) sh.copies
      (formBurst (bodyOf sh.job.record sh.copies.service) false sh.copies (resumedProgress sh.progress)) := by
  have hfrozen : (e.resumed c sh).frozen = false := hf
  have hissue := Engine.issueBurst_issues (e := e.resumed c sh) (c := c)
    (by rw [Engine.resumed_chan]; exact Channel.moving_eq rfl rfl)
  rw [Engine.resumed_chan, hp] at hissue
  rw [Engine.resumeShadow_proceeds h, Engine.proceed_issues hfrozen
    (by rw [Engine.resumed_chan, Channel.resumesHeld_waits, hp]; rfl)]
  exact hissue

end Answer

/-- Settles O38: the head that outranks the shadow is dispatched to the channel, and otherwise the shadow resumes. -/
theorem conditionalDispatchAnswered : Obligations.ConditionalDispatchAnswered := by
  intro s c prio rest hreports hfree ho
  have hexec := exec_conditionalDispatch hreports
  have htaken := s.eng.setChan_chan c { s.eng.chan c with reports := rest }
  have hsame : ∀ p, p ≠ .channel c → s.eng.same (s.eng.setChan c { s.eng.chan c with reports := rest }) p :=
    fun p hp => (Engine.WorksOn.cons ((Engine.WorksAlone.refl c s.eng).setChan _) (.refl [] _)).same p (by simpa)
  have hfree' : ((s.eng.setChan c { s.eng.chan c with reports := rest }).chan c).state = .free := by
    rw [htaken]
    exact hfree
  generalize hg : s.eng.setChan c { s.eng.chan c with reports := rest } = g at *
  have hctl : g.ctl = s.eng.ctl := by rw [← hg]; rfl
  have hjtc : g.jtc = s.eng.jtc := by rw [← hg]; rfl
  have hstarts : g.disp.nextStart = s.eng.disp.nextStart := by rw [← hg]; rfl
  refine ⟨fun en hrun hhead hp => ?dispatched, fun sh body p a hsh hout hbody hprogress ha => ?resumed⟩
  case dispatched =>
    rw [Engine.answerConditional_dispatches hfree' (hjtc ▸ ho.head hhead) (hctl ▸ hrun) hp] at hexec
    obtain ⟨htable, hstart, htakes, _, hrest⟩ := g.dispatchTo_takes c en (hjtc ▸ ho) (hjtc ▸ hhead.1)
    obtain ⟨hfirst, hresume⟩ := g.dispatchTo_presents c en
    refine ⟨_, hexec, ?_, ?_, ?_, fun h => State.onEngine_presents ?_,
      fun cl h hcl => State.onEngine_presents (hresume cl h hcl), State.onEngine_sameBut fun p hp => ?_⟩
    · rw [State.onEngine_eng, Engine.settle_jtc, htable, hjtc, hstarts]
    · rw [State.onEngine_eng, Engine.settle_nextStart, hstart, hstarts]
    · rw [htaken] at htakes
      exact (State.onEngine_own s _ c).trans htakes
    · have hdomain : g.domain en.domain = s.eng.domain en.domain := by simp only [Engine.domain, hctl]
      exact hdomain ▸ hfirst h
    · simp only [List.mem_cons, List.not_mem_nil, not_or, or_false] at hp
      exact Engine.same_trans (hsame p hp.2.2) (hrest p hp.1 hp.2.1 hp.2.2)
  case resumed =>
    have hshadow : (g.chan c).shadow = some sh := by rw [htaken]; exact hsh
    have hfrozen : g.frozen = s.eng.frozen := by simp only [Engine.frozen, Engine.working, hctl]
    have hheld : (g.chan c).resumesHeld sh = a := by
      rw [htaken, ha, hprogress]
      rfl
    rw [Engine.answerConditional_resumes hfree' (by rwa [hctl, hjtc])] at hexec
    obtain ⟨halone, hworks⟩ := Engine.resumeShadow_rest hshadow
    refine ⟨_, hexec, ?_, ?_, fun hwait => ?_, fun hf hpace => ?_, State.onEngine_sameBut fun p hp => ?_⟩
    · rw [State.onEngine_eng, Engine.settle_jtc, halone.jtc, ← hjtc, ← hstarts]
      rfl
    · rw [State.onEngine_eng, Engine.settle_nextStart, halone.nextStart, ← hstarts]
      rfl
    · rw [State.onEngine_own, Engine.resumeShadow_waits hshadow (by rwa [hfrozen]), hheld]
    · have hissue := Engine.resumeShadow_issues hshadow (hfrozen.trans hf) hpace
      rw [hheld] at hissue
      rw [hbody, hprogress]
      exact hissue.settle s.eng
    · simp only [List.mem_cons, List.not_mem_nil, not_or, or_false] at hp
      obtain ⟨htable, hstart, hchannel⟩ := hp
      exact Engine.same_trans (hsame p hchannel) (hworks.same p ⟨hchannel, hstart, htable⟩)

end Sys2Proof.Machine
end

section
/-! SUPPORT. The pins (R74, R99, R141, R154): RESET released, and FRZ asserted and deasserted, with the statement about
them. -/

namespace Sys2Proof.Machine

/-! ### RESET_RELEASE (R128, R141) -/

theorem exec_resetRelease {s : State} (l0 l1 l2 l3 : Level) (h : s.resetPin = true) :
    exec (.resetRelease l0 l1 l2 l3) s =
      .next (s.settled fun s => { s with
        resetPin := false, ports := { s.ports with level := #v[l0, l1, l2, l3] } }) := by
  change execResetRelease l0 l1 l2 l3 s = _
  simp only [execResetRelease, State.settled, h, if_true]

theorem exec_resetRelease_idle {s : State} (l0 l1 l2 l3 : Level) (h : s.resetPin = false) :
    exec (.resetRelease l0 l1 l2 l3) s = .next (s.settled fun s => s) := by
  change execResetRelease l0 l1 l2 l3 s = _
  simp only [execResetRelease, State.settled, h, Bool.false_eq_true, if_false]

theorem State.released_sameBut (s : State) (ports : Ports) :
    s.SameBut [.pins, .ports] (s.settled fun s => { s with resetPin := false, ports := ports }) := fun p hp =>
  State.settled_same s _ p (by
    cases p with
    | pins | ports => simp at hp
    | timebase => exact ⟨rfl, rfl⟩
    | _ => rfl)

/-! ### FRZ_DEASSERT (R74, R154) -/

section Thaw

variable {e f : Engine} {c : ChannelId} {a : Channel} {j : Job} {rs : Readings} {body : Body}

theorem Engine.thaw_worksAlone (e : Engine) (c : ChannelId) : Engine.WorksAlone c e (e.thaw c) := by
  unfold Engine.thaw
  split
  · exact (Engine.WorksAlone.refl c e).proceed
  · exact .refl c e

/-- A channel that no boundary holds stays as it was. -/
theorem Engine.thaw_still (h : (e.chan c).state ≠ .moving ∨ (e.chan c).work ≠ .boundary) : e.thaw c = e := by
  rw [Engine.thaw, if_neg]
  rwa [Channel.atBoundary_iff, not_and_or]

/-- A paced channel goes on waiting for its tick. -/
theorem Engine.thaw_waits (h : (e.chan c).waitsForTick = true) : (e.thaw c).chan c = e.chan c := by
  unfold Engine.thaw
  split
  next hb =>
    rw [Engine.proceed_waits (.inr h), Engine.setWork, Engine.setChan_chan]
    exact congrArg (fun w => { e.chan c with work := w }) ((e.chan c).atBoundary_iff.mp hb).2.symm
  next => rfl

/-- Any other channel at a boundary issues its next burst. -/
theorem Engine.thaw_issues (hf : e.frozen = false) (hb : (e.chan c).atBoundary = true)
    (hm : (e.chan c).moving = some (j, rs, body)) (hw : (e.chan c).waitsForTick = false) :
    (e.thaw c).Issues c (e.chan c) body rs
      (formBurst body (decide (j.record.paceUnit ≠ 0)) rs (e.chan c).progress) := by
  rw [Engine.thaw, if_pos hb, Engine.proceed_issues hf hw]
  exact Engine.issueBurst_issues hm

theorem Channel.waitsForTick_iff (hj : a.job = some j) :
    a.waitsForTick = true ↔ j.record.paceUnit ≠ 0 ∧ a.progress.unitLeft = 0 := by
  simp [Channel.waitsForTick, hj]

/-- The engine with FRZ deasserted. -/
def Engine.unfrozen (e : Engine) : Engine := e.setCtl { e.ctl with frz := false }

theorem Engine.unfrozen_frozen (e : Engine) : e.unfrozen.frozen = false := by
  simp [Engine.frozen, Engine.unfrozen]

/-- The engine once FRZ is deasserted and the jobs held have gone on. -/
def Engine.thawed (e : Engine) : Engine := channelList.foldl Engine.thaw e.unfrozen

theorem Engine.thawed_worksOn (e : Engine) : Engine.WorksOn channelList e.unfrozen e.thawed :=
  .foldl Engine.thaw_worksAlone channelList e.unfrozen

theorem Engine.thawed_same (e : Engine) {p : Part} (hp : p ∉ .control :: everyChannel) : e.same e.thawed p := by
  refine Engine.same_trans ?_ (e.thawed_worksOn.same p fun c _ hpc => hp ?_)
  · cases p with
    | control => simp at hp
    | mem | ports | arb | pins | queue => trivial
    | timebase => exact ⟨rfl, rfl⟩
    | _ => rfl
  · rw [hpc]
    fin_cases c <;> simp [everyChannel]

theorem Engine.thawed_ctl (e : Engine) : e.thawed.ctl = { e.ctl with frz := false } :=
  e.thawed_worksOn.same .control fun _ _ => nofun

/-- What a channel comes to is what its own going on makes of it, in an engine that is not frozen. -/
theorem Engine.thawed_at (e : Engine) (c : ChannelId) : ∃ f : Engine, f.chan c = e.chan c ∧ f.frozen = false ∧
    e.thawed.chan c = (f.thaw c).chan c ∧
    ∀ a body rs b, (f.thaw c).Issues c a body rs b → e.thawed.Issues c a body rs b := by
  obtain ⟨_, _, hb, ha, f, hbefore, hafter⟩ := Engine.WorksOn.foldl_at Engine.thaw_worksAlone channelList_nodup
    (mem_channelList c) e.unfrozen
  exact ⟨f, hbefore.others c hb, hbefore.frozen.trans e.unfrozen_frozen, hafter.others c ha,
    fun _ _ _ _ => hafter.issues ha⟩

theorem Engine.thawed_still (h : (e.chan c).state ≠ .moving ∨ (e.chan c).work ≠ .boundary) :
    e.thawed.chan c = e.chan c := by
  obtain ⟨f, hchan, _, hafter, _⟩ := e.thawed_at c
  rw [← hchan] at h
  rw [hafter, Engine.thaw_still h, hchan]

theorem Engine.thawed_waits (h : (e.chan c).waitsForTick = true) : e.thawed.chan c = e.chan c := by
  obtain ⟨f, hchan, _, hafter, _⟩ := e.thawed_at c
  rw [← hchan] at h
  rw [hafter, Engine.thaw_waits h, hchan]

theorem Engine.thawed_issues (hb : (e.chan c).atBoundary = true) (hm : (e.chan c).moving = some (j, rs, body))
    (hw : (e.chan c).waitsForTick = false) :
    e.thawed.Issues c (e.chan c) body rs
      (formBurst body (decide (j.record.paceUnit ≠ 0)) rs (e.chan c).progress) := by
  obtain ⟨f, hchan, hf, _, hissues⟩ := e.thawed_at c
  rw [← hchan] at hb hm hw ⊢
  exact hissues _ _ _ _ (Engine.thaw_issues hf hb hm hw)

end Thaw

/-- Settles O24: a released RESET latches the levels, FRZ asserted touches one bit, and FRZ deasserted lets each channel
go on by itself. -/
theorem pinEvents : Obligations.PinEvents := by
  refine ⟨fun s l0 l1 l2 l3 => ⟨fun hreset => ?_, fun hreset => ?_⟩, fun s => ⟨?asserted, ?deasserted⟩⟩
  · exact ⟨_, exec_resetRelease l0 l1 l2 l3 hreset, rfl, rfl, rfl, s.released_sameBut _⟩
  · exact ⟨_, exec_resetRelease_idle l0 l1 l2 l3 hreset, s.settled_id_sameBut⟩
  case asserted =>
    have hctl : (s.onEngine fun e => e.setCtl { e.ctl with frz := true }).eng.ctl = { s.eng.ctl with frz := true } :=
      Engine.settle_ctl _ _
    refine ⟨_, rfl, hctl, ?_, State.onEngine_sameBut fun p hp => ?_⟩
    · rw [Engine.frozen, Engine.working, hctl, Bool.and_true]
      rfl
    · cases p with
      | control => simp at hp
      | mem | ports | arb | pins | queue => trivial
      | timebase => exact ⟨rfl, rfl⟩
      | _ => rfl
  case deasserted =>
    have hctl : (s.onEngine Engine.thawed).eng.ctl = { s.eng.ctl with frz := false } :=
      (Engine.settle_ctl _ _).trans s.eng.thawed_ctl
    have hown (c : ChannelId) : ((s.onEngine Engine.thawed).eng.chan c).own = (s.eng.thawed.chan c).own :=
      s.eng.settle_chan_own s.eng.thawed c
    refine ⟨s.onEngine Engine.thawed, rfl, hctl, ?_, fun c h => ?_,
      fun c j rs body hstate hwork hm => ⟨fun hpace hleft => ?_, fun hgo => ?_⟩,
      State.onEngine_sameBut fun p hp => s.eng.thawed_same hp⟩
    · rw [Engine.frozen, hctl, Bool.and_false]
    · rw [hown, Engine.thawed_still h]
    · rw [hown, Engine.thawed_waits ((Channel.waitsForTick_iff (Channel.moving_job hm)).mpr ⟨hpace, hleft⟩)]
    · have hw : (s.eng.chan c).waitsForTick = false := by
        rw [← Bool.not_eq_true, Channel.waitsForTick_iff (Channel.moving_job hm), not_and_or, not_not]
        exact hgo
      have hb := (s.eng.chan c).atBoundary_iff.mpr ⟨hstate, hwork⟩
      exact (Engine.thawed_issues hb hm hw).settle s.eng

end Sys2Proof.Machine
end

section
/-! SUPPORT. No command sends a dispatch of itself (R69, log 15): what is on its way is what was, until the end of the
step; each shared operation first, then each command. -/

namespace Sys2Proof.Machine

/-- No dispatch is on its way in `f` unless one was in `e`. -/
def Engine.SendsNone (e f : Engine) : Prop := e.disp.sent = none → f.disp.sent = none

namespace Engine.SendsNone

variable {e f g : Engine}

theorem refl (e : Engine) : e.SendsNone e := id

theorem trans (h : e.SendsNone f) (k : f.SendsNone g) : e.SendsNone g := fun hn => k (h hn)

theorem of_disp (h : f.disp = e.disp) : e.SendsNone f := fun hn => h ▸ hn

theorem setJtc (e : Engine) (j : JobTable) : e.SendsNone (e.setJtc j) := of_disp rfl

theorem setCtl (e : Engine) (k : Control) : e.SendsNone (e.setCtl k) := of_disp rfl

theorem of_works {c : ChannelId} (h : Engine.Works c e f) : e.SendsNone f := h.sent.trans

theorem foldl {α : Type} {w : Engine → α → Engine} (hw : ∀ e x, Engine.SendsNone e (w e x)) (l : List α) (e : Engine) :
    e.SendsNone (l.foldl w e) := by
  induction l generalizing e with
  | nil => exact refl e
  | cons x l ih => exact (hw e x).trans (ih _)

end Engine.SendsNone

/-! ### Operations of the engine -/

namespace Engine

theorem requestStop_sendsNone (e : Engine) (en : Entry) (r : StopReason) : e.SendsNone (e.requestStop en r) := by
  have hrest := congrArg Engine.disp (e.requestStop_rest en r)
  exact .of_disp hrest

theorem drain_sendsNone (es : List Entry) (e : Engine) : e.SendsNone (es.foldl Engine.drainEntry e) := by
  have hrest := congrArg Engine.disp (drain_rest es e)
  exact .of_disp hrest

theorem expire_sendsNone (e : Engine) (en : Entry) : e.SendsNone (e.expire en) := by
  have hrest := congrArg Engine.disp (e.expire_rest en)
  exact .of_disp hrest

theorem closeOut_sendsNone (e : Engine) (en : Entry) : e.SendsNone (e.closeOut en) := by
  have hrest := congrArg Engine.disp (e.closeOut_rest en)
  exact .of_disp hrest

theorem advanceTimebase_sendsNone (e : Engine) (rq : BitVec 8) : e.SendsNone (e.advanceTimebase rq) := by
  have hrest := congrArg Engine.disp (e.ticked_rest rq)
  have hticked : e.SendsNone (e.ticked rq) := .of_disp hrest
  rw [advanceTimebase_eq]
  exact hticked.trans (.foldl (fun e c => .of_works (.paceTick c e)) channelList (e.ticked rq))

theorem thawed_sendsNone (e : Engine) : e.SendsNone e.thawed :=
  (SendsNone.setCtl e _).trans (.foldl (fun e c => .of_works (.thaw c e)) channelList e.unfrozen)

theorem deliverCancel_sendsNone (e : Engine) (d : Domain) (k : Slot) : e.SendsNone (e.deliverCancel d k).1 := by
  unfold Engine.deliverCancel
  split
  · exact .refl e
  · rename_i en _
    cases en.custody with
    | active | shadowed => exact e.requestStop_sendsNone en _
    | created | pending | armed | closing => exact .of_disp rfl

theorem dispatchTo_sendsNone (e : Engine) (c : ChannelId) (en : Entry) : e.SendsNone (e.dispatchTo c en) := by
  unfold Engine.dispatchTo Engine.beginJob
  dsimp only
  split <;> exact id

theorem takeDispatch_sendsNone (e : Engine) (c : ChannelId) : e.SendsNone (e.takeDispatch c) := by
  unfold Engine.takeDispatch
  split
  · split
    · exact e.dispatchTo_sendsNone c _
    · exact .refl e
  · exact .refl e

theorem answerConditional_sendsNone (e : Engine) (c : ChannelId) (prio : BitVec 3) :
    e.SendsNone (e.answerConditional c prio) := by
  unfold Engine.answerConditional
  split
  · split
    · split
      · exact e.dispatchTo_sendsNone c _
      · exact .of_works (.resumeShadow c e)
    · exact .of_works (.resumeShadow c e)
  · exact .refl e

theorem sendDrop_sendsNone (e : Engine) (en : Entry) (r : StopReason) : e.SendsNone (e.sendDrop en r) := by
  unfold Engine.sendDrop
  split <;> exact .of_disp rfl

theorem shadowParked_sendsNone (e : Engine) (c : ChannelId) (place : Nat) : e.SendsNone (e.shadowParked c place) := by
  unfold Engine.shadowParked
  split
  · exact .refl e
  · dsimp only
    split
    · exact (SendsNone.setJtc e _).trans (sendDrop_sendsNone _ _ _)
    · split
      · exact (SendsNone.setJtc e _).trans (requestStop_sendsNone _ _ _)
      · exact .of_disp rfl

/-- Taking a report sends what the report's own meaning sends. -/
theorem takeReport_sendsNone {f : Report → Option (Engine → Engine)}
    (hf : ∀ r (e : Engine), e.SendsNone ((f r).getD id e)) (e : Engine) (c : ChannelId) :
    e.SendsNone (e.takeReport c f) := by
  unfold Engine.takeReport
  split
  · exact .refl e
  · rename_i r rest _
    have hr := hf r (e.setChan c { e.chan c with reports := rest })
    split
    · exact .refl e
    · rename_i g hg
      rwa [hg] at hr

theorem readSlots_sendsNone (e : Engine) (p : Pass) (n : Nat) (ds : List Decision) (ks : List Slot) :
    e.SendsNone (e.readSlots p n ds ks) := by
  cases ks <;> exact .of_disp rfl

theorem slotClassified_sendsNone (e : Engine) (p : Pass) (k : Slot) (r : JobRecord) (rest : List Slot) (n : Nat)
    (ds : List Decision) : e.SendsNone (e.slotClassified p k r rest n ds) := by
  unfold Engine.slotClassified
  split <;> exact e.readSlots_sendsNone _ _ _ _

theorem carryOn_sendsNone (p : Pass) (ds : List Decision) (e : Engine) : e.SendsNone (e.carryOn p ds) := by
  induction ds generalizing e with
  | nil =>
    rw [carryOn_nil, Engine.endPass]
    split <;> exact .of_disp rfl
  | cons x rest ih =>
    obtain ⟨k, v⟩ := x
    cases v with
    | busyPost | badPost => exact .of_disp rfl
    | cancel =>
      rw [carryOn_cancel]
      split
      · exact .of_disp rfl
      · exact (e.deliverCancel_sendsNone p.domain k).trans (ih _)
    | take r =>
      cases hout : e.intakeOutcome p.domain r with
      | some out =>
        rw [carryOn_take_closed hout]
        exact (SendsNone.setJtc e _).trans (ih _)
      | none =>
        rw [carryOn_take hout]
        exact .of_disp rfl

theorem contextReleased_sendsNone (e : Engine) (en : Entry) (w : Word) : e.SendsNone (e.contextReleased en w) := by
  unfold Engine.contextReleased
  split
  · exact .refl e
  · split <;> exact .of_disp rfl

theorem askAnchor_sendsNone (e : Engine) (t : EngineStep) : e.SendsNone (e.askAnchor t) := by
  unfold Engine.askAnchor
  split <;> exact .of_disp rfl

theorem beginReading_sendsNone (e : Engine) (t : EngineStep) : e.SendsNone (e.beginReading t) := by
  unfold Engine.beginReading
  split
  · exact e.askAnchor_sendsNone t
  · exact .of_disp rfl

theorem commandStart_sendsNone (e : Engine) : e.SendsNone e.commandStart := by
  unfold Engine.commandStart
  split
  · exact (SendsNone.setCtl e _).trans (beginReading_sendsNone _ _)
  · exact .of_disp rfl

theorem commandStop_sendsNone (e : Engine) : e.SendsNone e.commandStop := by
  unfold Engine.commandStop
  split
  · exact (SendsNone.setCtl e _).trans (drain_sendsNone _ _)
  · exact .of_disp rfl

theorem commandMapReload_sendsNone (e : Engine) : e.SendsNone e.commandMapReload := by
  unfold Engine.commandMapReload
  split
  · exact (SendsNone.setCtl e _).trans (beginReading_sendsNone _ _)
  · exact .of_disp rfl

theorem watch_sendsNone (e : Engine) (x : Nat) (en : BitVec 4) : e.SendsNone (e.watch x en) := by
  unfold Engine.watch
  split
  · refine .foldl (fun e d => ?_) domainList e
    unfold Engine.watchDomain
    split <;> exact .of_disp rfl
  · exact .refl e

end Engine

/-! ### Operations of the whole part -/

namespace State

theorem takeCommand_sendsNone (s : State) (code : BitVec 3) : s.eng.SendsNone (s.takeCommand code).eng := by
  unfold State.takeCommand
  split
  · exact s.eng.commandStart_sendsNone
  · split
    · exact s.eng.commandStop_sendsNone
    · split
      · exact s.eng.commandMapReload_sendsNone
      · split
        · exact fun _ => rfl
        · split
          · unfold State.clearViolation
            dsimp only
            split <;> exact .of_disp rfl
          · exact .of_disp rfl

theorem registerWrite_sendsNone (s : State) (p : Port) (r : RegName) (en : BitVec 4) (v : Word) :
    s.eng.SendsNone (s.registerWrite p r en v).eng := by
  unfold State.registerWrite
  split
  · cases r with
    | control => exact s.takeCommand_sendsNone _
    | note | anchor | status | violation => exact .of_disp rfl
  · exact .of_disp rfl

theorem serveAccess_sendsNone (s : State) (p : Port) (a : PortAccess) : s.eng.SendsNone (s.serveAccess p a).eng := by
  change s.eng.SendsNone (s.decideAccess p a).eng
  unfold State.decideAccess
  split
  · split
    · unfold State.sramServed
      split
      · exact s.eng.watch_sendsNone _ _
      · exact .of_disp rfl
    · rw [refuseAccess_eng]; exact .refl _
  · unfold State.registerAccess
    split
    · exact s.registerWrite_sendsNone _ _ _ _
    · exact .of_disp rfl
  · rw [refuseAccess_eng]; exact .refl _

theorem grant_sendsNone (s : State) (r : Requester) : s.eng.SendsNone (s.grant r).eng := by
  unfold State.grant
  split
  · exact .refl _
  · split
    · exact .refl _
    · exact State.serveAccess_sendsNone { s with arb := s.arb.grantPort _ _ } _ _

theorem serveNow_sendsNone (s : State) (p : Port) (a : PortAccess) : s.eng.SendsNone (s.serveNow p a).eng := by
  unfold State.serveNow
  split
  · exact State.serveAccess_sendsNone { s with arb := s.arb.sequenceAccess p a } p a
  · split
    · exact s.grant_sendsNone _
    · exact .refl _

theorem anchorRead_sendsNone (s : State) (fl : Flight) (ws : List Word) :
    s.eng.SendsNone (s.anchorRead fl ws).eng := by
  unfold State.anchorRead
  dsimp only
  split
  · exact (Engine.SendsNone.setCtl s.eng _).trans (Engine.askAnchor_sendsNone _ _)
  · split
    · unfold State.startJudged
      split <;> exact .of_disp rfl
    · unfold State.reloadJudged
      split <;> exact .of_disp rfl

end State

/-! ### Commands -/

/-- A step that ends with `t` has settled the engine, and sent no dispatch before. -/
def State.Ends (s t : State) : Prop := ∃ e : Engine, t.eng = s.eng.settle e ∧ s.eng.SendsNone e

theorem onEngine_ends {s t : State} {f : Engine → Engine}
    (h : Host.Outcome.next (s.onEngine f) = (.next t : Host.Outcome State Fault Refusal))
    (hf : ∀ e : Engine, e.SendsNone (f e)) : s.Ends t := by
  obtain rfl := Host.Outcome.next.inj h
  exact ⟨_, rfl, hf s.eng⟩

theorem settled_ends {s t : State} {f : State → State}
    (h : Host.Outcome.next (s.settled f) = (.next t : Host.Outcome State Fault Refusal))
    (hf : s.eng.SendsNone (f s).eng) : s.Ends t := by
  obtain rfl := Host.Outcome.next.inj h
  exact ⟨_, rfl, hf⟩

theorem registerRow_ends {s t : State} {p : Port} {r : RegName} {en : BitVec 4} {v : Word}
    (h : Host.Outcome.next (s.registerRow p r en v) = (.next t : Host.Outcome State Fault Refusal)) : s.Ends t := by
  refine settled_ends h ?_
  split
  · exact .refl _
  · have hserve := (s.present p (registerWriteAccess r en v)).serveNow_sendsNone p (registerWriteAccess r en v)
    rwa [State.present_eng] at hserve

/-- A row that presents a register write, or with operands that command nothing leaves the state. -/
theorem registerRow_or_ends {s t : State} {b : Bool} {p : Port} {r : RegName} {en : BitVec 4} {v : Word}
    (h : Host.Outcome.next (if b then s.registerRow p r en v else s) =
      (.next t : Host.Outcome State Fault Refusal)) : t = s ∨ s.Ends t := by
  split at h
  · exact .inr (registerRow_ends h)
  · exact .inl (Host.Outcome.next.inj h).symm

theorem completeUnit_ends {s t : State} {x : EngineStep} {k : Owner → List Byte → State → State}
    (h : completeUnit x k s = .next t) (hk : ∀ o data (s : State), s.eng.SendsNone (k o data s).eng) :
    t = s ∨ s.Ends t := by
  unfold completeUnit at h
  split at h
  · exact .inl (Host.Outcome.next.inj h).symm
  · split at h
    · exact .inr (settled_ends h (hk _ _ (s.unitDone _)))
    · simp at h

theorem completeEngine_ends {s t : State} {x : EngineStep} {k : Owner → List Byte → Engine → Engine}
    (h : completeEngine x k s = .next t) (hk : ∀ o data (e : Engine), e.SendsNone (k o data e)) : t = s ∨ s.Ends t :=
  completeUnit_ends h fun o data s => hk o data s.eng

/-- A command that is the work of one channel on a completed unit. -/
theorem completeChannel_ends {s t : State} {x : EngineStep} {k : ChannelId → List Byte → Engine → Engine}
    (h : completeChannel x k s = .next t) (hk : ∀ c data e, Engine.Works c e (k c data e)) : t = s ∨ s.Ends t := by
  refine completeEngine_ends h fun o data e => ?_
  split
  · exact .of_works (hk _ data e)
  · exact .refl e

/-- A command that takes a report. -/
theorem report_ends {s t : State} {c : ChannelId} {f : Report → Option (Engine → Engine)}
    (h : Host.Outcome.next (s.onEngine fun e => e.takeReport c f) = (.next t : Host.Outcome State Fault Refusal))
    (hf : ∀ r (e : Engine), e.SendsNone ((f r).getD id e)) : s.Ends t :=
  onEngine_ends h fun e => (Engine.takeReport_sendsNone hf e c)

/-- A closing's command goes on with the entry of the closing in flight. -/
theorem closing_ends {s t : State} {x : EngineStep} {k : List Byte → Engine → Entry → Engine}
    (h : completeEngine x (fun _ data e => match e.closingEntry with | none => e | some en => k data e en) s = .next t)
    (hk : ∀ data (e : Engine) en, e.SendsNone (k data e en)) : t = s ∨ s.Ends t := by
  refine completeEngine_ends h fun o data e => ?_
  split
  · exact .refl e
  · exact hk data e _

/-- The command of a pass goes on with the pass in flight. -/
theorem pass_ends {s t : State} {x : EngineStep} {k : List Byte → Engine → Pass → Engine}
    (h : completeEngine x (fun _ data e => match e.jtc.pass with | none => e | some p => k data e p) s = .next t)
    (hk : ∀ data (e : Engine) p, e.SendsNone (k data e p)) : t = s ∨ s.Ends t := by
  refine completeEngine_ends h fun o data e => ?_
  split
  · exact .refl e
  · exact hk data e _

end Sys2Proof.Machine
end

section
/-! SUPPORT. Every command ends its step by settling the engine, and none but DISPATCH concerns the dispatch on its
way. -/

namespace Sys2Proof.Machine

variable {s t : State} {c : ChannelId}

/-! ### The JTC's commands -/

theorem execIntakePass_ends (h : execIntakePass s = .next t) : s.Ends t := by
  refine onEngine_ends h fun e => ?_
  split
  · split <;> exact .of_disp rfl
  · exact .refl e

theorem execPostWordRead_ends (h : execPostWordRead s = .next t) : t = s ∨ s.Ends t := by
  refine completeEngine_ends h fun _ data e => ?_
  split
  · split
    · exact e.readSlots_sendsNone _ _ _ _
    · exact .refl e
  · exact .refl e

theorem execSlotRead_ends (h : execSlotRead s = .next t) : t = s ∨ s.Ends t := by
  refine pass_ends h fun data e p => ?_
  split
  · exact .of_disp rfl
  · exact e.slotClassified_sendsNone _ _ _ _ _ _
  · exact .refl e

theorem execClearingPair_ends (h : execClearingPair s = .next t) : t = s ∨ s.Ends t := by
  refine pass_ends h fun data e p => ?_
  split
  · exact Engine.carryOn_sendsNone p _ e
  · exact .refl e

theorem execReportWrite_ends (h : execReportWrite s = .next t) : t = s ∨ s.Ends t := by
  refine pass_ends h fun data e p => ?_
  split
  · exact Engine.carryOn_sendsNone p _ e
  · exact .refl e

theorem execTakenWrite_ends (h : execTakenWrite s = .next t) : t = s ∨ s.Ends t := by
  refine pass_ends h fun data e p => ?_
  split
  · exact (Engine.SendsNone.setJtc e _).trans (Engine.carryOn_sendsNone p _ _)
  · exact .refl e

theorem execConditionalDispatch_ends (h : execConditionalDispatch c s = .next t) : s.Ends t := by
  refine report_ends h fun r e => ?_
  cases r with
  | conditional => exact e.answerConditional_sendsNone c _
  | _ => exact .refl e

theorem execContextClaimReport_ends (h : execContextClaimReport c s = .next t) : s.Ends t := by
  refine report_ends h fun r e => ?_
  cases r with
  | contextClaim => exact .setJtc e _
  | _ => exact .refl e

theorem execParkShadowReport_ends (h : execParkShadowReport c s = .next t) : s.Ends t := by
  refine report_ends h fun r e => ?_
  cases r with
  | parkShadow => exact e.shadowParked_sendsNone c _
  | _ => exact .refl e

theorem execParkContextReport_ends (h : execParkContextReport c s = .next t) : s.Ends t := by
  refine report_ends h fun r e => ?_
  cases r with
  | parkContext => exact .setJtc e _
  | _ => exact .refl e

theorem execResumeShadowReport_ends (h : execResumeShadowReport c s = .next t) : s.Ends t := by
  refine report_ends h fun r e => ?_
  cases r with
  | resumeShadow => exact .setJtc e _
  | _ => exact .refl e

theorem execHandoff_ends (h : execHandoff c s = .next t) : s.Ends t := by
  refine report_ends h fun r e => ?_
  cases r with
  | handoff => exact .setJtc e _
  | _ => exact .refl e

theorem execLineEvent_ends {n : Line} (h : execLineEvent n s = .next t) : s.Ends t := by
  refine onEngine_ends h fun e => ?_
  split <;> exact .of_disp rfl

theorem execTapTick_ends {rq : BitVec 8} (h : execTapTick rq s = .next t) : s.Ends t := by
  refine onEngine_ends (s := { s with rq := rq }) h fun e => ?_
  split
  · exact e.advanceTimebase_sendsNone rq
  · exact .refl e

theorem execDeadlineExpiry_ends (h : execDeadlineExpiry s = .next t) : s.Ends t := by
  refine onEngine_ends h fun e => ?_
  split
  · exact .refl e
  · exact e.expire_sendsNone _

theorem execClosingBegin_ends (h : execClosingBegin s = .next t) : s.Ends t := by
  refine onEngine_ends h fun e => ?_
  split <;> exact .of_disp rfl

theorem execResultWrite_ends (h : execResultWrite s = .next t) : t = s ∨ s.Ends t := by
  refine closing_ends h fun data e en => ?_
  split <;> exact .of_disp rfl

theorem execDoneWrite_ends (h : execDoneWrite s = .next t) : t = s ∨ s.Ends t := by
  refine closing_ends h fun data e en => ?_
  split
  · exact .of_disp rfl
  · exact e.closeOut_sendsNone _

theorem execChainPosting_ends (h : execChainPosting s = .next t) : t = s ∨ s.Ends t := by
  refine closing_ends h fun _ e en => ?_
  have hattention : e.SendsNone (e.setAttention en.domain .posted) := .of_disp rfl
  exact hattention.trans (Engine.closeOut_sendsNone _ en)

theorem execContextRelease_ends (h : execContextRelease s = .next t) : t = s ∨ s.Ends t :=
  closing_ends h fun _ e en => e.contextReleased_sendsNone en _

theorem execReleaseMarkWrite_ends (h : execReleaseMarkWrite s = .next t) : t = s ∨ s.Ends t :=
  closing_ends h fun _ _ _ => .of_disp rfl

theorem execContextLostRewrite_ends (h : execContextLostRewrite s = .next t) : t = s ∨ s.Ends t :=
  closing_ends h fun _ _ _ => .of_disp rfl

/-! ### Engine Control, pins, ports and arbiter -/

theorem anchorRead_ends {x : EngineStep}
    (h : completeUnit x (fun _ data s =>
      match s.eng.ctl.flight with
      | none => s
      | some fl => s.anchorRead fl (bytesWords data)) s = .next t) : t = s ∨ s.Ends t := by
  refine completeUnit_ends h fun o data s => ?_
  split
  · exact .refl _
  · exact s.anchorRead_sendsNone _ _

theorem execDrainComplete_ends (h : execDrainComplete s = .next t) : s.Ends t := by
  refine onEngine_ends h fun e => ?_
  split <;> exact .of_disp rfl

theorem execResetRelease_ends {l0 l1 l2 l3 : Level} (h : execResetRelease l0 l1 l2 l3 s = .next t) : s.Ends t := by
  refine settled_ends h ?_
  split <;> exact .refl _

theorem execPortAccess_ends {p : Port} {a : PortAccess} (h : execPortAccess p a s = .next t) : s.Ends t := by
  refine settled_ends h ?_
  split
  · exact .refl _
  · rw [State.present_eng]
    exact .refl _

theorem execArbiterGrant_ends (h : execArbiterGrant s = .next t) : s.Ends t := by
  refine settled_ends h ?_
  split
  · exact .refl _
  · exact s.grant_sendsNone _

theorem execLockedSequenceAccess_ends (h : execLockedSequenceAccess s = .next t) : s.Ends t := by
  refine settled_ends h ?_
  split
  · exact .refl _
  · exact State.serveAccess_sendsNone { s with arb := s.arb.sequenceAccess _ _ } _ _

theorem execLockRelease_ends {p : Port} (h : execLockRelease p s = .next t) : s.Ends t := by
  refine settled_ends h ?_
  split <;> exact .refl _

/-! ### Commands of the channels -/

theorem execRunningWrite_ends (h : execRunningWrite s = .next t) : t = s ∨ s.Ends t := by
  refine completeChannel_ends h fun c data e => ?_
  split
  · exact .refl c e
  · exact .checkNext c e _

theorem execDescriptorReading_ends (h : execDescriptorReading s = .next t) : t = s ∨ s.Ends t := by
  refine completeChannel_ends h fun c data e => ?_
  split
  · exact .checkReading c e _ _ _
  · exact .refl c e

theorem execParameterCopy_ends (h : execParameterCopy s = .next t) : t = s ∨ s.Ends t := by
  refine completeChannel_ends h fun c data e => ?_
  split
  · exact .paramMarked c e
  · exact .paramWritten c e _
  · exact .refl c e

theorem execUsedMark_ends (h : execUsedMark s = .next t) : t = s ∨ s.Ends t := by
  refine completeChannel_ends h fun c data e => ?_
  split
  · exact .markUsed c e _
  · exact .refl c e

theorem execBurstRead_ends (h : execBurstRead s = .next t) : t = s ∨ s.Ends t := by
  refine completeChannel_ends h fun c data e => ?_
  split
  · exact .burstHasRead c e _ _
  · exact .refl c e

theorem execWrittenMark_ends (h : execWrittenMark s = .next t) : t = s ∨ s.Ends t := by
  refine completeChannel_ends h fun c data e => ?_
  split
  · exact (Engine.Works.setChan c e _).trans (.askFrom c _ _ _)
  · exact .refl c e

theorem execBurstWrite_ends (h : execBurstWrite s = .next t) : t = s ∨ s.Ends t := by
  refine completeChannel_ends h fun c data e => ?_
  split
  · exact .burstDone c e _ _
  · exact .refl c e

theorem execServiceRecordReading_ends (h : execServiceRecordReading s = .next t) : t = s ∨ s.Ends t :=
  completeChannel_ends h fun c _ e => .checkService c e _

theorem execContextClaim_ends (h : execContextClaim s = .next t) : t = s ∨ s.Ends t :=
  completeChannel_ends h fun c _ e => .claimRead c e _

theorem execClaimMarkWrite_ends (h : execClaimMarkWrite s = .next t) : t = s ∨ s.Ends t :=
  completeChannel_ends h fun c _ e => .claimMarked c e

theorem execSaveAreaWrite_ends (h : execSaveAreaWrite s = .next t) : t = s ∨ s.Ends t :=
  completeChannel_ends h fun c _ e => .contextParked c e

theorem execSaveAreaRead_ends (h : execSaveAreaRead s = .next t) : t = s ∨ s.Ends t :=
  completeChannel_ends h fun c _ e => .checkSaveArea c e _

theorem execContextDescriptorRead_ends (h : execContextDescriptorRead s = .next t) : t = s ∨ s.Ends t :=
  completeChannel_ends h fun c _ e => .checkContext c e _

/-- A command that is the work of one channel. -/
theorem channelWork_ends {f : Engine → Engine}
    (h : Host.Outcome.next (s.onEngine f) = (.next t : Host.Outcome State Fault Refusal))
    (hf : ∀ e : Engine, Engine.Works c e (f e)) : s.Ends t :=
  onEngine_ends h fun e => .of_works (hf e)

theorem execStopRequest_ends (h : execStopRequest c s = .next t) : s.Ends t := by
  refine channelWork_ends (c := c) h fun e => ?_
  dsimp only
  split
  · exact .refl c e
  · split
    · exact (Engine.Works.setChan c e _).trans (.stopArrives c _ _)
    · exact .setChan c e _

theorem execYieldRequest_ends (h : execYieldRequest c s = .next t) : s.Ends t := by
  refine channelWork_ends (c := c) h fun e => ?_
  dsimp only
  split
  · split
    · exact (Engine.Works.setChan c e _).trans (.yieldArrives c _)
    · exact (Engine.Works.setChan c e _).trans (.clearYield c _ _ _)
  · exact .refl c e

theorem execYieldWithdrawal_ends (h : execYieldWithdrawal c s = .next t) : s.Ends t := by
  refine channelWork_ends (c := c) h fun e => ?_
  dsimp only
  split
  · exact .setChan c e _
  · exact .refl c e

theorem execDropRequest_ends (h : execDropRequest c s = .next t) : s.Ends t := by
  refine channelWork_ends (c := c) h fun e => ?_
  dsimp only
  split
  · exact .refl c e
  · split
    · exact (Engine.Works.setChan c e _).trans (.dropShadow c _ _ _)
    · split
      · exact (Engine.Works.setChan c e _).trans (.stopArrives c _ _)
      · exact .setChan c e _

/-! ### Every command -/

/-- DISPATCH takes the dispatch on its way, so that none is when its step is settled (R69). -/
theorem execDispatch_ends (h : execDispatch s = .next t) :
    ∃ e : Engine, t.eng = s.eng.settle e ∧ e.disp.sent = none := by
  obtain rfl := Host.Outcome.next.inj h
  refine ⟨_, rfl, ?_⟩
  dsimp only
  split
  · assumption
  · exact s.eng.unsent.takeDispatch_sendsNone _ rfl

theorem exec_ends_of_ne_dispatch {i : Instr} (hi : i ≠ .dispatch) (h : exec i s = .next t) : t = s ∨ s.Ends t := by
  cases i with
  | dispatch => exact absurd rfl hi
  | start | stop | mapReload | engineReset | clearViolation | anchorWrite | noteWrite =>
    exact .inr (registerRow_ends h)
  | unnamedCommandCode | registerDenied => exact registerRow_or_ends h
  | startAnchorRead | mapReloadRead => exact anchorRead_ends h
  | drainComplete => exact .inr (execDrainComplete_ends h)
  | pinReset | powerOnReset => exact .inr (settled_ends h fun _ => rfl)
  | resetRelease => exact .inr (execResetRelease_ends h)
  | frzAssert => exact .inr (onEngine_ends h fun e => .setCtl e _)
  | frzDeassert => exact .inr (onEngine_ends h Engine.thawed_sendsNone)
  | portAccess => exact .inr (execPortAccess_ends h)
  | arbiterGrant => exact .inr (execArbiterGrant_ends h)
  | lockedSequenceAccess => exact .inr (execLockedSequenceAccess_ends h)
  | lockRelease => exact .inr (execLockRelease_ends h)
  | intakePass => exact .inr (execIntakePass_ends h)
  | postWordRead => exact execPostWordRead_ends h
  | slotRead => exact execSlotRead_ends h
  | clearingPair => exact execClearingPair_ends h
  | reportWrite => exact execReportWrite_ends h
  | takenWrite => exact execTakenWrite_ends h
  | conditionalDispatch => exact .inr (execConditionalDispatch_ends h)
  | contextClaimReport => exact .inr (execContextClaimReport_ends h)
  | parkShadowReport => exact .inr (execParkShadowReport_ends h)
  | parkContextReport => exact .inr (execParkContextReport_ends h)
  | resumeShadowReport => exact .inr (execResumeShadowReport_ends h)
  | handoff => exact .inr (execHandoff_ends h)
  | lineEvent => exact .inr (execLineEvent_ends h)
  | tapTick => exact .inr (execTapTick_ends h)
  | deadlineExpiry => exact .inr (execDeadlineExpiry_ends h)
  | stopRequest => exact .inr (execStopRequest_ends h)
  | yieldRequest => exact .inr (execYieldRequest_ends h)
  | yieldWithdrawal => exact .inr (execYieldWithdrawal_ends h)
  | dropRequest => exact .inr (execDropRequest_ends h)
  | runningWrite => exact execRunningWrite_ends h
  | descriptorReading => exact execDescriptorReading_ends h
  | serviceRecordReading => exact execServiceRecordReading_ends h
  | contextClaim => exact execContextClaim_ends h
  | claimMarkWrite => exact execClaimMarkWrite_ends h
  | parameterCopy => exact execParameterCopy_ends h
  | usedMark => exact execUsedMark_ends h
  | burstRead => exact execBurstRead_ends h
  | writtenMark => exact execWrittenMark_ends h
  | burstWrite => exact execBurstWrite_ends h
  | saveAreaWrite => exact execSaveAreaWrite_ends h
  | saveAreaRead => exact execSaveAreaRead_ends h
  | contextDescriptorRead => exact execContextDescriptorRead_ends h
  | closingBegin => exact .inr (execClosingBegin_ends h)
  | resultWrite => exact execResultWrite_ends h
  | contextRelease => exact execContextRelease_ends h
  | releaseMarkWrite => exact execReleaseMarkWrite_ends h
  | contextLostRewrite => exact execContextLostRewrite_ends h
  | doneWrite => exact execDoneWrite_ends h
  | chainPosting => exact execChainPosting_ends h

/-- What every step ends with: its command has settled the engine, and after a command that begins with no dispatch on
its way, or takes it, none is on its way but the one that the end of the step sends. -/
theorem exec_settles {i : Instr} (h : exec i s = .next t) : t = s ∨ ∃ e : Engine, t.eng = s.eng.settle e ∧
    (s.eng.disp.sent = none ∨ i = .dispatch → e.disp.sent = none) := by
  by_cases hi : i = .dispatch
  · subst hi
    obtain ⟨e, ht, hsent⟩ := execDispatch_ends h
    exact .inr ⟨e, ht, fun _ => hsent⟩
  · exact (exec_ends_of_ne_dispatch hi h).imp_right fun ⟨e, ht, hsent⟩ => ⟨e, ht, fun hn => hsent (hn.resolve_right hi)⟩

end Sys2Proof.Machine
end

section
/-! SUPPORT. What every step ends with (R69, R77, R137, R138): what the dispatcher looks at, the dispatch it sends, the
request that the Engine Interface takes, and the statement about them. -/

namespace Sys2Proof.Machine

/-! ### What the dispatcher looks at (R77) -/

theorem Engine.channels_map_eq_iff {β : Type} (f : Channel → β) (e g : Engine) :
    e.channels.toList.map f = g.channels.toList.map f ↔ ∀ c, f (e.chan c) = f (g.chan c) := by
  refine ⟨fun h c => ?_, fun h => List.ext_getElem (by simp) fun i hi _ => ?_⟩
  · have hget := congrArg (fun l : List β => l[c.val]?) h
    simpa [Engine.chan] using hget
  · have hlt : i < 6 := by simpa using hi
    simpa [Engine.chan] using h ⟨i, hlt⟩

theorem Engine.view_eq_iff (e f : Engine) : e.view = f.view ↔
    (e.jtc.entries.map fun x => (x.place, x.custody, x.stopReason, x.claim.isSome)) =
        (f.jtc.entries.map fun x => (x.place, x.custody, x.stopReason, x.claim.isSome)) ∧
      (∀ c, (e.chan c).state = (f.chan c).state ∧ (e.chan c).shadow = (f.chan c).shadow) ∧
      e.disp.yields = f.disp.yields ∧ e.ctl.state = f.ctl.state ∧ e.frozen = f.frozen := by
  rw [Engine.view, Engine.view, DispatcherView.mk.injEq, Engine.channels_map_eq_iff]
  simp only [Prod.mk.injEq]

/-! ### The dispatch sent (R69) -/

/-- An entry is pending while the engine is RUNNING and not frozen. -/
def Engine.DispatchDue (e : Engine) : Prop :=
  e.ctl.state = .running ∧ e.frozen = false ∧ ∃ x ∈ e.jtc.entries, x.custody = .pending

section Send

variable {e : Engine} {c : ChannelId}

theorem Engine.lowestIdle_eq_none : e.lowestIdle = none ↔ ∀ c, (e.chan c).state ≠ .idle := by
  simp only [Engine.lowestIdle, List.find?_eq_none, mem_channelList, true_imp_iff, beq_iff_eq, ne_eq]

theorem Engine.sendDispatch_due (h : e.DispatchDue) (hs : e.disp.sent = none) :
    e.sendDispatch = { e with disp := { e.disp with sent := e.lowestIdle } } := by
  obtain ⟨hrun, hf, hpending⟩ := h
  simp [Engine.sendDispatch, Engine.isRunning, hrun, hf, hs, e.jtc.head_isSome.mpr hpending]

theorem Engine.sendDispatch_not_due (h : ¬ e.DispatchDue ∨ e.disp.sent.isSome = true) : e.sendDispatch = e := by
  unfold Engine.sendDispatch
  refine if_neg fun hsend => ?_
  simp only [Bool.and_eq_true, Engine.isRunning, beq_iff_eq, Bool.not_eq_true', e.jtc.head_isSome] at hsend
  obtain ⟨⟨⟨hrun, hf⟩, hs⟩, hpending⟩ := hsend
  refine h.elim (fun hdue => hdue ⟨hrun, hf, hpending⟩) fun hsome => ?_
  simp [Option.isNone_iff_eq_none.mp hs] at hsome

/-- With no channel IDLE none is sent. -/
theorem Engine.sendDispatch_none_idle (h : ∀ c, (e.chan c).state ≠ .idle) : e.sendDispatch = e := by
  by_cases hdue : e.DispatchDue ∧ e.disp.sent = none
  · obtain ⟨hdue, hs⟩ := hdue
    rw [Engine.sendDispatch_due hdue hs, Engine.lowestIdle_eq_none.mpr h, ← hs]
  · exact Engine.sendDispatch_not_due ((not_and_or.mp hdue).imp_right Option.isSome_iff_ne_none.mpr)

theorem Engine.sendDispatch_sent_isSome (h : e.DispatchDue) (hidle : ∃ c, (e.chan c).state = .idle) :
    e.sendDispatch.disp.sent.isSome = true := by
  cases hs : e.disp.sent with
  | some c => rw [Engine.sendDispatch_not_due (.inr (by simp [hs])), hs]; rfl
  | none =>
    rw [Engine.sendDispatch_due h hs, Option.isSome_iff_ne_none]
    intro hnone
    obtain ⟨c, hc⟩ := hidle
    exact Engine.lowestIdle_eq_none.mp hnone c hc

theorem Engine.sendDispatch_sent_eq_some (hs : e.disp.sent = none) (h : e.sendDispatch.disp.sent = some c) :
    e.DispatchDue ∧ (e.chan c).state = .idle ∧ ∀ d, d < c → (e.chan d).state ≠ .idle := by
  by_cases hdue : e.DispatchDue
  · rw [Engine.sendDispatch_due hdue hs] at h
    exact ⟨hdue, Engine.lowestIdle_eq_some.mp h⟩
  · rw [Engine.sendDispatch_not_due (.inl hdue), hs] at h
    exact absurd h (by simp)

/-- When a dispatch is sent and when none is. -/
theorem Engine.sendDispatch_cases (e : Engine) :
    (∀ c, e.ctl.state = .running → e.frozen = false → e.disp.sent = none →
      (∃ x ∈ e.jtc.entries, x.custody = .pending) → (e.chan c).state = .idle →
      (∀ d, d < c → (e.chan d).state ≠ .idle) →
      e.sendDispatch = { e with disp := { e.disp with sent := some c } }) ∧
    (e.ctl.state ≠ .running ∨ e.frozen = true ∨ e.disp.sent.isSome = true ∨
      (∀ x ∈ e.jtc.entries, x.custody ≠ .pending) ∨ (∀ c, (e.chan c).state ≠ .idle) → e.sendDispatch = e) := by
  refine ⟨fun c hrun hf hs hpending hidle hlow => ?_, fun h => ?_⟩
  · rw [Engine.sendDispatch_due ⟨hrun, hf, hpending⟩ hs, Engine.lowestIdle_eq_some.mpr ⟨hidle, hlow⟩]
  · obtain hrun | hf | hs | hpending | hidle := h
    · exact Engine.sendDispatch_not_due (.inl fun hdue => hrun hdue.1)
    · exact Engine.sendDispatch_not_due (.inl fun hdue => absurd (hf.symm.trans hdue.2.1) (by simp))
    · exact Engine.sendDispatch_not_due (.inr hs)
    · exact Engine.sendDispatch_not_due (.inl fun ⟨_, _, x, hx, hp⟩ => hpending x hx hp)
    · exact Engine.sendDispatch_none_idle hidle

end Send

/-! ### The Engine Interface (R137, R138) -/

theorem EngineInterface.waiting_jtc_iff (ei : EngineInterface) :
    ei.waiting .jtc = true ↔ ei.intake ≠ none ∨ ei.closing ≠ none := by
  simp only [EngineInterface.waiting, Bool.or_eq_true, Option.isSome_iff_ne_none]

theorem EngineInterface.waiting_channels_iff (ei : EngineInterface) :
    ei.waiting .channels = true ↔ ∃ c : ChannelId, ei.channels[c] ≠ none := by
  simp only [EngineInterface.waiting, List.any_eq_true, Option.isSome_iff_ne_none, mem_channelList, true_and]

theorem EngineInterface.waiting_control_iff (ei : EngineInterface) :
    ei.waiting .control = true ↔ ei.control ≠ none := by
  simp only [EngineInterface.waiting, Option.isSome_iff_ne_none]

/-- A request that waits, waits on a side. -/
theorem EngineInterface.waits_eq_none {ei : EngineInterface} (h : ∀ side, ei.waiting side = false) (o : Owner) :
    ei.waits o = none := by
  have hno (side : Side) : ¬ ei.waiting side = true := by simp [h side]
  cases o with
  | channel c => exact by_contra fun hc => hno .channels (ei.waiting_channels_iff.mpr ⟨c, hc⟩)
  | intake => exact by_contra fun hi => hno .jtc (ei.waiting_jtc_iff.mpr (.inl hi))
  | closing => exact by_contra fun hc => hno .jtc (ei.waiting_jtc_iff.mpr (.inr hc))
  | control => exact by_contra fun hc => hno .control (ei.waiting_control_iff.mpr hc)

theorem Side.mem_following (a side : Side) : side ∈ a.following := by cases a <;> cases side <;> decide

theorem bestChannel_isSome {prio : ChannelId → BitVec 3} {l : List ChannelId} (h : l ≠ []) :
    ∃ c, bestChannel prio l = some c := by
  cases l with
  | nil => exact absurd rfl h
  | cons a l =>
    unfold bestChannel
    split
    · exact ⟨_, rfl⟩
    · split <;> exact ⟨_, rfl⟩

/-- The channel chosen stands before those of its own PRIORITY, and none has a higher one (R138). -/
theorem bestChannel_eq_some {prio : ChannelId → BitVec 3} {l : List ChannelId} {c : ChannelId}
    (h : bestChannel prio l = some c) : ∃ before after : List ChannelId, l = before ++ c :: after ∧
      (∀ d ∈ before, prio d < prio c) ∧ ∀ d ∈ after, prio d ≤ prio c := by
  induction l generalizing c with
  | nil => simp [bestChannel] at h
  | cons a l ih =>
    unfold bestChannel at h
    split at h
    next hnone =>
      obtain rfl := Option.some.inj h
      cases l with
      | nil => exact ⟨[], [], rfl, by simp, by simp⟩
      | cons b l =>
        obtain ⟨d, hd⟩ := bestChannel_isSome (prio := prio) (List.cons_ne_nil b l)
        exact absurd (hnone.symm.trans hd) (by simp)
    next b hb =>
      obtain ⟨before, after, rfl, hbefore, hafter⟩ := ih hb
      split at h
      next hlt =>
        obtain rfl := Option.some.inj h
        exact ⟨a :: before, after, rfl, List.forall_mem_cons.mpr ⟨hlt, hbefore⟩, hafter⟩
      next hge =>
        obtain rfl := Option.some.inj h
        have hle : prio b ≤ prio a := BitVec.not_lt.mp hge
        refine ⟨[], before ++ b :: after, rfl, by simp, fun d hd => ?_⟩
        rcases List.mem_append.mp hd with hd | hd
        · exact BitVec.le_trans (BitVec.le_of_lt (hbefore d hd)) hle
        · rcases List.mem_cons.mp hd with rfl | hd
          · exact hle
          · exact BitVec.le_trans (hafter d hd) hle

/-- The channels after a pointer stand in the order of their distance from the one after it. -/
theorem channelsAfter_sorted (r : ChannelId) :
    (channelsAfter r).Pairwise fun c d => (c - (r + 1)).val < (d - (r + 1)).val := by
  revert r
  decide

theorem mem_channelsAfter (r c : ChannelId) : c ∈ channelsAfter r := by
  revert r c
  decide

section Choose

variable {e : Engine}

theorem Engine.chooseChannel_spec (h : ∃ c : ChannelId, e.ei.channels[c] ≠ none) :
    ∃ (c : ChannelId) (r : Request), e.chooseChannel = some c ∧ e.ei.channels[c] = some r ∧
      ∀ d : ChannelId, e.ei.channels[d] ≠ none → d ≠ c →
        (e.chan d).priority < (e.chan c).priority ∨
        ((e.chan d).priority = (e.chan c).priority ∧
          (c - (e.ei.rotation + 1)).val < (d - (e.ei.rotation + 1)).val) := by
  have hmem (d : ChannelId) : d ∈ (channelsAfter e.ei.rotation).filter (fun c => e.ei.channels[c].isSome) ↔
      e.ei.channels[d] ≠ none := by
    simp only [List.mem_filter, mem_channelsAfter, true_and, Option.isSome_iff_ne_none]
  have hsorted := (channelsAfter_sorted e.ei.rotation).filter fun c => e.ei.channels[c].isSome
  obtain ⟨c, hc⟩ : ∃ c, e.chooseChannel = some c := by
    obtain ⟨d, hd⟩ := h
    exact bestChannel_isSome (List.ne_nil_of_mem ((hmem d).mpr hd))
  obtain ⟨before, after, hl, hbefore, hafter⟩ := bestChannel_eq_some hc
  simp only [hl] at hmem hsorted
  obtain ⟨r, hr⟩ := Option.ne_none_iff_exists'.mp ((hmem c).mp (by simp))
  refine ⟨c, r, hc, hr, fun d hd hdc => ?_⟩
  rcases List.mem_append.mp ((hmem d).mpr hd) with hd | hd
  · exact .inl (hbefore d hd)
  · have hd := (List.mem_cons.mp hd).resolve_left hdc
    have hdist := List.rel_of_pairwise_cons (List.pairwise_append.mp hsorted).2.1 hd
    by_cases heq : (e.chan d).priority = (e.chan c).priority
    · exact .inr ⟨heq, hdist⟩
    · exact .inl (BitVec.lt_of_le_ne (hafter d hd) heq)

theorem Engine.chooseUnit_still (h : e.ei.unit ≠ none ∨ ∀ side, e.ei.waiting side = false) : e.chooseUnit = e := by
  unfold Engine.chooseUnit
  split
  · rfl
  · next hunit =>
    have hnone : e.ei.lastSide.following.find? e.ei.waiting = none := List.find?_eq_none.mpr fun side _ =>
      Bool.eq_false_iff.mp (h.resolve_left (by simpa using hunit) side)
    rw [hnone]

theorem Engine.chooseUnit_takes {side : Side} (hn : e.ei.unit = none)
    (h : e.ei.lastSide.following.find? e.ei.waiting = some side) :
    e.chooseUnit = { e with ei := e.chooseOn side } := by
  simp [Engine.chooseUnit, hn, h]

theorem Engine.chooseOn_control : e.chooseOn .control = { e.ei with
    lastSide := .control, unit := e.ei.control.map fun r => ⟨.control, r⟩, control := none } := rfl

/-- The one stream that waits is taken, and of two that wait the one not taken last. -/
theorem EngineInterface.chooseStream_intake {ei : EngineInterface} (hi : ei.intake ≠ none)
    (h : ei.closing = none ∨ ei.lastStream = .closing) : ei.chooseStream = some .intake := by
  obtain ⟨r, hr⟩ := Option.ne_none_iff_exists'.mp hi
  cases hc : ei.closing with
  | none => simp [EngineInterface.chooseStream, hr, hc]
  | some q => simp [EngineInterface.chooseStream, hr, hc, h.resolve_left (by simp [hc])]

theorem EngineInterface.chooseStream_closing {ei : EngineInterface} (hc : ei.closing ≠ none)
    (h : ei.intake = none ∨ ei.lastStream = .intake) : ei.chooseStream = some .closing := by
  obtain ⟨r, hr⟩ := Option.ne_none_iff_exists'.mp hc
  cases hi : ei.intake with
  | none => simp [EngineInterface.chooseStream, hr, hi]
  | some q => simp [EngineInterface.chooseStream, hr, hi, h.resolve_left (by simp [hi])]

theorem Engine.chooseOn_intake {r : Request} (hr : e.ei.intake = some r)
    (h : e.ei.closing = none ∨ e.ei.lastStream = .closing) : e.chooseOn .jtc = { e.ei with
      lastSide := .jtc, lastStream := .intake, unit := some ⟨.intake, r⟩, intake := none } := by
  have hstream := EngineInterface.chooseStream_intake (ei := { e.ei with lastSide := .jtc }) (by simp [hr]) h
  rw [Engine.chooseOn]
  simp only [hstream]
  simp only [EngineInterface.take, hr, Option.map_some]

theorem Engine.chooseOn_closing {r : Request} (hr : e.ei.closing = some r)
    (h : e.ei.intake = none ∨ e.ei.lastStream = .intake) : e.chooseOn .jtc = { e.ei with
      lastSide := .jtc, lastStream := .closing, unit := some ⟨.closing, r⟩, closing := none } := by
  have hstream := EngineInterface.chooseStream_closing (ei := { e.ei with lastSide := .jtc }) (by simp [hr]) h
  rw [Engine.chooseOn]
  simp only [hstream]
  simp only [EngineInterface.take, hr, Option.map_some]

theorem Engine.chooseOn_channels {c : ChannelId} {r : Request} (hc : e.chooseChannel = some c)
    (hr : e.ei.channels[c] = some r) : e.chooseOn .channels = { e.ei with
      lastSide := .channels, rotation := c, unit := some ⟨.channel c, r⟩, channels := e.ei.channels.set c none } := by
  simp only [Engine.chooseOn, hc, EngineInterface.take, hr, Option.map_some]

theorem Engine.chooseOn_lastSide (side : Side) : (e.chooseOn side).lastSide = side := by
  unfold Engine.chooseOn
  cases side with
  | control => rfl
  | jtc | channels => dsimp only; split <;> rfl

/-- The side chosen has a request to take. -/
theorem Engine.chooseOn_unit {side : Side} (h : e.ei.waiting side = true) : (e.chooseOn side).unit ≠ none := by
  cases side with
  | control =>
    rw [Engine.chooseOn_control]
    simpa using e.ei.waiting_control_iff.mp h
  | channels =>
    obtain ⟨c, r, hc, hr, _⟩ := Engine.chooseChannel_spec (e.ei.waiting_channels_iff.mp h)
    rw [Engine.chooseOn_channels hc hr]
    simp
  | jtc =>
    cases hi : e.ei.intake with
    | none =>
      obtain ⟨r, hr⟩ := Option.ne_none_iff_exists'.mp
        ((e.ei.waiting_jtc_iff.mp h).resolve_left (not_not_intro hi))
      rw [Engine.chooseOn_closing hr (.inl hi)]
      simp
    | some r =>
      cases hc : e.ei.closing with
      | none =>
        rw [Engine.chooseOn_intake hi (.inl hc)]
        simp
      | some q =>
        cases hlast : e.ei.lastStream with
        | closing =>
          rw [Engine.chooseOn_intake hi (.inr hlast)]
          simp
        | intake =>
          rw [Engine.chooseOn_closing hc (.inr hlast)]
          simp

/-- No request waits while no unit is in progress. -/
theorem Engine.chooseUnit_waits (h : e.chooseUnit.ei.unit = none) (o : Owner) : e.chooseUnit.ei.waits o = none := by
  by_cases hunit : e.ei.unit = none
  · cases hfind : e.ei.lastSide.following.find? e.ei.waiting with
    | none =>
      have hno (side : Side) : e.ei.waiting side = false :=
        Bool.eq_false_iff.mpr (List.find?_eq_none.mp hfind side (Side.mem_following _ side))
      rw [Engine.chooseUnit_still (.inr hno)]
      exact EngineInterface.waits_eq_none hno o
    | some side =>
      rw [Engine.chooseUnit_takes hunit hfind] at h
      exact absurd h (Engine.chooseOn_unit (List.find?_some hfind))
  · rw [Engine.chooseUnit_still (.inl hunit)] at h
    exact absurd h hunit

end Choose

/-! ### The end of a step -/

theorem Engine.chooseUnit_disp (e : Engine) : e.chooseUnit.disp = e.disp := by
  unfold Engine.chooseUnit
  split
  · rfl
  · split <;> rfl

theorem Engine.walks_sent (n : Nat) (e : Engine) : (e.walks n).disp.sent = e.disp.sent := by
  have honce (e : Engine) : e.walkOnce.disp.sent = e.disp.sent := by
    obtain ⟨_, hdisp, _⟩ := e.walkOnce_walked
    rw [hdisp]
  induction n generalizing e with
  | zero => rfl
  | succ n ih =>
    unfold Engine.walks
    split
    · exact honce e
    · exact (ih _).trans (honce e)

theorem Engine.reconsider_sent (e : Engine) : e.reconsider.disp.sent = e.disp.sent := by
  unfold Engine.reconsider
  split
  · exact e.walks_sent _
  · have hsent := congrArg Dispatcher.sent (e.withdrawAll_disp e.disp.yields)
    exact hsent

/-- The engine as the dispatcher has reconsidered its yields at the end of a step. -/
def Engine.reconsidered (before after : Engine) : Engine := if before.view = after.view then after else after.reconsider

section Ends

variable {b a e f : Engine} {c : ChannelId}

theorem Engine.settle_of_view_eq (h : b.view = a.view) : b.settle a = a.sendDispatch.chooseUnit := by
  rw [Engine.settle, if_pos h]

theorem Engine.settle_of_view_ne (h : b.view ≠ a.view) : b.settle a = a.reconsider.sendDispatch.chooseUnit := by
  rw [Engine.settle, if_neg h]

theorem Engine.settle_eq (b a : Engine) : b.settle a = (b.reconsidered a).sendDispatch.chooseUnit := rfl

theorem Engine.settle_sent (b a : Engine) : (b.settle a).disp.sent = (b.reconsidered a).sendDispatch.disp.sent := by
  rw [Engine.settle_eq, Engine.chooseUnit_disp]

theorem Engine.reconsidered_sent (b a : Engine) : (b.reconsidered a).disp.sent = a.disp.sent := by
  unfold Engine.reconsidered
  split
  · rfl
  · exact a.reconsider_sent

/-- The dispatch is chosen after the yields, and the unit after the dispatch: neither changes what a dispatch is sent
for. -/
theorem Engine.reconsidered_same (b a : Engine) (p : Part) : (b.reconsidered a).same (b.settle a) p :=
  Engine.same_trans ((b.reconsidered a).sendDispatch_same p) (Engine.chooseUnit_same _ p)

theorem Engine.dispatchDue_iff (h : ∀ p, e.same f p) : f.DispatchDue ↔ e.DispatchDue := by
  have hctl : f.ctl = e.ctl := h .control
  have hjtc : f.jtc = e.jtc := h .table
  simp only [Engine.DispatchDue, Engine.frozen, Engine.working, hctl, hjtc]

theorem Engine.state_of_same (h : ∀ p, e.same f p) (c : ChannelId) : (f.chan c).state = (e.chan c).state := by
  have hown := congrArg Channel.state (h (.channel c))
  exact hown

/-- A step that leaves RUNNING, or freezes, withdraws every yield (R77). -/
theorem Engine.settle_withdraws (h : (b.settle a).ctl.state ≠ b.ctl.state ∨ (b.settle a).frozen ≠ b.frozen)
    (hout : (b.settle a).ctl.state ≠ .running ∨ (b.settle a).frozen = true) : (b.settle a).disp.yields = [] := by
  have hctl : (b.settle a).ctl = a.ctl := Engine.settle_ctl b a
  have hfrozen : (b.settle a).frozen = a.frozen := by simp only [Engine.frozen, Engine.working, hctl]
  rw [hctl, hfrozen] at h hout
  have hview : b.view ≠ a.view := fun hview => by
    obtain ⟨_, _, _, hstate, hfroze⟩ := (b.view_eq_iff a).mp hview
    exact h.elim (fun hne => hne hstate.symm) fun hne => hne hfroze.symm
  rw [Engine.settle_of_view_ne hview, Engine.chooseUnit_disp, Engine.sendDispatch_yields]
  exact (Engine.reconsider_withdraws hout).1

/-- With a dispatch due and a channel IDLE, a dispatch is on its way (R69). -/
theorem Engine.settle_sends (hdue : (b.settle a).DispatchDue) (hidle : ∃ c, ((b.settle a).chan c).state = .idle) :
    (b.settle a).disp.sent.isSome = true := by
  have hsame := b.reconsidered_same a
  obtain ⟨c, hc⟩ := hidle
  rw [Engine.settle_sent]
  exact Engine.sendDispatch_sent_isSome ((Engine.dispatchDue_iff hsame).mp hdue)
    ⟨c, (Engine.state_of_same hsame c).symm.trans hc⟩

/-- A dispatch that the end of a step sends is due, and names the lowest IDLE channel (R69). -/
theorem Engine.settle_sent_eq_some (hn : a.disp.sent = none) (hs : (b.settle a).disp.sent = some c) :
    (b.settle a).DispatchDue ∧ ((b.settle a).chan c).state = .idle ∧
      ∀ d, d < c → ((b.settle a).chan d).state ≠ .idle := by
  have hsame := b.reconsidered_same a
  rw [Engine.settle_sent] at hs
  obtain ⟨hdue, hidle, hlow⟩ := Engine.sendDispatch_sent_eq_some ((b.reconsidered_sent a).trans hn) hs
  refine ⟨(Engine.dispatchDue_iff hsame).mpr hdue, (Engine.state_of_same hsame c).trans hidle, fun d hd => ?_⟩
  rw [Engine.state_of_same hsame d]
  exact hlow d hd

end Ends

/-- Settles O10: `exec_settles` says that a step settles the engine, and the lemmas on each choice what that leaves. -/
theorem stepEndChoices : Obligations.StepEndChoices := by
  refine ⟨fun i s t h => (exec_settles h).imp_right fun ⟨e, ht, hsent⟩ => ?ends,
    fun before after => ⟨Engine.settle_of_view_eq, Engine.settle_of_view_ne, before.view_eq_iff after⟩,
    fun e h => Engine.reconsider_withdraws h,
    fun e hr hf ho => ⟨e.jtc.pendingList, e.jtc.pendingList_perm, sortEntries_sorted _,
      Engine.reconsider_walks hr hf ho⟩,
    Engine.sendDispatch_cases,
    fun e => ⟨⟨e.ei.waiting_jtc_iff, e.ei.waiting_channels_iff, e.ei.waiting_control_iff⟩,
      Engine.chooseUnit_still, fun side hn hfind => ?takes⟩⟩
  case ends =>
    rw [ht]
    refine ⟨⟨e, rfl⟩, fun hunit => Engine.chooseUnit_waits hunit, Engine.settle_withdraws,
      fun hrun hf hpending hidle => Engine.settle_sends ⟨hrun, hf, hpending⟩ hidle, fun c hs hbefore => ?_⟩
    obtain ⟨⟨hrun, hf, hpending⟩, hidle, hlow⟩ := Engine.settle_sent_eq_some (hsent hbefore) hs
    exact ⟨hrun, hf, hpending, hidle, hlow⟩
  case takes =>
    have hchoose : e.chooseUnit = { e with ei := e.chooseOn side } := Engine.chooseUnit_takes hn hfind
    rw [hchoose]
    refine ⟨rfl, Engine.chooseOn_lastSide side, ?_, ?_, ?_⟩
    · rintro rfl
      exact Engine.chooseOn_control
    · rintro rfl r
      exact ⟨Engine.chooseOn_intake, Engine.chooseOn_closing⟩
    · rintro rfl
      obtain ⟨c, r, hc, hr, hbest⟩ := Engine.chooseChannel_spec (e.ei.waiting_channels_iff.mp (List.find?_some hfind))
      exact ⟨c, r, hr, Engine.chooseOn_channels hc hr, hbest⟩

end Sys2Proof.Machine
end

section
/-! SUPPORT. The table of a request-line filter (R121, R122): one equation for each of its rows, and the statement about
them. -/

namespace Sys2Proof.Machine

section Sample

variable (l : LineEntry) (pin level : Bool) (run : Nat)

theorem Filter.sample_unknown : Filter.sample ⟨none, run⟩ l pin = (⟨some pin, 0⟩, false) := rfl

theorem Filter.sample_equal : Filter.sample ⟨some level, run⟩ l level = (⟨some level, 0⟩, false) := if_pos rfl

variable {l pin level run}

theorem Filter.sample_accepted (hne : pin ≠ level) (hcount : l.count.val ≤ run + 1) :
    Filter.sample ⟨some level, run⟩ l pin = (⟨some pin, 0⟩, l.matchesEdge pin) :=
  (if_neg hne).trans (if_pos hcount)

theorem Filter.sample_counted (hne : pin ≠ level) (hcount : run + 1 < l.count.val) :
    Filter.sample ⟨some level, run⟩ l pin = (⟨some level, run + 1⟩, false) :=
  (if_neg hne).trans (if_neg (Nat.not_le.mpr hcount))

theorem LineEntry.matchesEdge_rise (h : l.edge = 1) : l.matchesEdge pin = pin := by
  cases pin <;> simp [LineEntry.matchesEdge, h]

theorem LineEntry.matchesEdge_fall (h : l.edge = 2) : l.matchesEdge pin = !pin := by
  cases pin <;> simp [LineEntry.matchesEdge, h]

theorem LineEntry.matchesEdge_both (h : l.edge = 3) : l.matchesEdge pin = true := by
  cases pin <;> simp [LineEntry.matchesEdge, h]

end Sample

/-- A run is counted on only while it stays below COUNT (R121). -/
theorem Filter.sample_run_le (f : Filter) (l : LineEntry) (pin : Bool) : (f.sample l pin).1.run ≤ l.count.val := by
  obtain ⟨known, run⟩ := f
  cases known with
  | none => exact Nat.zero_le _
  | some level =>
    by_cases heq : pin = level
    · rw [heq, Filter.sample_equal]
      exact Nat.zero_le _
    · rcases Nat.lt_or_ge (run + 1) l.count.val with hbelow | hreached
      · rw [Filter.sample_counted heq hbelow]
        exact hbelow.le
      · rw [Filter.sample_accepted heq hreached]
        exact Nat.zero_le _

/-- Settles O41: one equation for each row; COUNT 0 is reached by the first differing sample. -/
theorem filterSamples : Obligations.FilterSamples := by
  refine fun l pin level run => ⟨Filter.sample_unknown l pin run, fun heq => ?_, fun hne hcount => ?_,
    Filter.sample_counted⟩
  · rw [heq, Filter.sample_equal]
  · have hreached : l.count.val ≤ run + 1 := hcount.elim (fun hzero => hzero ▸ Nat.zero_le _) id
    rw [Filter.sample_accepted hne hreached]
    exact ⟨rfl, LineEntry.matchesEdge_rise, LineEntry.matchesEdge_fall, LineEntry.matchesEdge_both⟩

end Sys2Proof.Machine
end

section
/-! SUPPORT. What leaves Engine Control as it is (R144, R153 to R160): the shared operations of the other blocks, then
the frames of their commands. -/

namespace Sys2Proof.Machine

/-! ### Operations of the engine -/

namespace Engine

variable (e : Engine) (c : ChannelId) (p : Pass) (en : Entry)

@[simp] theorem requestStop_ctl (r : StopReason) : (e.requestStop en r).ctl = e.ctl := by
  have hrest := congrArg Engine.ctl (e.requestStop_rest en r)
  exact hrest

@[simp] theorem expire_ctl : (e.expire en).ctl = e.ctl := by
  have hrest := congrArg Engine.ctl (e.expire_rest en)
  exact hrest

@[simp] theorem closeOut_ctl : (e.closeOut en).ctl = e.ctl := by
  have hrest := congrArg Engine.ctl (e.closeOut_rest en)
  exact hrest

@[simp] theorem drain_ctl (es : List Entry) : (es.foldl Engine.drainEntry e).ctl = e.ctl := by
  have hrest := congrArg Engine.ctl (drain_rest es e)
  exact hrest

@[simp] theorem sendDrop_ctl (r : StopReason) : (e.sendDrop en r).ctl = e.ctl := by
  unfold Engine.sendDrop
  split <;> rfl

@[simp] theorem deliverCancel_ctl (d : Domain) (k : Slot) : (e.deliverCancel d k).1.ctl = e.ctl := by
  unfold Engine.deliverCancel
  split
  · rfl
  · rename_i en _
    cases en.custody with
    | active | shadowed => exact e.requestStop_ctl en _
    | created | pending | armed | closing => rfl

@[simp] theorem dispatchTo_ctl : (e.dispatchTo c en).ctl = e.ctl := by
  unfold Engine.dispatchTo Engine.beginJob
  dsimp only
  split <;> rfl

@[simp] theorem takeDispatch_ctl : (e.takeDispatch c).ctl = e.ctl := by
  unfold Engine.takeDispatch
  split
  · split
    · exact e.dispatchTo_ctl c _
    · rfl
  · rfl

@[simp] theorem answerConditional_ctl (prio : BitVec 3) : (e.answerConditional c prio).ctl = e.ctl := by
  have hresume := (Engine.Works.resumeShadow c e).ctl
  unfold Engine.answerConditional
  split
  · split
    · split
      · exact e.dispatchTo_ctl c _
      · exact hresume
    · exact hresume
  · rfl

@[simp] theorem shadowParked_ctl (place : Nat) : (e.shadowParked c place).ctl = e.ctl := by
  unfold Engine.shadowParked
  split
  · rfl
  · dsimp only
    split
    · exact sendDrop_ctl _ _ _
    · split
      · exact requestStop_ctl _ _ _
      · rfl

/-- Taking a report leaves Engine Control as the report's own meaning does. -/
theorem takeReport_ctl {f : Report → Option (Engine → Engine)} (hf : ∀ r (e : Engine), ((f r).getD id e).ctl = e.ctl) :
    (e.takeReport c f).ctl = e.ctl := by
  unfold Engine.takeReport
  split
  · rfl
  · rename_i r rest _
    have hr := hf r (e.setChan c { e.chan c with reports := rest })
    split
    · rfl
    · rename_i g hg
      rwa [hg] at hr

theorem works_foldl_ctl {w : Engine → ChannelId → Engine} (hw : ∀ e c, Engine.Works c e (w e c)) (cs : List ChannelId) :
    (cs.foldl w e).ctl = e.ctl := by
  induction cs generalizing e with
  | nil => rfl
  | cons c cs ih => exact (ih (w e c)).trans (hw e c).ctl

@[simp] theorem advanceTimebase_ctl (rq : BitVec 8) : (e.advanceTimebase rq).ctl = e.ctl := by
  have hticked := congrArg Engine.ctl (e.ticked_rest rq)
  rw [advanceTimebase_eq]
  exact (works_foldl_ctl _ (fun e c => Engine.Works.paceTick c e) channelList).trans hticked

@[simp] theorem readSlots_ctl (n : Nat) (ds : List Decision) (ks : List Slot) :
    (e.readSlots p n ds ks).ctl = e.ctl := by
  cases ks <;> rfl

@[simp] theorem slotClassified_ctl (k : Slot) (r : JobRecord) (rest : List Slot) (n : Nat) (ds : List Decision) :
    (e.slotClassified p k r rest n ds).ctl = e.ctl := by
  unfold Engine.slotClassified
  split <;> exact e.readSlots_ctl _ _ _ _

@[simp] theorem carryOn_ctl (ds : List Decision) : (e.carryOn p ds).ctl = e.ctl := by
  induction ds generalizing e with
  | nil =>
    rw [carryOn_nil, Engine.endPass]
    split <;> rfl
  | cons x rest ih =>
    obtain ⟨k, v⟩ := x
    cases v with
    | busyPost | badPost => rfl
    | cancel =>
      rw [carryOn_cancel]
      split
      · rfl
      · exact (ih _).trans (e.deliverCancel_ctl p.domain k)
    | take r =>
      cases hout : e.intakeOutcome p.domain r with
      | some out =>
        rw [carryOn_take_closed hout]
        exact ih _
      | none =>
        rw [carryOn_take hout]
        rfl

@[simp] theorem contextReleased_ctl (w : Word) : (e.contextReleased en w).ctl = e.ctl := by
  unfold Engine.contextReleased
  split
  · rfl
  · split <;> rfl

end Engine

/-! ### The frames of a step -/

section Frames

variable {s t : State} {c : ChannelId} {x : EngineStep}

theorem settled_ctl {f : State → State}
    (h : Host.Outcome.next (s.settled f) = (.next t : Host.Outcome State Fault Refusal))
    (hf : (f s).eng.ctl = s.eng.ctl) : t.eng.ctl = s.eng.ctl := by
  obtain rfl := Host.Outcome.next.inj h
  rw [State.settled_eng, Engine.settle_ctl, hf]

theorem onEngine_ctl {f : Engine → Engine}
    (h : Host.Outcome.next (s.onEngine f) = (.next t : Host.Outcome State Fault Refusal))
    (hf : ∀ e : Engine, (f e).ctl = e.ctl) : t.eng.ctl = s.eng.ctl := by
  obtain rfl := Host.Outcome.next.inj h
  rw [State.onEngine_eng, Engine.settle_ctl, hf]

theorem completeEngine_ctl {k : Owner → List Byte → Engine → Engine} (h : completeEngine x k s = .next t)
    (hk : ∀ o data (e : Engine), (k o data e).ctl = e.ctl) : t.eng.ctl = s.eng.ctl := by
  unfold completeEngine completeUnit at h
  split at h
  · obtain rfl := Host.Outcome.next.inj h
    rfl
  · split at h
    · exact settled_ctl h (hk _ _ s.eng.dropUnit)
    · simp at h

/-- A command that is the work of one channel on a completed unit. -/
theorem completeChannel_ctl {k : ChannelId → List Byte → Engine → Engine} (h : completeChannel x k s = .next t)
    (hk : ∀ c data e, Engine.Works c e (k c data e)) : t.eng.ctl = s.eng.ctl := by
  refine completeEngine_ctl h fun o data e => ?_
  split
  · exact (hk _ data e).ctl
  · rfl

/-- A command that is the work of one channel. -/
theorem channelWork_ctl {f : Engine → Engine}
    (h : Host.Outcome.next (s.onEngine f) = (.next t : Host.Outcome State Fault Refusal))
    (hf : ∀ e : Engine, Engine.Works c e (f e)) : t.eng.ctl = s.eng.ctl :=
  onEngine_ctl h fun e => (hf e).ctl

/-- A command that takes a report. -/
theorem report_ctl {f : Report → Option (Engine → Engine)}
    (h : Host.Outcome.next (s.onEngine fun e => e.takeReport c f) = (.next t : Host.Outcome State Fault Refusal))
    (hf : ∀ r (e : Engine), ((f r).getD id e).ctl = e.ctl) : t.eng.ctl = s.eng.ctl :=
  onEngine_ctl h fun e => e.takeReport_ctl c hf

/-- A closing's command goes on with the entry of the closing in flight. -/
theorem closing_ctl {k : List Byte → Engine → Entry → Engine}
    (h : completeEngine x (fun _ data e => match e.closingEntry with | none => e | some en => k data e en) s = .next t)
    (hk : ∀ data (e : Engine) en, (k data e en).ctl = e.ctl) : t.eng.ctl = s.eng.ctl := by
  refine completeEngine_ctl h fun o data e => ?_
  split
  · rfl
  · exact hk data e _

/-- The command of a pass goes on with the pass in flight. -/
theorem pass_ctl {k : List Byte → Engine → Pass → Engine}
    (h : completeEngine x (fun _ data e => match e.jtc.pass with | none => e | some p => k data e p) s = .next t)
    (hk : ∀ data (e : Engine) p, (k data e p).ctl = e.ctl) : t.eng.ctl = s.eng.ctl := by
  refine completeEngine_ctl h fun o data e => ?_
  split
  · rfl
  · exact hk data e _

end Frames

end Sys2Proof.Machine
end

section
/-! SUPPORT. The commands that leave Engine Control as it is: those of the JTC, of the channels and of the Timebase, and
those of the pins and ports that serve no access. -/

namespace Sys2Proof.Machine

variable {s t : State} {c : ChannelId}

/-! ### The JTC's commands -/

theorem execIntakePass_ctl (h : execIntakePass s = .next t) : t.eng.ctl = s.eng.ctl := by
  refine onEngine_ctl h fun e => ?_
  split
  · split <;> rfl
  · rfl

theorem execPostWordRead_ctl (h : execPostWordRead s = .next t) : t.eng.ctl = s.eng.ctl := by
  refine completeEngine_ctl h fun _ data e => ?_
  split
  · split
    · exact e.readSlots_ctl _ _ _ _
    · rfl
  · rfl

theorem execSlotRead_ctl (h : execSlotRead s = .next t) : t.eng.ctl = s.eng.ctl := by
  refine pass_ctl h fun data e p => ?_
  split
  · rfl
  · exact e.slotClassified_ctl _ _ _ _ _ _
  · rfl

theorem execClearingPair_ctl (h : execClearingPair s = .next t) : t.eng.ctl = s.eng.ctl := by
  refine pass_ctl h fun data e p => ?_
  split
  · exact e.carryOn_ctl p _
  · rfl

theorem execReportWrite_ctl (h : execReportWrite s = .next t) : t.eng.ctl = s.eng.ctl := by
  refine pass_ctl h fun data e p => ?_
  split
  · exact e.carryOn_ctl p _
  · rfl

theorem execTakenWrite_ctl (h : execTakenWrite s = .next t) : t.eng.ctl = s.eng.ctl := by
  refine pass_ctl h fun data e p => ?_
  split
  · exact Engine.carryOn_ctl _ p _
  · rfl

theorem execDispatch_ctl (h : execDispatch s = .next t) : t.eng.ctl = s.eng.ctl := by
  refine onEngine_ctl h fun e => ?_
  split
  · rfl
  · exact e.unsent.takeDispatch_ctl _

theorem execConditionalDispatch_ctl (h : execConditionalDispatch c s = .next t) : t.eng.ctl = s.eng.ctl := by
  refine report_ctl h fun r e => ?_
  cases r with
  | conditional => exact e.answerConditional_ctl c _
  | _ => rfl

theorem execContextClaimReport_ctl (h : execContextClaimReport c s = .next t) : t.eng.ctl = s.eng.ctl :=
  report_ctl h fun r e => by cases r <;> rfl

theorem execParkShadowReport_ctl (h : execParkShadowReport c s = .next t) : t.eng.ctl = s.eng.ctl := by
  refine report_ctl h fun r e => ?_
  cases r with
  | parkShadow => exact e.shadowParked_ctl c _
  | _ => rfl

theorem execParkContextReport_ctl (h : execParkContextReport c s = .next t) : t.eng.ctl = s.eng.ctl :=
  report_ctl h fun r e => by cases r <;> rfl

theorem execResumeShadowReport_ctl (h : execResumeShadowReport c s = .next t) : t.eng.ctl = s.eng.ctl :=
  report_ctl h fun r e => by cases r <;> rfl

theorem execHandoff_ctl (h : execHandoff c s = .next t) : t.eng.ctl = s.eng.ctl :=
  report_ctl h fun r e => by cases r <;> rfl

theorem execLineEvent_ctl {n : Line} (h : execLineEvent n s = .next t) : t.eng.ctl = s.eng.ctl :=
  onEngine_ctl h fun e => by split <;> rfl

theorem execTapTick_ctl {rq : BitVec 8} (h : execTapTick rq s = .next t) : t.eng.ctl = s.eng.ctl := by
  refine onEngine_ctl (s := { s with rq := rq }) h fun e => ?_
  split
  · exact e.advanceTimebase_ctl rq
  · rfl

theorem execDeadlineExpiry_ctl (h : execDeadlineExpiry s = .next t) : t.eng.ctl = s.eng.ctl := by
  refine onEngine_ctl h fun e => ?_
  split
  · rfl
  · exact e.expire_ctl _

theorem execClosingBegin_ctl (h : execClosingBegin s = .next t) : t.eng.ctl = s.eng.ctl :=
  onEngine_ctl h fun e => by split <;> rfl

theorem execResultWrite_ctl (h : execResultWrite s = .next t) : t.eng.ctl = s.eng.ctl :=
  closing_ctl h fun data e en => by split <;> rfl

theorem execDoneWrite_ctl (h : execDoneWrite s = .next t) : t.eng.ctl = s.eng.ctl := by
  refine closing_ctl h fun data e en => ?_
  split
  · rfl
  · exact e.closeOut_ctl _

theorem execChainPosting_ctl (h : execChainPosting s = .next t) : t.eng.ctl = s.eng.ctl :=
  closing_ctl h fun _ e en => (e.setAttention en.domain .posted).closeOut_ctl en

theorem execContextRelease_ctl (h : execContextRelease s = .next t) : t.eng.ctl = s.eng.ctl :=
  closing_ctl h fun _ e en => e.contextReleased_ctl en _

theorem execReleaseMarkWrite_ctl (h : execReleaseMarkWrite s = .next t) : t.eng.ctl = s.eng.ctl :=
  closing_ctl h fun _ _ _ => rfl

theorem execContextLostRewrite_ctl (h : execContextLostRewrite s = .next t) : t.eng.ctl = s.eng.ctl :=
  closing_ctl h fun _ _ _ => rfl

/-! ### Pins, ports and arbiter -/

theorem execResetRelease_ctl {l0 l1 l2 l3 : Level} (h : execResetRelease l0 l1 l2 l3 s = .next t) :
    t.eng.ctl = s.eng.ctl :=
  settled_ctl h (by split <;> rfl)

theorem execPortAccess_ctl {p : Port} {a : PortAccess} (h : execPortAccess p a s = .next t) :
    t.eng.ctl = s.eng.ctl := by
  refine settled_ctl h ?_
  split
  · rfl
  · rw [State.present_eng]

theorem execLockRelease_ctl {p : Port} (h : execLockRelease p s = .next t) : t.eng.ctl = s.eng.ctl :=
  settled_ctl h (by split <;> rfl)

/-! ### Commands of the channels -/

theorem execRunningWrite_ctl (h : execRunningWrite s = .next t) : t.eng.ctl = s.eng.ctl := by
  refine completeChannel_ctl h fun c data e => ?_
  split
  · exact .refl c e
  · exact .checkNext c e _

theorem execDescriptorReading_ctl (h : execDescriptorReading s = .next t) : t.eng.ctl = s.eng.ctl := by
  refine completeChannel_ctl h fun c data e => ?_
  split
  · exact .checkReading c e _ _ _
  · exact .refl c e

theorem execParameterCopy_ctl (h : execParameterCopy s = .next t) : t.eng.ctl = s.eng.ctl := by
  refine completeChannel_ctl h fun c data e => ?_
  split
  · exact .paramMarked c e
  · exact .paramWritten c e _
  · exact .refl c e

theorem execUsedMark_ctl (h : execUsedMark s = .next t) : t.eng.ctl = s.eng.ctl := by
  refine completeChannel_ctl h fun c data e => ?_
  split
  · exact .markUsed c e _
  · exact .refl c e

theorem execBurstRead_ctl (h : execBurstRead s = .next t) : t.eng.ctl = s.eng.ctl := by
  refine completeChannel_ctl h fun c data e => ?_
  split
  · exact .burstHasRead c e _ _
  · exact .refl c e

theorem execWrittenMark_ctl (h : execWrittenMark s = .next t) : t.eng.ctl = s.eng.ctl := by
  refine completeChannel_ctl h fun c data e => ?_
  split
  · exact (Engine.Works.setChan c e _).trans (.askFrom c _ _ _)
  · exact .refl c e

theorem execBurstWrite_ctl (h : execBurstWrite s = .next t) : t.eng.ctl = s.eng.ctl := by
  refine completeChannel_ctl h fun c data e => ?_
  split
  · exact .burstDone c e _ _
  · exact .refl c e

theorem execServiceRecordReading_ctl (h : execServiceRecordReading s = .next t) : t.eng.ctl = s.eng.ctl :=
  completeChannel_ctl h fun c _ e => .checkService c e _

theorem execContextClaim_ctl (h : execContextClaim s = .next t) : t.eng.ctl = s.eng.ctl :=
  completeChannel_ctl h fun c _ e => .claimRead c e _

theorem execClaimMarkWrite_ctl (h : execClaimMarkWrite s = .next t) : t.eng.ctl = s.eng.ctl :=
  completeChannel_ctl h fun c _ e => .claimMarked c e

theorem execSaveAreaWrite_ctl (h : execSaveAreaWrite s = .next t) : t.eng.ctl = s.eng.ctl :=
  completeChannel_ctl h fun c _ e => .contextParked c e

theorem execSaveAreaRead_ctl (h : execSaveAreaRead s = .next t) : t.eng.ctl = s.eng.ctl :=
  completeChannel_ctl h fun c _ e => .checkSaveArea c e _

theorem execContextDescriptorRead_ctl (h : execContextDescriptorRead s = .next t) : t.eng.ctl = s.eng.ctl :=
  completeChannel_ctl h fun c _ e => .checkContext c e _

theorem execStopRequest_ctl (h : execStopRequest c s = .next t) : t.eng.ctl = s.eng.ctl := by
  refine channelWork_ctl (c := c) h fun e => ?_
  dsimp only
  split
  · exact .refl c e
  · split
    · exact (Engine.Works.setChan c e _).trans (.stopArrives c _ _)
    · exact .setChan c e _

theorem execYieldRequest_ctl (h : execYieldRequest c s = .next t) : t.eng.ctl = s.eng.ctl := by
  refine channelWork_ctl (c := c) h fun e => ?_
  dsimp only
  split
  · split
    · exact (Engine.Works.setChan c e _).trans (.yieldArrives c _)
    · exact (Engine.Works.setChan c e _).trans (.clearYield c _ _ _)
  · exact .refl c e

theorem execYieldWithdrawal_ctl (h : execYieldWithdrawal c s = .next t) : t.eng.ctl = s.eng.ctl :=
  onEngine_ctl h fun e => by dsimp only; split <;> rfl

theorem execDropRequest_ctl (h : execDropRequest c s = .next t) : t.eng.ctl = s.eng.ctl := by
  refine channelWork_ctl (c := c) h fun e => ?_
  dsimp only
  split
  · exact .refl c e
  · split
    · exact (Engine.Works.setChan c e _).trans (.dropShadow c _ _ _)
    · split
      · exact (Engine.Works.setChan c e _).trans (.stopArrives c _ _)
      · exact .setChan c e _

end Sys2Proof.Machine
end

section
/-! SUPPORT. The filters begin anew (R118, R120): an engine that works goes on working, but for a reset and the end of
the drain, and those leave every filter unknown. -/

namespace Sys2Proof.Machine

/-- With START in flight in STARTING alone, an engine that works goes on working, or its filters have begun anew. -/
def Engine.WorksOrBegins (e f : Engine) : Prop :=
  e.ctl.FlightLaw → e.working = true → f.working = true ∨ f.filters = Vector.replicate 8 Filter.unknown

namespace Engine.WorksOrBegins

variable {e f : Engine}

theorem of_state (h : f.ctl.state = e.ctl.state) : e.WorksOrBegins f := fun _ hw =>
  .inl (by rw [Engine.working, h]; exact hw)

theorem of_ctl (h : f.ctl = e.ctl) : e.WorksOrBegins f := of_state (by rw [h])

theorem refl (e : Engine) : e.WorksOrBegins e := of_ctl rfl

theorem of_filters (h : f.filters = Vector.replicate 8 Filter.unknown) : e.WorksOrBegins f := fun _ _ => .inr h

theorem settle (b : Engine) (h : e.WorksOrBegins f) : e.WorksOrBegins (b.settle f) := by
  unfold Engine.WorksOrBegins Engine.working
  rw [Engine.settle_ctl, Engine.settle_filters]
  exact h

end Engine.WorksOrBegins

/-! ### Commands of CONTROL (R155) -/

theorem Control.refuse_state (k : Control) (code : BitVec 3) : (k.refuse code).state = k.state := by
  unfold Control.refuse
  split <;> rfl

/-- Only a START that ends FAILED changes the engine state (R151, R157). -/
theorem Control.fail_state {k : Control} (h : ∀ anchor block, k.flight ≠ some ⟨.start, anchor, block⟩) (f : Failure) :
    (k.fail f).state = k.state := by
  unfold Control.fail
  dsimp only
  split
  · rename_i hstart
    exact absurd hstart (h _ _)
  · rfl

theorem Engine.not_working_of_atRest {e : Engine} (h : e.atRest = true) : e.working = false := by
  have hrest : e.ctl.state = .stopped ∨ e.ctl.state = .failed := by simpa [Engine.atRest] using h
  obtain hs | hs := hrest <;> simp [Engine.working, hs]

@[simp] theorem Engine.askAnchor_ctl (e : Engine) (t : EngineStep) : (e.askAnchor t).ctl = e.ctl := by
  unfold Engine.askAnchor
  split <;> rfl

/-- A START is accepted at rest alone, and a refused one changes no engine state (R155). -/
theorem Engine.commandStart_state {e : Engine} (h : e.working = true) : e.commandStart.ctl.state = e.ctl.state := by
  unfold Engine.commandStart
  split
  · rename_i haccepted
    obtain ⟨_, hrest⟩ := Bool.and_eq_true_iff.mp haccepted
    rw [Engine.not_working_of_atRest hrest] at h
    exact absurd h nofun
  · exact e.ctl.refuse_state 1

/-- An accepted STOP makes the engine DRAINING, which works as RUNNING does (R158). -/
theorem Engine.commandStop_working {e : Engine} (h : e.working = true) : e.commandStop.working = true := by
  unfold Engine.commandStop
  split
  · rw [Engine.working, Engine.drain_ctl]
    rfl
  · rw [Engine.working, Engine.setCtl_ctl, Control.refuse_state]
    exact h

/-- A MAP_RELOAD, refused, in flight or failed at once, changes no engine state (R151, R155). -/
theorem Engine.commandMapReload_state (e : Engine) : e.commandMapReload.ctl.state = e.ctl.state := by
  unfold Engine.commandMapReload
  split
  · unfold Engine.beginReading
    split
    · rw [Engine.askAnchor_ctl]
      rfl
    · exact Control.fail_state (k := e.ctl.accept 3 (.mapReload e.working)) (by simp [Control.accept]) _
  · exact e.ctl.refuse_state 3

namespace State

theorem clearViolation_state (s : State) : s.clearViolation.eng.ctl.state = s.eng.ctl.state := by
  unfold State.clearViolation
  dsimp only
  split <;> rfl

theorem takeCommand_worksOrBegins (s : State) (code : BitVec 3) : s.eng.WorksOrBegins (s.takeCommand code).eng := by
  unfold State.takeCommand
  split
  · exact fun hlaw hw => Engine.WorksOrBegins.of_state (Engine.commandStart_state hw) hlaw hw
  · split
    · exact fun _ hw => .inl (Engine.commandStop_working hw)
    · split
      · exact .of_state s.eng.commandMapReload_state
      · split
        · exact .of_filters rfl
        · split
          · exact .of_state s.clearViolation_state
          · exact .of_state (s.eng.ctl.refuse_state code)

/-! ### Port accesses -/

theorem registerWrite_worksOrBegins (s : State) (p : Port) (r : RegName) (en : BitVec 4) (v : Word) :
    s.eng.WorksOrBegins (s.registerWrite p r en v).eng := by
  unfold State.registerWrite
  split
  · cases r with
    | control => exact s.takeCommand_worksOrBegins _
    | note | anchor | status | violation => exact .of_state rfl
  · exact .refl _

theorem serveAccess_worksOrBegins (s : State) (p : Port) (a : PortAccess) :
    s.eng.WorksOrBegins (s.serveAccess p a).eng := by
  change s.eng.WorksOrBegins (s.decideAccess p a).eng
  unfold State.decideAccess
  split
  · split
    · unfold State.sramServed
      split
      · exact .of_ctl (s.eng.watch_ctl _ _)
      · exact .refl _
    · rw [refuseAccess_eng]; exact .refl _
  · unfold State.registerAccess
    split
    · exact s.registerWrite_worksOrBegins _ _ _ _
    · exact .refl _
  · rw [refuseAccess_eng]; exact .refl _

theorem grant_worksOrBegins (s : State) (r : Requester) : s.eng.WorksOrBegins (s.grant r).eng := by
  unfold State.grant
  split
  · exact .refl _
  · split
    · exact .refl _
    · exact State.serveAccess_worksOrBegins { s with arb := s.arb.grantPort _ _ } _ _

theorem serveNow_worksOrBegins (s : State) (p : Port) (a : PortAccess) : s.eng.WorksOrBegins (s.serveNow p a).eng := by
  unfold State.serveNow
  split
  · exact State.serveAccess_worksOrBegins { s with arb := s.arb.sequenceAccess p a } p a
  · split
    · exact s.grant_worksOrBegins _
    · exact .refl _

/-! ### START and MAP_RELOAD in flight (R156, R157) -/

/-- While START is in flight the engine is STARTING, which does not work; a MAP_RELOAD changes no engine state. -/
theorem anchorRead_worksOrBegins {s : State} {fl : Flight} (hflight : s.eng.ctl.flight = some fl) (ws : List Word) :
    s.eng.WorksOrBegins (s.anchorRead fl ws).eng := by
  intro hlaw hw
  obtain ⟨kind, anchor, block⟩ := fl
  cases kind with
  | start =>
    have hstate : s.eng.ctl.state = .starting := hlaw.mpr ⟨anchor, block, hflight⟩
    simp [Engine.working, hstate] at hw
  | mapReload fromCopies =>
    refine Engine.WorksOrBegins.of_state ?_ hlaw hw
    unfold State.anchorRead
    dsimp only
    split
    · rw [Engine.askAnchor_ctl]
      rfl
    · unfold State.reloadJudged
      split
      · exact Control.fail_state (by simp [hflight]) _
      · rfl

end State

/-! ### Commands -/

section Commands

variable {s t : State}

theorem settled_worksOrBegins {f : State → State}
    (h : Host.Outcome.next (s.settled f) = (.next t : Host.Outcome State Fault Refusal))
    (hf : s.eng.WorksOrBegins (f s).eng) : s.eng.WorksOrBegins t.eng := by
  obtain rfl := Host.Outcome.next.inj h
  exact hf.settle s.eng

theorem onEngine_worksOrBegins {f : Engine → Engine}
    (h : Host.Outcome.next (s.onEngine f) = (.next t : Host.Outcome State Fault Refusal))
    (hf : ∀ e : Engine, e.WorksOrBegins (f e)) : s.eng.WorksOrBegins t.eng := by
  obtain rfl := Host.Outcome.next.inj h
  exact (hf s.eng).settle s.eng

theorem registerRow_worksOrBegins {p : Port} {r : RegName} {en : BitVec 4} {v : Word}
    (h : Host.Outcome.next (s.registerRow p r en v) = (.next t : Host.Outcome State Fault Refusal)) :
    s.eng.WorksOrBegins t.eng := by
  refine settled_worksOrBegins h ?_
  split
  · exact .refl _
  · have hserve := (s.present p (registerWriteAccess r en v)).serveNow_worksOrBegins p (registerWriteAccess r en v)
    rwa [State.present_eng] at hserve

/-- A row that presents a register write, or with operands that command nothing leaves the state. -/
theorem registerRow_or_worksOrBegins {b : Bool} {p : Port} {r : RegName} {en : BitVec 4} {v : Word}
    (h : Host.Outcome.next (if b then s.registerRow p r en v else s) =
      (.next t : Host.Outcome State Fault Refusal)) : s.eng.WorksOrBegins t.eng := by
  split at h
  · exact registerRow_worksOrBegins h
  · obtain rfl := Host.Outcome.next.inj h
    exact .refl _

theorem anchorRead_worksOrBegins {x : EngineStep}
    (h : completeUnit x (fun _ data s =>
      match s.eng.ctl.flight with
      | none => s
      | some fl => s.anchorRead fl (bytesWords data)) s = .next t) : s.eng.WorksOrBegins t.eng := by
  unfold completeUnit at h
  split at h
  · obtain rfl := Host.Outcome.next.inj h
    exact .refl _
  · rename_i u _
    split at h
    · refine settled_worksOrBegins h ?_
      dsimp only
      split
      · exact .of_ctl rfl
      · rename_i hflight
        exact State.anchorRead_worksOrBegins (s := s.unitDone u) hflight _
    · simp at h

theorem execDrainComplete_worksOrBegins (h : execDrainComplete s = .next t) : s.eng.WorksOrBegins t.eng := by
  refine onEngine_worksOrBegins h fun e => ?_
  split
  · exact .of_filters rfl
  · exact .refl _

theorem execFrzDeassert_worksOrBegins (h : execFrzDeassert s = .next t) : s.eng.WorksOrBegins t.eng :=
  onEngine_worksOrBegins (f := Engine.thawed) h fun e => .of_state (by rw [Engine.thawed_ctl])

theorem execArbiterGrant_worksOrBegins (h : execArbiterGrant s = .next t) : s.eng.WorksOrBegins t.eng := by
  refine settled_worksOrBegins h ?_
  split
  · exact .refl _
  · exact s.grant_worksOrBegins _

theorem execLockedSequenceAccess_worksOrBegins (h : execLockedSequenceAccess s = .next t) :
    s.eng.WorksOrBegins t.eng := by
  refine settled_worksOrBegins h ?_
  split
  · exact .refl _
  · exact State.serveAccess_worksOrBegins { s with arb := s.arb.sequenceAccess _ _ } _ _

theorem execPinReset_filters (h : execPinReset s = .next t) : t.eng.filters = Vector.replicate 8 Filter.unknown := by
  obtain rfl := Host.Outcome.next.inj h
  exact Engine.settle_filters _ _

theorem execPowerOnReset_filters {cells : List Host.Cell} (h : execPowerOnReset cells s = .next t) :
    t.eng.filters = Vector.replicate 8 Filter.unknown := by
  obtain rfl := Host.Outcome.next.inj h
  exact Engine.settle_filters _ _

/-- Every command keeps an engine that works at work, or begins its filters anew. -/
theorem exec_worksOrBegins {i : Instr} (h : exec i s = .next t) : s.eng.WorksOrBegins t.eng := by
  cases i with
  | start | stop | mapReload | engineReset | clearViolation | anchorWrite | noteWrite =>
    exact registerRow_worksOrBegins h
  | unnamedCommandCode | registerDenied => exact registerRow_or_worksOrBegins h
  | startAnchorRead | mapReloadRead => exact anchorRead_worksOrBegins h
  | drainComplete => exact execDrainComplete_worksOrBegins h
  | pinReset => exact .of_filters (execPinReset_filters h)
  | powerOnReset => exact .of_filters (execPowerOnReset_filters h)
  | frzAssert => exact onEngine_worksOrBegins h fun _ => .of_state rfl
  | frzDeassert => exact execFrzDeassert_worksOrBegins h
  | arbiterGrant => exact execArbiterGrant_worksOrBegins h
  | lockedSequenceAccess => exact execLockedSequenceAccess_worksOrBegins h
  | resetRelease => exact .of_ctl (execResetRelease_ctl h)
  | portAccess => exact .of_ctl (execPortAccess_ctl h)
  | lockRelease => exact .of_ctl (execLockRelease_ctl h)
  | intakePass => exact .of_ctl (execIntakePass_ctl h)
  | postWordRead => exact .of_ctl (execPostWordRead_ctl h)
  | slotRead => exact .of_ctl (execSlotRead_ctl h)
  | clearingPair => exact .of_ctl (execClearingPair_ctl h)
  | reportWrite => exact .of_ctl (execReportWrite_ctl h)
  | takenWrite => exact .of_ctl (execTakenWrite_ctl h)
  | dispatch => exact .of_ctl (execDispatch_ctl h)
  | conditionalDispatch => exact .of_ctl (execConditionalDispatch_ctl h)
  | contextClaimReport => exact .of_ctl (execContextClaimReport_ctl h)
  | parkShadowReport => exact .of_ctl (execParkShadowReport_ctl h)
  | parkContextReport => exact .of_ctl (execParkContextReport_ctl h)
  | resumeShadowReport => exact .of_ctl (execResumeShadowReport_ctl h)
  | handoff => exact .of_ctl (execHandoff_ctl h)
  | lineEvent => exact .of_ctl (execLineEvent_ctl h)
  | tapTick => exact .of_ctl (execTapTick_ctl h)
  | deadlineExpiry => exact .of_ctl (execDeadlineExpiry_ctl h)
  | stopRequest => exact .of_ctl (execStopRequest_ctl h)
  | yieldRequest => exact .of_ctl (execYieldRequest_ctl h)
  | yieldWithdrawal => exact .of_ctl (execYieldWithdrawal_ctl h)
  | dropRequest => exact .of_ctl (execDropRequest_ctl h)
  | runningWrite => exact .of_ctl (execRunningWrite_ctl h)
  | descriptorReading => exact .of_ctl (execDescriptorReading_ctl h)
  | serviceRecordReading => exact .of_ctl (execServiceRecordReading_ctl h)
  | contextClaim => exact .of_ctl (execContextClaim_ctl h)
  | claimMarkWrite => exact .of_ctl (execClaimMarkWrite_ctl h)
  | parameterCopy => exact .of_ctl (execParameterCopy_ctl h)
  | usedMark => exact .of_ctl (execUsedMark_ctl h)
  | burstRead => exact .of_ctl (execBurstRead_ctl h)
  | writtenMark => exact .of_ctl (execWrittenMark_ctl h)
  | burstWrite => exact .of_ctl (execBurstWrite_ctl h)
  | saveAreaWrite => exact .of_ctl (execSaveAreaWrite_ctl h)
  | saveAreaRead => exact .of_ctl (execSaveAreaRead_ctl h)
  | contextDescriptorRead => exact .of_ctl (execContextDescriptorRead_ctl h)
  | closingBegin => exact .of_ctl (execClosingBegin_ctl h)
  | resultWrite => exact .of_ctl (execResultWrite_ctl h)
  | contextRelease => exact .of_ctl (execContextRelease_ctl h)
  | releaseMarkWrite => exact .of_ctl (execReleaseMarkWrite_ctl h)
  | contextLostRewrite => exact .of_ctl (execContextLostRewrite_ctl h)
  | doneWrite => exact .of_ctl (execDoneWrite_ctl h)
  | chainPosting => exact .of_ctl (execChainPosting_ctl h)

end Commands

/-- No register shows the filters (R120): the word of each is read off the rest of the state. -/
theorem State.registerWord_filters (s : State) (r : RegName) (fs : Vector Filter 8) :
    State.registerWord { s with eng := { s.eng with filters := fs } } r = s.registerWord r := by
  cases r <;> rfl

/-- Settles O25: the Timebase enters CLEARED as the engine ceases to work, which `exec_worksOrBegins` says begins every
filter anew; a sample's run count is at most the line's COUNT. -/
theorem filtersBeginUnknown : Obligations.FiltersBeginUnknown := by
  have hunknown {e : Engine} (he : e.filters = Vector.replicate 8 Filter.unknown) (n : Line) :
      e.filters[n] = ⟨none, 0⟩ := by
    rw [he]
    exact Vector.getElem_replicate _
  refine ⟨hunknown rfl, fun s t cells h => hunknown (h.elim execPowerOnReset_filters execPinReset_filters),
    fun s t p hrow hlevel h => ?reset, fun i s t hlaw h hbefore hafter => hunknown ?cleared,
    fun f l pin _ => (f.sample_run_le l pin).trans (Nat.le_of_lt_succ l.count.isLt), State.registerWord_filters⟩
  case reset =>
    rw [exec_engineReset hrow hlevel] at h
    obtain rfl := Host.Outcome.next.inj h
    exact hunknown rfl
  case cleared =>
    have hworked : s.eng.working = true := by
      rwa [ne_eq, s.eng.timebase_eq_cleared_iff, Bool.not_eq_false] at hbefore
    have hceased : t.eng.working = false := t.eng.timebase_eq_cleared_iff.mp hafter
    exact (exec_worksOrBegins h hlaw hworked).resolve_left (by simp [hceased])

end Sys2Proof.Machine
end

section
/-! SUPPORT. The bytes of an engine access (R129, R135), with the statement about them. -/

namespace Sys2Proof.Machine

/-- The words that the bytes of words spell are those words. -/
theorem bytesWords_wordsBytes (ws : List Word) : bytesWords (wordsBytes ws) = ws := by
  induction ws with
  | nil => rfl
  | cons w ws ih =>
    change (w.extractLsb' 24 8 ++ w.extractLsb' 16 8 ++ w.extractLsb' 8 8 ++ w.extractLsb' 0 8)
      :: bytesWords (wordsBytes ws) = w :: ws
    rw [bytes_join, ih]

/-- Settles O31: a burst reads and writes consecutive bytes, and a locked pair writes the four bytes of its word. -/
theorem engineAccessBytes : Obligations.EngineAccessBytes := by
  refine ⟨fun _ => rfl, fun ws => ⟨bytesWords_wordsBytes ws, rfl⟩, fun m hm =>
    ⟨fun a n => ⟨rfl, m.readBytes_length a n, m.readBytes_get a n⟩, fun a bs hin => ⟨fun i hi => ?_, fun x hx => ?_⟩,
     fun a op hin => ⟨EngineAccess.pair_word hm a op hin, fun x hx => ?_⟩⟩⟩
  · exact Memory.read_writeBytes_inside hm a bs i hi (of_decide_eq_true hin)
  · exact Memory.read_writeBytes_outside hm a bs x hx
  · exact Memory.read_writeBytes_outside hm a (wordBytes (op.apply (m.word a))) x hx

end Sys2Proof.Machine
end

section
/-! SUPPORT. A register write that is served (R142, R145): what it does does not turn on how the arbiter came to it, with
the statement about CLEAR_VIOLATION. -/

namespace Sys2Proof.Machine

/-- A state whose arbiter and waiting accesses alone have become others. -/
def State.withArbiter (s : State) (ar : Arbiter) (access : Vector (Option PortAccess) 4) : State :=
  { s with arb := ar, ports := { s.ports with access := access } }

theorem addressClass_regWord (r : RegName) : addressClass (regWord r) = .register r := by
  cases r <;> decide

theorem State.decideAccess_write {s : State} {p : Port} {r : RegName} {a : PortAccess} (hword : a.word = regWord r)
    (hwrite : a.isWrite = true) : s.decideAccess p a = s.registerWrite p r a.enables a.data := by
  rw [State.decideAccess, hword, addressClass_regWord]
  exact if_pos hwrite

/-- A command turns on the arbiter only where the Engine Interface holds the grant (log 9). -/
theorem State.takeCommand_withArbiter {s : State} {ar : Arbiter} (hs : s.arb.holder ≠ some .engine)
    (har : ar.holder ≠ some .engine) (access : Vector (Option PortAccess) 4) (code : BitVec 3) :
    (s.withArbiter ar access).takeCommand code = (s.takeCommand code).withArbiter ar access := by
  have hreset : (s.withArbiter ar access).engineReset = s.engineReset.withArbiter ar access := by
    rw [State.engineReset, State.engineReset, State.finishGranted_of_holder hs, State.finishGranted_of_holder har]
    rfl
  unfold State.takeCommand
  split
  · rfl
  · split
    · rfl
    · split
      · rfl
      · split
        · exact hreset
        · split <;> rfl

/-- Nor does any other register write turn on the arbiter or on the accesses that wait. -/
theorem State.registerWrite_withArbiter {s : State} {ar : Arbiter} (hs : s.arb.holder ≠ some .engine)
    (har : ar.holder ≠ some .engine) (access : Vector (Option PortAccess) 4) (p : Port) (r : RegName) (en : BitVec 4)
    (v : Word) : (s.withArbiter ar access).registerWrite p r en v =
      (s.registerWrite p r en v).withArbiter ar access := by
  have hmay : (s.withArbiter ar access).mayWrite p r en = s.mayWrite p r en := rfl
  unfold State.registerWrite
  rw [hmay]
  split
  · cases r with
    | control => exact State.takeCommand_withArbiter hs har access _
    | anchor | status | note | violation => rfl
  · rfl

/-- A register write completes with the arbiter left as said. -/
theorem State.serveAccess_registerWrite {s : State} {ar : Arbiter} (hs : s.arb.holder ≠ some .engine)
    (har : ar.holder ≠ some .engine) (access : Vector (Option PortAccess) 4) {p : Port} {r : RegName} {a : PortAccess}
    (hword : a.word = regWord r) (hwrite : a.isWrite = true) :
    (s.withArbiter ar access).serveAccess p a =
      (s.registerWrite p r a.enables a.data).withArbiter ar (access.set p none) := by
  rw [State.serveAccess, State.decideAccess_write hword hwrite, State.registerWrite_withArbiter hs har]
  rfl

theorem State.ServesRow.holder_ne {s : State} {p : Port} (h : s.ServesRow p) : s.arb.holder ≠ some .engine := by
  obtain ⟨_, hholder | ⟨hholder, _⟩⟩ := h <;> simp [hholder]

/-- The end of a step turns on what the step makes of the one state it is taken from. -/
theorem State.settled_congr {s : State} {f g : State → State} (h : f s = g s) : s.settled f = s.settled g :=
  congrArg (fun t : State => { t with eng := s.eng.settle t.eng }) h

/-- A row that is served at once is its register write, with the arbiter moved on (log 10). -/
theorem State.registerRow_writes {s : State} {p : Port} (h : s.ServesRow p) (r : RegName) (en : BitVec 4) (v : Word) :
    s.registerRow p r en v =
      s.settled fun s => (s.registerWrite p r en v).withArbiter (s.arb.AfterRow p) s.ports.access := by
  have hafter : (s.arb.AfterRow p).holder ≠ some .engine := by simp [h.holder]
  have hserve := State.serveAccess_registerWrite h.holder_ne hafter
    (s.ports.access.set p (some (registerWriteAccess r en v))) (p := p) (r := r) (a := registerWriteAccess r en v)
    rfl rfl
  rw [Vector.set_set_none p.isLt h.1] at hserve
  rw [State.registerRow_served h]
  exact State.settled_congr hserve

theorem State.registerWrite_command {s : State} {p : Port} (hlevel : s.ports.level[p] = 0) (v : Word) :
    s.registerWrite p .control 0b1111 v = s.takeCommand (bits v 0 3) :=
  if_pos (by simp [State.mayWrite, hlevel])

/-- CLEAR_VIOLATION served at once. -/
theorem exec_clearViolation {s : State} {p : Port} (h : s.ServesRow p) (hlevel : s.ports.level[p] = 0) :
    exec (.clearViolation p) s =
      .next (s.settled fun s => s.clearViolation.withArbiter (s.arb.AfterRow p) s.ports.access) := by
  change Host.Outcome.next (s.registerRow p .control 0b1111 5) = _
  rw [State.registerRow_writes h]
  exact congrArg _ (State.settled_congr (congrArg (fun t => t.withArbiter (s.arb.AfterRow p) s.ports.access)
    (State.registerWrite_command hlevel 5)))

theorem Engine.setCtl_same (e : Engine) (c : Control) {p : Part} (hp : p ≠ .control) : e.same (e.setCtl c) p := by
  cases p with
  | control => exact absurd rfl hp
  | mem | ports | arb | pins | queue => trivial
  | timebase => exact ⟨rfl, rfl⟩
  | _ => rfl

/-- The engine's part of CLEAR_VIOLATION is Engine Control's alone, and none while a command is in flight. -/
theorem State.clearViolation_eng (s : State) : ∃ c, s.clearViolation.eng = s.eng.setCtl c ∧
    (s.eng.ctl.flight = none → c = { s.eng.ctl with command := 5, result := .done }) ∧
    (s.eng.ctl.flight ≠ none → c = s.eng.ctl) := by
  unfold State.clearViolation
  cases hflight : s.eng.ctl.flight with
  | none => exact ⟨_, rfl, fun _ => rfl, fun h => absurd rfl h⟩
  | some fl => exact ⟨s.eng.ctl, rfl, (absurd · (by simp)), fun _ => rfl⟩

/-- Settles O16: the row's service empties the violation state and is Engine Control's own. -/
theorem clearViolationClears : Obligations.ClearViolationClears := by
  intro s p h hlevel
  obtain ⟨c, heng, hidle, hbusy⟩ := s.clearViolation_eng
  have hctl : (s.eng.settle s.clearViolation.eng).ctl = c := by
    rw [Engine.settle_ctl, heng]
    rfl
  refine ⟨_, exec_clearViolation h hlevel, rfl, fun hf => hctl.trans (hidle hf), fun hf => hctl.trans (hbusy hf), rfl,
    fun q hq => State.settled_same s _ q ?_⟩
  have hsame (hq : q ≠ .control) : s.eng.same s.clearViolation.eng q := heng ▸ s.eng.setCtl_same c hq
  cases q with
  | ports | control | arb => exact absurd (by simp) hq
  | pins => exact ⟨rfl, rfl⟩
  | mem | queue => rfl
  | post | table | starts | channel | timebase | notify => exact hsame (by simp)

end Sys2Proof.Machine
end

section
/-! SUPPORT. Accesses that a port presents, and those that a served access of it leaves refused or answered without memory
(R129 to R133, R142, R143, R146, R147), with the statements about presenting and the page law. -/

namespace Sys2Proof.Machine

/-- A step that leaves all but the Port Interfaces and the arbiter. -/
theorem State.settled_sameBut_ports_arb {s : State} {f : State → State} {ports : Ports} {ar : Arbiter}
    (h : f s = { s with ports := ports, arb := ar }) : s.SameBut [.ports, .arb] (s.settled f) := by
  refine fun q hq => State.settled_same s f q ?_
  rw [h]
  cases q with
  | ports | arb => exact absurd (by simp) hq
  | pins | timebase => exact ⟨rfl, rfl⟩
  | mem | queue | control | post | table | starts | channel | notify => rfl

/-! ### Presenting (R131, R133) -/

/-- Presenting an access changes the Port Interfaces and the arbiter: the access waits, and the first one made with LOCK
asserted after a broken sequence is marked (log 21). -/
theorem State.present_eq (s : State) (p : Port) (a : PortAccess) : ∃ broken ar,
    s.present p a =
      { s with ports := { s.ports with access := s.ports.access.set p (some a), broken := broken }, arb := ar } ∧
    ar.holder = s.arb.holder ∧
    (s.arb.lock[p] = .broken false → a.lock = true →
      broken = s.ports.broken ||| (1#4 <<< p.val) ∧ ar.lock[p] = .broken true) ∧
    (s.arb.lock[p] ≠ .broken false ∨ a.lock = false → broken = s.ports.broken ∧ ar = s.arb) := by
  unfold State.present State.fifthAccess
  by_cases hfifth : s.arb.lock[p] = .broken false ∧ a.lock = true
  · rw [if_pos hfifth]
    refine ⟨_, _, rfl, rfl, fun _ _ => ⟨rfl, Vector.getElem_set_self p.isLt⟩, fun h => ?_⟩
    obtain ⟨hlock, hmade⟩ := hfifth
    exact absurd h (by simp [hlock, hmade])
  · rw [if_neg hfifth]
    exact ⟨_, _, rfl, rfl, fun hlock hmade => absurd ⟨hlock, hmade⟩ hfifth, fun _ => ⟨rfl, rfl⟩⟩

theorem exec_portAccess {s : State} {p : Port} (a : PortAccess) (h : s.ports.access[p] = none) :
    exec (.portAccess p a) s = .next (s.settled fun s => s.present p a) :=
  congrArg _ (State.settled_congr (if_neg (by simp [h])))

theorem exec_portAccess_idle {s : State} {p : Port} (a : PortAccess) (h : s.ports.access[p] ≠ none) :
    exec (.portAccess p a) s = .next (s.settled fun s => s) :=
  congrArg Host.Outcome.next (State.settled_congr (g := fun s => s) (if_pos (Option.isSome_iff_ne_none.mpr h)))

/-- A row on a port with an access outstanding does nothing (log 1). -/
theorem State.registerRow_idle {s : State} {p : Port} (h : s.ports.access[p] ≠ none) (r : RegName) (en : BitVec 4)
    (v : Word) : s.registerRow p r en v = s.settled fun s => s :=
  State.settled_congr (if_pos (Option.isSome_iff_ne_none.mpr h))

/-- A row that the arbiter does not come to at once is the access that it presents (log 10). -/
theorem State.registerRow_waits {s : State} {p : Port} (hfree : s.ports.access[p] = none) (hwaits : ¬ s.ServesRow p)
    (r : RegName) (en : BitVec 4) (v : Word) :
    s.registerRow p r en v = s.settled fun s => s.present p (registerWriteAccess r en v) := by
  have hgrant := s.nextGrant_presented p (registerWriteAccess r en v)
  have hholder : s.arb.holder ≠ some (.port p) := fun h => hwaits ⟨hfree, .inl h⟩
  have hpresent := s.present_unlocked p (registerWriteAccess r en v) rfl
  rw [State.registerRow_eq]
  refine State.settled_congr ?_
  simp only [hfree, Option.isSome_none, Bool.false_eq_true, if_false, hholder]
  rw [hpresent, if_neg]
  rw [hgrant]
  split
  · rename_i hopen
    obtain ⟨hidle, hreset⟩ : s.arb.holder = none ∧ s.resetPin = false := by simpa using hopen
    exact fun hfind => hwaits ⟨hfree, .inr ⟨hidle, hreset, hfind⟩⟩
  · simp

/-- Settles O26: a row that waits and PORT_ACCESS both present their access, which is marked as the fifth or not. -/
theorem portAccessPresented : Obligations.PortAccessPresented := by
  refine ⟨fun i p a s hrow => ?_, fun s p a => ⟨fun hfree => ⟨_, exec_portAccess a hfree, ?_⟩,
    fun h => ⟨_, exec_portAccess_idle a h, s.settled_id_sameBut⟩⟩⟩
  · obtain ⟨r, en, v, rfl, hexec⟩ := exec_of_rowAccess hrow
    refine ⟨fun hfree hwaits => ?_, fun h => ⟨_, (hexec s).trans (congrArg _ (State.registerRow_idle h r en v)),
      s.settled_id_sameBut⟩⟩
    rw [hexec, exec_portAccess _ hfree, State.registerRow_waits hfree hwaits]
  · obtain ⟨broken, ar, hpresent, hholder, hfifth, hother⟩ := s.present_eq p a
    have hself : (s.ports.access.set p (some a))[p] = some a := Vector.getElem_set_self p.isLt
    have hframe : s.SameBut [.ports, .arb] (s.settled fun s => s.present p a) :=
      State.settled_sameBut_ports_arb hpresent
    simp only [State.waitLine, State.settled_ports, State.settled_arb, hpresent]
    exact ⟨hself, congrArg Option.isSome hself,
      fun q hq => Vector.getElem_set_ne p.isLt q.isLt fun h => hq (Fin.ext h.symm), hfifth, hother,
      hholder, trivial, hframe⟩

/-! ### Served accesses, granted or in a locked sequence (R130, R132) -/

theorem State.ServedBy.exec_eq {s : State} {i : Instr} {p : Port} {a : PortAccess} {ar : Arbiter}
    (h : s.ServedBy i p a ar) : exec i s = .next (s.afterAccess p a ar) := by
  rcases h with ⟨rfl, hserves, rfl⟩ | ⟨rfl, hholder, haccess, rfl⟩
  · exact exec_arbiterGrant hserves
  · exact exec_lockedSequenceAccess hholder haccess

theorem lanes_full (w : Word) (l : Fin 4) : (lanes 0b1111 w)[l] = some (w.extractLsb' (8 * l.val) 8) := by
  match l with
  | 0 | 1 | 2 | 3 => rfl

/-- An access that is answered by the Port Interfaces alone completes, with the data that they return. -/
theorem State.afterAccess_answered {s : State} {p : Port} {a : PortAccess} {ar : Arbiter} {ps : Ports}
    {data : Vector (Vector (Option Byte) 4) 4} (h : State.serveAccess { s with arb := ar } p a =
      { s with ports := { ps with access := s.ports.access.set p none, readData := data }, arb := ar }) :
    (s.afterAccess p a ar).waitLine p = false ∧ (s.afterAccess p a ar).arb = ar ∧
    { (s.afterAccess p a ar).ports with readData := s.ports.readData } =
      { ps with access := s.ports.access.set p none, readData := s.ports.readData } ∧
    (s.afterAccess p a ar).ports.readData = data ∧ s.SameBut [.ports, .arb] (s.afterAccess p a ar) := by
  have hports : (s.afterAccess p a ar).ports =
      { ps with access := s.ports.access.set p none, readData := data } := congrArg (fun t : State => t.ports) h
  refine ⟨?_, congrArg (fun t : State => t.arb) h, by rw [hports], by rw [hports], State.settled_sameBut_ports_arb h⟩
  unfold State.waitLine
  rw [hports]
  exact congrArg Option.isSome (Vector.getElem_set_self p.isLt)

/-- What a port reads after data is returned to it, and what the others do. -/
theorem readData_set_self (v : Vector (Vector (Option Byte) 4) 4) (p : Port) (d : Vector (Option Byte) 4) :
    (v.set p d)[p] = d := Vector.getElem_set_self p.isLt

theorem readData_set_ne (v : Vector (Vector (Option Byte) 4) 4) {p q : Port} (d : Vector (Option Byte) 4) (h : q ≠ p) :
    (v.set p d)[q] = v[q] := Vector.getElem_set_ne p.isLt q.isLt fun k => h (Fin.ext k.symm)

/-- The data returned when an access is refused: 0 in all four bytes of a read (R146). -/
def Ports.refusedData (ps : Ports) (p : Port) (a : PortAccess) : Vector (Vector (Option Byte) 4) 4 :=
  if a.isWrite then ps.readData else ps.readData.set p (lanes 0b1111 0)

/-- A recorded violation is as R147 gives. -/
theorem Ports.violate_eq (ps : Ports) (p : Port) (k : ViolationKind) (w : BitVec 17) :
    ps.violate p k w = ps.After p k w := by
  unfold Ports.violate Ports.After
  cases ps.violation <;> rfl

theorem State.refuseAccess_eq (s : State) (p : Port) (k : ViolationKind) (a : PortAccess) :
    s.refuseAccess p k a = { s with ports := { s.ports.After p k a.word with readData := s.ports.refusedData p a } } := by
  unfold State.refuseAccess Ports.refusedData
  cases a.isWrite <;> simp only [Bool.false_eq_true, if_true, if_false, Ports.violate_eq] <;> rfl

/-- A refused access completes with its violation recorded. -/
theorem State.serveAccess_refused {s : State} {p : Port} {k : ViolationKind} {a : PortAccess} {ar : Arbiter}
    (h : State.decideAccess { s with arb := ar } p a = State.refuseAccess { s with arb := ar } p k a) :
    State.serveAccess { s with arb := ar } p a =
      { s with
        ports := { s.ports.After p k a.word with
          access := s.ports.access.set p none, readData := s.ports.refusedData p a }
        arb := ar } := by
  rw [State.serveAccess, h, State.refuseAccess_eq]
  rfl

/-- A refused access changes the violation state and the data returned to its port alone. -/
theorem State.afterAccess_refused {s : State} {p : Port} {k : ViolationKind} {a : PortAccess} {ar : Arbiter}
    (h : State.decideAccess { s with arb := ar } p a = State.refuseAccess { s with arb := ar } p k a) :
    (s.afterAccess p a ar).waitLine p = false ∧ (s.afterAccess p a ar).arb = ar ∧
    { (s.afterAccess p a ar).ports with readData := s.ports.readData } =
      { s.ports.After p k a.word with access := s.ports.access.set p none } ∧
    (∀ l : Fin 4, a.isWrite = false → ((s.afterAccess p a ar).ports.readData[p])[l] = some 0) ∧
    (∀ q : Port, q ≠ p ∨ a.isWrite = true → (s.afterAccess p a ar).ports.readData[q] = s.ports.readData[q]) ∧
    s.SameBut [.ports, .arb] (s.afterAccess p a ar) := by
  obtain ⟨hwait, harb, hports, hdata, hframe⟩ := State.afterAccess_answered (State.serveAccess_refused h)
  refine ⟨hwait, harb, hports, fun l hread => ?_, fun q hq => ?_, hframe⟩
  · rw [hdata, Ports.refusedData, if_neg (by simp [hread]), readData_set_self, lanes_full]
    simp
  · rw [hdata, Ports.refusedData]
    by_cases hw : a.isWrite = true
    · rw [if_pos hw]
    · rw [if_neg hw, readData_set_ne _ _ (hq.resolve_right hw)]

/-- An access to the SRAM that the map does not allow is refused (R143). -/
theorem State.decideAccess_page {s : State} {p : Port} {a : PortAccess} (hsram : a.word < 0x10000)
    (hdenied : ¬ s.ports.Allows p a) :
    s.decideAccess p a = s.refuseAccess p (if a.isWrite then .writeDenied else .readDenied) a := by
  have hclass : addressClass a.word = .sram := if_pos hsram
  rw [State.decideAccess, hclass]
  exact if_neg fun h => hdenied ((s.ports.allows_iff p a).mp h)

/-- Settles O28: whichever command serves it, the access is refused. -/
theorem pageLaw : Obligations.PageLaw := by
  intro s p a i ar hsram hdenied hserved
  exact ⟨_, hserved.exec_eq, State.afterAccess_refused (State.decideAccess_page (by exact hsram) (by exact hdenied))⟩

end Sys2Proof.Machine
end

section
/-! SUPPORT. The words of STATUS and VIOLATION (R147, R163, 12.8): fields placed in a word, each read where it was put. -/

namespace Sys2Proof.Machine

/-- A value has no bit at `n` or above. -/
def Within (x : Word) (n : Nat) : Prop := ∀ i, n ≤ i → x.getLsbD i = false

theorem within_of_toNat_lt {x : Word} {n : Nat} (h : x.toNat < 2 ^ n) : Within x n := fun _ hi =>
  Nat.testBit_lt_two_pow (h.trans_le (Nat.pow_le_pow_right (by omega) hi))

theorem within_setWidth {n : Nat} (x : BitVec n) : Within (x.setWidth 32) n := fun i hi => by
  simp [BitVec.getLsbD_of_ge x i hi]

theorem within_word (x : Word) : Within x 32 := fun i hi => BitVec.getLsbD_of_ge x i hi

theorem place_getLsbD (x : Word) (lo i : Nat) :
    (place x lo).getLsbD i = (decide (i < 32) && (decide (lo ≤ i) && x.getLsbD (i - lo))) := by
  by_cases h : lo ≤ i <;> simp [place, h, Nat.not_lt.mpr, Nat.lt_of_not_le]

/-- A field has no bit outside the place it is given. -/
theorem place_outside {x : Word} {n lo i : Nat} (hx : Within x n) (h : i < lo ∨ lo + n ≤ i) :
    (place x lo).getLsbD i = false := by
  rw [place_getLsbD]
  rcases h with hbelow | habove
  · simp [show ¬ lo ≤ i by omega]
  · simp [hx (i - lo) (by omega)]

/-- A field is read where it is placed. -/
theorem extract_place_same (x : Word) {lo n : Nat} (h : lo + n ≤ 32) :
    (place x lo).extractLsb' lo n = x.extractLsb' 0 n := by
  refine BitVec.eq_of_getLsbD_eq fun i hi => ?_
  rw [BitVec.getLsbD_extractLsb', BitVec.getLsbD_extractLsb', place_getLsbD]
  simp [show lo + i < 32 by omega]

/-- Nothing of a field is read below or above its place. -/
theorem extract_place_outside {x : Word} {k lo lo' n : Nat} (hx : Within x k) (h : lo' + n ≤ lo ∨ lo + k ≤ lo') :
    (place x lo).extractLsb' lo' n = 0#n := by
  refine BitVec.eq_of_getLsbD_eq fun i hi => ?_
  rw [BitVec.getLsbD_extractLsb', place_outside hx (by omega)]
  simp

theorem place_zero (x : Word) : place x 0 = x := by simp [place]

theorem Engine.statusCode_within (e : Engine) : Within e.statusCode 3 := within_of_toNat_lt (by
  unfold Engine.statusCode
  split
  · decide
  · decide
  · split <;> decide
  · split <;> decide
  · decide)

theorem ResetCause.code_within (c : ResetCause) : Within c.code 2 := within_of_toNat_lt (by cases c <;> decide)

theorem CommandResult.code_within (r : CommandResult) : Within r.code 3 := within_of_toNat_lt (by cases r <;> decide)

theorem FaultCode.code_within (c : FaultCode) : Within c.code 4 := within_of_toNat_lt (by cases c <;> decide)

theorem ViolationKind.code_within (k : ViolationKind) : Within k.code 3 := within_of_toNat_lt (by cases k <;> decide)

theorem extract_setWidth {n : Nat} (x : BitVec n) (h : n ≤ 32) : (x.setWidth 32).extractLsb' 0 n = x := by
  refine BitVec.eq_of_getLsbD_eq fun i hi => ?_
  simp [hi, show i < 32 by omega]

theorem extract_ofNat (m : Nat) {n : Nat} (h : n ≤ 32) : (BitVec.ofNat 32 m).extractLsb' 0 n = BitVec.ofNat n m := by
  refine BitVec.eq_of_getLsbD_eq fun i hi => ?_
  rw [BitVec.getLsbD_extractLsb', BitVec.getLsbD_ofNat, BitVec.getLsbD_ofNat]
  simp [hi, show i < 32 by omega]

/-- Each field of STATUS is read where 12.8 puts it. -/
theorem State.statusWord_fields (s : State) :
    s.statusWord.extractLsb' 0 3 = s.eng.statusCode.extractLsb' 0 3 ∧
    s.statusWord.extractLsb' 3 2 = s.eng.ctl.cause.code.extractLsb' 0 2 ∧
    s.statusWord.extractLsb' 5 3 = s.eng.ctl.command ∧
    s.statusWord.extractLsb' 8 3 = s.eng.ctl.result.code.extractLsb' 0 3 ∧
    s.statusWord.extractLsb' 11 4 = s.eng.ctl.faultCode.code.extractLsb' 0 4 ∧
    s.statusWord.extractLsb' 15 3 = s.eng.ctl.faultIndex ∧
    s.statusWord.extractLsb' 18 4 = s.ports.seen ∧
    s.statusWord.extractLsb' 22 4 = s.ports.broken ∧
    s.statusWord.extractLsb' 26 6 = BitVec.ofNat 6 s.eng.jtc.entries.length := by
  have hstate := s.eng.statusCode_within
  have hcause := s.eng.ctl.cause.code_within
  have hcommand := within_setWidth s.eng.ctl.command
  have hresult := s.eng.ctl.result.code_within
  have hfault := s.eng.ctl.faultCode.code_within
  have hindex := within_setWidth s.eng.ctl.faultIndex
  have hseen := within_setWidth s.ports.seen
  have hbroken := within_setWidth s.ports.broken
  have hentries := within_word (BitVec.ofNat 32 s.eng.jtc.entries.length)
  unfold State.statusWord
  rw [← place_zero s.eng.statusCode]
  simp (disch := omega) only [BitVec.extractLsb'_or, extract_place_same, extract_place_outside hstate,
    extract_place_outside hcause, extract_place_outside hcommand, extract_place_outside hresult,
    extract_place_outside hfault, extract_place_outside hindex, extract_place_outside hseen,
    extract_place_outside hbroken, extract_place_outside hentries, extract_setWidth, extract_ofNat, BitVec.or_zero,
    BitVec.zero_or, and_self]

/-- The word of VIOLATION for a record. -/
def Violation.recordWord (v : Violation) : Word :=
  v.kind.code ||| place (BitVec.ofNat 32 v.port.val) 4 ||| place (v.word.setWidth 32) 10

theorem Violation.port_within (v : Violation) : Within (BitVec.ofNat 32 v.port.val) 2 :=
  within_of_toNat_lt (by simp; omega)

/-- Each field of VIOLATION is read where 12.8 puts it. -/
theorem Violation.recordWord_fields (v : Violation) :
    v.recordWord.extractLsb' 0 3 = v.kind.code.extractLsb' 0 3 ∧
    v.recordWord.extractLsb' 4 2 = BitVec.ofNat 2 v.port.val ∧ v.recordWord.extractLsb' 10 17 = v.word := by
  have hkind := v.kind.code_within
  have hport := v.port_within
  have hword := within_setWidth v.word
  unfold Violation.recordWord
  rw [← place_zero v.kind.code]
  simp (disch := omega) only [BitVec.extractLsb'_or, extract_place_same, extract_place_outside hkind,
    extract_place_outside hport, extract_place_outside hword, extract_setWidth, extract_ofNat, BitVec.or_zero,
    BitVec.zero_or, and_self]

/-- Every other bit of VIOLATION is 0. -/
theorem Violation.recordWord_others (v : Violation) {i : Nat} (hi : i = 3 ∨ 6 ≤ i ∧ i < 10 ∨ 27 ≤ i) :
    v.recordWord.getLsbD i = false := by
  have hkind : v.kind.code.getLsbD i = false := v.kind.code_within i (by omega)
  have hport : (place (BitVec.ofNat 32 v.port.val) 4).getLsbD i = false := place_outside v.port_within (by omega)
  have hword : (place (v.word.setWidth 32) 10).getLsbD i = false := place_outside (within_setWidth v.word) (by omega)
  rw [Violation.recordWord, BitVec.getLsbD_or, BitVec.getLsbD_or, hkind, hport, hword]
  rfl

end Sys2Proof.Machine
end

section
/-! SUPPORT. Accesses to the registers and to unmapped addresses, the Engine Interface's grant and no grant (R128 to R130,
R132, R142, R145), with the statement about them. -/

namespace Sys2Proof.Machine

theorem State.ServedBy.holder_ne {s : State} {i : Instr} {p : Port} {a : PortAccess} {ar : Arbiter}
    (h : s.ServedBy i p a ar) : s.arb.holder ≠ some .engine ∧ ar.holder ≠ some .engine := by
  rcases h with ⟨_, ⟨hholder, _⟩, rfl⟩ | ⟨_, hholder, _, rfl⟩
  · refine ⟨by simp [hholder], ?_⟩
    unfold Arbiter.AfterGrant
    split
    · simp [hholder]
    · split <;> simp [hholder]
  · refine ⟨by simp [hholder], ?_⟩
    unfold Arbiter.AfterSequence
    split
    · simp
    · split <;> simp [hholder]

/-- The state in which a port's access has not been presented. -/
def State.unpresented (s : State) (p : Port) : State :=
  { s with ports := { s.ports with access := s.ports.access.set p none } }

/-- A port whose access a command serves would be served as soon as it presents one. -/
theorem State.ServedBy.servesRow {s : State} {i : Instr} {p : Port} {a : PortAccess} {ar : Arbiter}
    (h : s.ServedBy i p a ar) : (s.unpresented p).ServesRow p := by
  refine ⟨Vector.getElem_set_self p.isLt, ?_⟩
  rcases h with ⟨_, ⟨hholder, hreset, haccess, hfind⟩, _⟩ | ⟨_, hholder, _⟩
  · refine .inr ⟨hholder, hreset, ?_⟩
    have hwaiting : (fun r => decide (r = .port p) || (s.unpresented p).waiting r) = s.waiting := by
      funext r
      cases r with
      | engine => rfl
      | port q =>
        by_cases hq : q = p
        · subst hq; simp [State.waiting, haccess]
        · have hne : (s.ports.access.set p none)[q] = s.ports.access[q] :=
            Vector.getElem_set_ne p.isLt q.isLt fun k => hq (Fin.ext k.symm)
          have hsame : (s.unpresented p).waiting (.port q) = s.waiting (.port q) := congrArg Option.isSome hne
          simp [hsame, hq]
    rw [hwaiting]
    exact hfind
  · exact .inl hholder

/-! ### Unmapped addresses and register reads -/

theorem addressClass_unmapped {w : BitVec 17} (h : 0x10005 ≤ w) : addressClass w = .unmapped := by
  have hfind : regList.find? (fun r => regWord r == w) = none := List.find?_eq_none.mpr fun r _ hr => by
    have hw : regWord r = w := by simpa using hr
    have hr : regWord r < 0x10005 := by cases r <;> decide
    bv_omega
  rw [addressClass, if_neg (by bv_omega), hfind]

theorem State.decideAccess_unmapped {s : State} {p : Port} {a : PortAccess} (h : 0x10005 ≤ a.word) :
    s.decideAccess p a = s.refuseAccess p .unmapped a := by
  rw [State.decideAccess, addressClass_unmapped h]

theorem regWord_of_idxOf (r : RegName) : 0x10000 + BitVec.ofNat 17 (regList.idxOf r) = regWord r := by
  cases r <;> rfl

/-- A register read returns the whole word (R145). -/
theorem State.serveAccess_registerRead {s : State} {p : Port} {r : RegName} {a : PortAccess} {ar : Arbiter}
    (hword : a.word = regWord r) (hread : a.isWrite = false) :
    State.serveAccess { s with arb := ar } p a =
      { s with
        ports := { s.ports with
          access := s.ports.access.set p none, readData := s.ports.readData.set p (lanes 0b1111 (s.registerWord r)) }
        arb := ar } := by
  have hregister : State.registerWord { s with arb := ar } r = s.registerWord r := by cases r <;> rfl
  rw [State.serveAccess, State.decideAccess, hword, addressClass_regWord]
  simp only [State.registerAccess, hread, Bool.false_eq_true, if_false, hregister]
  rfl

/-! ### Register writes and the rows that spell them -/

/-- A write that a row spells is the row's write: denied for the same register and enables, or the same value. -/
theorem registerWrite_of_spells {j : Instr} {p : Port} {a : PortAccess} (h : Spells j p a) : ∃ r v,
    a.word = regWord r ∧ a.isWrite = true ∧ (∀ s, exec j s = .next (s.registerRow p r a.enables v)) ∧
    ∀ s : State, s.registerWrite p r a.enables v = s.registerWrite p r a.enables a.data := by
  obtain ⟨b, hrow, hwrite, hword, henables, hcommand, hvalue⟩ := h
  obtain ⟨r, en, v, rfl, hexec⟩ := exec_of_rowAccess hrow
  obtain rfl : a.enables = en := henables
  refine ⟨r, v, hword, hwrite, hexec, fun s => ?_⟩
  unfold State.registerWrite
  by_cases hmay : s.mayWrite p r a.enables = true
  · have hall : a.enables = 0b1111 := by
      unfold State.mayWrite at hmay
      simpa using (Bool.and_eq_true_iff.mp hmay).1
    rw [if_pos hmay, if_pos hmay]
    cases r with
    | control => exact congrArg s.takeCommand (hcommand hall hword).symm
    | anchor => rw [hvalue hall (.inl hword)]; rfl
    | note => rw [hvalue hall (.inr hword)]; rfl
    | status | violation => rfl
  · rw [if_neg hmay, if_neg hmay]

/-- A register write acts as the row that spells it does (R145, log 10). -/
theorem State.ServedBy.spelled {s : State} {i j : Instr} {p : Port} {a : PortAccess} {ar : Arbiter}
    (h : s.ServedBy i p a ar) (hj : Spells j p a) :
    ∃ t, exec j (s.unpresented p) = .next t ∧ exec i s = .next { t with arb := ar } := by
  obtain ⟨r, v, hword, hwrite, hexec, hvalue⟩ := registerWrite_of_spells hj
  obtain ⟨hs, har⟩ := h.holder_ne
  have hrow := h.servesRow
  have hserve : State.serveAccess { s with arb := ar } p a = _ :=
    State.serveAccess_registerWrite hs har s.ports.access hword hwrite
  have hunpresented : (s.unpresented p).registerWrite p r a.enables a.data =
      (s.registerWrite p r a.enables a.data).withArbiter s.arb (s.ports.access.set p none) :=
    State.registerWrite_withArbiter hs hs _ _ _ _ _
  refine ⟨_, (hexec _).trans (congrArg _ (State.registerRow_writes hrow r a.enables v)), ?_⟩
  rw [h.exec_eq]
  unfold State.afterAccess State.settled
  simp only [hserve, hvalue, hunpresented]
  rfl

/-- The command that a CONTROL write spells (12.8). -/
def commandRow (p : Port) (code : BitVec 3) : Instr :=
  if code = 1 then .start p else if code = 2 then .stop p else if code = 3 then .mapReload p
  else if code = 4 then .engineReset p else if code = 5 then .clearViolation p else .unnamedCommandCode p code

theorem rowAccess_commandRow (p : Port) (code : BitVec 3) :
    rowAccess (commandRow p code) = some (p, ⟨0x10001, true, 0b1111, code.setWidth 32, false⟩) := by
  revert p code
  decide

theorem exists_regWord {w : BitVec 17} (hlow : 0x10000 ≤ w) (hhigh : w < 0x10005) : ∃ r, w = regWord r := by
  have hw : w = 0x10000 ∨ w = 0x10001 ∨ w = 0x10002 ∨ w = 0x10003 ∨ w = 0x10004 := by bv_omega
  rcases hw with rfl | rfl | rfl | rfl | rfl
  · exact ⟨.anchor, rfl⟩
  · exact ⟨.control, rfl⟩
  · exact ⟨.status, rfl⟩
  · exact ⟨.note, rfl⟩
  · exact ⟨.violation, rfl⟩

/-- Every register write is spelled by a row: one that is denied whoever makes it, or the register's own. -/
theorem exists_spells (p : Port) {a : PortAccess} (hlow : 0x10000 ≤ a.word) (hhigh : a.word < 0x10005)
    (hwrite : a.isWrite = true) : ∃ j, Spells j p a := by
  obtain ⟨r, hword⟩ := exists_regWord hlow hhigh
  by_cases hdenied : r = .status ∨ r = .violation ∨ a.enables ≠ 0b1111
  · have hreadOnly (hall : a.enables = 0b1111) : r = .status ∨ r = .violation := by simpa [hall] using hdenied
    refine ⟨.registerDenied p r a.enables, _, if_pos hdenied, hwrite, hword.trans (regWord_of_idxOf r).symm, rfl,
      fun hall hcontrol => ?_, fun hall hother => ?_⟩
    · rw [hword] at hcontrol
      rcases hreadOnly hall with rfl | rfl <;> exact absurd hcontrol (by decide)
    · rw [hword] at hother
      rcases hreadOnly hall with rfl | rfl <;> exact absurd hother (by decide)
  · obtain ⟨hstatus, hviolation, hall⟩ : r ≠ .status ∧ r ≠ .violation ∧ a.enables = 0b1111 := by simpa using hdenied
    cases r with
    | anchor =>
      exact ⟨.anchorWrite p a.data, _, rfl, hwrite, hword, hall, fun _ _ => rfl, fun _ _ => rfl⟩
    | note =>
      exact ⟨.noteWrite p a.data, _, rfl, hwrite, hword, hall, fun _ _ => rfl, fun _ _ => rfl⟩
    | control =>
      refine ⟨commandRow p (a.data.extractLsb' 0 3), _, rowAccess_commandRow p _, hwrite, hword, hall, fun _ _ => ?_,
        fun _ hother => absurd hother (by simp [hword, regWord])⟩
      exact (extract_setWidth _ (by omega)).symm
    | status => exact absurd rfl hstatus
    | violation => exact absurd rfl hviolation

/-! ### The Engine Interface's grant, and no grant (R128, R130) -/

theorem exec_arbiterGrant_engine {s : State} (hholder : s.arb.holder = none) (hreset : s.resetPin = false)
    (hfind : s.arb.lastGranted.following.find? s.waiting = some .engine) :
    exec .arbiterGrant s = .next (s.settled fun s =>
      { s with arb := { s.arb with lastGranted := .engine, holder := some .engine } }) := by
  have hgrant : s.nextGrant = some .engine := by
    unfold State.nextGrant
    rw [hholder, hreset]
    exact hfind
  refine congrArg Host.Outcome.next (State.settled_congr ?_)
  rw [hgrant]
  rfl

theorem exec_arbiterGrant_idle {s : State} (h : s.arb.holder ≠ none ∨ s.resetPin = true) :
    exec .arbiterGrant s = .next (s.settled fun s => s) := by
  have hgrant : s.nextGrant = none := if_neg fun k => by
    obtain ⟨hholder, hreset⟩ : s.arb.holder = none ∧ s.resetPin = false := by simpa using k
    exact h.elim (· hholder) fun h => by simp [h] at hreset
  refine congrArg Host.Outcome.next (State.settled_congr (g := fun s => s) ?_)
  rw [hgrant]

/-- Settles O29: an unmapped access is refused, a register's is answered or is that of its row, and the words are those
of their fields. -/
theorem grantsOtherwise : Obligations.GrantsOtherwise := by
  refine ⟨fun s p a i ar h => ⟨fun hword => ?unmapped, fun r hword hread => ?read,
      fun hlow hhigh hwrite => exists_spells p hlow hhigh hwrite, fun j u hj hu => hu ▸ ⟨h.servesRow, h.spelled hj⟩⟩,
    fun s w hw => ?status, fun s w hw => ?violation, fun s => ⟨rfl, BitVec.toNat_setWidth_of_le (by omega),
      BitVec.toNat_setWidth_of_le (by omega)⟩,
    ⟨rfl, rfl, rfl, rfl, rfl⟩, fun s => ⟨fun p => Option.isSome_iff_ne_none, Option.isSome_iff_ne_none⟩,
    fun s => ⟨fun hholder hreset hfind => ⟨_, exec_arbiterGrant_engine hholder hreset hfind, rfl,
        State.sameBut_arb_eng (by simp) fun q _ => s.eng.same_refl q⟩,
      fun h => ⟨_, exec_arbiterGrant_idle h, s.settled_id_sameBut⟩⟩⟩
  case unmapped =>
    exact ⟨_, h.exec_eq, State.afterAccess_refused (State.decideAccess_unmapped hword)⟩
  case read =>
    obtain ⟨hwait, harb, hports, hdata, hframe⟩ :=
      State.afterAccess_answered (s.serveAccess_registerRead (ar := ar) (hword.trans (regWord_of_idxOf r)) hread)
    refine ⟨_, h.exec_eq, hwait, fun l => ?_, fun q hq => ?_, hports, harb, hframe⟩
    · rw [hdata, readData_set_self, lanes_full]
    · rw [hdata, readData_set_ne _ _ hq]
  case status =>
    obtain rfl : w = s.statusWord := hw
    obtain ⟨hstate, hcause, hcommand, hresult, hcode, hindex, hseen, hbroken, hentries⟩ := s.statusWord_fields
    refine ⟨hstate.trans ?_, hcause.trans ?_, hcommand, hresult.trans ?_, hcode.trans ?_, hindex, hseen, hbroken,
      hentries⟩
    · unfold Engine.statusCode
      cases s.eng.ctl.state with
      | stopped | starting | failed => rfl
      | running | draining => cases s.eng.frozen <;> rfl
    · cases s.eng.ctl.cause <;> rfl
    · cases s.eng.ctl.result <;> rfl
    · cases s.eng.ctl.faultCode <;> rfl
  case violation =>
    obtain rfl : w = s.ports.violationWord := hw
    unfold Ports.violationWord
    refine ⟨fun hnone => by rw [hnone], fun v hv => ?_⟩
    rw [hv]
    obtain ⟨hkind, hport, hword⟩ := v.recordWord_fields
    refine ⟨hkind.trans ?_, hport, hword, fun k hk => v.recordWord_others ?_⟩
    · cases v.kind <;> rfl
    · simp only [List.mem_cons, List.not_mem_nil, or_false] at hk
      omega

end Sys2Proof.Machine
end

section
/-! SUPPORT. The bursts of the anchor block (R150, R151, R156): what a burst of either command comes to, and what the
last of MAP_RELOAD finds in the block, with the statements about them. -/

namespace Sys2Proof.Machine

/-! ### A burst of either command -/

/-- The engine step that reads the block for a command in flight. -/
def Flight.reading (fl : Flight) : EngineStep :=
  match fl.kind with
  | .start => .startAnchorRead
  | .mapReload _ => .mapReloadRead

/-- The state in which a burst of a command in flight has been read. -/
def State.anchorBurstDone (s : State) (fl : Flight) (a : Nat) : State :=
  s.unitDone ⟨.control, ⟨fl.reading, .read a 32⟩⟩

theorem exec_anchorRead {s : State} {fl : Flight} {a : Nat} (hflight : s.eng.ctl.flight = some fl)
    (h : s.completes .control fl.reading (.read a 32)) :
    exec fl.reading.command s =
      .next (s.settled fun s => (s.anchorBurstDone fl a).anchorRead fl (bytesWords (s.mem.readBytes a 32))) := by
  have hexec : exec fl.reading.command s = completeUnit fl.reading (fun _ data s =>
      match s.eng.ctl.flight with
      | none => s
      | some fl => s.anchorRead fl (bytesWords data)) s := by
    obtain ⟨kind, _, _⟩ := fl
    cases kind <;> rfl
  have hdone : (s.anchorBurstDone fl a).eng.ctl.flight = some fl := hflight
  rw [hexec, completeUnit_next h]
  refine congrArg _ (State.settled_congr ?_)
  change (match (s.anchorBurstDone fl a).eng.ctl.flight with
      | none => s.anchorBurstDone fl a
      | some fl' => (s.anchorBurstDone fl a).anchorRead fl' (bytesWords (s.mem.readBytes a 32))) = _
  rw [hdone]

/-- An engine that differs in Engine Control and the Engine Interface alone. -/
theorem Engine.same_of_ctl_ei (e : Engine) (c : Control) (x : EngineInterface) {p : Part} (hp : p ≠ .control) :
    e.same { e with ctl := c, ei := x } p :=
  Engine.same_trans (e.setCtl_same c hp) (Engine.same_of_ei _ x p)

/-- Every burst spells eight words. -/
theorem burstWords_length (m : Memory) (a : Nat) : (bytesWords (m.readBytes a 32)).length = 8 := rfl

/-! ### A burst before the last -/

/-- The engine when a burst has been kept and the next is asked for. -/
def Engine.nextBurst (e : Engine) (fl : Flight) (a : Nat) (ws : List Word) : Engine :=
  (e.setCtl { e.ctl with flight := some { fl with block := fl.block ++ ws } }).ask .control fl.reading
    (.read (a + 32) 32)

theorem State.anchorRead_next {s : State} {fl : Flight} {a : Nat} {ws : List Word} (hws : ws.length = 8)
    (ha : a = fl.anchor + 4 * fl.block.length) (hmore : fl.block.length + 8 < 128) :
    s.anchorRead fl ws = { s with eng := s.eng.nextBurst fl a ws } := by
  have hlen : (fl.block ++ ws).length = fl.block.length + 8 := by rw [List.length_append, hws]
  have hnext : readWords (fl.anchor + 4 * (fl.block ++ ws).length) 8 = .read (a + 32) 32 := by
    rw [hlen, ha]
    rfl
  refine (if_pos (by rw [hlen]; exact hmore)).trans ?_
  simp only [Engine.askAnchor, Engine.setCtl_ctl, hnext]
  rfl

theorem exec_anchorRead_next {s : State} {fl : Flight} {a : Nat} (hflight : s.eng.ctl.flight = some fl)
    (ha : a = fl.anchor + 4 * fl.block.length) (hmore : fl.block.length + 8 < 128)
    (h : s.completes .control fl.reading (.read a 32)) :
    exec fl.reading.command s =
      .next (s.afterUnit (.read a 32) (s.eng.dropUnit.nextBurst fl a (bytesWords (s.mem.readBytes a 32)))) := by
  rw [exec_anchorRead hflight h, State.settled, State.anchorRead_next (burstWords_length s.mem a) ha hmore]
  rfl

/-- Settles O19: both commands keep the words and ask for the next burst. -/
theorem anchorBurstReads : Obligations.AnchorBurstReads := by
  intro s fl a hflight ha hmore
  have hburst (h : s.completes .control fl.reading (.read a 32)) :
      ∃ t, exec fl.reading.command s = .next t ∧ s.Completed t (.read a 32) ∧
        t.eng.ctl = { s.eng.ctl with
          flight := some { fl with block := fl.block ++ bytesWords (s.mem.readBytes a 32) } } ∧
        t.eng.presents .control fl.reading (.read (a + 32) 32) ∧ s.SameBut [.arb, .control] t :=
    ⟨_, exec_anchorRead_next hflight ha hmore h, s.afterUnit_completed _ _, Engine.settle_ctl _ _,
      s.afterUnit_presents _ (Engine.ask_presents _ _ _ _),
      State.afterUnit_sameBut (by simp) (.inr rfl) fun p hp =>
        s.eng.same_of_ctl_ei _ _ fun hc => hp (by simp [hc])⟩
  obtain ⟨kind, anchor, block⟩ := fl
  refine ⟨fun hkind => ?start, fun fromCopies hkind => ?mapReload⟩
  case start =>
    obtain rfl : kind = .start := hkind
    exact hburst
  case mapReload =>
    obtain rfl : kind = .mapReload fromCopies := hkind
    exact hburst

/-! ### What MAP_RELOAD's tests find (R149, R150) -/

namespace FindsFirst

variable {fails : FaultCode → Nat → Prop} {r : Option Failure}

/-- A test that is not made finds nothing, and where it cannot fail it may be left out. -/
theorem omitted {c : FaultCode} (h : ∀ i, ¬ fails c i) : FindsFirst fails [c] none where
  passes := fun _ _ hc => List.mem_singleton.mp hc ▸ h
  code := nofun
  failure := nofun
  lowest := nofun
  earlier := nofun

variable (h : FindsFirst fails testOrder r) (hcodes : ∀ c i, fails c i → c ∈ testOrder)
include h hcodes

/-- All the tests pass exactly where none of them fails. -/
theorem eq_none_iff : r = none ↔ ∀ c i, ¬ fails c i := by
  refine ⟨fun hr c i hf => h.passes hr c (hcodes c i hf) i hf, fun hpass => ?_⟩
  cases r with
  | none => rfl
  | some f => exact absurd (h.failure f rfl) (hpass _ _)

/-- They name a failure exactly where it is the first. -/
theorem eq_some_iff (f : Failure) : r = some f ↔ FirstFault fails f := by
  refine ⟨h.first, fun hf => ?_⟩
  cases r with
  | none => exact absurd hf.1 ((h.eq_none_iff hcodes).mp rfl _ _)
  | some g => rw [FirstFault.unique hcodes hf (h.first rfl)]

end FindsFirst

theorem Ports.MapFault.mem_testOrder {ps : Ports} {b : List Word} {k : LoadedCopies} {anchor : Nat} {c : FaultCode}
    {i : Nat} (h : ps.MapFault b k anchor c i) : c ∈ testOrder := by
  cases c with
  | none | anchorAlign => exact absurd h id
  | _ => decide

/-- MAGIC, the rights of the maps and the exposure check stand in the order of all the tests; those between them are
START's own, and MAP_RELOAD makes none of them (R150). -/
theorem Ports.mapTests_finds (ps : Ports) (b : List Word) (k : LoadedCopies) (anchor : Nat) :
    FindsFirst (ps.MapFault b k anchor) testOrder
      ([magicTest b, ps.mapField b, ps.exposureCheck b k anchor].findSome? id) := by
  have hall : [magicTest b, ps.mapField b, ps.exposureCheck b k anchor].findSome? id =
      [magicTest b, none, none, none, none, none, ps.mapField b, ps.exposureCheck b k anchor].findSome? id := rfl
  have hexposed := ps.exposureCheck_finds b (fails := ps.MapFault b k anchor) k anchor
    (by simp only [List.forall_mem_cons]; exact ⟨rfl, rfl, rfl, nofun⟩)
  rw [hall]
  refine .cons (by decide) (ps.magicTest_finds b k anchor rfl) <|
    .cons (by decide) (.omitted fun _ => id) <| .cons (by decide) (.omitted fun _ => id) <|
    .cons (by decide) (.omitted fun _ => id) <| .cons (by decide) (.omitted fun _ => id) <|
    .cons (by decide) (.omitted fun _ => id) <| .cons (by decide) (ps.mapField_finds b k anchor rfl) ?_
  rw [List.findSome?_singleton]
  exact hexposed

theorem State.ReloadFrom.locations {s : State} {fromCopies : Bool} {b : List Word} {k : LoadedCopies}
    (h : s.ReloadFrom fromCopies b k) : s.eng.reloadLocations fromCopies b = k := by
  unfold Engine.reloadLocations
  rcases h with ⟨rfl, hk⟩ | ⟨rfl | hnone, rfl⟩
  · rw [hk]
  · rfl
  · rw [hnone]
    cases fromCopies <;> rfl

theorem State.ReloadFrom.finds {s : State} {fl : Flight} {fromCopies : Bool} {b : List Word} {k : LoadedCopies}
    (h : s.ReloadFrom fromCopies b k) :
    FindsFirst (s.ports.MapFault b k fl.anchor) testOrder (s.reloadTests fromCopies fl b) := by
  rw [State.reloadTests, h.locations]
  exact s.ports.mapTests_finds b k fl.anchor

/-! ### The last burst of MAP_RELOAD -/

theorem State.reloadJudged_failed {s : State} {fromCopies : Bool} {fl : Flight} {b : List Word} {f : Failure}
    (h : s.reloadTests fromCopies fl b = some f) :
    s.reloadJudged fromCopies fl b = { s with eng := s.eng.setCtl (s.eng.ctl.fail f) } := by
  rw [State.reloadJudged, h]

theorem State.reloadJudged_done {s : State} {fromCopies : Bool} {fl : Flight} {b : List Word}
    (h : s.reloadTests fromCopies fl b = none) : s.reloadJudged fromCopies fl b =
      { s with eng := s.eng.setCtl { s.eng.ctl with result := .done, flight := none }, ports := s.ports.swap b } := by
  rw [State.reloadJudged, h]

section Last

variable {s : State} {fromCopies : Bool} {anchor a : Nat} {block b : List Word}

/-- The last burst of MAP_RELOAD has been read, and with it the block `b`, which is judged. -/
def State.reloadLast (s : State) (fromCopies : Bool) (anchor : Nat) (block b : List Word) (a : Nat) : State :=
  s.settled fun s =>
    (s.anchorBurstDone ⟨.mapReload fromCopies, anchor, block⟩ a).reloadJudged fromCopies
      ⟨.mapReload fromCopies, anchor, block⟩ b

theorem exec_mapReloadRead (hflight : s.eng.ctl.flight = some ⟨.mapReload fromCopies, anchor, block⟩)
    (hlen : block.length = 120) (h : s.completes .control .mapReloadRead (.read a 32))
    (hb : b = block ++ bytesWords (s.mem.readBytes a 32)) :
    exec .mapReloadRead s = .next (s.reloadLast fromCopies anchor block b a) := by
  subst hb
  have hwhole : ¬ (block ++ bytesWords (s.mem.readBytes a 32)).length < 8 * Config.anchorBursts := by
    rw [List.length_append, hlen, burstWords_length]
    decide
  refine (exec_anchorRead hflight h).trans (congrArg _ (State.settled_congr ?_))
  exact if_neg hwhole

theorem State.reloadLast_failed {f : Failure}
    (hf : s.reloadTests fromCopies ⟨.mapReload fromCopies, anchor, block⟩ b = some f) :
    s.reloadLast fromCopies anchor block b a =
      s.afterUnit (.read a 32) (s.eng.dropUnit.setCtl (s.eng.ctl.fail f)) := by
  rw [State.reloadLast, State.settled, State.reloadJudged_failed (s := s.anchorBurstDone _ a) hf]
  rfl

theorem State.reloadLast_done
    (hpass : s.reloadTests fromCopies ⟨.mapReload fromCopies, anchor, block⟩ b = none) :
    s.reloadLast fromCopies anchor block b a =
      { s.afterUnit (.read a 32) (s.eng.dropUnit.setCtl { s.eng.ctl with result := .done, flight := none }) with
        ports := s.ports.swap b } := by
  rw [State.reloadLast, State.settled, State.reloadJudged_done (s := s.anchorBurstDone _ a) hpass]
  rfl

end Last

theorem Control.fail_mapReload {c : Control} {fromCopies : Bool} {anchor : Nat} {block : List Word}
    (h : c.flight = some ⟨.mapReload fromCopies, anchor, block⟩) (f : Failure) : c.fail f =
      { c with result := .failed, faultCode := f.code, faultIndex := f.index, flight := none } := by
  rw [Control.fail, h]

/-- Settles O21: the tests made are those of `MapFault` in their order, and when they pass the maps are swapped. -/
theorem mapReloadEnds : Obligations.MapReloadEnds := by
  intro s fromCopies anchor block b a k hflight hlen h hb hfrom
  have hexec := exec_mapReloadRead hflight hlen h hb
  have hfinds := hfrom.finds (fl := ⟨.mapReload fromCopies, anchor, block⟩)
  have hcodes (c : FaultCode) (i : Nat) (hc : s.ports.MapFault b k anchor c i) : c ∈ testOrder := hc.mem_testOrder
  have hframe (c : Control) : s.SameBut [.arb, .control] (s.afterUnit (.read a 32) (s.eng.dropUnit.setCtl c)) :=
    State.afterUnit_sameBut (by simp) (.inr rfl) fun p hp => s.eng.same_of_ctl_ei _ _ fun hc => hp (by simp [hc])
  refine ⟨fun f hf => ⟨_, hexec, ?failed⟩, fun hpass => ⟨_, hexec, ?done⟩, ?either⟩
  case failed =>
    rw [State.reloadLast_failed ((hfinds.eq_some_iff hcodes f).mpr hf)]
    exact ⟨(Engine.settle_ctl _ _).trans (Control.fail_mapReload hflight f), hframe _⟩
  case done =>
    rw [State.reloadLast_done ((hfinds.eq_none_iff hcodes).mpr hpass)]
    exact ⟨Engine.settle_ctl _ _, s.ports.swap_map b, rfl, (hframe _).withPorts (by simp) (by simp) _⟩
  case either =>
    cases hr : s.reloadTests fromCopies ⟨.mapReload fromCopies, anchor, block⟩ b with
    | none => exact .inl ((hfinds.eq_none_iff hcodes).mp hr)
    | some f => exact .inr ⟨f, (hfinds.eq_some_iff hcodes f).mp hr⟩

end Sys2Proof.Machine
end

section
/-! SUPPORT. Register writes that R145 refuses, MAP_RELOAD where it is accepted, and the writes of ANCHOR and NOTE (R145
to R147, R150, R155, R162, R165), with the statements about them. -/

namespace Sys2Proof.Machine

/-! ### The writes that R145 admits -/

section

variable (s : State) (p : Port)

theorem State.mayWrite_control : s.mayWrite p .control 0b1111 = decide (s.ports.level[p] = 0) := rfl

theorem State.mayWrite_anchor : s.mayWrite p .anchor 0b1111 = (decide (s.ports.level[p] = 0) && s.eng.atRest) := rfl

theorem State.mayWrite_note : s.mayWrite p .note 0b1111 = true := rfl

/-- A write to STATUS or VIOLATION, or with an enable clear, is refused whoever makes it. -/
theorem State.mayWrite_denied {r : RegName} {en : BitVec 4} (h : r = .status ∨ r = .violation ∨ en ≠ 0b1111) :
    s.mayWrite p r en = false := by
  rcases h with rfl | rfl | hen
  · exact Bool.and_false _
  · exact Bool.and_false _
  · unfold State.mayWrite
    rw [beq_false_of_ne hen, Bool.false_and]

end

theorem Engine.atRest_iff (e : Engine) : e.atRest = true ↔ e.ctl.state = .stopped ∨ e.ctl.state = .failed := by
  simp [Engine.atRest]

/-! ### Rows that are refused (R145 to R147) -/

/-- A row that is served at once and refused records the violation, and moves the arbiter on. -/
theorem State.registerRow_denied {s : State} {p : Port} (h : s.ServesRow p) {r : RegName} {en : BitVec 4}
    (hdenied : s.mayWrite p r en = false) (v : Word) : s.registerRow p r en v = s.settled fun s =>
      { s with ports := s.ports.After p .registerDenied (regWord r), arb := s.arb.AfterRow p } := by
  have hwrite : s.registerWrite p r en v = { s with ports := s.ports.violate p .registerDenied (regWord r) } :=
    if_neg (by simp [hdenied])
  rw [State.registerRow_writes h]
  refine State.settled_congr ?_
  rw [hwrite, Ports.violate_eq]
  rfl

theorem exec_denied {s : State} {p : Port} (h : s.ServesRow p) {i : Instr} {r : RegName} {en : BitVec 4} {v : Word}
    (hexec : exec i s = .next (s.registerRow p r en v)) (hdenied : s.mayWrite p r en = false) :
    ∃ t, exec i s = .next t ∧ t.ports = s.ports.After p .registerDenied (regWord r) ∧ t.arb = s.arb.AfterRow p ∧
      s.SameBut [.ports, .arb] t :=
  ⟨_, hexec.trans (congrArg _ (State.registerRow_denied h hdenied v)), rfl, rfl, State.settled_sameBut_ports_arb rfl⟩

/-- The row of a command is its CONTROL write (12.8). -/
theorem exec_commandRow (p : Port) (code : BitVec 3) (s : State) :
    exec (commandRow p code) s = .next (s.registerRow p .control 0b1111 (code.setWidth 32)) := by
  have hcode : code = 0 ∨ code = 1 ∨ code = 2 ∨ code = 3 ∨ code = 4 ∨ code = 5 ∨ code = 6 ∨ code = 7 := by
    revert code
    decide
  rcases hcode with rfl | rfl | rfl | rfl | rfl | rfl | rfl | rfl <;> rfl

/-- Settles O11: each row presents a write that its port may not make. -/
theorem registerWritesDenied : Obligations.RegisterWritesDenied := by
  refine fun s p h => ⟨fun hlevel i hi => ?command, fun v hrefused => ?anchor, fun r en hdenied => ?denied⟩
  case command =>
    obtain ⟨code, _, rfl⟩ := List.mem_map.mp (show i ∈ [1, 2, 3, 4, 5, 0, 6, 7].map (commandRow p) from hi)
    exact exec_denied h (exec_commandRow p code s) ((s.mayWrite_control p).trans (decide_eq_false hlevel))
  case anchor =>
    have hmay : s.mayWrite p .anchor 0b1111 = false := by
      rw [State.mayWrite_anchor, Bool.and_eq_false_iff, decide_eq_false_iff_not, ← Bool.not_eq_true, s.eng.atRest_iff,
        not_or]
      exact hrefused
    exact exec_denied h (i := .anchorWrite p v) rfl hmay
  case denied =>
    have hrow : alwaysDenied r en = true := by simpa [alwaysDenied, or_assoc] using hdenied
    have hexec : exec (.registerDenied p r en) s = .next (s.registerRow p r en 0) := congrArg _ (if_pos hrow)
    rw [regWord_of_idxOf]
    exact exec_denied h hexec (s.mayWrite_denied p hdenied)

/-! ### Rows that are served and act on the engine alone -/

/-- A row that is served at once with the engine as its write leaves it. -/
theorem State.registerRow_engine {s : State} {p : Port} (h : s.ServesRow p) {r : RegName} {en : BitVec 4} {v : Word}
    {e : Engine} (hwrite : s.registerWrite p r en v = { s with eng := e }) :
    s.registerRow p r en v = { s with arb := s.arb.AfterRow p, eng := s.eng.settle e } := by
  rw [State.registerRow_writes h, State.settled, hwrite]
  rfl

/-! ### MAP_RELOAD (R150, R155) -/

theorem anchorAligned_iff (a : Word) : anchorAligned a = true ↔ a.toNat % 512 = 0 ∧ a.toNat ≤ 0x3FE00 := by
  simp [anchorAligned]

theorem Engine.working_eq (e : Engine) :
    e.working = decide (e.ctl.state = .running ∨ e.ctl.state = .draining) := by
  rw [Bool.eq_iff_iff]
  simp [Engine.working]

/-- The first burst is asked for where ANCHOR is aligned. -/
theorem Engine.beginReading_aligned {e : Engine} {kind : FlightKind}
    (hflight : e.ctl.flight = some ⟨kind, e.ctl.anchor.toNat, []⟩) (h : anchorAligned e.ctl.anchor = true)
    (t : EngineStep) :
    e.beginReading t = e.ask .control t (.read e.ctl.anchor.toNat 32) := by
  rw [Engine.beginReading, if_pos h, Engine.askAnchor, hflight]
  rfl

/-- With ANCHOR not aligned the command fails before any read (log 31). -/
theorem Engine.beginReading_unaligned {e : Engine} (h : ¬ anchorAligned e.ctl.anchor = true) (t : EngineStep) :
    e.beginReading t = e.setCtl (e.ctl.fail ⟨.anchorAlign, 0⟩) := if_neg h

/-- The engine while a MAP_RELOAD is accepted, and its command in flight (R150). -/
def Engine.reloading (e : Engine) : Engine := e.setCtl (e.ctl.accept 3 (.mapReload e.working))

theorem Engine.commandMapReload_accepted {e : Engine} (hflight : e.ctl.flight = none)
    (hstate : e.ctl.state ≠ .starting) : e.commandMapReload = e.reloading.beginReading .mapReloadRead :=
  if_pos (by simp [hflight, hstate])

theorem exec_mapReload {s : State} {p : Port} (h : s.ServesRow p) (hlevel : s.ports.level[p] = 0) :
    exec (.mapReload p) s = .next { s with arb := s.arb.AfterRow p, eng := s.eng.settle s.eng.commandMapReload } :=
  congrArg _ (State.registerRow_engine h (State.registerWrite_command hlevel 3))

/-- Settles O14: the row's service is the command, which tests ANCHOR and asks for the first burst. -/
theorem mapReloadAccepted : Obligations.MapReloadAccepted := by
  intro s p h hlevel hflight hstate
  have hexec := exec_mapReload h hlevel
  rw [Engine.commandMapReload_accepted hflight hstate] at hexec
  have hframe (c : Control) (x : EngineInterface) : s.SameBut [.control, .arb]
      { s with arb := s.arb.AfterRow p, eng := s.eng.settle { s.eng with ctl := c, ei := x } } :=
    State.sameBut_arb_eng (by simp) fun q hq => s.eng.same_of_ctl_ei c x fun hc => hq (by simp [hc])
  rw [← anchorAligned_iff, ← Engine.working_eq]
  refine ⟨fun haligned => ?_, fun hunaligned => ?_⟩
  · rw [Engine.beginReading_aligned (e := s.eng.reloading) rfl haligned] at hexec
    exact ⟨_, hexec, Engine.settle_ctl _ _, Engine.settle_presents _ _ _ _ _ (Engine.ask_presents _ _ _ _), rfl,
      hframe _ _⟩
  · rw [Engine.beginReading_unaligned (e := s.eng.reloading) hunaligned] at hexec
    have hfail := Control.fail_mapReload (c := s.eng.reloading.ctl) rfl ⟨.anchorAlign, 0⟩
    exact ⟨_, hexec, (Engine.settle_ctl _ _).trans hfail, rfl, hframe _ _⟩

/-! ### ANCHOR and NOTE (R162, R165) -/

theorem exec_anchorWrite {s : State} {p : Port} (h : s.ServesRow p) (hlevel : s.ports.level[p] = 0)
    (hrest : s.eng.atRest = true) (v : Word) : exec (.anchorWrite p v) s =
      .next { s with arb := s.arb.AfterRow p, eng := s.eng.settle (s.eng.setCtl { s.eng.ctl with anchor := v }) } := by
  have hmay : s.mayWrite p .anchor 0b1111 = true := by
    rw [State.mayWrite_anchor, decide_eq_true hlevel, hrest, Bool.and_self]
  have hwrite : s.registerWrite p .anchor 0b1111 v = s.anchorWrite v := if_pos hmay
  exact congrArg _ (State.registerRow_engine h hwrite)

/-- The engine with other notify flags. -/
def Engine.withNotify (e : Engine) (flags : BitVec 8) : Engine := { e with notify := flags }

theorem Engine.withNotify_same (e : Engine) (flags : BitVec 8) {p : Part} (hp : p ≠ .notify) :
    e.same (e.withNotify flags) p := by
  cases p with
  | notify => exact absurd rfl hp
  | mem | ports | arb | pins | queue => trivial
  | timebase => exact ⟨rfl, rfl⟩
  | _ => rfl

theorem exec_noteWrite {s : State} {p : Port} (h : s.ServesRow p) (v : Word) : exec (.noteWrite p v) s =
    .next { s with
      arb := s.arb.AfterRow p, eng := s.eng.settle (s.eng.withNotify (s.eng.notify &&& ~~~ s.noteMask p v)) } := by
  have hwrite : s.registerWrite p .note 0b1111 v = s.noteWrite p v := if_pos (s.mayWrite_note p)
  exact congrArg _ (State.registerRow_engine h hwrite)

/-- The mask of some domains has their bits set. -/
theorem domainBits_getLsbD (ds : List Domain) (d : Domain) : (domainBits ds).getLsbD d.val = decide (d ∈ ds) := by
  induction ds with
  | nil => simp [domainBits]
  | cons c ds ih =>
    have hset : domainBits (c :: ds) = setFlag (domainBits ds) c.val := BitVec.or_comm _ _
    have hval : c.val = d.val ↔ d = c := Fin.ext_iff.symm.trans eq_comm
    rw [hset, setFlag_getLsbD _ _ d.isLt, ih, ← Bool.decide_or, decide_eq_decide, hval, List.mem_cons, or_comm]

/-- A NOTE write clears the flags written as 1 that its port may clear (R165). -/
theorem State.noteMask_getLsbD (s : State) (p : Port) (v : Word) (d : Domain) :
    (s.noteMask p v).getLsbD d.val = (v.getLsbD d.val && s.mayClear p d) := by
  rw [State.noteMask, domainBits_getLsbD, Bool.eq_iff_iff, decide_eq_true_eq, List.mem_filter,
    and_iff_right (Engine.mem_domainList d)]
  rfl

theorem Engine.nl_iff (e : Engine) (k : Fin 4) : e.nl k = true ↔
    ∃ d : Domain, (e.domain d).enabled = true ∧ (e.domain d).notifyLine = k ∧ e.notify.getLsbD d.val = true := by
  simp only [Engine.nl, flagSet, List.any_eq_true, Bool.and_eq_true, decide_eq_true_eq, Engine.mem_domainList, true_and,
    and_assoc]

/-- Settles O18: each row's service changes its own register alone, and the lines are read off the flags. -/
theorem anchorAndNoteServed : Obligations.AnchorAndNoteServed := by
  refine ⟨fun s p v h hlevel hstate => ?anchor, fun s p v h => ?note, Engine.nl_iff⟩
  case anchor =>
    have hctl := Engine.settle_ctl s.eng (s.eng.setCtl { s.eng.ctl with anchor := v })
    exact ⟨_, exec_anchorWrite h hlevel (s.eng.atRest_iff.mpr hstate) v, hctl, congrArg Control.anchor hctl, rfl,
      State.sameBut_arb_eng (by simp) fun q hq => s.eng.setCtl_same _ fun hc => hq (by simp [hc])⟩
  case note =>
    refine ⟨_, exec_noteWrite h v, fun d => ?_, rfl,
      State.sameBut_arb_eng (by simp) fun q hq => s.eng.withNotify_same _ fun hn => hq (by simp [hn])⟩
    rw [Engine.settle_notify, Engine.withNotify, BitVec.getLsbD_and, BitVec.getLsbD_not, State.noteMask_getLsbD,
      decide_eq_true d.isLt, Bool.true_and]
    rfl

end Sys2Proof.Machine
end

section
/-! SUPPORT. The shared SRAM stays in canonical form, and no loaded map comes to hold the right 2 (R143, R144, R150,
R156): what the accesses, the resets and the two swaps do to both, and that every step keeps them. -/

namespace Sys2Proof.Machine

/-! ### Memory and maps under the shared operations -/

namespace State.Sound

variable {s : State} (hs : s.Sound)
include hs

theorem withMem {m : Memory} (hm : m.wf = true) : State.Sound { s with mem := m } := by
  obtain ⟨_, hmaps⟩ := hs
  exact ⟨hm, hmaps⟩

theorem withMaps {ps : Ports} (hmaps : ∀ (p : Port) (m : PageMap), ps.map[p] = some m → m.hasUnlisted = false) :
    State.Sound { s with ports := ps } := by
  obtain ⟨hm, _⟩ := hs
  exact ⟨hm, hmaps⟩

theorem withArb (ar : Arbiter) : State.Sound { s with arb := ar } := hs

/-- An engine access leaves memory in canonical form. -/
theorem perform (a : EngineAccess) : (a.perform s.mem).1.wf = true := by
  obtain ⟨hm, _⟩ := hs
  exact a.wf_perform hm

theorem finishGranted : s.finishGranted.Sound := by
  unfold State.finishGranted
  split
  · exact hs.withMem (hs.perform _)
  · exact hs
  · exact hs

/-! ### The swap (R144, R150, R156) -/

/-- Where MAP_FIELD passes, the maps that the swap installs hold no right 2. -/
theorem swap {b : List Word} {k : LoadedCopies} {anchor : Nat}
    (hfield : ∀ i, ¬ s.ports.MapFault b k anchor .mapField i) : State.Sound { s with ports := s.ports.swap b } := by
  refine hs.withMaps fun p m hm => ?_
  obtain ⟨_, hmaps⟩ := hs
  rw [Ports.swap_map] at hm
  split at hm
  · exact hmaps p m hm
  · rename_i habove
    obtain rfl := Option.some.inj hm
    rw [← Bool.not_eq_true, PageMap.hasUnlisted_iff]
    exact fun hpage => hfield p.val ⟨p, rfl, habove, hpage⟩

theorem startJudged (fl : Flight) (b : List Word) : (s.startJudged fl b).Sound := by
  unfold State.startJudged
  split
  · exact hs
  · rename_i hpass
    have hfault := (s.ports.startTests_eq_none b fl.anchor).mp hpass
    exact hs.swap (k := blockCopies b) (anchor := fl.anchor) (hfault .mapField)

theorem reloadJudged (fromCopies : Bool) (fl : Flight) (b : List Word) : (s.reloadJudged fromCopies fl b).Sound := by
  cases htests : s.reloadTests fromCopies fl b with
  | some f => rw [State.reloadJudged_failed htests]; exact hs
  | none =>
    have hfinds := s.ports.mapTests_finds b (s.eng.reloadLocations fromCopies b) fl.anchor
    have hfault := (hfinds.eq_none_iff fun c i => Ports.MapFault.mem_testOrder).mp htests
    rw [State.reloadJudged_done htests]
    exact hs.swap (hfault .mapField)

/-- A burst of the anchor block is kept, or the block is judged. -/
theorem anchorRead (fl : Flight) (ws : List Word) : (s.anchorRead fl ws).Sound := by
  unfold State.anchorRead
  dsimp only
  split
  · exact hs
  · split
    · exact hs.startJudged _ _
    · exact hs.reloadJudged _ _ _

/-! ### Accesses of the ports (R142, R145, R146) -/

/-- Of the commands, ENGINE_RESET alone touches memory: it completes the engine unit that is granted (log 9). -/
theorem takeCommand (code : BitVec 3) : (s.takeCommand code).Sound := by
  unfold State.takeCommand
  split
  · exact hs
  · split
    · exact hs
    · split
      · exact hs
      · split
        · exact hs.finishGranted
        · split <;> exact hs

theorem registerWrite (p : Port) (r : RegName) (en : BitVec 4) (v : Word) : (s.registerWrite p r en v).Sound := by
  unfold State.registerWrite
  split
  · cases r with
    | control => exact hs.takeCommand _
    | note | anchor | status | violation => exact hs
  · exact hs

theorem refuseAccess (p : Port) (k : ViolationKind) (a : PortAccess) : (s.refuseAccess p k a).Sound := by
  rw [State.refuseAccess_eq]
  exact hs

theorem sramServed (p : Port) (a : PortAccess) : (s.sramServed p a).Sound := by
  unfold State.sramServed
  split
  · obtain ⟨hm, hmaps⟩ := hs
    exact ⟨Memory.wf_writeEnabled _ _ _ hm, hmaps⟩
  · exact hs

theorem serveAccess (p : Port) (a : PortAccess) : (s.serveAccess p a).Sound := by
  change (s.decideAccess p a).Sound
  unfold State.decideAccess
  split
  · split
    · exact hs.sramServed p a
    · exact hs.refuseAccess _ _ _
  · unfold State.registerAccess
    split
    · exact hs.registerWrite _ _ _ _
    · exact hs
  · exact hs.refuseAccess _ _ _

theorem present (p : Port) (a : PortAccess) : (s.present p a).Sound := by
  obtain ⟨broken, ar, hpresent, _⟩ := s.present_eq p a
  rw [hpresent]
  exact hs

theorem grant (r : Requester) : (s.grant r).Sound := by
  unfold State.grant
  split
  · exact hs
  · split
    · exact hs
    · exact (hs.withArb _).serveAccess _ _

theorem serveNow (p : Port) (a : PortAccess) : (s.serveNow p a).Sound := by
  unfold State.serveNow
  split
  · exact (hs.withArb _).serveAccess _ _
  · split
    · exact hs.grant _
    · exact hs

theorem registerRow (p : Port) (r : RegName) (en : BitVec 4) (v : Word) : (s.registerRow p r en v).Sound := by
  change State.Sound (if s.ports.access[p].isSome then s else _)
  split
  · exact hs
  · exact (hs.present p _).serveNow p _

/-! ### The part's resets (R161) -/

theorem finishHeld : s.finishHeld.Sound := by
  unfold State.finishHeld
  split
  · exact hs
  · exact hs.serveAccess _ _

/-- A reset of the part empties the maps. -/
theorem partReset (cause : ResetCause) : (s.partReset cause).Sound := by
  obtain ⟨hm, _⟩ := hs.finishHeld.finishGranted
  refine ⟨hm, fun p m hmap => ?_⟩
  have hnone : (s.partReset cause).ports.map[p] = none := Vector.getElem_replicate _
  rw [hnone] at hmap
  exact absurd hmap nofun

end State.Sound

/-! ### Commands -/

section Commands

variable {s t : State}

theorem settled_sound {f : State → State}
    (h : Host.Outcome.next (s.settled f) = (.next t : Host.Outcome State Fault Refusal)) (hf : (f s).Sound) :
    t.Sound := by
  obtain rfl := Host.Outcome.next.inj h
  exact hf

variable (hs : s.Sound)
include hs

/-- A command whose effect lies in the engine alone. -/
theorem onEngine_sound {f : Engine → Engine}
    (h : Host.Outcome.next (s.onEngine f) = (.next t : Host.Outcome State Fault Refusal)) : t.Sound := by
  obtain rfl := Host.Outcome.next.inj h
  exact hs

/-- A command that completes an engine unit makes the unit's access, and its owner goes on. -/
theorem completeUnit_sound {x : EngineStep} {k : Owner → List Byte → State → State} (h : completeUnit x k s = .next t)
    (hk : ∀ o data (s : State), s.Sound → (k o data s).Sound) : t.Sound := by
  unfold completeUnit at h
  split at h
  · obtain rfl := Host.Outcome.next.inj h
    exact hs
  · split at h
    · exact settled_sound h (hk _ _ _ (hs.withMem (hs.perform _)))
    · simp at h

theorem completeEngine_sound {x : EngineStep} {k : Owner → List Byte → Engine → Engine}
    (h : completeEngine x k s = .next t) : t.Sound :=
  completeUnit_sound hs h fun _ _ _ hs => hs

theorem completeChannel_sound {x : EngineStep} {k : ChannelId → List Byte → Engine → Engine}
    (h : completeChannel x k s = .next t) : t.Sound :=
  completeEngine_sound hs h

theorem anchorRead_sound {x : EngineStep}
    (h : completeUnit x (fun _ data s =>
      match s.eng.ctl.flight with
      | none => s
      | some fl => s.anchorRead fl (bytesWords data)) s = .next t) : t.Sound := by
  refine completeUnit_sound hs h fun _ data s hs => ?_
  split
  · exact hs
  · exact hs.anchorRead _ _

theorem registerRow_sound {p : Port} {r : RegName} {en : BitVec 4} {v : Word}
    (h : Host.Outcome.next (s.registerRow p r en v) = (.next t : Host.Outcome State Fault Refusal)) : t.Sound := by
  obtain rfl := Host.Outcome.next.inj h
  exact hs.registerRow p r en v

/-- A row that presents a register write, or with operands that command nothing leaves the state. -/
theorem registerRow_or_sound {b : Bool} {p : Port} {r : RegName} {en : BitVec 4} {v : Word}
    (h : Host.Outcome.next (if b then s.registerRow p r en v else s) =
      (.next t : Host.Outcome State Fault Refusal)) : t.Sound := by
  split at h
  · exact registerRow_sound hs h
  · obtain rfl := Host.Outcome.next.inj h
    exact hs

theorem execPortAccess_sound {p : Port} {a : PortAccess} (h : execPortAccess p a s = .next t) : t.Sound := by
  refine settled_sound h ?_
  split
  · exact hs
  · exact hs.present p a

theorem execArbiterGrant_sound (h : execArbiterGrant s = .next t) : t.Sound := by
  refine settled_sound h ?_
  split
  · exact hs
  · exact hs.grant _

theorem execLockedSequenceAccess_sound (h : execLockedSequenceAccess s = .next t) : t.Sound := by
  refine settled_sound h ?_
  split
  · exact hs
  · exact (hs.withArb _).serveAccess _ _

theorem execLockRelease_sound {p : Port} (h : execLockRelease p s = .next t) : t.Sound := by
  refine settled_sound h ?_
  split <;> exact hs

theorem execResetRelease_sound {l0 l1 l2 l3 : Level} (h : execResetRelease l0 l1 l2 l3 s = .next t) : t.Sound := by
  refine settled_sound h ?_
  split <;> exact hs

/-- A power-on reset puts into memory what its operand says (log 4). -/
theorem execPowerOnReset_sound {cells : List Host.Cell} (h : execPowerOnReset cells s = .next t) : t.Sound :=
  settled_sound h ((hs.partReset .powerOn).withMem (Memory.wf_ofCells cells))

/-- Every command keeps memory in canonical form and the maps free of the right 2. -/
theorem exec_sound {i : Instr} (h : exec i s = .next t) : t.Sound := by
  cases i with
  | start | stop | mapReload | engineReset | clearViolation | anchorWrite | noteWrite => exact registerRow_sound hs h
  | unnamedCommandCode | registerDenied => exact registerRow_or_sound hs h
  | startAnchorRead | mapReloadRead => exact anchorRead_sound hs h
  | pinReset => exact settled_sound h (hs.partReset .pin)
  | powerOnReset => exact execPowerOnReset_sound hs h
  | resetRelease => exact execResetRelease_sound hs h
  | portAccess => exact execPortAccess_sound hs h
  | arbiterGrant => exact execArbiterGrant_sound hs h
  | lockedSequenceAccess => exact execLockedSequenceAccess_sound hs h
  | lockRelease => exact execLockRelease_sound hs h
  | tapTick rq => exact onEngine_sound (s := { s with rq := rq }) hs h
  | drainComplete | frzAssert | frzDeassert | intakePass | dispatch | conditionalDispatch | contextClaimReport
  | parkShadowReport | parkContextReport | resumeShadowReport | handoff | lineEvent | deadlineExpiry | stopRequest
  | yieldRequest | yieldWithdrawal | dropRequest | closingBegin => exact onEngine_sound hs h
  | postWordRead | slotRead | clearingPair | reportWrite | takenWrite | resultWrite | contextRelease
  | releaseMarkWrite | contextLostRewrite | doneWrite | chainPosting =>
    unfold exec at h
    exact completeEngine_sound hs h
  | runningWrite | descriptorReading | serviceRecordReading | contextClaim | claimMarkWrite | parameterCopy | usedMark
  | burstRead | writtenMark | burstWrite | saveAreaWrite | saveAreaRead | contextDescriptorRead =>
    unfold exec at h
    exact completeChannel_sound hs h

end Commands

/-- Settles O4: a step is its front command, and the queue is no part of the law. -/
theorem stepKeepsMemoryAndMaps : Obligations.StepKeepsMemoryAndMaps := by
  intro s t hs h
  unfold step at h
  split at h
  · obtain rfl := Host.Outcome.next.inj h
    exact hs
  · rename_i rest _
    exact exec_sound (s := { s with pending := rest }) hs h

end Sys2Proof.Machine
end

section
/-! SUPPORT. Engine Control's part in every command (R144, R153 to R163), and that every step keeps START in flight
exactly while the engine is STARTING. -/

namespace Sys2Proof.Machine

/-! ### The law under the operations of Engine Control -/

namespace Control.FlightLaw

variable {c k : Control}

/-- The law turns on the engine state and the command in flight alone. -/
theorem of_eq (h : c.FlightLaw) (hstate : k.state = c.state) (hflight : k.flight = c.flight) : k.FlightLaw := by
  unfold Control.FlightLaw
  rw [hstate, hflight]
  exact h

theorem of_ctl (h : c.FlightLaw) (hk : k = c) : k.FlightLaw := hk ▸ h

/-- Out of STARTING the law asks that the command in flight, where there is one, is not START. -/
theorem of_not_starting (hstate : c.state ≠ .starting)
    (hflight : ∀ anchor block, c.flight ≠ some ⟨.start, anchor, block⟩) : c.FlightLaw :=
  ⟨fun h => absurd h hstate, fun ⟨anchor, block, h⟩ => absurd h (hflight anchor block)⟩

theorem of_idle (hstate : c.state ≠ .starting) (hflight : c.flight = none) : c.FlightLaw :=
  of_not_starting hstate (by simp [hflight])

theorem of_start {anchor : Nat} {block : List Word} (hstate : c.state = .starting)
    (hflight : c.flight = some ⟨.start, anchor, block⟩) : c.FlightLaw :=
  ⟨fun _ => ⟨anchor, block, hflight⟩, fun _ => hstate⟩

/-- While anything but START is in flight the engine is out of STARTING. -/
theorem not_starting (h : c.FlightLaw) (hflight : ∀ anchor block, c.flight ≠ some ⟨.start, anchor, block⟩) :
    c.state ≠ .starting := fun hstate =>
  have ⟨anchor, block, hstart⟩ := h.mp hstate
  hflight anchor block hstart

theorem refuse (h : c.FlightLaw) (code : BitVec 3) : (c.refuse code).FlightLaw := by
  unfold Control.refuse
  split
  · exact h
  · exact h.of_eq rfl rfl

/-- A START that fails takes the engine to FAILED, and a MAP_RELOAD was never made in STARTING (R151, R157). -/
theorem fail (h : c.FlightLaw) (f : Failure) : (c.fail f).FlightLaw := by
  refine of_idle ?_ rfl
  by_cases hstart : ∃ anchor block, c.flight = some ⟨.start, anchor, block⟩
  · obtain ⟨anchor, block, hflight⟩ := hstart
    rw [Control.fail_start hflight]
    exact nofun
  · have hother (anchor : Nat) (block : List Word) : c.flight ≠ some ⟨.start, anchor, block⟩ := fun hflight =>
      hstart ⟨anchor, block, hflight⟩
    rw [Control.fail_state hother]
    exact h.not_starting hother

end Control.FlightLaw

namespace Engine

variable {e : Engine}

theorem beginReading_flightLaw (h : e.ctl.FlightLaw) (t : EngineStep) : (e.beginReading t).ctl.FlightLaw := by
  unfold Engine.beginReading
  split
  · exact h.of_ctl (e.askAnchor_ctl t)
  · exact h.fail _

/-- START is taken out of STOPPED and FAILED into STARTING, with START in flight. -/
theorem commandStart_flightLaw (h : e.ctl.FlightLaw) : e.commandStart.ctl.FlightLaw := by
  unfold Engine.commandStart
  split
  · exact beginReading_flightLaw (.of_start rfl rfl) _
  · exact h.refuse 1

/-- STOP is taken with no command in flight. -/
theorem commandStop_flightLaw (h : e.ctl.FlightLaw) : e.commandStop.ctl.FlightLaw := by
  unfold Engine.commandStop
  split
  · rename_i haccepted
    obtain ⟨hflight, _⟩ := Bool.and_eq_true_iff.mp haccepted
    rw [Engine.drain_ctl]
    exact .of_idle nofun (Option.isNone_iff_eq_none.mp hflight)
  · exact h.refuse 2

/-- MAP_RELOAD is taken out of STARTING alone. -/
theorem commandMapReload_flightLaw (h : e.ctl.FlightLaw) : e.commandMapReload.ctl.FlightLaw := by
  unfold Engine.commandMapReload
  split
  · rename_i haccepted
    obtain ⟨_, hstate⟩ := Bool.and_eq_true_iff.mp haccepted
    have hlaw : (e.ctl.accept 3 (.mapReload e.working)).FlightLaw :=
      .of_not_starting (bne_iff_ne.mp hstate) (by simp [Control.accept])
    exact beginReading_flightLaw hlaw _
  · exact h.refuse 3

/-- The drain ends in DRAINING, where START is not in flight. -/
theorem enterStopped_flightLaw (h : e.ctl.FlightLaw) (hdrained : e.drained = true) : e.enterStopped.ctl.FlightLaw := by
  have hdraining : e.ctl.state = .draining := by
    rw [Engine.drained, Bool.and_eq_true, Bool.and_eq_true] at hdrained
    obtain ⟨⟨hstate, _⟩, _⟩ := hdrained
    exact e.isDraining_iff.mp hstate
  refine .of_not_starting nofun fun anchor block hstart => ?_
  have hstarting := h.mpr ⟨anchor, block, hstart⟩
  rw [hdraining] at hstarting
  exact absurd hstarting nofun

end Engine

/-! ### The law under the accesses of the ports and the readings of the anchor block -/

namespace State

/-- What a served access can do to Engine Control (R142, R145): nothing, or an ANCHOR write, or a command. -/
theorem serveAccess_ctl (s : State) (p : Port) (a : PortAccess) :
    (s.serveAccess p a).eng.ctl = s.eng.ctl ∨
    (∃ v, (s.serveAccess p a).eng.ctl = { s.eng.ctl with anchor := v }) ∨
    ∃ code, (s.serveAccess p a).eng.ctl = (s.takeCommand code).eng.ctl := by
  change (s.decideAccess p a).eng.ctl = _ ∨ (∃ v, (s.decideAccess p a).eng.ctl = { s.eng.ctl with anchor := v }) ∨
    ∃ code, (s.decideAccess p a).eng.ctl = (s.takeCommand code).eng.ctl
  unfold State.decideAccess
  split
  · refine .inl ?_
    split
    · unfold State.sramServed
      split
      · exact s.eng.watch_ctl _ _
      · rfl
    · rw [refuseAccess_eng]
  · rename_i r _
    unfold State.registerAccess State.registerWrite
    split
    · split
      · cases r with
        | control => exact .inr (.inr ⟨_, rfl⟩)
        | anchor => exact .inr (.inl ⟨_, rfl⟩)
        | note | status | violation => exact .inl rfl
      · exact .inl rfl
    · exact .inl rfl
  · exact .inl (by rw [refuseAccess_eng])

variable {s : State} (h : s.eng.ctl.FlightLaw)
include h

theorem clearViolation_flightLaw : s.clearViolation.eng.ctl.FlightLaw := by
  obtain ⟨c, heng, hidle, hbusy⟩ := s.clearViolation_eng
  have hctl : s.clearViolation.eng.ctl = c := congrArg Engine.ctl heng
  by_cases hflight : s.eng.ctl.flight = none
  · exact h.of_eq (by rw [hctl, hidle hflight]) (by rw [hctl, hidle hflight])
  · exact h.of_ctl (hctl.trans (hbusy hflight))

theorem takeCommand_flightLaw (code : BitVec 3) : (s.takeCommand code).eng.ctl.FlightLaw := by
  unfold State.takeCommand
  split
  · exact Engine.commandStart_flightLaw h
  · split
    · exact Engine.commandStop_flightLaw h
    · split
      · exact Engine.commandMapReload_flightLaw h
      · split
        · exact .of_idle nofun rfl
        · split
          · exact clearViolation_flightLaw h
          · exact h.refuse code

theorem serveAccess_flightLaw (p : Port) (a : PortAccess) : (s.serveAccess p a).eng.ctl.FlightLaw := by
  obtain hsame | ⟨v, hanchor⟩ | ⟨code, hcommand⟩ := s.serveAccess_ctl p a
  · exact h.of_ctl hsame
  · exact h.of_eq (by rw [hanchor]) (by rw [hanchor])
  · exact (takeCommand_flightLaw h code).of_ctl hcommand

theorem grant_flightLaw (r : Requester) : (s.grant r).eng.ctl.FlightLaw := by
  unfold State.grant
  split
  · exact h
  · split
    · exact h
    · exact serveAccess_flightLaw (by exact h) _ _

theorem serveNow_flightLaw (p : Port) (a : PortAccess) : (s.serveNow p a).eng.ctl.FlightLaw := by
  unfold State.serveNow
  split
  · exact serveAccess_flightLaw (by exact h) _ _
  · split
    · exact grant_flightLaw h _
    · exact h

/-- The block is judged: START is RUNNING or FAILED after it. -/
theorem startJudged_flightLaw (fl : Flight) (b : List Word) : (s.startJudged fl b).eng.ctl.FlightLaw := by
  unfold State.startJudged
  split
  · exact h.fail _
  · exact .of_idle nofun rfl

/-- The maps are swapped, or not, in the engine state in which MAP_RELOAD was made. -/
theorem reloadJudged_flightLaw
    (hother : ∀ anchor block, s.eng.ctl.flight ≠ some ⟨.start, anchor, block⟩) (fromCopies : Bool) (fl : Flight)
    (b : List Word) : (s.reloadJudged fromCopies fl b).eng.ctl.FlightLaw := by
  unfold State.reloadJudged
  split
  · exact h.fail _
  · exact .of_idle (h.not_starting hother) rfl

/-- A burst of the anchor block leaves the command that asked for it in flight, or the block is judged. -/
theorem anchorRead_flightLaw {fl : Flight} (hflight : s.eng.ctl.flight = some fl) (ws : List Word) :
    (s.anchorRead fl ws).eng.ctl.FlightLaw := by
  obtain ⟨kind, anchor, block⟩ := fl
  unfold State.anchorRead
  cases kind with
  | start =>
    dsimp only
    split
    · rw [Engine.askAnchor_ctl]
      exact .of_start (h.mpr ⟨anchor, block, hflight⟩) rfl
    · exact startJudged_flightLaw h _ _
  | mapReload fromCopies =>
    have hother (anchor : Nat) (block : List Word) : s.eng.ctl.flight ≠ some ⟨.start, anchor, block⟩ := by
      simp [hflight]
    dsimp only
    split
    · rw [Engine.askAnchor_ctl]
      exact .of_not_starting (h.not_starting hother) (by simp)
    · exact reloadJudged_flightLaw h hother _ _ _

end State

/-! ### Commands -/

/-- The commands that may reach Engine Control: register writes and served accesses, the readings of the anchor
block, the end of the drain, and the pins RESET and FRZ. -/
def reachesControl : Instr → Bool
  | .start _ | .stop _ | .mapReload _ | .engineReset _ | .clearViolation _ | .unnamedCommandCode _ _ | .anchorWrite _ _
  | .noteWrite _ _ | .registerDenied _ _ _ | .arbiterGrant | .lockedSequenceAccess | .startAnchorRead | .mapReloadRead
  | .drainComplete | .pinReset | .powerOnReset _ | .frzAssert | .frzDeassert => true
  | _ => false

section Commands

variable {s t : State}

/-- Every other command leaves Engine Control as it is. -/
theorem exec_ctl {i : Instr} (hi : reachesControl i = false) (h : exec i s = .next t) : t.eng.ctl = s.eng.ctl := by
  cases i with
  | start | stop | mapReload | engineReset | clearViolation | unnamedCommandCode | anchorWrite | noteWrite
  | registerDenied | arbiterGrant | lockedSequenceAccess | startAnchorRead | mapReloadRead | drainComplete | pinReset
  | powerOnReset | frzAssert | frzDeassert => exact absurd hi nofun
  | resetRelease => exact execResetRelease_ctl h
  | portAccess => exact execPortAccess_ctl h
  | lockRelease => exact execLockRelease_ctl h
  | intakePass => exact execIntakePass_ctl h
  | postWordRead => exact execPostWordRead_ctl h
  | slotRead => exact execSlotRead_ctl h
  | clearingPair => exact execClearingPair_ctl h
  | reportWrite => exact execReportWrite_ctl h
  | takenWrite => exact execTakenWrite_ctl h
  | dispatch => exact execDispatch_ctl h
  | conditionalDispatch => exact execConditionalDispatch_ctl h
  | contextClaimReport => exact execContextClaimReport_ctl h
  | parkShadowReport => exact execParkShadowReport_ctl h
  | parkContextReport => exact execParkContextReport_ctl h
  | resumeShadowReport => exact execResumeShadowReport_ctl h
  | handoff => exact execHandoff_ctl h
  | lineEvent => exact execLineEvent_ctl h
  | tapTick => exact execTapTick_ctl h
  | deadlineExpiry => exact execDeadlineExpiry_ctl h
  | stopRequest => exact execStopRequest_ctl h
  | yieldRequest => exact execYieldRequest_ctl h
  | yieldWithdrawal => exact execYieldWithdrawal_ctl h
  | dropRequest => exact execDropRequest_ctl h
  | runningWrite => exact execRunningWrite_ctl h
  | descriptorReading => exact execDescriptorReading_ctl h
  | serviceRecordReading => exact execServiceRecordReading_ctl h
  | contextClaim => exact execContextClaim_ctl h
  | claimMarkWrite => exact execClaimMarkWrite_ctl h
  | parameterCopy => exact execParameterCopy_ctl h
  | usedMark => exact execUsedMark_ctl h
  | burstRead => exact execBurstRead_ctl h
  | writtenMark => exact execWrittenMark_ctl h
  | burstWrite => exact execBurstWrite_ctl h
  | saveAreaWrite => exact execSaveAreaWrite_ctl h
  | saveAreaRead => exact execSaveAreaRead_ctl h
  | contextDescriptorRead => exact execContextDescriptorRead_ctl h
  | closingBegin => exact execClosingBegin_ctl h
  | resultWrite => exact execResultWrite_ctl h
  | contextRelease => exact execContextRelease_ctl h
  | releaseMarkWrite => exact execReleaseMarkWrite_ctl h
  | contextLostRewrite => exact execContextLostRewrite_ctl h
  | doneWrite => exact execDoneWrite_ctl h
  | chainPosting => exact execChainPosting_ctl h

/-- The end of a step leaves Engine Control as the command left it. -/
theorem settled_flightLaw {f : State → State}
    (h : Host.Outcome.next (s.settled f) = (.next t : Host.Outcome State Fault Refusal))
    (hf : (f s).eng.ctl.FlightLaw) : t.eng.ctl.FlightLaw := by
  obtain rfl := Host.Outcome.next.inj h
  exact hf.of_ctl (Engine.settle_ctl _ _)

theorem onEngine_flightLaw {f : Engine → Engine}
    (h : Host.Outcome.next (s.onEngine f) = (.next t : Host.Outcome State Fault Refusal))
    (hf : (f s.eng).ctl.FlightLaw) : t.eng.ctl.FlightLaw := by
  obtain rfl := Host.Outcome.next.inj h
  exact hf.of_ctl (Engine.settle_ctl _ _)

variable (hlaw : s.eng.ctl.FlightLaw)
include hlaw

theorem registerRow_flightLaw {p : Port} {r : RegName} {en : BitVec 4} {v : Word}
    (h : Host.Outcome.next (s.registerRow p r en v) = (.next t : Host.Outcome State Fault Refusal)) :
    t.eng.ctl.FlightLaw := by
  refine settled_flightLaw h ?_
  split
  · exact hlaw
  · exact State.serveNow_flightLaw (by rwa [State.present_eng]) p _

/-- A row that presents a register write, or with operands that command nothing leaves the state. -/
theorem registerRow_or_flightLaw {b : Bool} {p : Port} {r : RegName} {en : BitVec 4} {v : Word}
    (h : Host.Outcome.next (if b then s.registerRow p r en v else s) =
      (.next t : Host.Outcome State Fault Refusal)) : t.eng.ctl.FlightLaw := by
  split at h
  · exact registerRow_flightLaw hlaw h
  · obtain rfl := Host.Outcome.next.inj h
    exact hlaw

theorem anchorRead_flightLaw {x : EngineStep}
    (h : completeUnit x (fun _ data s =>
      match s.eng.ctl.flight with
      | none => s
      | some fl => s.anchorRead fl (bytesWords data)) s = .next t) : t.eng.ctl.FlightLaw := by
  unfold completeUnit at h
  split at h
  · obtain rfl := Host.Outcome.next.inj h
    exact hlaw
  · rename_i u _
    split at h
    · refine settled_flightLaw h ?_
      dsimp only
      split
      · exact hlaw
      · rename_i hflight
        exact State.anchorRead_flightLaw (s := s.unitDone u) hlaw hflight _
    · simp at h

theorem execDrainComplete_flightLaw (h : execDrainComplete s = .next t) : t.eng.ctl.FlightLaw := by
  refine onEngine_flightLaw h ?_
  split
  · rename_i hdrained
    exact Engine.enterStopped_flightLaw hlaw hdrained
  · exact hlaw

theorem execFrzAssert_flightLaw (h : execFrzAssert s = .next t) : t.eng.ctl.FlightLaw :=
  onEngine_flightLaw h (hlaw.of_eq rfl rfl)

theorem execFrzDeassert_flightLaw (h : execFrzDeassert s = .next t) : t.eng.ctl.FlightLaw := by
  refine onEngine_flightLaw (f := Engine.thawed) h ?_
  rw [Engine.thawed_ctl]
  exact hlaw.of_eq rfl rfl

theorem execArbiterGrant_flightLaw (h : execArbiterGrant s = .next t) : t.eng.ctl.FlightLaw := by
  refine settled_flightLaw h ?_
  split
  · exact hlaw
  · exact State.grant_flightLaw hlaw _

theorem execLockedSequenceAccess_flightLaw (h : execLockedSequenceAccess s = .next t) : t.eng.ctl.FlightLaw := by
  refine settled_flightLaw h ?_
  split
  · exact hlaw
  · exact State.serveAccess_flightLaw (by exact hlaw) _ _

/-- Every command keeps START in flight exactly in STARTING. -/
theorem exec_flightLaw {i : Instr} (h : exec i s = .next t) : t.eng.ctl.FlightLaw := by
  cases i with
  | start | stop | mapReload | engineReset | clearViolation | anchorWrite | noteWrite =>
    exact registerRow_flightLaw hlaw h
  | unnamedCommandCode | registerDenied => exact registerRow_or_flightLaw hlaw h
  | startAnchorRead | mapReloadRead => exact anchorRead_flightLaw hlaw h
  | drainComplete => exact execDrainComplete_flightLaw hlaw h
  | pinReset | powerOnReset => exact settled_flightLaw h (.of_idle nofun rfl)
  | frzAssert => exact execFrzAssert_flightLaw hlaw h
  | frzDeassert => exact execFrzDeassert_flightLaw hlaw h
  | arbiterGrant => exact execArbiterGrant_flightLaw hlaw h
  | lockedSequenceAccess => exact execLockedSequenceAccess_flightLaw hlaw h
  | _ => exact hlaw.of_ctl (exec_ctl rfl h)

end Commands

/-- Settles O7: a step is its front command, and the queue is no part of the law. -/
theorem stepKeepsFlightLaw : Obligations.StepKeepsFlightLaw := by
  intro s t hlaw h
  unfold step at h
  split at h
  · obtain rfl := Host.Outcome.next.inj h
    exact hlaw
  · rename_i rest _
    exact exec_flightLaw (s := { s with pending := rest }) hlaw h

end Sys2Proof.Machine
end

section
/-! SUPPORT. START where it is accepted, and the commands that Engine Control refuses (R153, R155, R156), with the
statements about them. -/

namespace Sys2Proof.Machine

/-- A CONTROL write spells its command in its low three bits (12.8). -/
theorem bits_command (code : BitVec 3) : bits (code.setWidth 32) 0 3 = code := by
  revert code
  decide

/-- A command's row that is served at once, with the engine as the command leaves it. -/
theorem exec_commandRow_engine {s : State} {p : Port} (h : s.ServesRow p) (hlevel : s.ports.level[p] = 0)
    {code : BitVec 3} {e : Engine} (hcommand : s.takeCommand code = { s with eng := e }) :
    exec (commandRow p code) s = .next { s with arb := s.arb.AfterRow p, eng := s.eng.settle e } := by
  have hwrite := State.registerWrite_command hlevel (code.setWidth 32)
  rw [bits_command, hcommand] at hwrite
  rw [exec_commandRow, State.registerRow_engine h hwrite]

/-! ### START (R153, R155, R156) -/

/-- The engine while a START is accepted: STARTING, with START in flight. -/
def Engine.starting (e : Engine) : Engine := e.setCtl { e.ctl.accept 1 .start with state := .starting }

theorem Engine.commandStart_accepted {e : Engine} (hflight : e.ctl.flight = none) (hrest : e.atRest = true) :
    e.commandStart = e.starting.beginReading .startAnchorRead :=
  if_pos (by simp [hflight, hrest])

/-- Settles O12: the row's service is the command, which tests ANCHOR and asks for the first burst. -/
theorem startAccepted : Obligations.StartAccepted := by
  intro s p h hlevel hflight hstate
  have hexec : exec (.start p) s =
      .next { s with arb := s.arb.AfterRow p, eng := s.eng.settle s.eng.commandStart } :=
    exec_commandRow_engine h hlevel (code := 1) rfl
  rw [Engine.commandStart_accepted hflight (s.eng.atRest_iff.mpr hstate)] at hexec
  have hframe (c : Control) (x : EngineInterface) : s.SameBut [.control, .arb]
      { s with arb := s.arb.AfterRow p, eng := s.eng.settle { s.eng with ctl := c, ei := x } } :=
    State.sameBut_arb_eng (by simp) fun q hq => s.eng.same_of_ctl_ei c x fun hc => hq (by simp [hc])
  rw [← anchorAligned_iff]
  refine ⟨fun haligned => ?aligned, fun hunaligned => ?unaligned⟩
  case aligned =>
    rw [Engine.beginReading_aligned (e := s.eng.starting) rfl haligned] at hexec
    exact ⟨_, hexec, Engine.settle_ctl _ _, Engine.settle_presents _ _ _ _ _ (Engine.ask_presents _ _ _ _), rfl,
      hframe _ _⟩
  case unaligned =>
    rw [Engine.beginReading_unaligned (e := s.eng.starting) hunaligned] at hexec
    have hfail := Control.fail_start (c := s.eng.starting.ctl) rfl ⟨.anchorAlign, 0⟩
    exact ⟨_, hexec, (Engine.settle_ctl _ _).trans hfail, rfl, hframe _ _⟩

/-! ### Refused commands (R155) -/

/-- Engine Control refuses START while a command is in flight or the engine is not at rest, STOP while one is in flight
or it is not RUNNING, MAP_RELOAD while one is in flight or it is STARTING, and always a code that names no command. -/
inductive Engine.Refuses (e : Engine) : BitVec 3 → Prop where
  | start (h : e.ctl.flight ≠ none ∨ e.atRest = false) : e.Refuses 1
  | stop (h : e.ctl.flight ≠ none ∨ e.isRunning = false) : e.Refuses 2
  | mapReload (h : e.ctl.flight ≠ none ∨ (e.ctl.state != .starting) = false) : e.Refuses 3
  | unnamed {code : BitVec 3} (h : unnamedCode code = true) : e.Refuses code

/-- A command that is refused as it is taken. -/
theorem State.takeCommand_refused {s : State} {code : BitVec 3} (h : s.eng.Refuses code) :
    s.takeCommand code = { s with eng := s.eng.setCtl (s.eng.ctl.refuse code) } := by
  have hnot {b : Bool} (hb : s.eng.ctl.flight ≠ none ∨ b = false) : ¬ (s.eng.ctl.flight.isNone && b) = true := by
    simpa [or_iff_not_imp_left] using hb
  cases h with
  | start h | stop h | mapReload h => exact congrArg (fun e => { s with eng := e }) (if_neg (hnot h))
  | unnamed h =>
    have hcode : code = 0 ∨ code = 6 ∨ code = 7 := by simpa [unnamedCode, or_assoc] using h
    rcases hcode with rfl | rfl | rfl <;> rfl

theorem exec_refused {s : State} {p : Port} (h : s.ServesRow p) (hlevel : s.ports.level[p] = 0) {code : BitVec 3}
    (hrefused : s.eng.Refuses code) :
    exec (commandRow p code) s = .next { s with
      arb := s.arb.AfterRow p, eng := s.eng.settle (s.eng.setCtl (s.eng.ctl.refuse code)) } :=
  exec_commandRow_engine h hlevel (State.takeCommand_refused hrefused)

theorem Control.refuse_idle {c : Control} (h : c.flight = none) (code : BitVec 3) :
    c.refuse code = { c with command := code, result := .refused } :=
  if_neg (by simp [h])

theorem Control.refuse_busy {c : Control} (h : c.flight ≠ none) (code : BitVec 3) : c.refuse code = c :=
  if_pos (Option.isSome_iff_ne_none.mpr h)

/-- Settles O17: each row is a command that Engine Control refuses, out of its states or while one is in flight. -/
theorem commandsRefused : Obligations.CommandsRefused := by
  refine fun s p h hlevel => ⟨fun hflight x hx => ?idle, fun hflight i hi => ?busy⟩
  case idle =>
    obtain ⟨code, rfl, hrefused⟩ : ∃ code, x = (commandRow p code, code) ∧ s.eng.Refuses code := by
      simp only [List.mem_append] at hx
      rcases hx with ((hstart | hstop) | hreload) | hunnamed
      · split at hstart
        · simp at hstart
        · rename_i hstate
          have hrest : s.eng.atRest = false := by rwa [← s.eng.atRest_iff, Bool.not_eq_true] at hstate
          exact ⟨1, List.mem_singleton.mp hstart, .start (.inr hrest)⟩
      · split at hstop
        · simp at hstop
        · rename_i hstate
          exact ⟨2, List.mem_singleton.mp hstop, .stop (.inr (beq_false_of_ne hstate))⟩
      · split at hreload
        · rename_i hstate
          exact ⟨3, List.mem_singleton.mp hreload, .mapReload (.inr (bne_eq_false_iff_eq.mpr hstate))⟩
        · simp at hreload
      · obtain ⟨code, hcode, rfl⟩ := List.mem_map.mp
          (show x ∈ [0, 6, 7].map (fun code => (commandRow p code, code)) from hunnamed)
        have hcodes : ∀ code ∈ [0, 6, 7], unnamedCode code = true := by decide
        exact ⟨code, rfl, .unnamed (hcodes code hcode)⟩
    refine ⟨_, exec_refused h hlevel hrefused, ?_, rfl, State.sameBut_arb_eng (by simp) fun q hq =>
      s.eng.setCtl_same _ fun hc => hq (by simp [hc])⟩
    rw [Engine.settle_ctl, Engine.setCtl_ctl, Control.refuse_idle hflight]
  case busy =>
    obtain ⟨code, hcode, rfl⟩ := List.mem_map.mp (show i ∈ [1, 2, 3, 0, 6, 7].map (commandRow p) from hi)
    have hcodes : ∀ code ∈ [1, 2, 3, 0, 6, 7], s.eng.Refuses code := by
      simp only [List.forall_mem_cons]
      exact ⟨.start (.inl hflight), .stop (.inl hflight), .mapReload (.inl hflight), .unnamed rfl, .unnamed rfl,
        .unnamed rfl, nofun⟩
    have hexec := exec_refused h hlevel (hcodes code hcode)
    rw [Control.refuse_busy hflight] at hexec
    exact ⟨_, hexec, rfl, State.sameBut_arb_eng (by simp) fun q _ => Engine.same_refl _ q⟩

end Sys2Proof.Machine
end

section
/-! SUPPORT. The queue of commands (log 2): no block reads or writes it, so every command leaves it as it was, and a step
takes the command at its front. -/

namespace Sys2Proof.Machine

/-! ### The queue under the shared operations -/

namespace State

variable (s : State)

@[simp] theorem finishGranted_pending : s.finishGranted.pending = s.pending := by
  have hrest := congrArg State.pending s.finishGranted_rest
  exact hrest

@[simp] theorem partReset_pending (cause : ResetCause) : (s.partReset cause).pending = s.pending := by
  obtain ⟨_, _, hpending, _⟩ := s.unitFinished_rest
  exact hpending

/-! ### The anchor block (R150, R151, R156, R157) -/

@[simp] theorem startJudged_pending (fl : Flight) (b : List Word) : (s.startJudged fl b).pending = s.pending := by
  unfold State.startJudged
  split <;> rfl

@[simp] theorem reloadJudged_pending (fromCopies : Bool) (fl : Flight) (b : List Word) :
    (s.reloadJudged fromCopies fl b).pending = s.pending := by
  unfold State.reloadJudged
  split <;> rfl

@[simp] theorem anchorRead_pending (fl : Flight) (ws : List Word) : (s.anchorRead fl ws).pending = s.pending := by
  unfold State.anchorRead
  dsimp only
  split
  · rfl
  · split
    · exact s.startJudged_pending _ _
    · exact s.reloadJudged_pending _ _ _

/-! ### Accesses of the ports (R130, R131, R142, R145, R146) -/

/-- Of the commands of CONTROL, ENGINE_RESET alone completes a unit (log 9), and that leaves the queue. -/
@[simp] theorem takeCommand_pending (code : BitVec 3) : (s.takeCommand code).pending = s.pending := by
  have hreset : s.engineReset.pending = s.pending := s.finishGranted_pending
  have hclear : s.clearViolation.pending = s.pending := rfl
  unfold State.takeCommand
  simp only [apply_ite State.pending, hreset, hclear, ite_self]

@[simp] theorem registerWrite_pending (p : Port) (r : RegName) (en : BitVec 4) (v : Word) :
    (s.registerWrite p r en v).pending = s.pending := by
  unfold State.registerWrite
  split
  · cases r with
    | control => exact s.takeCommand_pending _
    | note | anchor | status | violation => rfl
  · rfl

@[simp] theorem refuseAccess_pending (p : Port) (k : ViolationKind) (a : PortAccess) :
    (s.refuseAccess p k a).pending = s.pending :=
  (s.refuseAccess_served p k a).pending

@[simp] theorem sramServed_pending (p : Port) (a : PortAccess) : (s.sramServed p a).pending = s.pending := by
  unfold State.sramServed
  split <;> rfl

@[simp] theorem registerAccess_pending (p : Port) (r : RegName) (a : PortAccess) :
    (s.registerAccess p r a).pending = s.pending := by
  unfold State.registerAccess
  split
  · exact s.registerWrite_pending _ _ _ _
  · rfl

@[simp] theorem serveAccess_pending (p : Port) (a : PortAccess) : (s.serveAccess p a).pending = s.pending := by
  change (s.decideAccess p a).pending = s.pending
  unfold State.decideAccess
  split
  · split
    · exact s.sramServed_pending p a
    · exact s.refuseAccess_pending _ _ _
  · exact s.registerAccess_pending _ _ _
  · exact s.refuseAccess_pending _ _ _

@[simp] theorem present_pending (p : Port) (a : PortAccess) : (s.present p a).pending = s.pending := by
  obtain ⟨_, _, hpresent, _⟩ := s.present_eq p a
  rw [hpresent]

@[simp] theorem grant_pending (r : Requester) : (s.grant r).pending = s.pending := by
  unfold State.grant
  split
  · rfl
  · split
    · rfl
    · exact State.serveAccess_pending _ _ _

@[simp] theorem serveNow_pending (p : Port) (a : PortAccess) : (s.serveNow p a).pending = s.pending := by
  unfold State.serveNow
  split
  · exact State.serveAccess_pending _ _ _
  · split
    · exact s.grant_pending _
    · rfl

@[simp] theorem registerRow_pending (p : Port) (r : RegName) (en : BitVec 4) (v : Word) :
    (s.registerRow p r en v).pending = s.pending := by
  change State.pending (if s.ports.access[p].isSome then s else _) = s.pending
  split
  · rfl
  · exact (State.serveNow_pending _ p _).trans (s.present_pending p _)

end State

/-! ### Every command -/

section Commands

variable {s t : State}

/-- A command keeps the queue when what it does before its end keeps it. -/
theorem settled_pending_eq {f : State → State}
    (h : Host.Outcome.next (s.settled f) = (.next t : Host.Outcome State Fault Refusal))
    (hf : (f s).pending = s.pending) : t.pending = s.pending := by
  obtain rfl := Host.Outcome.next.inj h
  exact hf

/-- A command whose effect lies in the engine alone. -/
theorem onEngine_pending_eq {f : Engine → Engine}
    (h : Host.Outcome.next (s.onEngine f) = (.next t : Host.Outcome State Fault Refusal)) : t.pending = s.pending := by
  obtain rfl := Host.Outcome.next.inj h
  exact s.onEngine_pending f

/-- The completion of an engine unit keeps the queue when its owner's work does. -/
theorem completeUnit_pending_eq {x : EngineStep} {k : Owner → List Byte → State → State}
    (h : completeUnit x k s = .next t) (hk : ∀ o data (s : State), (k o data s).pending = s.pending) :
    t.pending = s.pending := by
  unfold completeUnit at h
  split at h
  · obtain rfl := Host.Outcome.next.inj h
    rfl
  · split at h
    · exact settled_pending_eq h ((hk _ _ _).trans (s.unitDone_pending _))
    · simp at h

theorem completeEngine_pending_eq {x : EngineStep} {k : Owner → List Byte → Engine → Engine}
    (h : completeEngine x k s = .next t) : t.pending = s.pending :=
  completeUnit_pending_eq h fun _ _ _ => rfl

theorem completeChannel_pending_eq {x : EngineStep} {k : ChannelId → List Byte → Engine → Engine}
    (h : completeChannel x k s = .next t) : t.pending = s.pending :=
  completeEngine_pending_eq h

theorem anchorRead_pending_eq {x : EngineStep}
    (h : completeUnit x (fun _ data s =>
      match s.eng.ctl.flight with
      | none => s
      | some fl => s.anchorRead fl (bytesWords data)) s = .next t) : t.pending = s.pending := by
  refine completeUnit_pending_eq h fun _ data s => ?_
  split
  · rfl
  · exact s.anchorRead_pending _ _

theorem registerRow_pending_eq {p : Port} {r : RegName} {en : BitVec 4} {v : Word}
    (h : Host.Outcome.next (s.registerRow p r en v) = (.next t : Host.Outcome State Fault Refusal)) :
    t.pending = s.pending := by
  obtain rfl := Host.Outcome.next.inj h
  exact s.registerRow_pending p r en v

/-- A row that presents a register write, or with operands that command nothing leaves the state. -/
theorem registerRow_or_pending_eq {b : Bool} {p : Port} {r : RegName} {en : BitVec 4} {v : Word}
    (h : Host.Outcome.next (if b then s.registerRow p r en v else s) =
      (.next t : Host.Outcome State Fault Refusal)) : t.pending = s.pending := by
  split at h
  · exact registerRow_pending_eq h
  · obtain rfl := Host.Outcome.next.inj h
    rfl

theorem execPortAccess_pending {p : Port} {a : PortAccess} (h : execPortAccess p a s = .next t) :
    t.pending = s.pending := by
  refine settled_pending_eq h ?_
  split
  · rfl
  · exact s.present_pending p a

theorem execArbiterGrant_pending (h : execArbiterGrant s = .next t) : t.pending = s.pending := by
  refine settled_pending_eq h ?_
  split
  · rfl
  · exact s.grant_pending _

theorem execLockedSequenceAccess_pending (h : execLockedSequenceAccess s = .next t) : t.pending = s.pending := by
  refine settled_pending_eq h ?_
  split
  · rfl
  · exact State.serveAccess_pending _ _ _

theorem execLockRelease_pending {p : Port} (h : execLockRelease p s = .next t) : t.pending = s.pending := by
  refine settled_pending_eq h ?_
  split <;> rfl

theorem execResetRelease_pending {l0 l1 l2 l3 : Level} (h : execResetRelease l0 l1 l2 l3 s = .next t) :
    t.pending = s.pending := by
  refine settled_pending_eq h ?_
  split <;> rfl

theorem exec_pending {i : Instr} (h : exec i s = .next t) : t.pending = s.pending := by
  cases i with
  | start | stop | mapReload | engineReset | clearViolation | anchorWrite | noteWrite => exact registerRow_pending_eq h
  | unnamedCommandCode | registerDenied => exact registerRow_or_pending_eq h
  | startAnchorRead | mapReloadRead => exact anchorRead_pending_eq h
  | pinReset => exact settled_pending_eq h (s.partReset_pending .pin)
  | powerOnReset => exact settled_pending_eq h (s.partReset_pending .powerOn)
  | resetRelease => exact execResetRelease_pending h
  | portAccess => exact execPortAccess_pending h
  | arbiterGrant => exact execArbiterGrant_pending h
  | lockedSequenceAccess => exact execLockedSequenceAccess_pending h
  | lockRelease => exact execLockRelease_pending h
  | tapTick rq => exact onEngine_pending_eq (s := { s with rq := rq }) h
  | drainComplete | frzAssert | frzDeassert | intakePass | dispatch | conditionalDispatch | contextClaimReport
  | parkShadowReport | parkContextReport | resumeShadowReport | handoff | lineEvent | deadlineExpiry | stopRequest
  | yieldRequest | yieldWithdrawal | dropRequest | closingBegin => exact onEngine_pending_eq h
  | postWordRead | slotRead | clearingPair | reportWrite | takenWrite | resultWrite | contextRelease
  | releaseMarkWrite | contextLostRewrite | doneWrite | chainPosting =>
    unfold exec at h
    exact completeEngine_pending_eq h
  | runningWrite | descriptorReading | serviceRecordReading | contextClaim | claimMarkWrite | parameterCopy | usedMark
  | burstRead | writtenMark | burstWrite | saveAreaWrite | saveAreaRead | contextDescriptorRead =>
    unfold exec at h
    exact completeChannel_pending_eq h

end Commands

/-- Settles O9: every command is made of shared operations that keep the queue. -/
theorem execKeepsQueue : Obligations.ExecKeepsQueue := fun _ _ _ h => exec_pending h

/-! ### A step (log 2) -/

theorem step_front (c : Instr) (rest : List Instr) (s : State) :
    step { s with pending := c :: rest } = exec c { s with pending := rest } := rfl

theorem step_idle {s : State} (h : s.pending = []) : step s = .next s := by
  unfold step
  rw [h]

/-- Settles O1: the two cases of the queue at a step. -/
theorem stepTakesFrontCommand : Obligations.StepTakesFrontCommand := ⟨step_front, fun _ => step_idle⟩

end Sys2Proof.Machine
end
